-- ==== Sys2Proof/Word.lean ====
section
/-!
DEFINITION. The words of the part: bytes, 16-, 32- and 64-bit words of the byte layouts of section 10.5.
-/
namespace Sys2Proof

/-- One byte of host memory or of a frame. -/
abbrev Byte := BitVec 8

/-- A 32-bit register (Table 10-2). -/
abbrev Word32 := BitVec 32

/-- A word of the exchange area with one bit per order slot or event source (Table 10-3). -/
abbrev Word64 := BitVec 64

end Sys2Proof
end

