-- ==== Sys2Proof/Machine/Tables.lean ====
section
/-!
DEFINITION. Tables of a fixed number of records, saturating counters and the byte coding of section 10.5.
-/
namespace Sys2Proof.Machine

/-- Record `i` of a table; outside the table a default that no rule reaches. -/
def tget {α : Type} {n : Nat} [Inhabited α] (v : Vector α n) (i : Nat) : α :=
  if h : i < n then v[i] else default

/-- The table with record `i` written; outside the table nothing is written. -/
def tset {α : Type} {n : Nat} (v : Vector α n) (i : Nat) (x : α) : Vector α n :=
  if h : i < n then v.set i x else v

/-- The table whose record `i` is `f i`. -/
def build {α : Type} (n : Nat) (f : Nat → α) : Vector α n :=
  ⟨⟨(List.range n).map f⟩, by simp⟩

/-- A counter that stays at `top` once there. -/
def satAdd (top a b : Nat) : Nat := if a + b ≤ top then a + b else top

/-- Largest value of a 16-bit counter. -/
def max16 : Nat := 65535
/-- Largest value of a 32-bit counter. -/
def max32 : Nat := 4294967295

/-- `n` little-endian bytes of a number (section 10.5: the least significant byte at the lowest address). -/
def leBytes : Nat → Nat → List Byte
  | 0, _ => []
  | k + 1, x => BitVec.ofNat 8 x :: leBytes k (x / 256)

/-- The number that bytes hold, least significant first. -/
def leNat : List Byte → Nat
  | [] => 0
  | b :: bs => b.toNat + 256 * leNat bs

/-- A one-byte field. -/
def u8 (x : Nat) : List Byte := leBytes 1 x
/-- A two-byte field. -/
def u16 (x : Nat) : List Byte := leBytes 2 x
/-- A four-byte field. -/
def u32 (x : Nat) : List Byte := leBytes 4 x
/-- An eight-byte field. -/
def u64 (x : Nat) : List Byte := leBytes 8 x

/-- A flag: 1 when set, 0 when clear. -/
def uFlag (b : Bool) : List Byte := u8 (if b then 1 else 0)

/-- A field of `k` bytes that may be absent: absent has every bit set. -/
def uOpt (k : Nat) : Option Nat → List Byte
  | none => List.replicate k 255
  | some x => leBytes k x

/-- Has this timer run out at time `now`? A stopped timer has no expiry. -/
def due (timer : Option Nat) (now : Nat) : Bool :=
  match timer with
  | none => false
  | some t => t ≤ now

/-- Bit `i` of a word. -/
def bit {w : Nat} (x : BitVec w) (i : Nat) : Bool := x.getLsbD i

/-- The word with bit `i` written. -/
def setBit {w : Nat} (x : BitVec w) (i : Nat) (b : Bool) : BitVec w :=
  if b then x ||| (1#w <<< i) else x &&& ~~~(1#w <<< i)

/-- Insert `x` into a list kept in order, behind every leading element `y` with `before y x`. -/
def insertBy {α : Type} (before : α → α → Bool) (x : α) : List α → List α
  | [] => [x]
  | y :: ys => if before y x then y :: insertBy before x ys else x :: y :: ys

end Sys2Proof.Machine
end

