-- ==== Sys2Proof/Config.lean ====
section
/-!
DEFINITION. What the spec leaves open and the machine goes on with: free values, constants without a body.
-/
namespace Sys2Proof

/-- The codecs of a field link (section 6.1), in the order in which the manual lists them. -/
inductive Codec where
  | linear24 | linear16 | compactLD
  deriving DecidableEq, Repr, Inhabited

/-- Supervision modes (R188). -/
inductive SuperMode where
  | off | attended | strict
  deriving DecidableEq, Repr, Inhabited

/-- What became of the fallback recall while the part was Autonomous (Table 11-3). -/
inductive FallbackOutcome where
  | noneStored | ended | inProgress
  deriving DecidableEq, Repr, Inhabited

/-- A gain in half decibels, or Off (Table 0-7). -/
abbrev Gain := Option Int

/-- Free value [17]: which way a sample that is no whole number is rounded. The manual gives every gain and no rounding;
`v` is the sample with 40 binary places. -/
opaque Config.roundsUp (v : Int) : Bool

/-- Free value [18]: sample `k` of a field link payload (the layouts of section 6.1 are not given). -/
opaque Config.payloadSample (codec : Codec) (payload : List Byte) (k : Nat) : Int

/-- Free value [18]: the payload that carries these samples in a return Audio message. -/
opaque Config.payloadOf (codec : Codec) (samples : List Int) : List Byte

/-- Free value [12]: how a flag byte that is neither 0 nor 1 is taken (section 10.5 codes 1 set and 0 clear). -/
opaque Config.oddFlag (b : Nat) : Bool

/-- Free value [13]: the supervision mode that mode code 3 of XCTL writes at time `now` (Table 10-2
names three modes). -/
opaque Config.modeThree (now : Nat) : SuperMode

/-- Free value [26]: the fallback outcome of Table 11-3 when the store was not empty and the recall had still
to begin at the Restart at time `now`. -/
opaque Config.fallbackNotBegun (now : Nat) : FallbackOutcome

end Sys2Proof
end

