-- ==== Sys2Proof/Syntax.lean ====
section
/-!
DEFINITION. The commands: one constructor per row of spec/opcode_table.json.

Arguments of orders stand in their coded form (section 10.5), so that a value outside its range can be written
and is checked by the order's rule: a named value is its position, an absent or none value has every bit of its
field set, and an argument with a present flag is an `Option` (`none`: flag clear).
-/
namespace Sys2Proof

/-- The two field link ports. -/
inductive Port where
  | main | alternate
  deriving DecidableEq, Repr, Inhabited

/-- The levels of the part's inputs as a reset ends: control input pins (R89), the link-active input (R189)
and the message-enable input (R186). -/
structure Inputs where
  pins          : BitVec 16
  linkActive    : Bool
  messageEnable : Bool
  deriving DecidableEq, Repr, Inhabited

/-- The registers a REGISTER_WRITE names (Table 10-2); XCTL and ATTN have rows of their own. -/
inductive Reg where
  | xbaseL | xbaseH | pstate | nvstat
  deriving DecidableEq, Repr, Inhabited

/-- What the reads of R176 and R185 return, each `none` where that read of host memory failed. -/
structure AreaRead where
  post : Option Word64
  seen : Option Word64
  map0 : Option Word64
  map1 : Option Word64
  map2 : Option Word64
  map3 : Option Word64
  deriving DecidableEq, Repr, Inhabited

/-- What the host wrote into a stream descriptor, as STREAM.APPEND reads it (Table 10-6). -/
structure DescRead where
  buffer    : Nat
  length    : Nat
  flags     : Byte
  hostState : Nat
  deriving DecidableEq, Repr, Inhabited

/-- How a profile block's length stands to its heading and to the message (R116). -/
inductive Framing where
  | within | shorterThanHeading | pastEnd
  deriving DecidableEq, Repr, Inhabited

/-- The content of a profile block by its kind (Table 6-2); codecs and durations the part does not know are
carried as `none`. -/
inductive BlockBody where
  | formats (codecs : List (Option Codec)) (durations : List Nat)
  | delay (count unit multiplier : Nat)
  | keys (count : Nat)
  | duty (takesRestAndWake : Bool)
  | unknown
  deriving DecidableEq, Repr, Inhabited

/-- A profile block of an Offer (section 6.2). -/
structure ProfileBlock where
  framing : Framing
  version : Nat
  body    : BlockBody
  deriving DecidableEq, Repr, Inhabited

/-- An Offer: unit id, offer number, the header's number of blocks and the blocks the message holds. -/
structure OfferMsg where
  unit      : Word32
  number    : Nat
  nBlocks   : Nat
  blocks    : List ProfileBlock
  deriving DecidableEq, Repr, Inhabited

/-- The envelope of a message of a session, with the port and the source address it came from (R114). -/
structure Envelope where
  port   : Port
  source : Nat
  unit   : Word32
  link   : Nat
  deriving DecidableEq, Repr, Inhabited

/-- The four reporter key states of a unit's message, `true` for Pressed (R115). -/
abbrev KeyStates := Vector Bool 4

/-- The commands of the part. -/
inductive Instr where
  /-- POWER_ON (R174) -/
  | powerOn (inputs : Inputs)
  /-- RESET_PIN (R174) -/
  | resetPin (inputs : Inputs)
  /-- LINK_LOSS (R189) -/
  | linkLoss
  /-- LINK_ACTIVE (R189) -/
  | linkActive
  /-- CONTROL_INPUT_CHANGE (R89): input number and the new level, `true` for high -/
  | controlInputChange (input : Nat) (high : Bool)
  /-- XCTL_NONE (R175): mode and period fields of the write -/
  | xctlNone (mode : BitVec 2) (period : Byte)
  /-- START (R179): mode and period, then what the reads of the post word and the seen word return -/
  | start (mode : BitVec 2) (period : Byte) (post seen : Option Word64)
  /-- STOP (R180): mode and period, then what a read of a descriptor returns, should the order in hand read one -/
  | stop (mode : BitVec 2) (period : Byte) (desc : Option DescRead)
  /-- RESTART (R181): mode and period, the two reads, and a descriptor read as for STOP -/
  | restart (mode : BitVec 2) (period : Byte) (post seen : Option Word64) (desc : Option DescRead)
  /-- ATTN (R175) -/
  | attn
  /-- REGISTER_WRITE (R174) -/
  | registerWrite (reg : Reg) (value : Word32)
  /-- SCAN_EXPIRY (R176) -/
  | scanExpiry
  /-- POST_WORD_READ (R176, R185) -/
  | postWordRead (read : AreaRead)
  /-- ORDER_TAKE (R177): the 64 bytes of the slot, `none` where the read failed -/
  | orderTake (slot : Option (List Byte))
  /-- SUPERVISION_EXPIRY (R188) -/
  | supervisionExpiry
  /-- NOP (R176): the slot's tag -/
  | nop (tag : Nat)
  /-- EXCH_SCAN (R176) -/
  | exchScan (interval : Nat)
  /-- ROUTE_SET (R18) -/
  | routeSet (dest source level : Nat)
  /-- ROUTE_CLEAR (R19) -/
  | routeClear (dest source : Nat)
  /-- ROUTE_CLEARDEST (R20) -/
  | routeClearDest (dest : Nat)
  /-- SOURCE_CONFIG (R3) -/
  | sourceConfig (source : Nat) (trim mute : Option Nat)
  /-- DEST_CONFIG (R8) -/
  | destConfig (dest : Nat) (level limit : Option Nat)
  /-- BUS_SET (R25) -/
  | busSet (bus source level : Nat)
  /-- BUS_CLEAR (R26) -/
  | busClear (bus : Nat) (all : Bool) (source : Nat)
  /-- FOLD_BIND (R31) -/
  | foldBind (record dest : Nat)
  /-- FOLD_UNBIND (R32) -/
  | foldUnbind (record : Nat)
  /-- FOLD_CONFIG (R43) -/
  | foldConfig (record : Nat) (bus level mode depth dim hold : Option Nat)
  /-- FOLD_MINUS_ADD (R34) -/
  | foldMinusAdd (record source : Nat)
  /-- FOLD_MINUS_REMOVE (R36) -/
  | foldMinusRemove (record source : Nat)
  /-- KEY_ASSIGN (R73) -/
  | keyAssign (station key function target mode cls level : Nat)
  /-- KEY_CLEAR (R74) -/
  | keyClear (station key : Nat)
  /-- KEY_PRESS (R76) -/
  | keyPress (key : Nat)
  /-- KEY_RELEASE (R76) -/
  | keyRelease (key : Nat)
  /-- LINE_CONFIG (R71) -/
  | lineConfig (line : Nat) (limit policy turn : Option Nat)
  /-- LINE_MEMBER (R72) -/
  | lineMember (line station rights : Nat)
  /-- DESK_CONFIG (R75): source, 255 for none -/
  | deskConfig (source : Nat)
  /-- SYS_TIMES (R77) -/
  | sysTimes (smart timeout : Option Nat)
  /-- CALL_SEND (R85) -/
  | callSend (target : Nat)
  /-- CALL_CLEAR (R86) -/
  | callClear (station : Nat) (all : Bool) (caller : Nat)
  /-- CADENCE_SET (R88) -/
  | cadenceSet (gen : Nat) (run : Bool) (onTime offTime : Nat)
  /-- CI_BIND (R90) -/
  | ciBind (input function argument sensing active : Nat)
  /-- CO_BIND (R96): output, function kind and argument, drive kind and generator, active level -/
  | coBind (output function argument drive gen active : Nat)
  /-- PANEL_CONFIG (R111): 255 for no microphone source or speaker destination -/
  | panelConfig (loop address mic speaker keyCount : Nat)
  /-- PANEL_CONFIG_CLEAR (R112) -/
  | panelConfigClear (loop address : Nat)
  /-- LOOP_CONFIG (R113): the bit rate in kbit/s -/
  | loopConfig (loop : Nat) (enable : Bool) (rate : Option Nat)
  /-- LINK_CONFIG (R134): an allowed unit of all ones (64 bits) is Any -/
  | linkConfig (link : Nat) (allowed : Option Nat) (codecs : Option (List Nat))
      (minFrame dual loss recovery rejoin linger : Option Nat)
  /-- LINK_DUTY (R133) -/
  | linkDuty (link mode : Nat)
  /-- LINK_CLOSE (R135) -/
  | linkClose (link : Nat)
  /-- LINK_PROFILES (R146) -/
  | linkProfiles (link profile target minimum maximum concealment usable : Nat)
  /-- LINK_RESERVE_CLEAR (R130) -/
  | linkReserveClear (link : Nat)
  /-- STREAM_CONFIG (R159): trigger as kind and argument, cue binding as destination and class (both 255:
  absent), mirror (255: clear) -/
  | streamConfig (channel : Nat) (trigger cue : Option (Nat × Nat)) (mirror : Option Nat)
  /-- STREAM_APPEND (R149): channel and descriptor address, then what the read of the descriptor returns -/
  | streamAppend (channel address : Nat) (read : Option DescRead)
  /-- STREAM_START (R151) -/
  | streamStart (channel : Nat)
  /-- STREAM_STOP (R155) -/
  | streamStop (channel : Nat)
  /-- STREAM_CUT (R154) -/
  | streamCut (channel : Nat)
  /-- SCENE_RECALL (R163) -/
  | sceneRecall (address : Nat)
  /-- SCENE_ABORT (R168) -/
  | sceneAbort
  /-- LOCK_SET (R171) -/
  | lockSet (dest lock : Nat)
  /-- LOCK_CLEAR (R171) -/
  | lockClear (dest : Nat)
  /-- FALLBACK_STORE (R172) -/
  | fallbackStore (address : Nat)
  /-- FALLBACK_CLEAR (R173) -/
  | fallbackClear
  /-- MIX_PERIOD (R21): the 48 samples of each local input, by source number; an input not listed is silent -/
  | mixPeriod (inputs : List (Nat × List Int))
  /-- PLAYBACK_READ_DONE (R152): the 48 sample words read, `none` where the read failed -/
  | playbackReadDone (channel : Nat) (block : Option (List Word32))
  /-- CAPTURE_WRITE_DONE (R152): whether the write succeeded -/
  | captureWriteDone (channel : Nat) (ok : Bool)
  /-- HOLD_TIMER_EXPIRY (R46) -/
  | holdTimerExpiry (record : Nat)
  /-- TURN_TIMER_EXPIRY (R69): line, and the talker's station and key -/
  | turnTimerExpiry (line station key : Nat)
  /-- BUSY_MARK_EXPIRY (R56) -/
  | busyMarkExpiry (station key : Nat)
  /-- REFUSAL_TIMER_EXPIRY (R55) -/
  | refusalTimerExpiry (station key : Nat)
  /-- CALL_EXPIRY (R82): the station whose list holds the entry, and the calling station -/
  | callExpiry (station caller : Nat)
  /-- CADENCE_PHASE_EXPIRY (R87) -/
  | cadencePhaseExpiry (gen : Nat)
  /-- POLL (R100) -/
  | poll (loop : Nat)
  /-- HELLO (R102): from the polled panel -/
  | hello (loop kind keyCount : Nat)
  /-- REPORT (R104): from the polled panel; each change a key index and `true` for Press -/
  | report (loop seq : Nat) (changes : List (Nat × Bool))
  /-- IDLE_REPLY (R103) -/
  | idleReply (loop : Nat)
  /-- BAD_FRAME (R100) -/
  | badFrame (loop : Nat)
  /-- STRAY_REPLY (R100) -/
  | strayReply (loop : Nat)
  /-- POLL_OR_LAMPS_RECEIVED (R100) -/
  | pollOrLampsReceived (loop : Nat)
  /-- REPLY_TIMEOUT (R105) -/
  | replyTimeout (loop : Nat)
  /-- OFFER (R119): port and source address, then the message -/
  | offer (port : Port) (source : Nat) (msg : OfferMsg)
  /-- AUDIO (R114) -/
  | audio (env : Envelope) (seq quality : Nat) (keys : KeyStates) (payload : List Byte)
  /-- KEEPALIVE (R115) -/
  | keepalive (env : Envelope) (keys : KeyStates)
  /-- CLOSEACK (R128) -/
  | closeAck (env : Envelope)
  /-- STRAY_MESSAGE (R114): a message of no other row's kind, with the link number it names -/
  | strayMessage (port : Port) (link : Nat)
  /-- NEGOTIATION_TIMER_EXPIRY (R124) -/
  | negotiationTimerExpiry (link : Nat)
  /-- LINGER_TIMER_EXPIRY (R132) -/
  | lingerTimerExpiry (link : Nat)
  /-- RECOVERY_TIMER_EXPIRY (R125) -/
  | recoveryTimerExpiry (link : Nat)
  /-- WAKE_TIMER_EXPIRY (R127) -/
  | wakeTimerExpiry (link : Nat)
  /-- SILENCE_TIMER_EXPIRY (R126) -/
  | silenceTimerExpiry (link : Nat)
  /-- KEEPALIVE_TIMER_EXPIRY (R126) -/
  | keepaliveTimerExpiry (link : Nat)
  /-- CLOSE_TIMER_EXPIRY (R128) -/
  | closeTimerExpiry (link : Nat)
  /-- RESERVATION_TIMER_EXPIRY (R130) -/
  | reservationTimerExpiry (link : Nat)
  /-- RETURN_AUDIO (R123) -/
  | returnAudio (link : Nat)
  /-- PLAYOUT_INSTANT (R142) -/
  | playoutInstant (link : Nat)
  /-- SCENE_READ_DONE (R163): the bytes read (the 16-byte header, then entries), `none` where the read failed -/
  | sceneReadDone (bytes : Option (List Byte))
  /-- CLEARING_STEP (R164) -/
  | clearingStep
  /-- APPLYING_STEP (R165) -/
  | applyingStep
  deriving DecidableEq, Repr, Inhabited

end Sys2Proof
end

