-- ==== Sys2Proof/Decode.lean ====
section
/-!
DEFINITION. Decoding. No row of the opcode table gives bits, so no word spells a command. The one decoder the spec
gives is that of the order slot (Tables 10-4 and 10-5), with its encoder.
-/
namespace Sys2Proof

open Machine

/-- The command that a word spells by the table's bits: the table gives bits for no row. -/
def decodeTableWord (_nbits _w : Nat) : Option Instr := none

/-- A flag byte: 1 set, 0 clear (section 10.5); any other byte is a free value (log entry 12). -/
def flagOf (n : Nat) : Bool := if n = 0 then false else if n = 1 then true else Config.oddFlag n

/-- The `n`-byte argument at offset `off` of the argument field of a slot (Table 10-4). -/
def slotArg (b : List Byte) (off n : Nat) : Nat := leNat ((b.drop (8 + off)).take n)

/-- A flag argument. -/
def slotFlag (b : List Byte) (off : Nat) : Bool := flagOf (slotArg b off 1)

/-- An argument with a present flag in the byte before it; the value keeps its place when the flag is clear
(log entry 39). -/
def slotOpt (b : List Byte) (off n : Nat) : Option Nat :=
  if slotFlag b off then some (slotArg b (off + 1) n) else none

/-- Two one-byte values after a present flag (a trigger, a cue binding). -/
def slotOpt2 (b : List Byte) (off : Nat) : Option (Nat × Nat) :=
  if slotFlag b off then some (slotArg b (off + 1) 1, slotArg b (off + 2) 1) else none

/-- The codec preference list: three bytes, those not used FFH. That the list ends at the first FFH and a byte after it is
ignored is the model's choice (log entry 14). -/
def slotCodecs (b : List Byte) (off : Nat) : Option (List Nat) :=
  if slotFlag b off then
    some ([slotArg b (off + 1) 1, slotArg b (off + 2) 1, slotArg b (off + 3) 1].takeWhile (· != 255))
  else none

/-- The order a slot holds by its kind (Table 10-5), or none: BadKind (R177). What STREAM.APPEND reads of its
descriptor is not in the slot. -/
def decodeOrder (b : List Byte) : Option Instr :=
  let u (off : Nat) := slotArg b off 1
  let w (off : Nat) := slotArg b off 2
  let q (off : Nat) := slotArg b off 8
  let o (off : Nat) := slotOpt b off 1
  let ow (off : Nat) := slotOpt b off 2
  match leNat (b.take 2) with
  | 0x01 => some (.nop (leNat ((b.drop 4).take 4)))
  | 0x02 => some (.exchScan (u 0))
  | 0x10 => some (.routeSet (u 0) (u 1) (u 2))
  | 0x11 => some (.routeClear (u 0) (u 1))
  | 0x12 => some (.routeClearDest (u 0))
  | 0x13 => some (.sourceConfig (u 0) (o 1) (o 3))
  | 0x14 => some (.destConfig (u 0) (o 1) (o 3))
  | 0x20 => some (.busSet (u 0) (u 1) (u 2))
  | 0x21 => some (.busClear (u 0) (slotFlag b 1) (u 2))
  | 0x22 => some (if slotFlag b 1 then .foldBind (u 0) (u 2) else .foldUnbind (u 0))
  | 0x23 => some (.foldConfig (u 0) (o 1) (o 3) (o 5) (o 7) (o 9) (ow 11))
  | 0x24 => some (if slotFlag b 1 then .foldMinusAdd (u 0) (u 2) else .foldMinusRemove (u 0) (u 2))
  | 0x30 => some (.keyAssign (u 0) (u 1) (u 2) (u 3) (u 4) (u 5) (u 6))
  | 0x31 => some (.keyClear (u 0) (u 1))
  | 0x32 => some (.keyPress (u 0))
  | 0x33 => some (.keyRelease (u 0))
  | 0x34 => some (.lineConfig (u 0) (o 1) (o 3) (o 5))
  | 0x35 => some (.lineMember (u 0) (u 1) (u 2))
  | 0x36 => some (.deskConfig (u 0))
  | 0x37 => some (.sysTimes (ow 0) (o 3))
  | 0x40 => some (.callSend (u 0))
  | 0x41 => some (.callClear (u 0) (slotFlag b 1) (u 2))
  | 0x42 => some (.cadenceSet (u 0) (slotFlag b 1) (w 2) (w 4))
  | 0x43 => some (.ciBind (u 0) (u 1) (u 2) (u 3) (u 4))
  | 0x44 => some (.coBind (u 0) (u 1) (u 2) (u 3) (u 4) (u 5))
  | 0x50 => some (if slotFlag b 2 then .panelConfigClear (u 0) (u 1)
                  else .panelConfig (u 0) (u 1) (u 3) (u 4) (u 5))
  | 0x51 => some (.loopConfig (u 0) (slotFlag b 1) (ow 2))
  | 0x60 => some (.linkConfig (u 0) (slotOpt b 1 8) (slotCodecs b 10) (o 14) (o 16) (ow 18) (ow 21) (ow 24) (o 27))
  | 0x61 => some (.linkDuty (u 0) (u 1))
  | 0x62 => some (.linkClose (u 0))
  | 0x63 => some (.linkProfiles (u 0) (u 1) (w 2) (w 4) (w 6) (u 8) (u 9))
  | 0x64 => some (.linkReserveClear (u 0))
  | 0x70 => some (.streamConfig (u 0) (slotOpt2 b 1) (slotOpt2 b 4) (o 7))
  | 0x71 => some (.streamAppend (u 0) (q 1) none)
  | 0x72 => some (.streamStart (u 0))
  | 0x73 => some (.streamStop (u 0))
  | 0x74 => some (.streamCut (u 0))
  | 0x80 => some (.sceneRecall (q 0))
  | 0x81 => some .sceneAbort
  | 0x82 => some (.lockSet (u 0) (u 1))
  | 0x83 => some (.lockClear (u 0))
  | 0x84 => some (.fallbackStore (q 0))
  | 0x85 => some .fallbackClear
  | _ => none

/-- Bytes of an argument of `n` bytes after its present flag. -/
def putOpt (n : Nat) : Option Nat → List Byte
  | none => leBytes 1 0 ++ leBytes n 0
  | some x => leBytes 1 1 ++ leBytes n x

/-- Bytes of two one-byte values after their present flag. -/
def putOpt2 : Option (Nat × Nat) → List Byte
  | none => leBytes 3 0
  | some (x, y) => leBytes 1 1 ++ (leBytes 1 x ++ leBytes 1 y)

/-- Bytes of a codec preference list after its present flag. -/
def putCodecs : Option (List Nat) → List Byte
  | none => leBytes 4 0
  | some l => leBytes 1 1 ++ ((l.map (BitVec.ofNat 8) ++ [255, 255, 255]).take 3)

/-- Kind, tag and arguments of an order (Tables 10-4 and 10-5); none for a command that is no order. -/
def orderFields : Instr → Option (Nat × Nat × List Byte)
  | .nop t => some (0x01, t, [])
  | .exchScan i => some (0x02, 0, u8 i)
  | .routeSet d s l => some (0x10, 0, u8 d ++ (u8 s ++ u8 l))
  | .routeClear d s => some (0x11, 0, u8 d ++ u8 s)
  | .routeClearDest d => some (0x12, 0, u8 d)
  | .sourceConfig s t m => some (0x13, 0, u8 s ++ (putOpt 1 t ++ putOpt 1 m))
  | .destConfig d l k => some (0x14, 0, u8 d ++ (putOpt 1 l ++ putOpt 1 k))
  | .busSet b s l => some (0x20, 0, u8 b ++ (u8 s ++ u8 l))
  | .busClear b a s => some (0x21, 0, u8 b ++ (uFlag a ++ u8 s))
  | .foldBind r d => some (0x22, 0, u8 r ++ (u8 1 ++ u8 d))
  | .foldUnbind r => some (0x22, 0, u8 r ++ u8 0)
  | .foldConfig r b l m d i h =>
      some (0x23, 0, u8 r ++ (putOpt 1 b ++ (putOpt 1 l ++ (putOpt 1 m ++ (putOpt 1 d ++ (putOpt 1 i ++ putOpt 2 h))))))
  | .foldMinusAdd r s => some (0x24, 0, u8 r ++ (u8 1 ++ u8 s))
  | .foldMinusRemove r s => some (0x24, 0, u8 r ++ (u8 0 ++ u8 s))
  | .keyAssign st k f t m c l =>
      some (0x30, 0, u8 st ++ (u8 k ++ (u8 f ++ (u8 t ++ (u8 m ++ (u8 c ++ u8 l))))))
  | .keyClear st k => some (0x31, 0, u8 st ++ u8 k)
  | .keyPress k => some (0x32, 0, u8 k)
  | .keyRelease k => some (0x33, 0, u8 k)
  | .lineConfig l k p t => some (0x34, 0, u8 l ++ (putOpt 1 k ++ (putOpt 1 p ++ putOpt 1 t)))
  | .lineMember l st r => some (0x35, 0, u8 l ++ (u8 st ++ u8 r))
  | .deskConfig s => some (0x36, 0, u8 s)
  | .sysTimes s t => some (0x37, 0, putOpt 2 s ++ putOpt 1 t)
  | .callSend t => some (0x40, 0, u8 t)
  | .callClear st a c => some (0x41, 0, u8 st ++ (uFlag a ++ u8 c))
  | .cadenceSet g r a b => some (0x42, 0, u8 g ++ (uFlag r ++ (u16 a ++ u16 b)))
  | .ciBind i f a s v => some (0x43, 0, u8 i ++ (u8 f ++ (u8 a ++ (u8 s ++ u8 v))))
  | .coBind o f a d g v => some (0x44, 0, u8 o ++ (u8 f ++ (u8 a ++ (u8 d ++ (u8 g ++ u8 v)))))
  | .panelConfig l a m s k => some (0x50, 0, u8 l ++ (u8 a ++ (u8 0 ++ (u8 m ++ (u8 s ++ u8 k)))))
  | .panelConfigClear l a => some (0x50, 0, u8 l ++ (u8 a ++ u8 1))
  | .loopConfig l e r => some (0x51, 0, u8 l ++ (uFlag e ++ putOpt 2 r))
  | .linkConfig l al cs mf du lo rc rj li =>
      some (0x60, 0, u8 l ++ (putOpt 8 al ++ (putCodecs cs ++ (putOpt 1 mf ++ (putOpt 1 du ++ (putOpt 2 lo
        ++ (putOpt 2 rc ++ (putOpt 2 rj ++ putOpt 1 li))))))))
  | .linkDuty l m => some (0x61, 0, u8 l ++ u8 m)
  | .linkClose l => some (0x62, 0, u8 l)
  | .linkProfiles l p t mi ma c u =>
      some (0x63, 0, u8 l ++ (u8 p ++ (u16 t ++ (u16 mi ++ (u16 ma ++ (u8 c ++ u8 u))))))
  | .linkReserveClear l => some (0x64, 0, u8 l)
  | .streamConfig c t q m => some (0x70, 0, u8 c ++ (putOpt2 t ++ (putOpt2 q ++ putOpt 1 m)))
  | .streamAppend c a _ => some (0x71, 0, u8 c ++ u64 a)
  | .streamStart c => some (0x72, 0, u8 c)
  | .streamStop c => some (0x73, 0, u8 c)
  | .streamCut c => some (0x74, 0, u8 c)
  | .sceneRecall a => some (0x80, 0, u64 a)
  | .sceneAbort => some (0x81, 0, [])
  | .lockSet d l => some (0x82, 0, u8 d ++ u8 l)
  | .lockClear d => some (0x83, 0, u8 d)
  | .fallbackStore a => some (0x84, 0, u64 a)
  | .fallbackClear => some (0x85, 0, [])
  | _ => none

/-- The slot's bytes as the host writes them: kind, tag, arguments; result field zero. -/
def encodeOrder (i : Instr) : Option (List Byte) :=
  match orderFields i with
  | none => none
  | some (kind, tag, args) =>
      some (u16 kind ++ (u16 0 ++ (u32 tag ++ (args ++ List.replicate (56 - args.length) 0))))

end Sys2Proof
end

