-- ==== Sys2Proof/Machine/Records.lean ====
section
/-!
DEFINITION. The records of the part's blocks, with the manual's names. A named value's code is its position in
its list (section 10.5), which is the position of its constructor here.
-/
namespace Sys2Proof.Machine

/-- Result codes (Table 0-8). -/
inductive Code where
  | done | partDone | badKind | badValue | busy | locked | minusConflict | noRoom | wrongState | suspended
  | checksum | hostFault | aborted
  deriving DecidableEq, Repr, Inhabited

/-- What an order finishes with: code and result values as they are written into the slot (Table 10-4). -/
structure Result where
  code   : Code
  values : List Byte
  deriving DecidableEq, Repr, Inhabited

/-! ### Matrix controller (chapter 1) -/

/-- Silence causes of a field link source (Table 1-1). -/
inductive Cause where
  | notLive | profileUnusable | concealing
  deriving DecidableEq, Repr, Inhabited

/-- Source record (Table 1-1). -/
structure SourceRec where
  trim  : Nat
  mute  : Bool
  cause : Option Cause
  deriving DecidableEq, Repr, Inhabited

/-- Destination kinds (Table 1-3). -/
inductive DestKind where
  | plain | foldback | ret | capture
  deriving DecidableEq, Repr, Inhabited

/-- Destination locks (R170). -/
inductive Lock where
  | free | held | fixed
  deriving DecidableEq, Repr, Inhabited

/-- Bus slot: a party line and its holder count (Table 1-3). -/
structure Slot where
  line    : Nat
  holders : Nat
  deriving DecidableEq, Repr, Inhabited

/-- Destination record (Table 1-3). -/
structure DestRec where
  kind   : DestKind
  level  : Nat
  limit  : Nat
  slots  : List Slot
  mirror : Option Nat
  lock   : Lock
  deriving DecidableEq, Repr, Inhabited

/-- The two holders of a pool entry (R12). -/
inductive Holder where
  | route | scene
  deriving DecidableEq, Repr, Inhabited

/-- Crosspoint pool entry (Table 1-5); the holder set is the two flags `route` and `scene`. -/
structure PoolEntry where
  dest       : Nat
  source     : Nat
  route      : Bool
  scene      : Bool
  talk       : Nat
  listen     : Nat
  routeLevel : Nat
  keyLevel   : Nat
  deriving DecidableEq, Repr, Inhabited

/-- What the matrix controller owns (Table 0-2). The pool is in creation order. -/
structure Matrix where
  sources : Vector SourceRec 160
  dests   : Vector DestRec 160
  pool    : List PoolEntry
  deriving DecidableEq, Repr

/-! ### Mixer (chapters 1 and 2) -/

/-- Member of a programme bus (R23). -/
structure Member where
  source : Nat
  level  : Nat
  deriving DecidableEq, Repr, Inhabited

/-- The path by which a source reaches a destination (Table 1-7); the programme part comes by a foldback record. -/
inductive Path where
  | crosspoint
  | busSlot (line : Nat)
  | programme (record : Nat)
  | interrupt
  deriving DecidableEq, Repr, Inhabited

/-- One source on one path, with the gain of its own there: heard level, key level, member level or entry level. -/
structure Term where
  path   : Path
  source : Nat
  gain   : Gain
  deriving DecidableEq, Repr, Inhabited

/-- The gains in use at a destination: its terms and its output level. -/
structure Plan where
  terms : List Term
  level : Gain
  deriving DecidableEq, Repr, Inhabited

/-- What the mixer owns: programme buses, the gains in use (R22), among them each foldback record's programme level and
duck factor, each destination's finished output of the latest period and the return audio not yet sent. -/
structure Mixer where
  buses      : Vector (List Member) 8
  sourceGain : Vector Gain 160
  plans      : Vector Plan 160
  programme  : Vector (Gain × Gain) 48
  finished   : Vector (List Int) 160
  returnBuf  : Vector (List Int) 24
  deriving DecidableEq, Repr

/-! ### Foldback unit (chapter 2) -/

/-- What asks for a place in a foldback record (Table 2-3). -/
inductive Requester where
  | key (station index : Nat)
  | channel (p : Nat)
  deriving DecidableEq, Repr, Inhabited

/-- Interrupt or pending list entry (Table 2-3); `order` counts the requests in the order in which the foldback
unit took them (R30). -/
structure FoldEntry where
  requester : Requester
  source    : Nat
  cls       : Nat
  level     : Nat
  stamp     : Nat
  order     : Nat
  deriving DecidableEq, Repr, Inhabited

/-- Foldback modes (Table 2-2). -/
inductive FoldMode where
  | cut | dim | over
  deriving DecidableEq, Repr, Inhabited

/-- Duck states (Table 2-7). -/
inductive Duck where
  | opened | ducked | holding
  deriving DecidableEq, Repr, Inhabited

/-- Foldback record (Table 2-2). -/
structure FoldRec where
  bound     : Option Nat
  bus       : Option Nat
  level     : Nat
  minus     : List Nat
  mode      : FoldMode
  depth     : Nat
  dim       : Nat
  hold      : Nat
  ints      : List FoldEntry
  pends     : List FoldEntry
  duck      : Duck
  holdTimer : Option Nat
  deriving DecidableEq, Repr, Inhabited

/-- Notices of the foldback unit (Table 2-6); Removed and NotHeld are answers to the asker alone. -/
inductive Notice where
  | entered | parked | refused (code : Code) | movedOut | movedIn | dropped (code : Code)
  deriving DecidableEq, Repr, Inhabited

/-- What the foldback unit owns. -/
structure Foldback where
  recs  : Vector FoldRec 48
  taken : Nat
  deriving DecidableEq, Repr

/-! ### Grant arbiter (chapter 3) -/

/-- Key functions (Table 3-1). -/
inductive Function where
  | none | talk | lineTalk | lineTalkListen | listen | interrupt | call | reply
  deriving DecidableEq, Repr, Inhabited

/-- Key modes (Table 3-1). -/
inductive KeyMode where
  | momentary | latching | smart
  deriving DecidableEq, Repr, Inhabited

/-- Key states (Table 3-1). -/
inductive KeyState where
  | idle | waiting | pending | talking | refused
  deriving DecidableEq, Repr, Inhabited

/-- What a key holds, waits on or is parked on (Table 3-1); `caller` is the calling station of a Reply. -/
inductive Held where
  | talkPair (dest source : Nat) (caller : Option Nat)
  | listenPair (dest source : Nat)
  | line (line : Nat) (slotDest : Option Nat)
  | foldDest (dest : Nat) (caller : Option Nat)
  deriving DecidableEq, Repr, Inhabited

/-- Key entry (Table 3-1). -/
structure KeyEntry where
  function : Function
  target   : Nat
  mode     : KeyMode
  cls      : Nat
  level    : Nat
  state    : KeyState
  latched  : Bool
  pressed  : Bool
  stamp    : Nat
  grant    : Nat
  held     : Option Held
  busy     : Option Nat
  refusal  : Option Nat
  deriving DecidableEq, Repr, Inhabited

/-- A key: station and key index. -/
structure KeyId where
  station : Nat
  key     : Nat
  deriving DecidableEq, Repr, Inhabited

/-- Member of a party line (Table 3-7). -/
structure LineMember where
  station : Nat
  talk    : Bool
  listen  : Bool
  slot    : Option Nat
  deriving DecidableEq, Repr, Inhabited

/-- Talker of a party line with its turn timer (Table 3-7). -/
structure Talker where
  key   : KeyId
  timer : Option Nat
  deriving DecidableEq, Repr, Inhabited

/-- Party-line policies (Table 3-7). -/
inductive Policy where
  | fixed | rotating
  deriving DecidableEq, Repr, Inhabited

/-- Party-line record (Table 3-7). -/
structure Line where
  members : List LineMember
  limit   : Nat
  policy  : Policy
  turn    : Nat
  talkers : List Talker
  waiting : List KeyId
  deriving DecidableEq, Repr, Inhabited

/-- What the grant arbiter owns. The talk count of a destination (R59) is the number of its talkers, which stand
in the order of their grants. -/
structure Arbiter where
  keys    : Vector (List KeyEntry) 89
  talkers : Vector (List KeyId) 160
  lines   : Vector Line 32
  allCall : Nat
  smart   : Nat
  deskMic : Option Nat
  deriving DecidableEq, Repr

/-! ### Call unit (chapter 4) -/

/-- Call entry (Table 4-1). -/
structure CallEntry where
  caller  : Nat
  repeats : Nat
  expiry  : Nat
  deriving DecidableEq, Repr, Inhabited

/-- Answers to a call (R81). -/
inductive CallAnswer where
  | new | again | overflowed | refused
  deriving DecidableEq, Repr, Inhabited

/-- Cadence generator (Table 4-4). -/
structure Cadence where
  running : Bool
  onTime  : Nat
  offTime : Nat
  phaseOn : Bool
  expiry  : Option Nat
  deriving DecidableEq, Repr, Inhabited

/-- Control input functions (Table 4-5). -/
inductive InFunction where
  | none | deskKey | cut | trigger | emergency | notify
  deriving DecidableEq, Repr, Inhabited

/-- Control input with its taken pin level and binding (R89, Table 4-5). -/
structure ControlIn where
  pinHigh    : Bool
  function   : InFunction
  argument   : Nat
  byLevel    : Bool
  activeHigh : Bool
  latch      : Bool
  deriving DecidableEq, Repr, Inhabited

/-- Control output functions (Table 4-6). -/
inductive OutFunction where
  | none
  | destTalk (dest : Nat)
  | stationCalled (station : Nat)
  | linkLive (link : Nat)
  | autonomous
  deriving DecidableEq, Repr, Inhabited

/-- Control output binding (Table 4-6); `cadence` is the generator of a Cadence drive. -/
structure ControlOut where
  function   : OutFunction
  cadence    : Option Nat
  activeHigh : Bool
  deriving DecidableEq, Repr, Inhabited

/-- What the call unit owns. -/
structure CallUnit where
  lists   : Vector (List CallEntry) 89
  timeout : Nat
  gens    : Vector Cadence 4
  inputs  : Vector ControlIn 16
  outputs : Vector ControlOut 16
  deriving DecidableEq, Repr

/-! ### Panel loop controllers (chapter 5) -/

/-- Lamp states (Table 5-2). -/
inductive Lamp where
  | off | on | flash (gen : Nat) | busy
  deriving DecidableEq, Repr, Inhabited

/-- A lamp of the lamp table: state, mark for sending, and whether the Lamps frame of the transaction in hand
carries it as it stands (R109). -/
structure LampCell where
  lamp    : Lamp
  marked  : Bool
  carried : Bool
  deriving DecidableEq, Repr, Inhabited

/-- Presence states (Table 5-4). -/
inductive Presence where
  | unconfigured | absent | joining | present | silent
  deriving DecidableEq, Repr, Inhabited

/-- Reasons of a presence change (Table 5-5). -/
inductive PresenceReason where
  | configured | hello | answer | threeMisses | eightMisses | restart | cleared | loopDisabled
  deriving DecidableEq, Repr, Inhabited

/-- Panel record (Table 5-3); `reported` is the kind and key count of the last Hello answered. -/
structure Panel where
  presence   : Presence
  mic        : Option Nat
  speaker    : Option Nat
  keyCount   : Nat
  lastSeq    : Option Nat
  missed     : Nat
  reported   : Option (Nat × Nat)
  outOfRange : Nat
  lamps      : Vector LampCell 24
  deriving DecidableEq, Repr, Inhabited

/-- Loop record (Table 5-1); `inHand` says whether a transaction is in hand. -/
structure Loop where
  enabled  : Bool
  rate     : Nat
  position : Option Nat
  polls    : Nat
  missed   : Nat
  bad      : Nat
  stray    : Nat
  inHand   : Bool
  deriving DecidableEq, Repr, Inhabited

/-! ### Link controller (chapter 6) -/

/-- Duty modes (Table 6-4). -/
inductive Duty where
  | always | paused | held | wakeRest | wakeStay
  deriving DecidableEq, Repr, Inhabited

/-- Session states (Table 6-5), in the order of the link record's field (Table 6-4), which codes them. -/
inductive Session where
  | vacant | negotiating | live | resting | waking | fading | closing
  deriving DecidableEq, Repr, Inhabited

/-- Reasons of a link event (Table 6-6). -/
inductive LinkReason where
  | accepted | firstAudio | noAudio | gapLoss | recovered | recoveryExpired | silenceTimeout | rested | woken
  | wakeFailed | closed | closeTimeout | restarted | dutyChange | hostClose | wakeSent
  deriving DecidableEq, Repr, Inhabited

/-- Reasons of a Refuse (Table 6-3). -/
inductive RefuseReason where
  | noSlot | held | reserved | noCommonFormat | badProfile
  deriving DecidableEq, Repr, Inhabited

/-- Offered profile (Table 6-4): typical and maximum delay or unknown, key count, duty support. -/
structure OfferedProfile where
  delay : Option (Nat × Nat)
  keys  : Nat
  duty  : Bool
  deriving DecidableEq, Repr, Inhabited

/-- Counters of one port in a link record (Table 6-4). -/
structure PortCounters where
  received   : Nat
  duplicates : Nat
  late       : Nat
  stray      : Nat
  deriving DecidableEq, Repr, Inhabited

/-- Counters of a link record (Table 6-4). -/
structure LinkCounters where
  mainPort  : PortCounters
  altPort   : PortCounters
  gaps      : Nat
  concealed : Nat
  switches  : Nat
  paused    : Nat
  deriving DecidableEq, Repr, Inhabited

/-- One count that a link record takes. -/
inductive Count where
  | received (p : Port) | duplicate (p : Port) | late (p : Port) | stray (p : Port)
  | gap | concealed (ms : Nat) | switch | paused
  deriving DecidableEq, Repr, Inhabited

/-- The eight timers of a link record (Table 6-4). -/
structure LinkTimers where
  negotiation : Option Nat
  linger      : Option Nat
  recovery    : Option Nat
  wake        : Option Nat
  silence     : Option Nat
  keepalive   : Option Nat
  close       : Option Nat
  deriving DecidableEq, Repr, Inhabited

/-- Link record (Table 6-4); the reservation's expiry is its timer. -/
structure Link where
  allowed    : Option Word32
  codecs     : List Codec
  minFrame   : Nat
  duty       : Duty
  dual       : Bool
  loss       : Nat
  recovery   : Nat
  rejoin     : Nat
  linger     : Nat
  session    : Session
  reserved   : Option (Word32 × Nat)
  unit       : Option Word32
  offer      : Option Nat
  format     : Option (Codec × Nat)
  offered    : Option OfferedProfile
  effective  : Duty
  pathMain   : Option Nat
  pathAlt    : Option Nat
  keyStates  : KeyStates
  lastRest   : Option Nat
  keySeq     : Option Nat
  timers     : LinkTimers
  counters   : LinkCounters
  toward     : Bool
  fromLink   : Bool
  latestPort : Port
  returnSeq  : Nat
  deriving DecidableEq, Repr, Inhabited

/-- Messages the part sends to a field unit (Table 6-1). -/
inductive LinkMsg where
  | accept (unit : Word32) (offer link : Nat) (codec : Codec) (frame : Nat)
  | refuse (unit : Word32) (offer : Nat) (reason : RefuseReason)
  | audio (unit : Word32) (link seq : Nat) (tallies : List Lamp) (payload : List Byte)
  | keepalive (unit : Word32) (link : Nat) (tallies : List Lamp)
  | wake (unit : Word32) (link : Nat)
  | rest (unit : Word32) (link : Nat)
  | close (unit : Word32) (link : Nat)
  deriving DecidableEq, Repr, Inhabited

/-! ### Jitter buffers (chapter 7) -/

/-- What plays while there is no frame (Table 7-2). -/
inductive Concealment where
  | repeatFade | silence
  deriving DecidableEq, Repr, Inhabited

/-- Delay profile (Table 7-2). -/
structure Profile where
  target      : Nat
  minimum     : Nat
  maximum     : Nat
  concealment : Concealment
  usable      : Bool
  deriving DecidableEq, Repr, Inhabited

/-- A held frame (Table 7-1). -/
structure Frame where
  seq     : Nat
  quality : Nat
  port    : Port
  payload : List Byte
  deriving DecidableEq, Repr, Inhabited

/-- Playout states (Table 7-1). -/
inductive Playout where
  | off | priming | playing | refilling
  deriving DecidableEq, Repr, Inhabited

/-- What the last instant was (Table 7-1). -/
inductive LastInstant where
  | real | concealed | silent
  deriving DecidableEq, Repr, Inhabited

/-- Jitter buffer (Table 7-1) with its four profiles (R137), the time playout began (R141), the last real frame
not yet repeated (R143), the samples now playing (R142) and whether the latest instant was one of Priming (R144). -/
structure Jitter where
  frames      : List Frame
  duration    : Nat
  selected    : Option Nat
  candidate   : Option (Nat × Nat)
  lastRemoved : Option Nat
  playout     : Playout
  instant     : Option Nat
  last        : LastInstant
  gap         : Nat
  correction  : Nat
  cause       : Option Cause
  profiles    : Vector Profile 4
  began       : Nat
  lastReal    : Option (List Byte)
  playing     : List Int
  primed      : Bool
  deriving DecidableEq, Repr, Inhabited

/-! ### Stream unit (chapter 8) -/

/-- Channel states (Table 8-2). -/
inductive ChanState where
  | idle | armed | running | starved
  deriving DecidableEq, Repr, Inhabited

/-- End reasons (Table 10-6). -/
inductive EndReason where
  | complete | cut | stopped | overrun | underrun | hostFault
  deriving DecidableEq, Repr, Inhabited

/-- Start triggers (Table 8-5). -/
inductive Trigger where
  | immediate | controlInput (i : Nat) | grant (dest : Nat) | call (station : Nat) | recallEnd
  deriving DecidableEq, Repr, Inhabited

/-- Where a channel's cue entry stands (Table 8-1). -/
inductive CuePlace where
  | none | interrupt | pending
  deriving DecidableEq, Repr, Inhabited

/-- A descriptor in a chain (R148). -/
structure Desc where
  address : Nat
  buffer  : Nat
  length  : Nat
  loop    : Bool
  last    : Bool
  index   : Nat
  deriving DecidableEq, Repr, Inhabited

/-- A staged block: its position in samples since the head began (playback), and its samples. -/
structure Block where
  at_     : Nat
  samples : List Int
  deriving DecidableEq, Repr, Inhabited

/-- Stream channel record (Table 8-1). `moved` counts the head's samples over every pass (playback) or those
written (capture); `readAt` is the next position to be read into staging. -/
structure Channel where
  state     : ChanState
  chain     : List Desc
  progress  : Nat
  moved     : Nat
  readAt    : Nat
  trigger   : Trigger
  cue       : Option (Nat × Nat)
  cuePlace  : CuePlace
  nextIndex : Nat
  staging   : List Block
  underrun  : Nat
  lost      : Nat
  deriving DecidableEq, Repr, Inhabited

/-! ### Recall engine (chapter 9) -/

/-- Engine states (Table 9-2). -/
inductive EngineState where
  | idle | loading | clearing | applying | suspended
  deriving DecidableEq, Repr, Inhabited

/-- The engine's work (Table 9-2). -/
inductive Work where
  | hostRecall | fallbackRecall | store
  deriving DecidableEq, Repr, Inhabited

/-- What a RecallState event reports (R168). -/
inductive RecallChange where
  | suspended | resumed | ended
  deriving DecidableEq, Repr, Inhabited

/-- A scene entry of eight bytes (Table 10-7), byte 0 in bits 7 to 0. -/
abbrev SceneEntry := BitVec 64

/-- Recall engine: the context of Table 9-2, the recall buffer, the header's checksum once read, whether the
result is to be written to the slot, and the fallback store (R172) with its scene number. -/
structure Recall where
  state        : EngineState
  resume       : EngineState
  work         : Option Work
  slot         : Option Nat
  scene        : Nat
  merge        : Bool
  entryCount   : Nat
  nextDest     : Nat
  nextEntry    : Nat
  applied      : Nat
  lockedCount  : Nat
  noRoomCount  : Nat
  invalid      : Nat
  protectedN   : Nat
  abortRequest : Bool
  allCall      : Bool
  emergency    : Bool
  buffer       : List SceneEntry
  header       : Option Nat
  resultWanted : Bool
  store        : Option (Nat × List SceneEntry)
  deriving DecidableEq, Repr

/-! ### Event unit (chapter 11) -/

/-- What the event unit holds (Table 11-1, R183); words have bit e for source e. `unwritten` and the two flags
after it mark writes that failed and are to be made again (R184). -/
structure EventUnit where
  raised           : Word64
  overrun          : Word64
  marks            : Word64
  seen             : Word64
  maps             : Vector Word64 4
  counts           : Vector Nat 53
  details          : Vector (List Byte) 53
  vectors          : Vector Bool 4
  unwritten        : Word64
  overrunUnwritten : Bool
  raisedUnwritten  : Bool
  deriving DecidableEq, Repr

/-! ### Exchange unit (chapters 10 and 11) -/

/-- Part states (R174). -/
inductive PartState where
  | stopped | running | autonomous
  deriving DecidableEq, Repr, Inhabited

/-- Last start causes (R174). -/
inductive StartCause where
  | powerOn | resetPin
  deriving DecidableEq, Repr, Inhabited

/-- Slot intake states (R176). -/
inductive Intake where
  | free | pending | inFlight
  deriving DecidableEq, Repr, Inhabited

/-- Causes of Autonomous entry (Table 11-3). -/
inductive AutoCause where
  | expiry | linkLoss
  deriving DecidableEq, Repr, Inhabited

/-- The order in hand: its slot and the order as read (R177). -/
structure InHand where
  slot  : Nat
  order : Instr
  deriving DecidableEq, Repr, Inhabited

/-- What the exchange unit holds (R174 to R182, R188, R189). -/
structure Exchange where
  part          : PartState
  startCause    : StartCause
  xbaseL        : Word32
  xbaseH        : Word32
  base          : Nat
  intake        : Vector Intake 64
  doneCopy      : Word64
  postCopy      : Word64
  postTaken     : Word64
  doneUnwritten : Bool
  scanPtr       : Nat
  inHand        : Option InHand
  readsDue      : Nat
  scanInterval  : Nat
  scanTimer     : Option Nat
  completions   : Nat
  failedResults : Nat
  restarts      : Word32
  autonomous    : Word32
  mode          : SuperMode
  period        : Nat
  superTimer    : Option Nat
  started       : Bool
  linkActive    : Bool
  messageEnable : Bool
  autoCause     : AutoCause
  autoFrom      : PartState
  autoSince     : Nat
  fallback      : FallbackOutcome
  fallbackDue   : Bool
  lastResult    : Option Result
  deriving DecidableEq, Repr

/-- Trigger reports to the stream unit (Table 8-5). -/
inductive Report where
  | edge (input : Nat) | grant (dest : Nat) | call (station : Nat) | recallEnd
  deriving DecidableEq, Repr, Inhabited

/-- What the part sends: a write of host memory, a message interrupt (R186), a field link message to an address
on a port, and the loop frames Poll and Lamps (Table 5-2). -/
inductive Output where
  | write (address : Nat) (bytes : List Byte)
  | interrupt (vector : Nat)
  | linkMsg (port : Port) (address : Nat) (msg : LinkMsg)
  | poll (loop address : Nat) (ack : Option Nat) (lampsFollow : Bool) (phases : List Bool)
  | lamps (loop address : Nat) (entries : List (Nat × Lamp))
  deriving DecidableEq, Repr, Inhabited

end Sys2Proof.Machine
end

