-- ==== Sys2Proof/Machine/Reset.lean ====
section
/-!
DEFINITION. What a full reset leaves in each block: the "after full reset" values of the manual's tables, and
where it gives none the value that log entries 11, 19 and 45 name.
-/
namespace Sys2Proof.Machine

/-- The inputs `State.reset` assumes (log entry 10): all pins low, PCIe link active, message interrupts enabled. -/
def Inputs.atReset : Inputs := { pins := 0, linkActive := true, messageEnable := true }

/-- Source record after full reset (Table 1-1). -/
def SourceRec.reset (i : Nat) : SourceRec :=
  { trim := 216, mute := false, cause := if 128 ≤ i ∧ i < 152 then some .notLive else none }

/-- Kind of a destination by its range (Table 1-3). -/
def DestKind.reset (d : Nat) : DestKind := if d < 128 then .plain else if d < 152 then .ret else .capture

/-- Destination record after full reset (Table 1-3). -/
def DestRec.reset (d : Nat) : DestRec :=
  { kind := DestKind.reset d, level := 216, limit := 8, slots := [], mirror := none, lock := .free }

/-- Matrix controller after full reset (R1, R5, R12). -/
def Matrix.reset : Matrix :=
  { sources := build 160 SourceRec.reset, dests := build 160 DestRec.reset, pool := [] }

/-- Mixer after full reset: empty buses (R23); the gains in use are those of the reset settings (log entry 19). -/
def Mixer.reset : Mixer :=
  { buses := build 8 fun _ => []
    sourceGain := build 160 fun i => if 128 ≤ i ∧ i < 152 then none else some 0
    plans := build 160 fun _ => { terms := [], level := some 0 }
    programme := build 48 fun _ => (some 0, some 0)
    finished := build 160 fun _ => []
    returnBuf := build 24 fun _ => [] }

/-- Foldback record after full reset (Table 2-2). -/
def FoldRec.reset (r : Nat) : FoldRec :=
  { bound := if 24 ≤ r ∧ r < 48 then some (104 + r) else none
    bus := none, level := 216
    minus := if 24 ≤ r ∧ r < 48 then [104 + r] else []
    mode := .dim, depth := 2, dim := 20, hold := 250
    ints := [], pends := [], duck := .opened, holdTimer := none }

/-- Foldback unit after full reset (R29). -/
def Foldback.reset : Foldback := { recs := build 48 FoldRec.reset, taken := 0 }

/-- Key entry after full reset (R49); target, mode, class, level and the two times as log entry 11 names. -/
def KeyEntry.reset : KeyEntry :=
  { function := .none, target := 0, mode := .momentary, cls := 0, level := 216, state := .idle
    latched := false, pressed := false, stamp := 0, grant := 0, held := none, busy := none, refusal := none }

/-- Keys of a station (Table 0-5). -/
def stationKeys (st : Nat) : Nat := if st < 64 then 24 else if st < 88 then 4 else if st = 88 then 32 else 0

/-- Party line after full reset (R66). -/
def Line.reset : Line :=
  { members := [], limit := 1, policy := .fixed, turn := 10, talkers := [], waiting := [] }

/-- Grant arbiter after full reset (R49, R59, R66, R75, R77, R78). -/
def Arbiter.reset : Arbiter :=
  { keys := build 89 fun st => List.replicate (stationKeys st) KeyEntry.reset
    talkers := build 160 fun _ => []
    lines := build 32 fun _ => Line.reset
    allCall := 0, smart := 300, deskMic := none }

/-- Cadence generator after full reset (Table 4-4). -/
def Cadence.reset : Cadence :=
  { running := false, onTime := 500, offTime := 500, phaseOn := false, expiry := none }

/-- Control input after full reset: unbound, the level of its pin as reset ends (R89). -/
def ControlIn.reset (pin : Bool) : ControlIn :=
  { pinHigh := pin, function := .none, argument := 0, byLevel := false, activeHigh := true, latch := false }

/-- Control output after full reset (Table 4-6). -/
def ControlOut.reset : ControlOut := { function := .none, cadence := none, activeHigh := true }

/-- Call unit after full reset (R77, R80, R87, R89, R95). -/
def CallUnit.reset (pins : BitVec 16) : CallUnit :=
  { lists := build 89 fun _ => []
    timeout := 30
    gens := build 4 fun _ => Cadence.reset
    inputs := build 16 fun i => ControlIn.reset (bit pins i)
    outputs := build 16 fun _ => ControlOut.reset }

/-- Loop record after full reset (Table 5-1). -/
def Loop.reset : Loop :=
  { enabled := false, rate := 500, position := none, polls := 0, missed := 0, bad := 0, stray := 0
    inHand := false }

/-- Panel record after full reset (R101). -/
def Panel.reset : Panel :=
  { presence := .unconfigured, mic := none, speaker := none, keyCount := 24, lastSeq := none, missed := 0
    reported := none, outOfRange := 0
    lamps := build 24 fun _ => { lamp := .off, marked := false, carried := false } }

/-- All counters of one port at 0. -/
def PortCounters.zero : PortCounters := { received := 0, duplicates := 0, late := 0, stray := 0 }

/-- All counters of a link at 0 (R120, R121). -/
def LinkCounters.zero : LinkCounters :=
  { mainPort := PortCounters.zero, altPort := PortCounters.zero, gaps := 0, concealed := 0, switches := 0
    paused := 0 }

/-- All session timers stopped. -/
def LinkTimers.stopped : LinkTimers :=
  { negotiation := none, linger := none, recovery := none, wake := none, silence := none, keepalive := none
    close := none }

/-- All reporter keys Released. -/
def keysReleased : KeyStates := build 4 fun _ => false

/-- Link record after full reset (Table 6-4); windows in milliseconds. -/
def Link.reset : Link :=
  { allowed := none, codecs := [.compactLD, .linear16, .linear24], minFrame := 4, duty := .held, dual := false
    loss := 200, recovery := 3000, rejoin := 60, linger := 10, session := .vacant, reserved := none
    unit := none, offer := none, format := none, offered := none, effective := .held
    pathMain := none, pathAlt := none, keyStates := keysReleased, lastRest := none, keySeq := none
    timers := LinkTimers.stopped, counters := LinkCounters.zero
    toward := false, fromLink := false, latestPort := .main, returnSeq := 0 }

/-- Delay profiles after full reset (Table 7-3). -/
def Profile.reset (i : Nat) : Profile :=
  match i with
  | 0 => { target := 40, minimum := 24, maximum := 80, concealment := .repeatFade, usable := true }
  | 1 => { target := 64, minimum := 32, maximum := 128, concealment := .repeatFade, usable := true }
  | 2 => { target := 96, minimum := 48, maximum := 192, concealment := .repeatFade, usable := true }
  | _ => { target := 160, minimum := 80, maximum := 256, concealment := .repeatFade, usable := true }

/-- Jitter buffer after full reset (Table 7-1). -/
def Jitter.reset : Jitter :=
  { frames := [], duration := 4, selected := none, candidate := none, lastRemoved := none, playout := .off
    instant := none, last := .silent, gap := 0, correction := 0, cause := some .concealing
    profiles := build 4 Profile.reset, began := 0, lastReal := none, playing := [], primed := false }

/-- Stream channel after full reset (R147). -/
def Channel.reset : Channel :=
  { state := .idle, chain := [], progress := 0, moved := 0, readAt := 0, trigger := .immediate, cue := none
    cuePlace := .none, nextIndex := 0, staging := [], underrun := 0, lost := 0 }

/-- Recall engine after full reset (Table 9-2); the fallback store is empty (R169). -/
def Recall.reset : Recall :=
  { state := .idle, resume := .clearing, work := none, slot := none, scene := 0, merge := false, entryCount := 0
    nextDest := 0, nextEntry := 0, applied := 0, lockedCount := 0, noRoomCount := 0, invalid := 0
    protectedN := 0, abortRequest := false, allCall := false, emergency := false
    buffer := [], header := none, resultWanted := false, store := none }

/-- Event unit after full reset (R183). -/
def EventUnit.reset : EventUnit :=
  { raised := 0, overrun := 0, marks := 0, seen := 0, maps := build 4 fun _ => 0
    counts := build 53 fun _ => 0, details := build 53 fun _ => [], vectors := build 4 fun _ => false
    unwritten := 0, overrunUnwritten := false, raisedUnwritten := false }

/-- Exchange unit after full reset (R174 to R178, R182, R188); see log entry 45. -/
def Exchange.reset (cause : StartCause) (inputs : Inputs) : Exchange :=
  { part := .stopped, startCause := cause, xbaseL := 0, xbaseH := 0, base := 0
    intake := build 64 fun _ => .free, doneCopy := 0, postCopy := 0, postTaken := 0, doneUnwritten := false
    scanPtr := 0, inHand := none, readsDue := 0, scanInterval := 0, scanTimer := none
    completions := 0, failedResults := 0, restarts := 0, autonomous := 0
    mode := .off, period := 10, superTimer := none, started := false
    linkActive := inputs.linkActive, messageEnable := inputs.messageEnable
    autoCause := .expiry, autoFrom := .stopped, autoSince := 0, fallback := .noneStored, fallbackDue := false
    lastResult := none }

end Sys2Proof.Machine
end

