-- ==== Sys2Proof/Machine/State.lean ====
section
/-!
DEFINITION. The state of the part: the state of every block of Table 0-2, with the commands that wait, what the
part has sent, and the clock.
-/
namespace Sys2Proof.Machine

/-- No command ends in a fault: the part goes on after every event (R177, R182, R184, R189), and an operation it
cannot carry out is answered by a result code. -/
inductive Fault where
  deriving DecidableEq, Repr

/-- Why a command is turned away. No meaning of this model gives one. -/
inductive Refusal where
  /-- Raised only by an arm of `exec` that has no meaning yet (safe: the state is not stepped). -/
  | notModelled (mnemonic : String)
  deriving DecidableEq, Repr

/-- The state of the part. -/
structure State where
  /-- commands that wait, first in first out (log entry 1) -/
  pending     : List Instr
  /-- milliseconds since the end of the last full reset (section 10.5, log entry 2) -/
  now         : Nat
  /-- exchange unit -/
  exch        : Exchange
  /-- event unit -/
  ev          : EventUnit
  /-- matrix controller -/
  mat         : Matrix
  /-- mixer -/
  mix         : Mixer
  /-- foldback unit -/
  fold        : Foldback
  /-- grant arbiter -/
  arb         : Arbiter
  /-- call unit -/
  call        : CallUnit
  /-- panel loop controllers: loop records -/
  loops       : Vector Loop 4
  /-- panel records by station -/
  panels      : Vector Panel 64
  /-- link records -/
  links       : Vector Link 24
  /-- jitter buffers -/
  jits        : Vector Jitter 24
  /-- stream channels, P0 to P7 then C0 to C7 -/
  chans       : Vector Channel 16
  /-- recall engine -/
  engine      : Recall
  /-- stray messages that name no link record, Main port (log entry 16) -/
  strayMain   : Nat
  /-- the same, Alternate port -/
  strayAlt    : Nat
  /-- update counts of the mirror records (R182): recall, loops, panels, channels, links -/
  mirror      : Vector Word32 109
  /-- trigger reports the stream unit has still to take (R150, log entry 34) -/
  reports     : List Report
  /-- what the part has sent, newest first (log entry 5) -/
  sent        : List Output
  /-- host addresses at which the next write fails (log entry 6) -/
  writeFaults : List Nat
  deriving DecidableEq, Repr

/-- Full reset (R174 and each chapter): every block at its reset values. The commands that wait, the record of
what was sent and the host addresses at which writes fail stand outside the part and are kept. -/
def State.fullReset (cause : StartCause) (inputs : Inputs) (pending : List Instr) (sent : List Output)
    (writeFaults : List Nat) : State where
  pending     := pending
  now         := 0
  exch        := Exchange.reset cause inputs
  ev          := EventUnit.reset
  mat         := Matrix.reset
  mix         := Mixer.reset
  fold        := Foldback.reset
  arb         := Arbiter.reset
  call        := CallUnit.reset inputs.pins
  loops       := build 4 fun _ => Loop.reset
  panels      := build 64 fun _ => Panel.reset
  links       := build 24 fun _ => Link.reset
  jits        := build 24 fun _ => Jitter.reset
  chans       := build 16 fun _ => Channel.reset
  engine      := Recall.reset
  strayMain   := 0
  strayAlt    := 0
  mirror      := build 109 fun _ => 0
  reports     := []
  sent        := sent
  writeFaults := writeFaults

/-- The part right after power-on. -/
def State.reset : State := State.fullReset .powerOn Inputs.atReset [] [] []

end Sys2Proof.Machine
end

