-- ==== Sys2Proof/Machine/Ops.lean ====
section
/-!
DEFINITION. The operations every block shares: sending, writing host memory, the bytes of the status mirror, and the
one way to write each record that the mirror shows.
-/
namespace Sys2Proof.Machine

/-- Record `i` of a table changed by `f`. -/
def tmod {α : Type} {n : Nat} [Inhabited α] (v : Vector α n) (i : Nat) (f : α → α) : Vector α n :=
  tset v i (f (tget v i))

/-- Something leaves the part. -/
def emit (o : Output) (s : State) : State := { s with sent := o :: s.sent }

/-- Is the part Running (R174)? -/
def State.running (s : State) : Bool := s.exch.part == .running

/-- A write of host memory and whether it succeeded; a write that touches an address at which the host's memory
fails does not land (log entry 6). -/
def hostWrite (addr : Nat) (bytes : List Byte) (s : State) : Bool × State :=
  match s.writeFaults.find? (fun a => decide (addr ≤ a ∧ a < addr + bytes.length)) with
  | none => (true, emit (.write addr bytes) s)
  | some a => (false, { s with writeFaults := s.writeFaults.erase a })

/-- A write into the exchange area at an offset of Table 10-3. -/
def areaWrite (off : Nat) (bytes : List Byte) (s : State) : Bool × State := hostWrite (s.exch.base + off) bytes s

/-! ### Bytes of the mirror records (section 10.5) -/

/-- A present or absent cause: Present 0, absent FFH (log entry 15). -/
def uPresent (b : Bool) : List Byte := u8 (if b then 0 else 255)

/-- The code of a resume state: its place in the two values of its field (Table 9-2, section 10.5). -/
def resumeCode (e : EngineState) : Nat := if e = .applying then 1 else 0

/-- Recall context, then the fallback store's scene number and entry count (log entry 14). -/
def encRecall (r : Recall) : List Byte :=
  u8 r.state.ctorIdx ++ u8 (resumeCode r.resume) ++ uOpt 1 (r.work.map (·.ctorIdx)) ++ uOpt 1 r.slot ++ u16 r.scene
    ++ uFlag r.merge ++ u16 r.entryCount ++ u8 r.nextDest ++ u16 r.nextEntry ++ u16 r.applied
    ++ u16 r.lockedCount ++ u16 r.noRoomCount ++ u16 r.invalid ++ u8 r.protectedN ++ uFlag r.abortRequest
    ++ uPresent r.allCall ++ uPresent r.emergency
    ++ u16 (match r.store with | none => 0 | some (n, _) => n)
    ++ u16 (match r.store with | none => 0 | some (_, es) => es.length)

/-- Loop record (Table 5-1). -/
def encLoop (l : Loop) : List Byte :=
  uFlag l.enabled ++ u16 l.rate ++ uOpt 1 l.position ++ u16 l.polls ++ u16 l.missed ++ u16 l.bad ++ u16 l.stray

/-- Panel record (Table 5-3) without its lamp table. -/
def encPanel (p : Panel) : List Byte :=
  u8 p.presence.ctorIdx ++ uOpt 1 p.mic ++ uOpt 1 p.speaker ++ u8 p.keyCount ++ uOpt 1 p.lastSeq ++ u8 p.missed
    ++ uOpt 2 (p.reported.map (·.1)) ++ uOpt 1 (p.reported.map (·.2)) ++ u16 p.outOfRange

/-- A trigger: its kind, then its argument or FFH. -/
def encTrigger : Trigger → List Byte
  | .immediate => u8 0 ++ u8 255
  | .controlInput i => u8 1 ++ u8 i
  | .grant d => u8 2 ++ u8 d
  | .call st => u8 3 ++ u8 st
  | .recallEnd => u8 4 ++ u8 255

/-- Stream channel record (Table 8-1) with the number of descriptors in place of the chain. -/
def encChan (c : Channel) : List Byte :=
  u8 c.state.ctorIdx ++ u8 c.chain.length ++ u32 c.progress ++ encTrigger c.trigger
    ++ uOpt 1 (c.cue.map (·.1)) ++ uOpt 1 (c.cue.map (·.2)) ++ u8 c.cuePlace.ctorIdx ++ u8 c.nextIndex
    ++ u32 c.underrun ++ u32 c.lost

/-- The four counters of one port. -/
def encPort (c : PortCounters) : List Byte := u32 c.received ++ u32 c.duplicates ++ u32 c.late ++ u32 c.stray

/-- Link record (Table 6-4) without path addresses, timers, last Rest sent and newest key-state sequence. -/
def encLink (l : Link) : List Byte :=
  uOpt 8 (l.allowed.map (·.toNat)) ++ ((l.codecs.map fun (c : Codec) => BitVec.ofNat 8 c.ctorIdx) ++ [255, 255, 255]).take 3
    ++ u8 l.minFrame ++ u8 l.duty.ctorIdx ++ uFlag l.dual ++ u16 l.loss ++ u16 l.recovery ++ u16 l.rejoin
    ++ u8 l.linger ++ u8 l.session.ctorIdx
    ++ (match l.reserved with | none => uOpt 8 none ++ u32 0 | some (unit, e) => u64 unit.toNat ++ u32 e)
    ++ uOpt 8 (l.unit.map (·.toNat)) ++ uOpt 2 l.offer
    ++ uOpt 1 (l.format.map (·.1.ctorIdx)) ++ uOpt 1 (l.format.map (·.2))
    ++ (match l.offered with
        | none => uOpt 2 none ++ uOpt 4 none ++ uOpt 1 none ++ uOpt 1 none
        | some o => uOpt 2 (o.delay.map (·.1)) ++ uOpt 4 (o.delay.map (·.2)) ++ u8 o.keys ++ uFlag o.duty)
    ++ u8 l.effective.ctorIdx ++ (l.keyStates.toList.map fun b => BitVec.ofNat 8 (if b then 0 else 1))
    ++ encPort l.counters.mainPort ++ encPort l.counters.altPort
    ++ u32 l.counters.gaps ++ u32 l.counters.concealed ++ u32 l.counters.switches ++ u32 l.counters.paused

/-! ### Writing mirror records (R182) -/

/-- Write a mirror record: update count raised, contents, update count raised again; a failed write ends the
sequence (R182). That the copy of the count is then the next even value all the same, for the next write to start from, is
the model's choice (log entry 73). -/
def writeRecord (idx off : Nat) (contents : List Byte) (s : State) : State :=
  let c := tget s.mirror idx
  let s1 := { s with mirror := tset s.mirror idx (c + 2) }
  let (ok1, s2) := areaWrite off (u32 (c + 1).toNat) s1
  if ok1 then
    let (ok2, s3) := areaWrite (off + 4) contents s2
    if ok2 then (areaWrite off (u32 (c + 2).toNat) s3).2 else s3
  else s2

/-- Write a mirror record after a change, while the part is Running. -/
def mirrorChange (idx off : Nat) (old new : List Byte) (s : State) : State :=
  if s.running && (old != new) then writeRecord idx off new s else s

/-- Write the recall context. -/
def putRecall (r : Recall) (s : State) : State :=
  mirrorChange 0 0x1800 (encRecall s.engine) (encRecall r) { s with engine := r }

/-- Write loop record `l`. -/
def putLoop (l : Nat) (r : Loop) (s : State) : State :=
  mirrorChange (1 + l) (0x1840 + 32 * l) (encLoop (tget s.loops l)) (encLoop r) { s with loops := tset s.loops l r }

/-- Write the panel record of station `st`. -/
def putPanel (st : Nat) (r : Panel) (s : State) : State :=
  mirrorChange (5 + st) (0x1900 + 32 * st) (encPanel (tget s.panels st)) (encPanel r)
    { s with panels := tset s.panels st r }

/-- Write stream channel record `c`. -/
def putChan (c : Nat) (r : Channel) (s : State) : State :=
  mirrorChange (69 + c) (0x2100 + 32 * c) (encChan (tget s.chans c)) (encChan r) { s with chans := tset s.chans c r }

/-- Write link record `n`. -/
def putLink (n : Nat) (r : Link) (s : State) : State :=
  mirrorChange (85 + n) (0x2300 + 128 * n) (encLink (tget s.links n)) (encLink r)
    { s with links := tset s.links n r }

/-- Write jitter buffer `n`, which the mirror does not show. -/
def putJit (n : Nat) (j : Jitter) (s : State) : State := { s with jits := tset s.jits n j }

/-- The whole status mirror, record by record (R179, R181). That the blocks write in this order, recall context, loops,
panels, channels and links, each from its lowest number, is the model's choice (log entry 79). -/
def writeMirror (s : State) : State :=
  let s := writeRecord 0 0x1800 (encRecall s.engine) s
  let s := (List.range 4).foldl (fun s l => writeRecord (1 + l) (0x1840 + 32 * l) (encLoop (tget s.loops l)) s) s
  let s := (List.range 64).foldl (fun s k => writeRecord (5 + k) (0x1900 + 32 * k) (encPanel (tget s.panels k)) s) s
  let s := (List.range 16).foldl (fun s c => writeRecord (69 + c) (0x2100 + 32 * c) (encChan (tget s.chans c)) s) s
  (List.range 24).foldl (fun s n => writeRecord (85 + n) (0x2300 + 128 * n) (encLink (tget s.links n)) s) s

/-- Apply `f` to each number below `n` in ascending order. -/
def forEach (n : Nat) (f : Nat → State → State) (s : State) : State := (List.range n).foldl (fun s i => f i s) s

/-- A timer that starts now and runs `ms`. -/
def State.after (s : State) (ms : Nat) : Option Nat := some (s.now + ms)

end Sys2Proof.Machine
end

