-- ==== Sys2Proof/Machine/Flags.lean ====
section
/-!
DEFINITION. The event unit: raised, overrun and pending flags, occurrence counts, notify vectors (R183 to R187).
-/
namespace Sys2Proof.Machine

/-- Sources 0 to 52. -/
def sourceMask : Word64 := BitVec.ofNat 64 (2 ^ 53 - 1)

/-- A source is pending while its raised bit differs from its bit in the seen copy (section 11.1). -/
def eventPending (ev : EventUnit) (e : Nat) : Bool := bit ev.raised e != bit ev.seen e

/-- Does some source of vector map `v` pend? -/
def mapPending (ev : EventUnit) (v : Nat) : Bool :=
  ((ev.raised ^^^ ev.seen) &&& tget ev.maps v &&& sourceMask) != 0

/-- The state R186 gives the notify vectors. -/
def vectorsNow (s : State) : Vector Bool 4 := build 4 fun v => s.running && mapPending s.ev v

/-- Judge the vectors again; each that becomes asserted sends one message while message-enable is set (R186), in ascending
vector number, the model's choice (log entry 67). -/
def judgeVectors (s : State) : State :=
  let new := vectorsNow s
  let fresh := (List.range 4).filter fun v => tget new v && !tget s.ev.vectors v
  let s' := { s with ev.vectors := new }
  if s.exch.messageEnable then fresh.foldl (fun s v => emit (.interrupt v) s) s' else s'

/-- A detail record as it stands in the event unit: count, then the detail padded to 28 bytes (log entry 14). -/
def detailRecord (ev : EventUnit) (e : Nat) : List Byte :=
  let d := (tget ev.details e).take 28
  u32 (tget ev.counts e) ++ d ++ List.replicate (28 - d.length) 0

/-- Write detail record `e`; a failed write is kept to be made again (R184). -/
def writeDetail (e : Nat) (s : State) : State :=
  let (ok, s') := areaWrite (0x0100 + 32 * e) (detailRecord s.ev e) s
  { s' with ev.unwritten := setBit s'.ev.unwritten e !ok }

/-- Write the overrun word. -/
def writeOverrun (s : State) : State :=
  let (ok, s') := areaWrite 0x0060 (u64 s.ev.overrun.toNat) s
  { s' with ev.overrunUnwritten := !ok }

/-- Write the raised word. -/
def writeRaised (s : State) : State :=
  let (ok, s') := areaWrite 0x0058 (u64 s.ev.raised.toNat) s
  { s' with ev.raisedUnwritten := !ok }

/-- An occurrence of source `e` (R184): into the event unit's own state in every part state; written, and the
vectors judged, while Running; marked in Autonomous (R187). -/
def raiseEvent (e : Nat) (detail : List Byte) (s : State) : State :=
  let marked : Word64 := if s.exch.part = .autonomous then setBit s.ev.marks e true else s.ev.marks
  if eventPending s.ev e then
    let s1 := { s with
      ev.details := tset s.ev.details e detail
      ev.counts := tset s.ev.counts e (satAdd max32 (tget s.ev.counts e) 1)
      ev.overrun := setBit s.ev.overrun e true
      ev.marks := marked }
    if s.running then writeOverrun (writeDetail e s1) else s1
  else
    let s1 := { s with
      ev.details := tset s.ev.details e detail
      ev.counts := tset s.ev.counts e 1
      ev.overrun := setBit s.ev.overrun e false
      ev.raised := setBit s.ev.raised e (!bit s.ev.raised e)
      ev.marks := marked }
    if s.running then judgeVectors (writeRaised (writeOverrun (writeDetail e s1))) else s1

/-- Make again the writes that failed (R184), at a read of the seen word. That the detail records come first by ascending
source, then the overrun word and then the raised word is the model's choice (log entry 74). -/
def retryWrites (s : State) : State :=
  let s1 := forEach 53 (fun e s => if bit s.ev.unwritten e then writeDetail e s else s) s
  let s2 := if s1.ev.overrunUnwritten then writeOverrun s1 else s1
  if s2.ev.raisedUnwritten then writeRaised s2 else s2

/-- The reads of the seen word and the vector maps have ended: copies replaced where the read succeeded, failed
writes made again, vectors judged afresh (R184, R185). -/
def takeSeen (r : AreaRead) (s : State) : State :=
  let map (v : Nat) : Option Word64 :=
    match v with | 0 => r.map0 | 1 => r.map1 | 2 => r.map2 | _ => r.map3
  let s1 := { s with
    ev.seen := r.seen.getD s.ev.seen
    ev.maps := build 4 fun v => (map v).getD (tget s.ev.maps v) }
  judgeVectors (retryWrites s1)

/-- The words rebuilt at Start and Restart (R179, R181): raised word equal to the seen word read, overrun word and
detail records 0, every Autonomous mark cleared, no vector asserted. That the detail records are written by ascending
source is the model's choice (log entry 79). -/
def rebuildEvents (seen : Word64) (s : State) : State :=
  let s1 := { s with ev := { s.ev with
    raised := seen, seen := seen, overrun := 0, marks := 0
    counts := build 53 fun _ => 0, details := build 53 fun _ => []
    vectors := build 4 fun _ => false
    unwritten := 0, overrunUnwritten := false, raisedUnwritten := false } }
  forEach 53 writeDetail (writeOverrun (writeRaised s1))

/-- Every vector is deasserted while the part is not Running (R187). -/
def dropVectors (s : State) : State := { s with ev.vectors := build 4 fun _ => false }

end Sys2Proof.Machine
end

