-- ==== Sys2Proof/Machine/Operands.lean ====
section
/-!
DEFINITION. Operand forms: the coded values of orders (section 10.5: a named value is its position in its list, a
none value has every bit set), and the ranges the rules check.
-/
namespace Sys2Proof.Machine

/-- A result without values. -/
def Result.of (c : Code) : Result := { code := c, values := [] }

/-- Level value 0 to 240. -/
def levelOk (v : Nat) : Bool := v ≤ 240

/-- Source or destination number 0 to 159. -/
def portOk (v : Nat) : Bool := v < 160

/-- A present value passes a check; an absent one is not checked. -/
def presentOk (p : Nat → Bool) : Option Nat → Bool
  | none => true
  | some v => p v

/-- A one-byte value that may be none (FFH). -/
def noneByte (v : Nat) : Option Nat := if v = 255 then none else some v

/-- A flag value given as an argument: clear 0, set 1. -/
def flagValue : Nat → Option Bool
  | 0 => some false
  | 1 => some true
  | _ => none

/-- Key function (Table 3-1). -/
def functionOf : Nat → Option Function
  | 0 => some .none
  | 1 => some .talk
  | 2 => some .lineTalk
  | 3 => some .lineTalkListen
  | 4 => some .listen
  | 5 => some .interrupt
  | 6 => some .call
  | 7 => some .reply
  | _ => none

/-- Key mode (Table 3-1). -/
def keyModeOf : Nat → Option KeyMode
  | 0 => some .momentary
  | 1 => some .latching
  | 2 => some .smart
  | _ => none

/-- Is a target inside the range of Table 3-1 for a function? -/
def targetOk (f : Function) (t : Nat) : Bool :=
  match f with
  | .talk => t < 160
  | .interrupt => t < 160
  | .lineTalk => t < 32
  | .lineTalkListen => t < 32
  | .listen => t < 160
  | .call => t < 89
  | .reply => true
  | .none => true

/-- Rights of a member (R72): Talk and Listen. -/
def rightsOf : Nat → Option (Bool × Bool)
  | 0 => some (false, false)
  | 1 => some (true, false)
  | 2 => some (false, true)
  | 3 => some (true, true)
  | _ => none

/-- Party-line policy (Table 3-7). -/
def policyOf : Nat → Option Policy
  | 0 => some .fixed
  | 1 => some .rotating
  | _ => none

/-- Foldback mode (Table 2-2). -/
def foldModeOf : Nat → Option FoldMode
  | 0 => some .cut
  | 1 => some .dim
  | 2 => some .over
  | _ => none

/-- Control input function (Table 4-5). -/
def inFunctionOf : Nat → Option InFunction
  | 0 => some .none
  | 1 => some .deskKey
  | 2 => some .cut
  | 3 => some .trigger
  | 4 => some .emergency
  | 5 => some .notify
  | _ => none

/-- Is an argument inside its range for a control input function (R90)? -/
def inArgumentOk (f : InFunction) (a : Nat) : Bool :=
  match f with
  | .deskKey => a < 32
  | .cut => a < 16
  | .trigger => a < 16
  | _ => true

/-- Sensing: Edge 0, Level 1; `true` for Level. -/
def sensingOf : Nat → Option Bool
  | 0 => some false
  | 1 => some true
  | _ => none

/-- Active level: High 0, Low 1; `true` for High. -/
def activeHighOf : Nat → Option Bool
  | 0 => some true
  | 1 => some false
  | _ => none

/-- Control output function with its argument in range (Table 4-6). The argument byte of None and Autonomous is not looked
at: the model's choice where it is not FFH (log entry 51). -/
def outFunctionOf (kind arg : Nat) : Option OutFunction :=
  match kind with
  | 0 => some .none
  | 1 => if arg < 160 then some (.destTalk arg) else none
  | 2 => if arg < 89 then some (.stationCalled arg) else none
  | 3 => if arg < 24 then some (.linkLive arg) else none
  | 4 => some .autonomous
  | _ => none

/-- Control output drive (Table 4-6): Steady, or Cadence with a generator in range. The generator byte of Steady is not
looked at: the model's choice where it is not FFH (log entry 51). -/
def driveOf (kind gen : Nat) : Option (Option Nat) :=
  match kind with
  | 0 => some none
  | 1 => if gen < 4 then some (some gen) else none
  | _ => none

/-- Duty mode (Table 6-4). -/
def dutyOf : Nat → Option Duty
  | 0 => some .always
  | 1 => some .paused
  | 2 => some .held
  | 3 => some .wakeRest
  | 4 => some .wakeStay
  | _ => none

/-- Codec, in the order in which section 6.1 lists them. -/
def codecOf : Nat → Option Codec
  | 0 => some .linear24
  | 1 => some .linear16
  | 2 => some .compactLD
  | _ => none

/-- A codec preference list: 1 to 3 codecs, each known, none twice (R134). -/
def codecListOf (l : List Nat) : Option (List Codec) :=
  let cs := l.filterMap codecOf
  if cs.length = l.length ∧ 1 ≤ l.length ∧ l.length ≤ 3 ∧ l.Nodup then some cs else none

/-- Concealment (Table 7-2). -/
def concealmentOf : Nat → Option Concealment
  | 0 => some .repeatFade
  | 1 => some .silence
  | _ => none

/-- Lock argument of LOCK.SET: Held or Fixed, coded by their place in Table 1-3. -/
def lockOf : Nat → Option Lock
  | 1 => some .held
  | 2 => some .fixed
  | _ => none

/-- Trigger kind with its argument in range (Table 8-1). Any argument byte of Immediate and RecallEnd is accepted and
ignored: the model's choice (log entry 51). -/
def triggerOf (kind arg : Nat) : Option Trigger :=
  match kind with
  | 0 => some .immediate
  | 1 => if arg < 16 then some (.controlInput arg) else none
  | 2 => if arg < 160 then some (.grant arg) else none
  | 3 => if arg < 89 then some (.call arg) else none
  | 4 => some .recallEnd
  | _ => none

/-- Microphone source of a panel: a local source or none. -/
def localOk (v : Nat) : Bool := v < 128 || v == 255

/-- A 24-bit sample word (section 10.5): the sample in bits 31 to 8. -/
def sampleOfWord (w : Word32) : Int := (w.extractLsb' 8 24).toInt

/-- The word a capture channel writes: bits 7 to 0 are 0. -/
def wordOfSample (x : Int) : Word32 := (BitVec.ofInt 24 x) ++ (0 : BitVec 8)

/-- The largest number of `bits` bits above `acc` that `p` admits, found from the highest bit down. -/
def rootSearch (p : Nat → Bool) : Nat → Nat → Nat
  | 0, acc => acc
  | bits + 1, acc => rootSearch p bits (if p (acc + 2 ^ bits) then acc + 2 ^ bits else acc)

/-- The factor of a gain (Table 0-7) with 64 binary places: `h` half decibels are the 40th root of ten to the `h`, Off is
nothing. The whole part of that number of 2⁻⁶⁴ is taken (log entry 17). -/
def gainFactor : Gain → Nat
  | none => 0
  | some h =>
    if h = 0 then 2 ^ 64
    else rootSearch (fun y => decide (y ^ 40 * 10 ^ (-h).toNat ≤ (2 ^ 64) ^ 40 * 10 ^ h.toNat)) 68 0

/-- `n` times the factor in use at sample `k` of `n` while a gain moves evenly from `old` to `new` (R22): the last sample has
the new gain (log entry 17). -/
def movingFactor (old new : Gain) (k n : Nat) : Nat := gainFactor old * (n - (k + 1)) + gainFactor new * (k + 1)

/-- Sample `k` of `n`, with its binary places, under a gain that moves evenly from `old` to `new`, or stays (R22). -/
def rampSample (old new : Gain) (k n : Nat) (x : Int) : Int := (x * movingFactor old new k n).tdiv (n * 2 ^ 64)

/-- A sample with 40 binary places, as the mixer carries it. -/
def widen (x : Int) : Int := x * 2 ^ 40

/-- A sample without its binary places: a whole one stays, any other is rounded one way or the other, a free value (log
entry 17). -/
def rounded (v : Int) : Int :=
  if v % 2 ^ 40 = 0 then v / 2 ^ 40 else v.tdiv (2 ^ 40) + if Config.roundsUp v then v.sign else 0

/-- The largest value of its sign for a sample outside the 24-bit range (R22). -/
def clamp24 (x : Int) : Int := if x < -8388608 then -8388608 else if 8388607 < x then 8388607 else x

end Sys2Proof.Machine
end

