-- ==== Sys2Proof/Machine/Matrix.lean ====
section
/-!
DEFINITION. The matrix controller's claims (chapter 1): holdings, counts, bus slots, kinds, mirrors, silence causes
and locks. A claim answers Done where it is taken.
-/
namespace Sys2Proof.Machine

/-! ### The crosspoint pool -/

/-- The entry a claim creates before it is applied (R13). -/
def PoolEntry.blank (d src : Nat) : PoolEntry :=
  { dest := d, source := src, route := false, scene := false, talk := 0, listen := 0, routeLevel := 0
    keyLevel := 0 }

/-- An entry is present exactly while this holds (R12). -/
def PoolEntry.alive (e : PoolEntry) : Bool := e.route || e.scene || decide (0 < e.talk) || decide (0 < e.listen)

/-- Does the entry hold Route or Scene? -/
def PoolEntry.holds (e : PoolEntry) : Bool := e.route || e.scene

/-- Is this the entry of the pair? -/
def PoolEntry.isPair (d src : Nat) (e : PoolEntry) : Bool := e.dest == d && e.source == src

/-- The heard level (R13). -/
def PoolEntry.heard (e : PoolEntry) : Nat := if e.holds then e.routeLevel else e.keyLevel

/-- A holding added with its level (R13). -/
def PoolEntry.addHold (h : Holder) (lvl : Nat) (e : PoolEntry) : PoolEntry :=
  match h with
  | .route => { e with route := true, routeLevel := lvl }
  | .scene => { e with scene := true, routeLevel := lvl }

/-- Both holdings removed (R13, R14). -/
def PoolEntry.clearHolds (e : PoolEntry) : PoolEntry := { e with route := false, scene := false, routeLevel := 0 }

/-- A talk or listen count raised; the first raise writes the key level (R13). -/
def PoolEntry.raiseCount (listen : Bool) (lvl : Nat) (e : PoolEntry) : PoolEntry :=
  let key := if e.talk = 0 ∧ e.listen = 0 then lvl else e.keyLevel
  if listen then { e with listen := e.listen + 1, keyLevel := key }
  else { e with talk := e.talk + 1, keyLevel := key }

/-- A talk or listen count lowered; both at 0 sets the key level to 0 (R13). -/
def PoolEntry.lowerCount (listen : Bool) (e : PoolEntry) : PoolEntry :=
  let t := if listen then e.talk else e.talk - 1
  let l := if listen then e.listen - 1 else e.listen
  { e with talk := t, listen := l, keyLevel := if t = 0 ∧ l = 0 then 0 else e.keyLevel }

/-- The entry of a pair. -/
def findEntry (pool : List PoolEntry) (d src : Nat) : Option PoolEntry := pool.find? (PoolEntry.isPair d src)

/-- The number of entries of a destination. -/
def destCount (pool : List PoolEntry) (d : Nat) : Nat := (pool.filter fun e => e.dest == d).length

/-- Room for a new entry (R16). -/
def hasRoom (pool : List PoolEntry) (d : Nat) : Bool :=
  decide (pool.length < 2048) && decide (destCount pool d < 24)

/-- The pool after `f` on the entry of a pair, created at the end if absent and removed if nothing holds or
uses it any more (R12, R13). -/
def changeEntry (d src : Nat) (f : PoolEntry → PoolEntry) (pool : List PoolEntry) : List PoolEntry :=
  match findEntry pool d src with
  | none => pool ++ [f (PoolEntry.blank d src)].filter PoolEntry.alive
  | some _ => (pool.map fun e => if e.isPair d src then f e else e).filter PoolEntry.alive

/-- The pool after the holdings of the chosen entries are removed (R14). -/
def clearEntries (p : PoolEntry → Bool) (pool : List PoolEntry) : List PoolEntry :=
  (pool.map fun e => if p e then e.clearHolds else e).filter PoolEntry.alive

/-! ### What claims are checked against -/

/-- The destination record. -/
def State.dest (s : State) (d : Nat) : DestRec := tget s.mat.dests d

/-- Is the destination Held or Fixed (R170)? -/
def State.locked (s : State) (d : Nat) : Bool := (s.dest d).lock != .free

/-- The foldback record bound to a destination. -/
def recordOf (s : State) (d : Nat) : Option Nat :=
  (List.range 48).find? fun r => (tget s.fold.recs r).bound == some d

/-- The minus set that applies at a destination of kind Foldback or Return. -/
def minusAt (s : State) (d : Nat) : List Nat :=
  if (s.dest d).kind = .foldback ∨ (s.dest d).kind = .ret then
    match recordOf s d with
    | some r => (tget s.fold.recs r).minus
    | none => []
  else []

/-- Does the minus set of the destination hold the source (R14, R15)? -/
def minusHolds (s : State) (d src : Nat) : Bool := (minusAt s d).contains src

/-- The state with another pool. -/
def State.withPool (s : State) (pool : List PoolEntry) : State := { s with mat.pool := pool }

/-! ### Claims -/

/-- An add claim (R14). -/
def claimAdd (h : Holder) (d src lvl : Nat) (s : State) : Code × State :=
  if !portOk d || !portOk src || !levelOk lvl then (.badValue, s)
  else if s.locked d then (.locked, s)
  else if minusHolds s d src then (.minusConflict, s)
  else if (findEntry s.mat.pool d src).isNone && !hasRoom s.mat.pool d then (.noRoom, s)
  else (.done, s.withPool (changeEntry d src (PoolEntry.addHold h lvl) s.mat.pool))

/-- A remove claim for one pair (R14). -/
def claimRemove (d src : Nat) (s : State) : Code × State :=
  if s.locked d then (.locked, s)
  else (.done, s.withPool (clearEntries (PoolEntry.isPair d src) s.mat.pool))

/-- A remove claim for a whole destination (R14). -/
def claimRemoveDest (d : Nat) (s : State) : Code × State :=
  if s.locked d then (.locked, s)
  else (.done, s.withPool (clearEntries (fun e => e.dest == d) s.mat.pool))

/-- The count a raise or lower concerns. -/
def PoolEntry.count (listen : Bool) (e : PoolEntry) : Nat := if listen then e.listen else e.talk

/-- A talk or listen raise (R15). -/
def claimRaise (listen : Bool) (d src lvl : Nat) (s : State) : Code × State :=
  if !portOk d || !portOk src then (.badValue, s)
  else if minusHolds s d src then (.minusConflict, s)
  else
    match findEntry s.mat.pool d src with
    | none =>
      if hasRoom s.mat.pool d then
        (.done, s.withPool (changeEntry d src (PoolEntry.raiseCount listen lvl) s.mat.pool))
      else (.noRoom, s)
    | some e =>
      if 63 ≤ e.count listen then (.noRoom, s)
      else (.done, s.withPool (changeEntry d src (PoolEntry.raiseCount listen lvl) s.mat.pool))

/-- A talk or listen lower (R15). -/
def claimLower (listen : Bool) (d src : Nat) (s : State) : Code × State :=
  match findEntry s.mat.pool d src with
  | none => (.wrongState, s)
  | some e =>
    if e.count listen = 0 then (.wrongState, s)
    else (.done, s.withPool (changeEntry d src (PoolEntry.lowerCount listen) s.mat.pool))

/-- The state with destination record `d` changed. -/
def State.withDest (s : State) (d : Nat) (r : DestRec) : State := { s with mat.dests := tset s.mat.dests d r }

/-- A slot join claim (R10). -/
def claimJoin (d line : Nat) (s : State) : Code × State :=
  let r := s.dest d
  if r.slots.any (·.line == line) then
    (.done, s.withDest d { r with
      slots := r.slots.map fun sl => if sl.line == line then { sl with holders := sl.holders + 1 } else sl })
  else if r.slots.length < 4 then
    (.done, s.withDest d { r with slots := r.slots ++ [{ line := line, holders := 1 }] })
  else (.noRoom, s)

/-- A slot leave claim (R10): taken with no change where the line has no slot. -/
def claimLeave (d line : Nat) (s : State) : State :=
  let r := s.dest d
  s.withDest d { r with
    slots := (r.slots.map fun sl => if sl.line == line then { sl with holders := sl.holders - 1 } else sl).filter
      fun sl => decide (0 < sl.holders) }

/-- A binding claim (R7). -/
def claimBind (d : Nat) (k : DestKind) (s : State) : Code × State :=
  if 128 ≤ d then (.badValue, s)
  else if s.locked d then (.locked, s)
  else (.done, s.withDest d { s.dest d with kind := k })

/-- A mirror set claim, or with none a clear claim (R11). -/
def claimMirror (d : Nat) (m : Option Nat) (s : State) : Code × State :=
  match m with
  | none => (.done, s.withDest d { s.dest d with mirror := none })
  | some t =>
    if 152 ≤ t then (.badValue, s)
    else (.done, s.withDest d { s.dest d with mirror := some t })

/-- A silence-cause claim for the source of link `n`, one of the 24 (R4). -/
def claimCause (n : Nat) (c : Option Cause) (s : State) : State :=
  { s with mat.sources :=
      if n < 24 then tmod s.mat.sources (128 + n) fun r => { r with cause := c } else s.mat.sources }

/-- A scene's lock claim for Held (R170). BadValue for a destination above 159 is the model's choice (log entry 60). -/
def claimHeld (d : Nat) (s : State) : Code × State :=
  if !portOk d then (.badValue, s)
  else if s.locked d then (.locked, s)
  else (.done, s.withDest d { s.dest d with lock := .held })

/-- A minus claim (R34): may the source join the destination's minus set? -/
def claimMinus (d src : Nat) (s : State) : Code :=
  if s.mat.pool.any fun e => e.isPair d src then .minusConflict else .done

/-! ### Stations -/

/-- Microphone source of a station (Table 0-5). -/
def micOf (s : State) (st : Nat) : Option Nat :=
  if st < 64 then (tget s.panels st).mic
  else if st < 88 then some (64 + st)
  else if st = 88 then s.arb.deskMic
  else none

/-- Speaker destination of a station (Table 0-5). -/
def speakerOf (s : State) (st : Nat) : Option Nat :=
  if st < 64 then (tget s.panels st).speaker
  else if st < 88 then some (64 + st)
  else none

end Sys2Proof.Machine
end

