-- ==== Sys2Proof/Machine/Jitter.lean ====
section
/-!
DEFINITION. The jitter buffers (chapter 7): arrival, profile selection, playout. Each operation gives the buffer
afterwards and the counts its link record takes.
-/
namespace Sys2Proof.Machine

/-- Sequence `a` is older than `b` (section "Sequence numbers"). -/
def seqOlder (a b : Nat) : Bool :=
  let d := (b + 65536 - a) % 65536
  decide (1 ≤ d) && decide (d ≤ 32767)

/-- A depth in milliseconds as whole frames, rounded up (R137). -/
def effFrames (depth duration : Nat) : Nat := (depth + duration - 1) / duration

/-- The selected profile. -/
def Jitter.profile (j : Jitter) : Option Profile := j.selected.map fun p => tget j.profiles p

/-- Is the selected profile unusable? -/
def Jitter.unusable (j : Jitter) : Bool :=
  match j.profile with
  | some p => !p.usable
  | none => false

/-- Most frames the buffer may hold (R136, R139). -/
def Jitter.maxFrames (j : Jitter) : Nat :=
  match j.profile with
  | some p => effFrames p.maximum j.duration
  | none => 128

/-- The playout cause after a change of the selected profile or of its usable flag (R143). -/
def Jitter.recause (j : Jitter) : Jitter :=
  if j.unusable then { j with cause := some .profileUnusable }
  else if j.cause = some .profileUnusable then
    { j with cause := if j.last = .real then none else some .concealing }
  else j

/-- The newest of the last removed sequence and another (R139). That the old value stays where neither of the two is older,
at 32768 apart, is the model's choice (log entry 58). -/
def newestSeq (old : Option Nat) (q : Nat) : Nat :=
  match old with
  | none => q
  | some o => if seqOlder o q then q else o

/-- The oldest frames removed until the depth is at most the maximum (R139). -/
def Jitter.enforce (j : Jitter) : Jitter × List Count :=
  let out := j.frames.take (j.frames.length - j.maxFrames)
  ({ j with
      frames := j.frames.drop (j.frames.length - j.maxFrames)
      lastRemoved := out.foldl (fun l f => some (newestSeq l f.seq)) j.lastRemoved },
    out.map fun f => .late f.port)

/-- The quality code of a kept frame (R140). -/
def Jitter.takeQuality (q : Nat) (j : Jitter) : Jitter × List Count :=
  match j.selected with
  | none => (Jitter.recause { j with selected := some q }, [])
  | some p =>
    if p = q then ({ j with candidate := none }, [])
    else
      let run := match j.candidate with
        | some (c, k) => if c = q then k + 1 else 1
        | none => 1
      if 3 ≤ run then (Jitter.recause { j with selected := some q, candidate := none }, [.switch])
      else ({ j with candidate := some (q, run) }, [])

/-- A kept frame: its place, its quality code, then the maximum depth (R138). Where held sequences lie so far apart that
`seqOlder` does not order them, the place that one pass of `insertBy` finds is the model's choice (log entry 58). -/
def Jitter.keep (f : Frame) (j : Jitter) : Jitter × List Count :=
  let j1 := { j with frames := insertBy (fun y x => seqOlder y.seq x.seq) f j.frames }
  let (j2, c2) := j1.takeQuality f.quality
  let (j3, c3) := j2.enforce
  (j3, c2 ++ c3)

/-- A payload handed over, with the length one frame duration has in the negotiated codec (R138). -/
def Jitter.arrive (length : Nat) (f : Frame) (j : Jitter) : Jitter × List Count :=
  if f.payload.length ≠ length then (j, [.received f.port, .stray f.port])
  else if j.lastRemoved = some f.seq ∨ j.frames.any (·.seq == f.seq) then
    (j, [.received f.port, .duplicate f.port])
  else if (match j.lastRemoved with | some l => seqOlder f.seq l | none => false) then
    (j, [.received f.port, .late f.port])
  else
    let (j', c) := j.keep f
    (j', .received f.port :: c)

/-- Playout begins (R141); in any state but Off nothing changes. -/
def Jitter.beginPlayout (now : Nat) (j : Jitter) : Jitter :=
  if j.playout = .off then
    Jitter.recause { j with playout := .priming, instant := some (now + j.duration), began := now, primed := true }
  else j

/-- Playout is stopped and the buffer emptied (R141). That the rest of the frame being played is dropped at once too, so
that the fade of R2 finds no samples of it, is the model's choice (log entry 70), and so is that the real frame played last
is forgotten and repeated by no later playout (log entry 86). -/
def Jitter.stopPlayout (j : Jitter) : Jitter :=
  { j with
    frames := [], instant := none, playout := .off, gap := 0, correction := 0, last := .silent
    cause := some .concealing, lastReal := none, playing := [], primed := false }

/-- A session is accepted: the buffer is empty and told the frame duration (R120, R141). -/
def Jitter.accept (duration : Nat) (j : Jitter) : Jitter :=
  { j.stopPlayout with duration := duration, selected := none, candidate := none, lastRemoved := none }

/-- Samples of a payload of the current frame duration. -/
def Jitter.samples (codec : Codec) (j : Jitter) (payload : List Byte) : List Int :=
  (List.range (48 * j.duration)).map (Config.payloadSample codec payload)

/-- The gap time up by one frame duration (R144). -/
def Jitter.gapUp (j : Jitter) : Jitter := { j with gap := satAdd max16 j.gap j.duration }

/-- Silence for want of a frame: the cause is Concealing unless the profile is unusable (R143). -/
def Jitter.silent (j : Jitter) : Jitter :=
  { j with playing := [], cause := if j.unusable then some .profileUnusable else some .concealing }

/-- Depth correction after a frame played in Playing (R145). -/
def Jitter.correct (target : Nat) (j : Jitter) : Jitter × List Count :=
  if j.frames.length ≤ target then ({ j with correction := 0 }, [])
  else if j.correction + 1 < 32 then ({ j with correction := j.correction + 1 }, [])
  else
    match j.frames with
    | [] => (j, [])
    | f :: fs => ({ j with frames := fs, lastRemoved := some f.seq, correction := 0 }, [.late f.port])

/-- The oldest frame plays, real or silent (R142, R145). -/
def Jitter.playOldest (codec : Codec) (target : Nat) (f : Frame) (rest : List Frame) (j : Jitter) :
    Jitter × List Count × Bool :=
  let j1 := { j with frames := rest, lastRemoved := some f.seq, playout := .playing, primed := false }
  if j.unusable then
    let (j2, c) := Jitter.correct target { j1.gapUp with last := .silent, playing := [], cause := some .profileUnusable }
    (j2, .concealed j.duration :: c, false)
  else
    let (j2, c) := Jitter.correct target
      { j1 with last := .real, gap := 0, cause := none, lastReal := some f.payload, playing := j.samples codec f.payload }
    (j2, c, true)

/-- Concealment (R143). -/
def Jitter.conceal (codec : Codec) (j : Jitter) : Jitter :=
  let j1 := { j.gapUp with last := .concealed, playout := .playing, primed := false, lastReal := none }
  match j.profile, j.lastReal with
  | some p, some payload =>
    if p.concealment = .repeatFade then
      { j1 with
        playing := (j.samples codec payload).mapIdx fun k x =>
          rounded (rampSample (some 0) none k (48 * j.duration) (widen x)) }
    else j1.silent
  | _, _ => j1.silent

/-- An instant at which nothing plays and the gap time rises: Refilling, or Priming without a profile. -/
def Jitter.wait (p : Playout) (primed : Bool) (j : Jitter) : Jitter :=
  { j.gapUp.silent with last := .silent, playout := p, primed := primed }

/-- An instant taken as in Playing (Table 7-4). -/
def Jitter.playRow (codec : Codec) (target minimum : Nat) (j : Jitter) : Jitter × List Count × Bool :=
  match j.frames with
  | [] => (j.conceal codec, [.concealed j.duration], false)
  | f :: rest =>
    if j.last = .concealed ∧ j.frames.length < minimum then
      (j.wait .refilling false, [.concealed j.duration], false)
    else j.playOldest codec target f rest

/-- The playout instant that falls at time `t` (Table 7-4), and whether a real frame played. -/
def Jitter.atInstant (codec : Codec) (t : Nat) (j : Jitter) : Jitter × List Count × Bool :=
  match j.profile with
  | none => (j.wait j.playout (j.playout == .priming), [.concealed j.duration], false)
  | some p =>
    let target := effFrames p.target j.duration
    let minimum := effFrames p.minimum j.duration
    match j.playout with
    | .off => (j, [], false)
    | .priming =>
      if target ≤ j.frames.length ∨ j.began + target * j.duration ≤ t then j.playRow codec target minimum
      else ({ j.silent with last := .silent, primed := true }, [], false)
    | .playing => j.playRow codec target minimum
    | .refilling =>
      if target ≤ j.frames.length then j.playRow codec target minimum
      else (j.wait .refilling false, [.concealed j.duration], false)

/-- The gap this instant begins, if it does (R144). -/
def gapBegins (before after : Jitter) (real : Bool) : List Count :=
  if !real && (before.last == .real || before.primed) && after.playout != .priming && after.playout != .off
  then [.gap] else []

/-- A whole playout instant: the audio, the counts, the next instant one frame duration later. -/
def Jitter.instantTaken (codec : Codec) (t : Nat) (j : Jitter) : Jitter × List Count × Bool :=
  let (j1, c, real) := j.atInstant codec t
  ({ j1 with instant := some (t + j.duration) }, gapBegins j j1 real ++ c, real)

/-! ### Counters of the link record -/

/-- One count of a port. -/
def PortCounters.bump (c : PortCounters) : Count → PortCounters
  | .received _ => { c with received := satAdd max32 c.received 1 }
  | .duplicate _ => { c with duplicates := satAdd max32 c.duplicates 1 }
  | .late _ => { c with late := satAdd max32 c.late 1 }
  | .stray _ => { c with stray := satAdd max32 c.stray 1 }
  | _ => c

/-- The port a count belongs to, if to one. -/
def Count.port : Count → Option Port
  | .received p => some p
  | .duplicate p => some p
  | .late p => some p
  | .stray p => some p
  | _ => none

/-- One count of a link; each counter stays at its top (R121). -/
def LinkCounters.bump (c : LinkCounters) (k : Count) : LinkCounters :=
  match k.port with
  | some .main => { c with mainPort := c.mainPort.bump k }
  | some .alternate => { c with altPort := c.altPort.bump k }
  | none =>
    match k with
    | .gap => { c with gaps := satAdd max32 c.gaps 1 }
    | .concealed ms => { c with concealed := satAdd max32 c.concealed ms }
    | .switch => { c with switches := satAdd max32 c.switches 1 }
    | .paused => { c with paused := satAdd max32 c.paused 1 }
    | _ => c

/-- Counts taken by link record `n`. That all counts of one payload or instant are shown by one write of the mirror record is
the model's choice (log entry 81). -/
def countLink (n : Nat) (ks : List Count) (s : State) : State :=
  let l := tget s.links n
  putLink n { l with counters := ks.foldl LinkCounters.bump l.counters } s

/-- Write jitter buffer `n`; a change of its playout cause is claimed while the link is Live (R123, R143). -/
def setJit (n : Nat) (j : Jitter) (s : State) : State :=
  if j.cause ≠ (tget s.jits n).cause ∧ (tget s.links n).session = .live then claimCause n j.cause (putJit n j s)
  else putJit n j s

/-- Bytes of one frame duration in a codec (R138). -/
def payloadLength (f : Codec × Nat) : Nat :=
  match f.1 with
  | .linear24 => 144 * f.2
  | .linear16 => 96 * f.2
  | .compactLD => 8 * f.2

/-- A payload of link `n` reaches its jitter buffer (R138). -/
def payloadArrives (n : Nat) (f : Frame) (s : State) : State :=
  match (tget s.links n).format with
  | none => s
  | some fmt =>
    let (j, c) := (tget s.jits n).arrive (payloadLength fmt) f
    countLink n c (setJit n j s)

end Sys2Proof.Machine
end

