-- ==== Sys2Proof/Machine/LinkSession.lean ====
section
/-!
DEFINITION. Field link sessions (chapter 6): messages sent, session state changes and activity, as far as they reach
no key.
-/
namespace Sys2Proof.Machine

/-- The path address of a port. -/
def Link.path (l : Link) : Port → Option Nat
  | .main => l.pathMain
  | .alternate => l.pathAlt

/-- The link record with the path address of a port written. -/
def Link.setPath (l : Link) (p : Port) (a : Nat) : Link :=
  match p with
  | .main => { l with pathMain := some a }
  | .alternate => { l with pathAlt := some a }

/-- A message sent on one port, where it has a path address (R114). -/
def sendOn (n : Nat) (p : Port) (m : LinkMsg) (s : State) : State :=
  match (tget s.links n).path p with
  | none => s
  | some a => emit (.linkMsg p a m) s

/-- A message sent on every port that has a path address (R114). That it goes on Main first and then on Alternate is the
model's choice (log entry 77). -/
def sendAll (n : Nat) (m : LinkMsg) (s : State) : State := sendOn n .alternate m (sendOn n .main m s)

/-- The unit of the session; a link without one sends nothing that names it. -/
def Link.unitId (l : Link) : Word32 := l.unit.getD 0

/-- Does the unit take Rest and Wake (R117)? -/
def Link.takesDuty (l : Link) : Bool := match l.offered with | some o => o.duty | none => false

/-- Effective duty mode (R117). -/
def effectiveDuty (l : Link) : Duty :=
  if !l.takesDuty && l.offered.isSome && (l.duty == .wakeRest || l.duty == .wakeStay) then .always else l.duty

/-- Wake, to a unit that supports Duty. -/
def sendWake (n : Nat) (s : State) : State :=
  let l := tget s.links n
  if l.takesDuty then sendAll n (.wake l.unitId n) s else s

/-- Rest, to a unit that supports Duty; the time of the latest is kept. -/
def sendRest (n : Nat) (s : State) : State :=
  let l := tget s.links n
  if l.takesDuty then putLink n { tget s.links n with lastRest := some s.now } (sendAll n (.rest l.unitId n) s) else s

/-- The code of a session state in a link event: its place in Table 6-5 (Table 6-6, section 10.5), where Fading stands
before Resting and Waking. -/
def Session.eventCode : Session → Nat
  | .vacant => 0
  | .negotiating => 1
  | .live => 2
  | .fading => 3
  | .resting => 4
  | .waking => 5
  | .closing => 6

/-- The link's event (R122, Table 6-6). That whether the link holds a reservation is given as 1 for yes and 0 for no is the
model's choice (log entry 15). -/
def linkEvent (n : Nat) (old new : Session) (reason : LinkReason) (unit : Word32) (s : State) : State :=
  raiseEvent (23 + n)
    (u8 old.eventCode ++ u8 new.eventCode ++ u8 reason.ctorIdx ++ u32 unit.toNat
      ++ uFlag (tget s.links n).reserved.isSome) s

/-- A change of session state with the timers that run in the new state, reported by R122. That the mirror record is written
before the event is raised is the model's choice (log entry 52). -/
def sessionChange (n : Nat) (new : Session) (timers : LinkTimers) (reason : LinkReason) (s : State) : State :=
  let l := tget s.links n
  linkEvent n l.session new reason l.unitId (putLink n { l with session := new, timers := timers } s)

/-- The jitter buffer stops and empties itself (R141). -/
def stopJitter (n : Nat) (s : State) : State := putJit n (tget s.jits n).stopPlayout s

/-- Leaving Live for a state other than Fading (R123). -/
def leaveLive (n : Nat) (s : State) : State :=
  if (tget s.links n).session = .live then claimCause n (some .notLive) (stopJitter n s) else s

/-- The linger timer on entry into Live (R132). -/
def lingerStart (l : Link) (now : Nat) : Option Nat :=
  if l.effective = .wakeRest ∧ l.toward = false ∧ l.fromLink = false then some (now + 1000 * l.linger) else none

/-- The link enters Live (R123): playout begins, the playout cause is claimed. -/
def goLive (n : Nat) (reason : LinkReason) (s : State) : State :=
  let l := tget s.links n
  let j := (tget s.jits n).beginPlayout s.now
  sessionChange n .live { LinkTimers.stopped with linger := lingerStart l s.now } reason
    (claimCause n j.cause (putJit n j s))

/-- Live goes Fading (R125). -/
def goFading (n : Nat) (s : State) : State :=
  let l := tget s.links n
  sessionChange n .fading { LinkTimers.stopped with recovery := some (s.now + l.recovery) } .gapLoss
    (claimCause n (some .notLive) s)

/-- The link goes Waking with Wake sent (R127); the silence timer runs on. That Wake leaves before the link
record is written is the model's choice (log entry 77). -/
def goWaking (n : Nat) (reason : LinkReason) (s : State) : State :=
  let l := tget s.links n
  sessionChange n .waking { LinkTimers.stopped with wake := some (s.now + 2000), silence := l.timers.silence } reason
    (sendWake n s)

/-- What the effective duty mode does on entry into Resting (R132). -/
def restingCheck (n : Nat) (reason : LinkReason) (s : State) : State :=
  let l := tget s.links n
  match l.effective with
  | .always => goWaking n reason s
  | .wakeRest | .wakeStay =>
    if l.fromLink then goLive n .woken (sendWake n s)
    else if l.toward then goWaking n reason s
    else s
  | _ => s

/-- The link goes Resting (R126); from Waking the silence timer keeps its expiry. -/
def goResting (n : Nat) (reason : LinkReason) (rest : Bool) (s : State) : State :=
  let l := tget s.links n
  let silence := if l.session = .waking then l.timers.silence else some (s.now + 3000)
  let s1 := leaveLive n (if rest then sendRest n s else s)
  restingCheck n .wakeSent
    (sessionChange n .resting { LinkTimers.stopped with silence := silence, keepalive := some (s.now + 1000) } reason s1)

/-- The link goes Closing with Close sent (R128). That Close leaves before the link record is written is the model's choice
(log entry 77). -/
def enterClosing (n : Nat) (reason : LinkReason) (s : State) : State :=
  let s1 := leaveLive n (sendAll n (.close (tget s.links n).unitId n) s)
  sessionChange n .closing { LinkTimers.stopped with close := some (s.now + 500) } reason s1

/-- Activity toward link `n` (R131). -/
def towardNow (s : State) (n : Nat) : Bool :=
  !(tget s.fold.recs (24 + n)).ints.isEmpty || !(tget s.call.lists (64 + n)).isEmpty

/-- Activity from link `n` (R131). -/
def fromNow (s : State) (n : Nat) : Bool := (tget s.arb.keys (64 + n)).any fun k => k.pressed || k.latched

/-- The linger timer after a report of activity in Live under WakeRest (R132). -/
def lingerAfter (l : Link) (toward fromLink : Bool) (now : Nat) : Option Nat :=
  if toward || fromLink then none
  else if l.toward || l.fromLink then some (now + 1000 * l.linger)
  else l.timers.linger

/-- The activity reports of link `n` (R131), and what they do by R132. -/
def syncLink (n : Nat) (s : State) : State :=
  let l := tget s.links n
  let t := towardNow s n
  let f := fromNow s n
  if l.toward = t ∧ l.fromLink = f then s
  else
    let linger := if l.session = .live ∧ l.effective = .wakeRest then lingerAfter l t f s.now else l.timers.linger
    let s1 := putLink n { l with toward := t, fromLink := f, timers := { l.timers with linger := linger } } s
    if l.session = .resting ∧ (l.effective = .wakeRest ∨ l.effective = .wakeStay) then
      if f && !l.fromLink then goLive n .woken (sendWake n s1)
      else if t && !l.toward && !f then goWaking n .wakeSent s1
      else s1
    else s1

end Sys2Proof.Machine
end

