-- ==== Sys2Proof/Machine/RecallCause.lean ====
section
/-!
DEFINITION. The recall engine's news and its two suspension causes (R167, R168).
-/
namespace Sys2Proof.Machine

/-- RecallState for Suspended or Resumed: resume state, next destination or entry, the causes present. -/
def suspendDetail (change : RecallChange) (r : Recall) : List Byte :=
  uOpt 1 (r.work.map (·.ctorIdx)) ++ u8 change.ctorIdx ++ u16 r.scene ++ u8 (resumeCode r.resume)
    ++ u16 (if r.resume = .clearing then r.nextDest else r.nextEntry) ++ uPresent r.allCall ++ uPresent r.emergency

/-- RecallState for Ended: result code and the four counts. -/
def endDetail (code : Code) (r : Recall) : List Byte :=
  uOpt 1 (r.work.map (·.ctorIdx)) ++ u8 RecallChange.ended.ctorIdx ++ u16 r.scene ++ u8 code.ctorIdx
    ++ u16 r.applied ++ u16 r.lockedCount ++ u16 r.noRoomCount ++ u16 r.invalid

/-- The engine goes Suspended and keeps the state it resumes (R163, R167). That the mirror record is written before the
event is raised is the model's choice (log entry 52). -/
def suspendRecall (resume : EngineState) (s : State) : State :=
  let r := { s.engine with state := .suspended, resume := resume }
  raiseEvent 1 (suspendDetail .suspended r) (putRecall r s)

/-- A suspended recall resumes with 16 protected steps (R167). That the mirror record is written before the event is
raised is the model's choice (log entry 52). -/
def resumeRecall (s : State) : State :=
  let r := { s.engine with state := s.engine.resume, protectedN := 16 }
  raiseEvent 1 (suspendDetail .resumed r) (putRecall r s)

/-- The causes handed over; the withdrawal of the last one resumes a suspended recall (R167). -/
def handCauses (allCall emergency : Bool) (s : State) : State :=
  if s.engine.allCall = allCall ∧ s.engine.emergency = emergency then s
  else
    let s1 := putRecall { s.engine with allCall := allCall, emergency := emergency } s
    if s.engine.state = .suspended ∧ allCall = false ∧ emergency = false then resumeRecall s1 else s1

/-- The grant arbiter hands over the all-call cause (R78); nothing is handed where it stands as last handed over. -/
def handAllCall (s : State) : State := handCauses (decide (0 < s.arb.allCall)) s.engine.emergency s

/-- Is the pin level of an input its active level (R89)? An unbound input is answered as with the active level High, also
right after a CI.BIND with function None (R90): the model's choice (log entry 50). -/
def ControlIn.activeAt (c : ControlIn) (high : Bool) : Bool :=
  if c.function = .none then high else high == c.activeHigh

/-- Is the input active? -/
def ControlIn.active (c : ControlIn) : Bool := c.activeAt c.pinHigh

/-- Does the input assert an emergency (R93)? -/
def ControlIn.asserts (c : ControlIn) : Bool :=
  c.function == .emergency && (if c.byLevel then c.active else c.latch)

/-- The number of inputs that assert an emergency (R93). -/
def emergencyCount (s : State) : Nat := (s.call.inputs.toList.filter ControlIn.asserts).length

/-- The call unit hands over the emergency cause (R93). -/
def handEmergency (s : State) : State := handCauses s.engine.allCall (decide (0 < emergencyCount s)) s

end Sys2Proof.Machine
end

