-- ==== Sys2Proof/Machine/Keys.lean ====
section
/-!
DEFINITION. The key table and the lamps: the one way to write a key (R49, R56, R78, R108, R131), refusal, busy mark.
-/
namespace Sys2Proof.Machine

/-- The entry of a key. -/
def State.key (s : State) (st k : Nat) : KeyEntry := (tget s.arb.keys st).getD k default

/-- Does the part have this key (Table 0-5)? -/
def State.hasKey (s : State) (st k : Nat) : Bool := decide (st < 89) && decide (k < (tget s.arb.keys st).length)

/-- Does the key hold a listen count (R63)? -/
def KeyEntry.listening (e : KeyEntry) : Bool :=
  match e.held with
  | some (.listenPair _ _) => true
  | _ => false

/-- Is a request of the key in place: Talking, Waiting, Pending, or Idle with a listen hold? -/
def KeyEntry.inPlace (e : KeyEntry) : Bool :=
  e.state == .talking || e.state == .waiting || e.state == .pending || e.listening

/-- Is there an entry of calling station `c` in the list of station `t`? -/
def hasCall (s : State) (t c : Nat) : Bool := (tget s.call.lists t).any (·.caller == c)

/-- The lamp state of a key (R56, Tables 3-3 and 4-3). -/
def lampOf (s : State) (st k : Nat) : Lamp :=
  let e := s.key st k
  if e.busy.isSome || e.state == .refused then .busy
  else if e.state == .talking then .on
  else if e.state == .waiting || e.state == .pending then .flash 0
  else if e.listening then .on
  else if e.function == .reply && !(tget s.call.lists st).isEmpty then .flash 1
  else if e.function == .call && hasCall s e.target st then .flash 2
  else .off

/-- A tally: Flash with any generator is sent as Flash (R115, log entry 15). -/
def tallyOf (s : State) (st k : Nat) : Lamp :=
  match lampOf s st k with
  | .flash _ => .flash 0
  | l => l

/-- The tallies of the reporter keys of link `n` (R115). -/
def talliesOf (s : State) (n : Nat) : List Lamp := (List.range 4).map (tallyOf s (64 + n))

/-- A lamp change reaches the lamp table; a lamp at or above the configured key count is not marked (R108). -/
def writeLamp (st k : Nat) (lamp : Lamp) (s : State) : State :=
  let p := tget s.panels st
  putPanel st { p with lamps := tset p.lamps k { lamp := lamp, marked := decide (k < p.keyCount), carried := false } } s

/-- Hand the lamp of a panel key to the loop controller if it has changed (R56). -/
def refreshLamp (st k : Nat) (s : State) : State :=
  if st < 64 ∧ lampOf s st k ≠ (tget (tget s.panels st).lamps k).lamp then writeLamp st k (lampOf s st k) s else s

/-- Hand over every changed lamp of a panel station. -/
def refreshLamps (st : Nat) (s : State) : State := if st < 64 then forEach 24 (refreshLamp st) s else s

/-- Is the key counted as all-call (R78)? -/
def KeyEntry.allCall (e : KeyEntry) : Bool := e.cls == 0 && e.state == .talking

/-- A count after one of its members changed. -/
def recount (n : Nat) (before after : Bool) : Nat :=
  if before && !after then n - 1 else if !before && after then n + 1 else n

/-- Activity is reported where the station is a field link (R131). -/
def syncStation (st : Nat) (s : State) : State := if 64 ≤ st ∧ st < 88 then syncLink (st - 64) s else s

/-- Write a key entry: the all-call count follows it (R78), its lamp is handed over (R56), a reporter key's flags are
reported (R131), and a change of the all-call cause is handed to the recall engine as it happens (R78), here after lamp
and report (log entry 33). -/
def putKey (st k : Nat) (e : KeyEntry) (s : State) : State :=
  let s1 := { s with
    arb.keys := tset s.arb.keys st ((tget s.arb.keys st).set k e)
    arb.allCall := recount s.arb.allCall (s.key st k).allCall e.allCall }
  handAllCall (syncStation st (refreshLamp st k s1))

/-- GrantRefused (R79): station, key index, reason. -/
def raiseRefused (st k : Nat) (code : Code) (s : State) : State :=
  raiseEvent 49 (u8 st ++ u8 k ++ u8 code.ctorIdx) s

/-- A request is refused (R55, R79): the key is Refused; a Latching key starts its refusal timer. -/
def refuseKey (st k : Nat) (code : Code) (s : State) : State :=
  let e := s.key st k
  raiseRefused st k code
    (putKey st k
      { e with state := .refused, held := none
               refusal := if e.mode = .latching then some (s.now + 2000) else e.refusal } s)

/-- A key goes Talking (grant time now) with what it holds. -/
def talkKey (st k : Nat) (held : Held) (s : State) : State :=
  putKey st k { s.key st k with state := .talking, grant := s.now, held := some held } s

/-- A key loses its place without being released: Idle, unlatched, busy mark for 2 s (R56). -/
def loseKey (st k : Nat) (s : State) : State :=
  putKey st k { s.key st k with state := .idle, held := none, latched := false, busy := some (s.now + 2000) } s

/-- A key dropped from a full list (R62, R67): Idle with a busy mark, GrantRefused with NoRoom. -/
def dropKey (st k : Nat) (s : State) : State := raiseRefused st k .noRoom (loseKey st k s)

end Sys2Proof.Machine
end

