-- ==== Sys2Proof/Machine/CallLists.lean ====
section
/-!
DEFINITION. The call lists (R80 to R84).
-/
namespace Sys2Proof.Machine

/-- Call list of station `t` written. -/
def putCalls (t : Nat) (l : List CallEntry) (s : State) : State := { s with call.lists := tset s.call.lists t l }

/-- The reports of R84 for a change of the list of station `t` that concerns calling station `c`: lamps, then
activity toward a link. The control outputs follow the list (`condition`). -/
def callReports (t c : Nat) (s : State) : State := syncStation t (refreshLamps c (refreshLamps t s))

/-- The entry of calling station `c` leaves the list of station `t` (R83, R86). -/
def removeCall (t c : Nat) (s : State) : State :=
  if hasCall s t c then callReports t c (putCalls t ((tget s.call.lists t).filter (·.caller != c)) s) else s

/-- When a call taken now expires (R82). -/
def callExpiryTime (s : State) : Nat := s.now + 1000 * s.call.timeout

/-- A call from station `c` to station `t` (R81). -/
def takeCall (c t : Nat) (s : State) : CallAnswer × State :=
  let l := tget s.call.lists t
  let fresh : CallEntry := { caller := c, repeats := 0, expiry := callExpiryTime s }
  let s0 := { s with reports := s.reports ++ [.call t] }
  if t = c then (.refused, s)
  else if hasCall s t c then
    (.again, putCalls t (l.map fun e =>
      if e.caller = c then { e with repeats := satAdd 255 e.repeats 1, expiry := callExpiryTime s } else e) s0)
  else if l.length < 8 then (.new, callReports t c (putCalls t (l ++ [fresh]) s0))
  else
    match l with
    | [] => (.new, s0)
    | old :: rest =>
      let s1 := raiseEvent 48 (u8 t ++ u8 old.caller ++ u8 old.repeats ++ u8 c) (putCalls t (rest ++ [fresh]) s0)
      (.overflowed, callReports t c (refreshLamps old.caller s1))

end Sys2Proof.Machine
end

