-- ==== Sys2Proof/Machine/FoldUnit.lean ====
section
/-!
DEFINITION. The foldback unit's lists, duck state and notices (R30, R37 to R46).
-/
namespace Sys2Proof.Machine

/-- Does entry `y` stand before `x`: by class, then arrival, then the order in which the requests were taken (R30)? -/
def FoldEntry.before (y x : FoldEntry) : Bool :=
  decide (y.cls < x.cls) || (y.cls == x.cls &&
    (decide (y.stamp < x.stamp) || (y.stamp == x.stamp && decide (y.order < x.order))))

/-- An entry put at its place in a list. -/
def FoldEntry.insert (x : FoldEntry) (l : List FoldEntry) : List FoldEntry := insertBy FoldEntry.before x l

/-- The result of a change of a record's lists: the record, and the notices in their order (R39). -/
abbrev FoldChange := FoldRec × List (FoldEntry × Notice)

/-- Pending entries moved in while there is room (R41). -/
def FoldRec.moveIn : Nat → FoldRec → FoldChange
  | 0, r => (r, [])
  | fuel + 1, r =>
    match r.pends with
    | [] => (r, [])
    | e :: rest =>
      if r.ints.length < r.depth then
        let (r', ns) := FoldRec.moveIn fuel { r with ints := e.insert r.ints, pends := rest }
        (r', (e, .movedIn) :: ns)
      else (r, [])

/-- The pending list brought back to 8: its last entries dropped (R38, R44). -/
def FoldRec.trim : Nat → FoldRec → FoldChange
  | 0, r => (r, [])
  | fuel + 1, r =>
    if 8 < r.pends.length then
      match r.pends.getLast? with
      | none => (r, [])
      | some e =>
        let (r', ns) := FoldRec.trim fuel { r with pends := r.pends.dropLast }
        (r', (e, .dropped .noRoom) :: ns)
    else (r, [])

/-- A request placed (R38). -/
def FoldRec.place (e : FoldEntry) (r : FoldRec) : FoldChange :=
  if r.ints.length < r.depth then ({ r with ints := e.insert r.ints }, [(e, .entered)])
  else
    match r.ints.getLast? with
    | none => (r, [(e, .refused .noRoom)])
    | some last =>
      if e.cls < last.cls then
        let r1 := { r with ints := e.insert r.ints.dropLast, pends := last.insert r.pends }
        let (r2, ns) := r1.trim 1
        (r2, (last, .movedOut) :: (e, .entered) :: ns)
      else if r.pends.length < 8 then ({ r with pends := e.insert r.pends }, [(e, .parked)])
      else (r, [(e, .refused .noRoom)])

/-- A requester's entry removed, the pending head moved in (R40); none where it holds none. -/
def FoldRec.remove (q : Requester) (r : FoldRec) : Option FoldChange :=
  if r.pends.any (·.requester == q) then some ({ r with pends := r.pends.filter (·.requester != q) }, [])
  else if r.ints.any (·.requester == q) then
    some (FoldRec.moveIn r.pends.length { r with ints := r.ints.filter (·.requester != q) })
  else none

/-- The entries beyond a lowered depth moved to the pending list, from the end (R44). -/
def FoldRec.moveOut : Nat → FoldRec → FoldChange
  | 0, r => (r, [])
  | fuel + 1, r =>
    if r.depth < r.ints.length then
      match r.ints.getLast? with
      | none => (r, [])
      | some e =>
        let (r', ns) := FoldRec.moveOut fuel { r with ints := r.ints.dropLast, pends := e.insert r.pends }
        (r', (e, .movedOut) :: ns)
    else (r, [])

/-- A new interrupt depth (R44). -/
def FoldRec.setDepth (n : Nat) (r : FoldRec) : FoldChange :=
  let (r1, out) := FoldRec.moveOut r.ints.length { r with depth := n }
  let (r2, dropped) := FoldRec.trim r1.pends.length r1
  let (r3, moved) := FoldRec.moveIn r2.pends.length r2
  (r3, out ++ dropped ++ moved)

/-- The duck state after the interrupt list has changed (R45, Table 2-7). -/
def FoldRec.reduck (now : Nat) (old new : FoldRec) : FoldRec :=
  if old.ints.isEmpty && !new.ints.isEmpty then { new with duck := .ducked, holdTimer := none }
  else if !old.ints.isEmpty && new.ints.isEmpty then
    if new.hold = 0 then { new with duck := .opened, holdTimer := none }
    else { new with duck := .holding, holdTimer := some (now + new.hold) }
  else new

/-! ### Notices -/

/-- CueRefused (R158): channel, cue destination, code. -/
def raiseCueRefused (p d : Nat) (code : Code) (s : State) : State :=
  raiseEvent 52 (u8 p ++ u8 d ++ u8 code.ctorIdx) s

/-- The cue place of a channel written. -/
def setCuePlace (p : Nat) (c : CuePlace) (s : State) : State :=
  putChan p { tget s.chans p with cuePlace := c } s

/-- A notice reaches a playback channel (R158). -/
def noticeChannel (p d : Nat) (n : Notice) (s : State) : State :=
  match n with
  | .entered | .movedIn => setCuePlace p .interrupt s
  | .parked | .movedOut => setCuePlace p .pending s
  | .refused code => raiseCueRefused p d code (setCuePlace p .none s)
  | .dropped code => raiseCueRefused p d code (setCuePlace p .none s)

/-- A notice reaches a key (Table 3-6). -/
def noticeKey (st k : Nat) (n : Notice) (s : State) : State :=
  let e := s.key st k
  match n with
  | .entered | .movedIn => putKey st k { e with state := .talking, grant := s.now } s
  | .parked | .movedOut => putKey st k { e with state := .pending } s
  | .refused code => refuseKey st k code s
  | .dropped _ => dropKey st k s

/-- A notice reaches its requester. -/
def giveNotice (d : Nat) (e : FoldEntry) (n : Notice) (s : State) : State :=
  match e.requester with
  | .key st k => noticeKey st k n s
  | .channel p => noticeChannel p d n s

/-- Does the notice put an entry into the interrupt list (Table 8-5)? -/
def Notice.joins : Notice → Bool
  | .entered => true
  | .movedIn => true
  | _ => false

/-- Foldback record `r` written, without notices. -/
def putRec (r : Nat) (rec : FoldRec) (s : State) : State := { s with fold.recs := tset s.fold.recs r rec }

/-- A change of a record's lists takes effect: duck state (R45), notices in their order (R39), a report to the
stream unit for each join (Table 8-5), and the activity report of a link's return (R131). That all notices come before the
activity report is the model's choice (log entry 84). -/
def applyFold (r d : Nat) (c : FoldChange) (s : State) : State :=
  let old := tget s.fold.recs r
  let s1 := putRec r (FoldRec.reduck s.now old c.1) s
  let s2 := c.2.foldl (fun s n => giveNotice d n.1 n.2 s) s1
  let s3 := { s2 with reports := s2.reports ++ (c.2.filter fun n => n.2.joins).map fun _ => .grant d }
  if 24 ≤ r then syncLink (r - 24) s3 else s3

/-- Does the requester stand in either list (check 2 of Table 2-5)? -/
def FoldRec.standsIn (r : FoldRec) (q : Requester) : Bool := r.ints.any (·.requester == q) || r.pends.any (·.requester == q)

/-- An interrupt or cue request (R37, R38). A key without microphone source is refused by the arbiter before it asks
(check 3 of Table 2-5, Table 3-5). -/
def foldRequest (q : Requester) (d src cls level stamp : Nat) (s : State) : State :=
  let e : FoldEntry :=
    { requester := q, source := src, cls := cls, level := level, stamp := stamp, order := s.fold.taken }
  let s1 := { s with fold.taken := s.fold.taken + 1 }
  match recordOf s d with
  | none => giveNotice d e (.refused .wrongState) s1
  | some r =>
    let rec_ := tget s.fold.recs r
    if rec_.standsIn q then giveNotice d e (.refused .wrongState) s1
    else if rec_.minus.contains src then giveNotice d e (.refused .minusConflict) s1
    else applyFold r d (rec_.place e) s1

/-- A removal request (R40); NotHeld changes nothing. -/
def foldRemove (q : Requester) (d : Nat) (s : State) : State :=
  match recordOf s d with
  | none => s
  | some r =>
    match (tget s.fold.recs r).remove q with
    | none => s
    | some c => applyFold r d c s

end Sys2Proof.Machine
end

