-- ==== Sys2Proof/Machine/Grant.lean ====
section
/-!
DEFINITION. The grant arbiter: deciding and ending requests (R57 to R70), presses and releases (R51 to R55).
-/
namespace Sys2Proof.Machine

/-! ### Party lines -/

/-- Line record `l`. -/
def State.line (s : State) (l : Nat) : Line := tget s.arb.lines l

/-- Line record `l` written. -/
def putLine (l : Nat) (r : Line) (s : State) : State := { s with arb.lines := tset s.arb.lines l r }

/-- The entry of a key by its id. -/
def State.keyOf (s : State) (k : KeyId) : KeyEntry := s.key k.station k.key

/-- A turn timer started now, under Rotating (R69). -/
def turnTimer (r : Line) (now : Nat) : Option Nat := if r.policy = .rotating then some (now + 1000 * r.turn) else none

/-- A key put into a waiting list before every key of its own class (R67, R71). -/
def waitFront (s : State) (k : KeyId) (l : List KeyId) : List KeyId :=
  insertBy (fun y x => decide ((s.keyOf y).cls < (s.keyOf x).cls)) k l

/-- A key put into a waiting list after every key of its own class (R67, R69). -/
def waitBack (s : State) (k : KeyId) (l : List KeyId) : List KeyId :=
  insertBy (fun y x => decide ((s.keyOf y).cls ≤ (s.keyOf x).cls)) k l

/-- The lowest of some talkers: highest class number and, among those, the latest grant, the last in the list. -/
def lowestOf (s : State) (ks : List KeyId) : Option KeyId :=
  ks.foldl (fun best k =>
    match best with
    | none => some k
    | some b =>
      let eb := s.keyOf b
      let ek := s.keyOf k
      if eb.cls < ek.cls ∨ (eb.cls = ek.cls ∧ eb.grant ≤ ek.grant) then some k else some b) none

/-- What a key that talks or waits on a line holds. -/
def slotOf (e : KeyEntry) : Option Nat :=
  match e.held with
  | some (.line _ slot) => slot
  | _ => none

/-- The slot leave claim for what a line key held (R70). -/
def leaveSlot (l : Nat) (slot : Option Nat) (s : State) : State :=
  match slot with
  | none => s
  | some d => claimLeave d l s

/-- A key joins the end of the talker set and goes Talking (R67, R68). -/
def joinTalkers (l : Nat) (k : KeyId) (slot : Option Nat) (s : State) : State :=
  let r := s.line l
  talkKey k.station k.key (.line l slot)
    (putLine l { r with talkers := r.talkers ++ [{ key := k, timer := turnTimer r s.now }] } s)

/-- Waiting keys are taken in while places remain (R68). -/
def takeIn (l : Nat) : Nat → State → State
  | 0, s => s
  | fuel + 1, s =>
    let r := s.line l
    match r.waiting with
    | [] => s
    | k :: rest =>
      if r.talkers.length < r.limit then
        takeIn l fuel (joinTalkers l k (slotOf (s.keyOf k)) (putLine l { r with waiting := rest } s))
      else s

/-- A line takes in what it can. -/
def takeInAll (l : Nat) (s : State) : State := takeIn l (s.line l).waiting.length s

/-- A talker leaves the talker set and goes Waiting before every key of its class (R67, R71). -/
def displaceTalker (l : Nat) (k : KeyId) (s : State) : State :=
  let r := s.line l
  let s1 := putLine l
    { r with talkers := r.talkers.filter (·.key != k), waiting := waitFront s k r.waiting } s
  putKey k.station k.key { s1.keyOf k with state := .waiting } s1

/-- A waiting list beyond 16 loses its last key (R67, R71). -/
def trimWaiting (l : Nat) : Nat → State → State
  | 0, s => s
  | fuel + 1, s =>
    let r := s.line l
    if 16 < r.waiting.length then
      match r.waiting.getLast? with
      | none => s
      | some k =>
        let slot := slotOf (s.keyOf k)
        trimWaiting l fuel (leaveSlot l slot
          (dropKey k.station k.key (putLine l { r with waiting := r.waiting.dropLast } s)))
    else s

/-- A line request placed (R67); the slot destination is the one its join claim took. -/
def placeLine (l : Nat) (k : KeyId) (slot : Option Nat) (s : State) : State :=
  let r := s.line l
  let e := s.keyOf k
  if r.talkers.length < r.limit then joinTalkers l k slot s
  else
    match lowestOf s (r.talkers.map (·.key)) with
    | none => leaveSlot l slot (refuseKey k.station k.key .noRoom s)
    | some low =>
      if e.cls < (s.keyOf low).cls then
        trimWaiting l 1 (joinTalkers l k slot (displaceTalker l low s))
      else if r.waiting.length < 16 then
        putKey k.station k.key { e with state := .waiting, held := some (.line l slot) }
          (putLine l { r with waiting := waitBack s k r.waiting } s)
      else leaveSlot l slot (refuseKey k.station k.key .noRoom s)

/-- Is the station a member of the line with the Talk right (Table 3-5)? -/
def mayTalk (s : State) (l st : Nat) : Bool := (s.line l).members.any fun m => m.station == st && m.talk

/-- A LineTalk or LineTalkListen request (R58, R67, R70). -/
def requestLine (k : KeyId) (listen : Bool) (s : State) : State :=
  let l := (s.keyOf k).target
  if !mayTalk s l k.station then refuseKey k.station k.key .wrongState s
  else
    match (if listen then speakerOf s k.station else none) with
    | none => placeLine l k none s
    | some d =>
      let (c, s1) := claimJoin d l s
      if c = .done then placeLine l k (some d) s1 else refuseKey k.station k.key c s

/-! ### Ending a request -/

/-- Talkers toward a destination written. -/
def putTalkers (d : Nat) (l : List KeyId) (s : State) : State := { s with arb.talkers := tset s.arb.talkers d l }

/-- The end of a Reply removes the calling station's entry from the list of the key's station (R64, R83). -/
def replyEnded (st : Nat) (caller : Option Nat) (s : State) : State :=
  match caller with
  | none => s
  | some c => removeCall st c s

/-- What the end of a request hands to the owner of the resource (Table 3-4). -/
def handOff (k : KeyId) (held : Option Held) (s : State) : State :=
  match held with
  | none => s
  | some (.talkPair d src caller) =>
    replyEnded k.station caller
      (putTalkers d ((tget s.arb.talkers d).filter (· != k)) (claimLower false d src s).2)
  | some (.listenPair d src) => (claimLower true d src s).2
  | some (.line l slot) =>
    let r := s.line l
    if r.talkers.any (·.key == k) then
      leaveSlot l slot (takeInAll l (putLine l { r with talkers := r.talkers.filter (·.key != k) } s))
    else leaveSlot l slot (putLine l { r with waiting := r.waiting.filter (· != k) } s)
  | some (.foldDest d caller) => replyEnded k.station caller (foldRemove (.key k.station k.key) d s)

/-- A key whose request has ended: Idle with nothing held, no latch and no refusal timer (R53, R54, R57). -/
def KeyEntry.ended (e : KeyEntry) : KeyEntry := { e with state := .idle, held := none, latched := false, refusal := none }

/-- A request ends (R57): the key goes Idle and holds nothing, then the hand-off. The latch is cleared by every end
(R53, R54, R57), and no refusal timer runs afterwards. -/
def endRequest (k : KeyId) (s : State) : State :=
  let e := s.keyOf k
  handOff k e.held (putKey k.station k.key e.ended s)

/-! ### Deciding a request -/

/-- A destination talker goes Talking (R59), reported as a grant (R61). -/
def grantTalk (d src : Nat) (caller : Option Nat) (k : KeyId) (s : State) : State :=
  let s1 := putTalkers d (tget s.arb.talkers d ++ [k]) s
  let s2 := talkKey k.station k.key (.talkPair d src caller) s1
  { s2 with reports := s2.reports ++ [.grant d] }

/-- The lowest talker loses its place (R60). -/
def preempt (k : KeyId) (s : State) : State :=
  let e := s.keyOf k
  handOff k e.held (loseKey k.station k.key s)

/-- A destination-talk request (R59, R60). -/
def requestTalk (d src : Nat) (caller : Option Nat) (k : KeyId) (s : State) : State :=
  let e := s.keyOf k
  let ks := tget s.arb.talkers d
  let raise := claimRaise false d src e.level s
  if ks.length < (s.dest d).limit then
    if raise.1 = .done then grantTalk d src caller k raise.2 else refuseKey k.station k.key raise.1 s
  else
    match lowestOf s ks with
    | none => refuseKey k.station k.key .busy s
    | some low =>
      if e.cls < (s.keyOf low).cls then
        if raise.1 = .done then grantTalk d src caller k (preempt low raise.2)
        else refuseKey k.station k.key raise.1 s
      else refuseKey k.station k.key .busy s

/-- An interrupt request (R62). What the key will hold is written first; a refusal clears it again. -/
def requestInterrupt (d src : Nat) (caller : Option Nat) (k : KeyId) (s : State) : State :=
  let e := s.keyOf k
  foldRequest (.key k.station k.key) d src e.cls e.level e.stamp
    (putKey k.station k.key { e with state := .idle, held := some (.foldDest d caller) } s)

/-- Is the destination a foldback destination (R58)? -/
def isFoldDest (s : State) (d : Nat) : Bool := (s.dest d).kind == .foldback || (s.dest d).kind == .ret

/-- Talk toward a destination by its kind (R58). -/
def requestToward (d src : Nat) (caller : Option Nat) (k : KeyId) (s : State) : State :=
  if isFoldDest s d then requestInterrupt d src caller k s else requestTalk d src caller k s

/-- A Listen request (R63). -/
def requestListen (k : KeyId) (s : State) : State :=
  let e := s.keyOf k
  match speakerOf s k.station with
  | none => refuseKey k.station k.key .badValue s
  | some d =>
    let (c, s1) := claimRaise true d e.target e.level s
    if c = .done then
      putKey k.station k.key { s1.keyOf k with state := .idle, held := some (.listenPair d e.target) } s1
    else refuseKey k.station k.key c s

/-- The calling station of the newest entry of a station's call list (R64). -/
def newestCaller (s : State) (st : Nat) : Option Nat := (tget s.call.lists st).getLast?.map (·.caller)

/-- A Reply request (R58, R64, Table 3-5). That the checks are made in the order of the table's rows, which settles the code
of a request that fails several, is the model's choice (log entry 71). -/
def requestReply (k : KeyId) (s : State) : State :=
  match micOf s k.station with
  | none => refuseKey k.station k.key .badValue s
  | some src =>
    match newestCaller s k.station with
    | none => refuseKey k.station k.key .wrongState s
    | some c =>
      match speakerOf s c with
      | none => refuseKey k.station k.key .badValue s
      | some d => requestToward d src (some c) k s

/-- A Talk or Interrupt request from a station with a microphone source (Table 3-5). -/
def requestMic (interrupt : Bool) (k : KeyId) (s : State) : State :=
  let d := (s.keyOf k).target
  match micOf s k.station with
  | none => refuseKey k.station k.key .badValue s
  | some src => if interrupt then requestInterrupt d src none k s else requestToward d src none k s

/-- A request is decided by the key's function (R58). -/
def decideRequest (k : KeyId) (s : State) : State :=
  match (s.keyOf k).function with
  | .none => s
  | .talk => requestMic false k s
  | .interrupt => requestMic true k s
  | .lineTalk => requestLine k false s
  | .lineTalkListen => requestLine k true s
  | .listen => requestListen k s
  | .call => (takeCall k.station (s.keyOf k).target s).2
  | .reply => requestReply k s

/-- A request starts: its arrival stamp is the time of the press (R51). -/
def startRequest (k : KeyId) (s : State) : State :=
  decideRequest k (putKey k.station k.key { s.keyOf k with stamp := s.now } s)

/-! ### Presses and releases -/

/-- The latch of a Latching key whose request is in place is set (R53). -/
def latchIfInPlace (k : KeyId) (s : State) : State :=
  if (s.keyOf k).inPlace then putKey k.station k.key { s.keyOf k with latched := true } s else s

/-- Does a press find the key Idle with nothing held? -/
def KeyEntry.free (e : KeyEntry) : Bool := e.state == .idle && e.held.isNone

/-- A press by mode, on a key that is not Refused (R52 to R54). -/
def pressByMode (k : KeyId) (s : State) : State :=
  let e := s.keyOf k
  match e.mode with
  | .momentary => if e.free then startRequest k s else s
  | .latching =>
    if e.latched then endRequest k s
    else if e.free then latchIfInPlace k (startRequest k s)
    else s
  | .smart =>
    if e.latched then endRequest k s
    else if e.free then startRequest k s
    else s

/-- A press of a Refused key: a Latching key is Idle again and takes the press anew (R55). -/
def pressRefused (k : KeyId) (s : State) : State :=
  let e := s.keyOf k
  if e.mode = .latching then
    pressByMode k (putKey k.station k.key { e with state := .idle, latched := false, refusal := none } s)
  else s

/-- A press event (R51). -/
def pressKey (k : KeyId) (s : State) : State :=
  if !s.hasKey k.station k.key then s
  else
    let e := s.keyOf k
    let s1 := putKey k.station k.key { e with pressed := true, busy := none } s
    if e.pressed || e.function == .none then s1
    else if e.state = .refused then pressRefused k s1 else pressByMode k s1

/-- A release by mode, on a key that is not Refused (R52 to R54). -/
def releaseByMode (k : KeyId) (s : State) : State :=
  let e := s.keyOf k
  match e.mode with
  | .momentary => if e.inPlace then endRequest k s else s
  | .latching => s
  | .smart =>
    if !e.inPlace || e.latched then s
    else if s.now - e.stamp < s.arb.smart then putKey k.station k.key { e with latched := true } s
    else endRequest k s

/-- A release of a Refused key (R55). -/
def releaseRefused (k : KeyId) (s : State) : State :=
  let e := s.keyOf k
  if e.mode = .latching then s else putKey k.station k.key { e with state := .idle, held := none } s

/-- A release event (R51). -/
def releaseKey (k : KeyId) (s : State) : State :=
  if !s.hasKey k.station k.key then s
  else
    let e := s.keyOf k
    let s1 := putKey k.station k.key { e with pressed := false, busy := none } s
    if !e.pressed || e.function == .none then s1
    else if e.state = .refused then releaseRefused k s1 else releaseByMode k s1

/-- Does a forced end find something to end: not Idle, or a listen count held (R57)? -/
def KeyEntry.endable (e : KeyEntry) : Bool := e.state != .idle || e.held.isSome || e.latched || e.refusal.isSome

/-- A forced end (R57). -/
def forcedEnd (k : KeyId) (s : State) : State :=
  if (s.keyOf k).endable then endRequest k s else s

/-- A press or a release. -/
def keyEvent (press : Bool) (k : KeyId) (s : State) : State := if press then pressKey k s else releaseKey k s

/-- A station's first `n` keys released: for each a release event, then a forced end (R106, R129). -/
def releaseKeys (st n : Nat) (s : State) : State :=
  forEach n (fun k s => forcedEnd { station := st, key := k } (releaseKey { station := st, key := k } s)) s

end Sys2Proof.Machine
end

