-- ==== Sys2Proof/Machine/Streams.lean ====
section
/-!
DEFINITION. The stream unit (chapter 8): starting, moving, ending and returning; triggers and cues.
-/
namespace Sys2Proof.Machine

/-- Channel record `c`, P0 to P7 then C0 to C7. -/
def State.chan (s : State) (c : Nat) : Channel := tget s.chans c

/-- Is the channel a playback channel? -/
def isPlayback (c : Nat) : Bool := c < 8

/-! ### Cues and starts -/

/-- The removal a channel hands over on leaving Running (R158). -/
def removeCue (c : Nat) (s : State) : State :=
  let r := s.chan c
  match r.cue with
  | none => s
  | some (d, _) =>
    if r.cuePlace = .none then s
    else foldRemove (.channel c) d (setCuePlace c .none s)

/-- The request a playback channel with a cue binding hands over on entering Running (R158). -/
def requestCue (c : Nat) (s : State) : State :=
  match (s.chan c).cue with
  | none => s
  | some (d, cls) => if isPlayback c then foldRequest (.channel c) d (152 + c) cls 216 s.now s else s

/-- A channel enters Running (R151, R158). -/
def enterRunning (c : Nat) (s : State) : State :=
  requestCue c (putChan c { s.chan c with state := .running } s)

/-- A start reaches a channel: taken when Armed, otherwise ignored (R150). -/
def startChannel (c : Nat) (s : State) : State := if (s.chan c).state = .armed then enterRunning c s else s

/-- Does a report match a trigger setting (Table 8-5)? -/
def Trigger.matches (t : Trigger) (r : Report) : Bool :=
  match t, r with
  | .controlInput i, .edge j => i == j
  | .grant d, .grant e => d == e
  | .call st, .call st' => st == st'
  | .recallEnd, .recallEnd => true
  | _, _ => false

/-- One report reaches every channel (R150). That the channels take it in ascending channel number is the model's choice
(log entry 59). -/
def takeReport (r : Report) (s : State) : State :=
  forEach 16 (fun c s => if (s.chan c).trigger.matches r then startChannel c s else s) s

/-- The stream unit takes the reports in order; a start may bring one more (its cue's join). -/
def drainReports : Nat → State → State
  | 0, s => s
  | fuel + 1, s =>
    match s.reports with
    | [] => s
    | r :: rest => drainReports fuel (takeReport r { s with reports := rest })

/-- The end of a command: every report taken (log entry 34). -/
def settle (s : State) : State := drainReports (s.reports.length + 17) s

/-! ### Returning descriptors -/

/-- A write of host memory for the stream unit; Autonomous entry writes none (R160, R189). -/
def streamWrite (addr : Nat) (bytes : List Byte) (s : State) : Bool × State :=
  if s.exch.part = .autonomous then (false, s) else hostWrite addr bytes s

/-- The writes of a return (R157): samples moved, end reason, part state Returned, up to the first that fails. -/
def writeReturn (d : Desc) (moved : Nat) (reason : EndReason) (s : State) : Bool × State :=
  let (ok1, s1) := streamWrite (d.address + 0x10) (u32 moved) s
  if ok1 then
    let (ok2, s2) := streamWrite (d.address + 0x0F) (u8 reason.ctorIdx) s1
    if ok2 then streamWrite (d.address + 0x0E) (u8 1) s2 else (false, s2)
  else (false, s1)

/-- A descriptor is returned (R157); its event gives the channel state after the return (Table 8-6). That the channel's
mirror record is written before the descriptor and the event is the model's choice (log entry 52). -/
def returnDesc (c : Nat) (d : Desc) (moved : Nat) (reason : EndReason) (s : State) : State :=
  let m := min moved max32
  let (ok, s1) := writeReturn d m reason s
  raiseEvent (7 + c)
    (u8 c ++ u8 d.index ++ u8 reason.ctorIdx ++ u32 m ++ u8 (if ok then 0 else 1) ++ u8 (s1.chan c).state.ctorIdx) s1

/-- Descriptors behind one that ended the channel are returned Stopped with 0 (R152, R154). That they left the chain together,
before the first return, is the model's choice (log entry 87). -/
def returnRest (c : Nat) (ds : List Desc) (s : State) : State := ds.foldl (fun s d => returnDesc c d 0 .stopped s) s

/-- Counters of a channel that stay at their top. -/
def Channel.addUnderrun (n : Nat) (r : Channel) : Channel := { r with underrun := satAdd max32 r.underrun n }
/-- See `Channel.addUnderrun`. -/
def Channel.addLost (n : Nat) (r : Channel) : Channel := { r with lost := satAdd max32 r.lost n }

/-- Blocks of a capture channel's staging that belong to its head. -/
def Channel.headBlocks (r : Channel) : Nat :=
  match r.chain with
  | [] => 0
  | d :: _ => min r.staging.length ((d.length - r.moved) / 48)

/-- The progress a capture channel shows: written and staged samples of the head (log entry 20). -/
def Channel.captureProgress (r : Channel) : Nat :=
  match r.chain with
  | [] => 0
  | d :: _ => min d.length (r.moved + 48 * r.staging.length)

/-- Progress brought in line with the staging of a capture channel. -/
def Channel.reprogress (c : Nat) (r : Channel) : Channel :=
  if isPlayback c then r else { r with progress := r.captureProgress }

/-- Does the end of a descriptor with Last end the chain? At its full length (R152) and in Armed (R154) it does; a head
of a Running channel ended early leaves the chain to the next descriptor (R153, R154, R156). -/
def Channel.lastEnds (r : Channel) (reason : EndReason) : Bool := reason == .complete || r.state == .armed

/-- State after the head has ended (R152, R153, R154, R156). -/
def Channel.stateAfterHead (r : Channel) (reason : EndReason) (d : Desc) (rest : List Desc) : ChanState :=
  if d.last && r.lastEnds reason then .idle
  else if !rest.isEmpty then r.state
  else if d.last || r.state == .armed then .idle
  else .starved

/-- The record after the head has left the chain: the next descriptor becomes the head; capture blocks beyond the
head stay for it, or are lost where none moves (R152, R153). That a chain which ends is emptied whole, and shown so by one
write of the mirror record, is the model's choice (log entry 87). -/
def Channel.dropHead (c : Nat) (reason : EndReason) (d : Desc) (rest : List Desc) (r : Channel) : Channel :=
  let st := r.stateAfterHead reason d rest
  let left := if isPlayback c then [] else r.staging.drop r.headBlocks
  let keep := st == .running
  let r1 := { r with
    state := st, chain := if st = .idle then [] else rest
    moved := 0, readAt := 0, progress := 0, staging := if keep then left else [] }
  Channel.reprogress c (if keep then r1 else r1.addLost (48 * left.length))

/-- The head ends and is returned (R152 to R156). That a cue's removal is handed over after all returns is the model's
choice (log entry 64). -/
def endHead (c : Nat) (reason : EndReason) (moved : Nat) (s : State) : State :=
  let r := s.chan c
  match r.chain with
  | [] => s
  | d :: rest =>
    let s1 := returnDesc c d moved reason (putChan c (r.dropHead c reason d rest) s)
    let s2 := if r.stateAfterHead reason d rest = .idle then returnRest c rest s1 else s1
    if r.state = .running ∧ (s2.chan c).state ≠ .running then removeCue c s2 else s2

/-! ### Moving audio -/

/-- Bytes of a captured block. -/
def blockBytes (b : Block) : List Byte := b.samples.flatMap fun x => leBytes 4 (wordOfSample x).toNat

/-- The staged blocks of the head are written (R153, R154): how many samples were written, up to a write that fails. -/
def flushBlocks : List Block → Nat → Nat → State → Nat × State
  | [], _, moved, s => (moved, s)
  | b :: bs, buffer, moved, s =>
    let (ok, s1) := streamWrite (buffer + 4 * moved) (blockBytes b) s
    if ok then flushBlocks bs buffer (moved + 48) s1 else (moved, s1)

/-- A capture head ended early with its staged blocks written first (R153, R154); a write that fails makes the end a
HostFault, and blocks not written are lost (R156). -/
def flushHead (c : Nat) (reason : EndReason) (s : State) : State :=
  let r := s.chan c
  match r.chain with
  | [] => s
  | d :: _ =>
    let blocks := r.staging.take r.headBlocks
    let (moved, s1) := flushBlocks blocks d.buffer r.moved s
    let short := r.moved + 48 * blocks.length - moved
    let s2 := if short = 0 then s1 else putChan c ((s1.chan c).addLost short) s1
    endHead c (if short = 0 then reason else .hostFault) moved s2

/-- A block of a playback channel in one mix period (R152, R153): the block that plays, if it is ready. -/
def Channel.dueBlock (r : Channel) : Option Block := r.staging.find? fun b => b.at_ == r.moved

/-- What a playback channel gives the mixer in this period; silence where nothing is ready. -/
def Channel.plays (r : Channel) : List Int :=
  if r.state = .running then
    match r.dueBlock with
    | some b => b.samples
    | none => []
  else []

/-- A playback channel in one mix period (R152, R153). That its record is written with the block counted and again as the
head ends is the model's choice (log entry 76). -/
def playbackPeriod (c : Nat) (s : State) : State :=
  let r := s.chan c
  match r.state, r.chain with
  | .starved, _ => putChan c (r.addUnderrun 48) s
  | .running, d :: _ =>
    let r1 := if r.dueBlock.isSome then r else r.addUnderrun 48
    let moved := r.moved + 48
    let r2 := { r1 with
      moved := moved, staging := r.staging.filter fun b => decide (moved ≤ b.at_), progress := r.progress + 48 }
    if r2.progress < d.length then putChan c r2 s
    else if d.loop then putChan c { r2 with progress := 0 } s
    else endHead c .complete moved (putChan c r2 s)
  | _, _ => s

/-- A capture channel in one mix period takes a block of finished output (R152, R153). -/
def capturePeriod (c : Nat) (samples : List Int) (s : State) : State :=
  let r := s.chan c
  match r.state with
  | .starved => putChan c (r.addLost 48) s
  | .running =>
    if 4 ≤ r.staging.length then flushHead c .overrun (putChan c (r.addLost 48) s)
    else putChan c (Channel.reprogress c { r with staging := r.staging ++ [{ at_ := 0, samples := samples }] }) s
  | _ => s

/-- A read of the next block of the head's buffer is asked for while staging has room (R152). -/
def Channel.readDue (r : Channel) : Bool :=
  match r.state, r.chain with
  | .running, d :: _ => decide (r.staging.length < 4) && (d.loop || decide (r.readAt < d.length))
  | _, _ => false

/-- Samples a failed read leaves unplayed: those staged, and the block whose read failed unless its turn has passed
(R156, log entry 21). -/
def Channel.unplayed (r : Channel) : Nat := 48 * (r.staging.length + if r.moved ≤ r.readAt then 1 else 0)

/-- A read of a playback buffer ends (R152, R156). A block whose turn has passed is dropped (R153); that the reads go on in
order after an underrun, and do not skip on to the play position, is the model's choice (log entry 63). -/
def playbackRead (c : Nat) (block : Option (List Word32)) (s : State) : State :=
  let r := s.chan c
  if !isPlayback c || !r.readDue then s
  else
    match block with
    | none => endHead c .hostFault r.moved (putChan c (r.addUnderrun r.unplayed) s)
    | some ws =>
      let b : Block := { at_ := r.readAt, samples := ws.map sampleOfWord }
      putChan c { r with
        readAt := r.readAt + 48
        staging := if r.moved ≤ r.readAt then r.staging ++ [b] else r.staging } s

/-- A write of the oldest staged block ends (R152, R156). That its record is written with the block counted and again as the
head ends is the model's choice (log entry 76). -/
def captureWrite (c : Nat) (ok : Bool) (s : State) : State :=
  let r := s.chan c
  match r.state, r.chain, r.staging with
  | .running, d :: _, b :: bs =>
    if isPlayback c then s
    else if ok then
      let r1 := Channel.reprogress c { r with moved := r.moved + 48, staging := bs }
      let s1 := putChan c r1 (emit (.write (d.buffer + 4 * r.moved) (blockBytes b)) s)
      if r1.moved < d.length then s1 else endHead c .complete r1.moved s1
    else endHead c .hostFault r.moved (putChan c (r.addLost (48 * r.headBlocks)) s)
  | _, _, _ => s

/-! ### Cut, Stop and discard -/

/-- A Cut (R154). -/
def cutChannel (c : Nat) (s : State) : State :=
  let r := s.chan c
  match r.state with
  | .running => if isPlayback c then endHead c .cut r.moved s else flushHead c .cut s
  | .armed => endHead c .cut 0 s
  | _ => s

/-- A Stop (R155): the chain handed back, the head with its samples moved. That the staged blocks of a capture channel it
discards are not counted as lost samples, that a cue's removal comes after the returns, and that the channel is Idle and its
chain empty before the first return, are the model's choices (log entries 54, 64 and 87). -/
def stopChannel (c : Nat) (s : State) : State :=
  let r := s.chan c
  match r.state with
  | .idle => s
  | _ =>
    let s1 := putChan c { r with state := .idle, chain := [], staging := [], progress := 0, moved := 0, readAt := 0 } s
    let s2 :=
      match r.chain with
      | [] => s1
      | d :: rest => returnRest c rest (returnDesc c d (if r.state = .armed then 0 else r.moved) .stopped s1)
    removeCue c s2

/-- A chain discarded without return (R160). That the channel's mirror record is written at this change in Running, as R182
has it, is the model's choice (log entry 82). -/
def discardChannel (c : Nat) (s : State) : State :=
  let s1 := removeCue c s
  let r := s1.chan c
  putChan c { r with state := .idle, chain := [], staging := [], progress := 0, moved := 0, readAt := 0 } s1

/-- A Cut carried out where nothing is returned any more: the head leaves its channel as at a Cut, without a return, and
the counters are kept (R160, log entry 8). -/
def discardHead (c : Nat) (s : State) : State :=
  let r := s.chan c
  match r.chain with
  | [] => s
  | d :: rest =>
    let s1 := putChan c { r.dropHead c .cut d rest with lost := r.lost } s
    if r.state = .running ∧ (s1.chan c).state ≠ .running then removeCue c s1 else s1

end Sys2Proof.Machine
end

