-- ==== Sys2Proof/Machine/Orders.lean ====
section
/-!
DEFINITION. How an order is carried out and finishes (R177, R178), for every order alike.
-/
namespace Sys2Proof.Machine

/-- The outcome of every command of this part. -/
abbrev Out := Host.Outcome State Fault Refusal

/-- Write the done word from its copy; a failed write is to be made again (R178). -/
def writeDone (s : State) : State :=
  let (ok, s1) := areaWrite 0x0048 (u64 s.exch.doneCopy.toNat) s
  { s1 with exch.doneUnwritten := !ok }

/-- The detail of OrdersDone (R178): completions, slot and code of the latest, failed result writes. -/
def ordersDoneDetail (completions slot : Nat) (code : Code) (failed : Nat) : List Byte :=
  u32 completions ++ u8 slot ++ u8 code.ctorIdx ++ u32 failed

/-- An order of a slot finishes (R178): result, done copy, done word, then OrdersDone. The counts start again where
source 0 is not pending. -/
def finishSlot (k : Nat) (r : Result) (s : State) : State :=
  let (ok, s1) := areaWrite (0x0800 + 64 * k + 0x30) (u16 r.code.ctorIdx ++ r.values) s
  let pend := eventPending s1.ev 0
  let n := if pend then satAdd max32 s1.exch.completions 1 else 1
  let f := (if pend then s1.exch.failedResults else 0) + (if ok then 0 else 1)
  let s2 := { s1 with
    exch.doneCopy := setBit s1.exch.doneCopy k (bit s1.exch.postTaken k)
    exch.intake := tset s1.exch.intake k .free
    exch.completions := n
    exch.failedResults := f }
  raiseEvent 0 (ordersDoneDetail n k r.code f) (writeDone s2)

/-- The order as its slot gives it: what STREAM.APPEND reads of the descriptor stands in no slot. -/
def Instr.posted : Instr → Instr
  | .streamAppend c a _ => .streamAppend c a none
  | i => i

/-- An order's row (log entry 7): carried out for the slot in hand that holds it, and finished there; with no slot in
hand carried out alone, but in Autonomous, where no order can come (R160, R189), not at all; with another order in
hand, no event of the part. -/
def runOrder (i : Instr) (body : State → Result × State) (s : State) : State :=
  match s.exch.inHand with
  | none =>
    if s.exch.part = .autonomous then s
    else
      let (r, t) := body s
      { t with exch.lastResult := some r }
  | some h =>
    if h.order = Instr.posted i then
      let (r, t) := body s
      finishSlot h.slot r { t with exch.inHand := none, exch.lastResult := some r }
    else s

/-- Check failed: the code, no values, nothing changed. -/
def failWith (c : Code) (s : State) : Result × State := (Result.of c, s)

/-- NOP (R176) gives its tag. -/
def orderNop (tag : Nat) (s : State) : Result × State := ({ code := .done, values := u32 tag }, s)

/-- EXCH.SCAN (R176): the new interval from the next expiry, at once when scanning was off. That 0 stops the running timer
at once is the model's choice (log entry 66). -/
def orderExchScan (interval : Nat) (s : State) : Result × State :=
  if 64 < interval then failWith .badValue s
  else
    let timer :=
      if interval = 0 then none
      else match s.exch.scanTimer with
        | some t => some t
        | none => if s.running then some (s.now + interval) else none
    (Result.of .done, { s with exch.scanInterval := interval, exch.scanTimer := timer })

/-- NOP (R176). -/
def execNop (tag : Nat) (s : State) : Out := .next (runOrder (.nop tag) (orderNop tag) s)

/-- EXCH.SCAN (R176). -/
def execExchScan (interval : Nat) (s : State) : Out := .next (runOrder (.exchScan interval) (orderExchScan interval) s)

end Sys2Proof.Machine
end

