-- ==== Sys2Proof/Machine/CallOrders.lean ====
section
/-!
DEFINITION. Orders and events of the call unit: calls (R82, R85, R86), cadences (R87, R88), control lines (R89 to R96).
-/
namespace Sys2Proof.Machine

/-! ### Calls -/

/-- CALL.SEND (R85): the answer of R81. -/
def orderCallSend (t : Nat) (s : State) : Result × State :=
  if 88 ≤ t then failWith .badValue s
  else
    let (a, s1) := takeCall 88 t s
    ({ code := .done, values := u8 a.ctorIdx }, s1)

/-- CALL.CLEAR (R86): entries removed and entries left. -/
def orderCallClear (st : Nat) (all : Bool) (caller : Nat) (s : State) : Result × State :=
  if 88 < st ∨ (all = false ∧ 88 < caller) then failWith .badValue s
  else
    let before := tget s.call.lists st
    let gone := if all then before.map (·.caller) else [caller]
    let t := gone.foldl (fun s c => removeCall st c s) s
    let left := (tget t.call.lists st).length
    ({ code := .done, values := u8 (before.length - left) ++ u8 left }, t)

/-! ### Cadences -/

/-- Cadence generator `g` written. -/
def putGen (g : Nat) (r : Cadence) (s : State) : State := { s with call.gens := tset s.call.gens g r }

/-- CADENCE.SET (R88): the run state. -/
def orderCadenceSet (g : Nat) (run : Bool) (onTime offTime : Nat) (s : State) : Result × State :=
  if 3 < g then failWith .badValue s
  else
    let r := tget s.call.gens g
    if run then
      if onTime < 20 ∨ 2000 < onTime ∨ offTime < 20 ∨ 2000 < offTime then
        ({ code := .badValue, values := uFlag r.running }, s)
      else
        ({ code := .done, values := uFlag true }, putGen g
          { running := true, onTime := onTime, offTime := offTime, phaseOn := true, expiry := some (s.now + onTime) } s)
    else
      ({ code := .done, values := uFlag false }, putGen g { r with running := false, phaseOn := false, expiry := none } s)

/-- A phase of a Running generator expires (R87): the next expiry is set from the one just taken. -/
def Cadence.turn (r : Cadence) : Cadence :=
  { r with
    phaseOn := !r.phaseOn
    expiry := r.expiry.map fun t => t + (if r.phaseOn then r.offTime else r.onTime) }

/-! ### Control inputs -/

/-- Control input `i`. -/
def State.input (s : State) (i : Nat) : ControlIn := tget s.call.inputs i

/-- Control input `i` written. -/
def putInput (i : Nat) (c : ControlIn) (s : State) : State := { s with call.inputs := tset s.call.inputs i c }

/-- InputChange (R94, Table 4-2): input, its level, the levels of all sixteen inputs. A mask bit set means active, though
the level byte codes active 0, and an unbound input's bit is taken with High: the model's choices (log entries 15, 50). -/
def inputDetail (i : Nat) (s : State) : List Byte :=
  u8 i ++ u8 (if (s.input i).active then 0 else 1)
    ++ u16 ((List.range 16).foldl (fun n k => n + (if (s.input k).active then 2 ^ k else 0)) 0)

/-- What an edge of an input does by its binding (R91 to R94), after the level has been taken. -/
def inputEdge (i : Nat) (activeEdge : Bool) (s : State) : State :=
  let c := s.input i
  match c.function with
  | .none => s
  | .deskKey => keyEvent activeEdge { station := 88, key := c.argument } s
  | .cut => if activeEdge then cutChannel c.argument s else s
  | .trigger => if activeEdge then startChannel c.argument s else s
  | .emergency =>
    handEmergency (if c.byLevel then s else if activeEdge then putInput i { c with latch := !c.latch } s else s)
  | .notify => if activeEdge || c.byLevel then raiseEvent 51 (inputDetail i s) s else s

/-- A change of a pin level is taken (R89); every active edge is reported to the stream unit. That the binding,
of every function, acts before the edge report, and a grant it brings is reported first, is the model's choice (log entry
56). -/
def inputChange (i : Nat) (high : Bool) (s : State) : State :=
  let c := s.input i
  if c.pinHigh = high then s
  else
    let s1 := putInput i { c with pinHigh := high } s
    let edge := (s1.input i).active
    let s2 := inputEdge i edge s1
    if edge then { s2 with reports := s2.reports ++ [.edge i] } else s2

/-- The old binding of an input ends (R91, R93). -/
def unbindInput (i : Nat) (s : State) : State :=
  let c := s.input i
  let s1 := putInput i { c with function := .none, latch := false } s
  match c.function with
  | .deskKey => if c.byLevel && c.active then keyEvent false { station := 88, key := c.argument } s1 else s1
  | .emergency => handEmergency s1
  | _ => s1

/-- The new binding of an input starts (R91 to R93), a Cut made by `cut`. -/
def bindInput (cut : Nat → State → State) (i : Nat) (s : State) : State :=
  let c := s.input i
  let now := c.byLevel && c.active
  match c.function with
  | .deskKey => if now then keyEvent true { station := 88, key := c.argument } s else s
  | .cut => if now then cut c.argument s else s
  | .trigger => if now then startChannel c.argument s else s
  | .emergency => handEmergency s
  | _ => s

/-- CI.BIND (R90): whether the input is active under the new binding, a flag 1 for yes and 0 for no, though a level byte
codes active 0: the model's choice (log entry 15). A Cut is made by `cut`. -/
def orderCiBindBy (cut : Nat → State → State) (i f a sense act : Nat) (s : State) : Result × State :=
  if 15 < i then failWith .badValue s
  else
    match inFunctionOf f, sensingOf sense, activeHighOf act with
    | some fn, some byLevel, some high =>
      if inArgumentOk fn a then
        let s1 := unbindInput i s
        let c : ControlIn :=
          { pinHigh := (s1.input i).pinHigh, function := fn, argument := a, byLevel := byLevel
            activeHigh := high, latch := false }
        ({ code := .done, values := uFlag c.active }, bindInput cut i (putInput i c s1))
      else failWith .badValue s
    | _, _, _ => failWith .badValue s

/-- CI.BIND (R90). -/
def orderCiBind (i f a sense act : Nat) (s : State) : Result × State := orderCiBindBy cutChannel i f a sense act s

/-! ### Control outputs -/

/-- Does a record's interrupt list hold an entry of a key? -/
def FoldRec.keyInside (r : FoldRec) : Bool :=
  r.ints.any fun e => match e.requester with | .key _ _ => true | .channel _ => false

/-- The condition a control output follows (Table 4-7). -/
def condition (s : State) : OutFunction → Bool
  | .none => false
  | .destTalk d =>
    !(tget s.arb.talkers d).isEmpty ||
      (isFoldDest s d && (match recordOf s d with | some r => (tget s.fold.recs r).keyInside | none => false))
  | .stationCalled st => !(tget s.call.lists st).isEmpty
  | .linkLive n => (tget s.links n).session == .live
  | .autonomous => s.exch.part == .autonomous

/-- The level of a control output pin, `true` for high (R95, R96). -/
def outputLevel (s : State) (i : Nat) : Bool :=
  let o := tget s.call.outputs i
  match o.function with
  | .none => false
  | f =>
    let lit := condition s f && (match o.cadence with | none => true | some g => (tget s.call.gens g).phaseOn)
    if lit then o.activeHigh else !o.activeHigh

/-- CO.BIND (R96): whether the condition is true, a flag 1 for yes and 0 for no (log entry 15). -/
def orderCoBind (o f a d g act : Nat) (s : State) : Result × State :=
  if 15 < o then failWith .badValue s
  else
    match outFunctionOf f a, driveOf d g, activeHighOf act with
    | some fn, some drive, some high =>
      ({ code := .done, values := uFlag (condition s fn) },
        { s with call.outputs := tset s.call.outputs o { function := fn, cadence := drive, activeHigh := high } })
    | _, _, _ => failWith .badValue s

/-! ### Meanings -/

/-- CALL_SEND (R85). -/
def execCallSend (target : Nat) (s : State) : Out :=
  .next (settle (runOrder (.callSend target) (orderCallSend target) s))
/-- CALL_CLEAR (R86). -/
def execCallClear (station : Nat) (all : Bool) (caller : Nat) (s : State) : Out :=
  .next (runOrder (.callClear station all caller) (orderCallClear station all caller) s)
/-- CADENCE_SET (R88). -/
def execCadenceSet (gen : Nat) (run : Bool) (onTime offTime : Nat) (s : State) : Out :=
  .next (runOrder (.cadenceSet gen run onTime offTime) (orderCadenceSet gen run onTime offTime) s)
/-- CI_BIND (R90). -/
def execCiBind (input function argument sensing active : Nat) (s : State) : Out :=
  .next (settle (runOrder (.ciBind input function argument sensing active)
    (orderCiBind input function argument sensing active) s))
/-- CO_BIND (R96). -/
def execCoBind (output function argument drive gen active : Nat) (s : State) : Out :=
  .next (runOrder (.coBind output function argument drive gen active)
    (orderCoBind output function argument drive gen active) s)
/-- CONTROL_INPUT_CHANGE (R89). -/
def execControlInputChange (input : Nat) (high : Bool) (s : State) : Out :=
  .next (if input < 16 then settle (inputChange input high s) else s)

/-- CALL_EXPIRY (R82): the entry leaves and CallExpired is raised. -/
def execCallExpiry (station caller : Nat) (s : State) : Out :=
  .next (match (tget s.call.lists station).find? (fun e => e.caller == caller) with
    | none => s
    | some e =>
      if e.expiry ≤ s.now then
        let s1 := putCalls station ((tget s.call.lists station).filter (·.caller != caller)) s
        callReports station caller (raiseEvent 47 (u8 station ++ u8 caller ++ u8 e.repeats) s1)
      else s)

/-- CADENCE_PHASE_EXPIRY (R87). -/
def execCadencePhaseExpiry (gen : Nat) (s : State) : Out :=
  let r := tget s.call.gens gen
  .next (if r.running && due r.expiry s.now then putGen gen r.turn s else s)

end Sys2Proof.Machine
end

