-- ==== Sys2Proof/Machine/FieldLinks.lean ====
section
/-!
DEFINITION. Field links: messages taken (R114, R115), Offers (R116 to R120), the session's timers and ends (R124 to
R130), playout instants (R142), return audio (R123).
-/
namespace Sys2Proof.Machine

/-- Link record `n`. -/
def State.link (s : State) (n : Nat) : Link := tget s.links n

/-! ### Messages and key states -/

/-- A stray message counted (R114): in the link it names, or where there is none in the part's own counter of the
port (log entry 16). -/
def strayOn (p : Port) (n : Nat) (s : State) : State :=
  if n < 24 then countLink n [.stray p] s
  else match p with
    | .main => { s with strayMain := satAdd max32 s.strayMain 1 }
    | .alternate => { s with strayAlt := satAdd max32 s.strayAlt 1 }

/-- Does the link hold a session of the message's unit (R114)? -/
def forSession (s : State) (e : Envelope) : Bool := decide (e.link < 24) && (s.link e.link).unit == some e.unit

/-- A message taken for its session records the path address of its port; in Resting and Waking it restarts the
silence timer (R114, R126). -/
def takeEnvelope (e : Envelope) (s : State) : State :=
  let l := (s.link e.link).setPath e.port e.source
  let silence := if l.session = .resting ∨ l.session = .waking then some (s.now + 3000) else l.timers.silence
  putLink e.link { l with latestPort := e.port, timers := { l.timers with silence := silence } } s

/-- Keys the unit has (R116). -/
def Link.keyCount (l : Link) : Nat := match l.offered with | some o => o.keys | none => 0

/-- The key states of a message taken, their changes handed on in ascending key index (R115). That all new states are written
in one change of the record before the first is handed on is the model's choice (log entry 44). -/
def takeKeys (n : Nat) (ks : KeyStates) (s : State) : State :=
  let l := s.link n
  let changed := (List.range 4).filter fun k => decide (k < l.keyCount) && (tget ks k != tget l.keyStates k)
  let s1 := putLink n
    { l with keyStates := build 4 fun k => if k < l.keyCount then tget ks k else tget l.keyStates k } s
  changed.foldl (fun s k => keyEvent (tget ks k) { station := 64 + n, key := k } s) s1

/-- Is a sequence newer than the newest taken, if one was (R115)? -/
def newerThan (last : Option Nat) (seq : Nat) : Bool :=
  match last with
  | none => true
  | some q => seqOlder q seq

/-- The key states of an Audio message, taken only when its sequence is newer than the newest taken (R115). -/
def takeAudioKeys (n seq : Nat) (ks : KeyStates) (s : State) : State :=
  let l := s.link n
  if newerThan l.keySeq seq then takeKeys n ks (putLink n { l with keySeq := some seq } s) else s

/-- Is Rest sent again, no more often than once a second (R126)? -/
def restAgain (l : Link) (now : Nat) : Bool :=
  match l.lastRest with
  | none => true
  | some t => decide (1000 ≤ now - t)

/-- Audio by the session's state (R123, R124, R126, R127). -/
def takeAudio (n seq : Nat) (ks : KeyStates) (f : Frame) (s : State) : State :=
  let payload := payloadArrives n f
  let keys := takeAudioKeys n seq ks
  let l := s.link n
  match l.session with
  | .negotiating =>
    let s1 := goLive n .firstAudio (keys (payload (putLink n { l with timers := { l.timers with negotiation := none } } s)))
    if l.effective = .paused ∨ l.effective = .wakeRest then goResting n .rested true s1 else s1
  | .live | .fading => keys (payload s)
  | .waking => goLive n .woken (keys (payload (putLink n { l with timers := { l.timers with wake := none } } s)))
  | .resting =>
    match l.effective with
    | .wakeRest | .wakeStay => keys (payload (goLive n .woken s))
    | .paused =>
      let s1 := keys (countLink n [.paused] s)
      if restAgain l s.now then sendRest n s1 else s1
    | _ => keys s
  | _ => s

/-- AUDIO (R114). -/
def execAudio (env : Envelope) (seq quality : Nat) (keys : KeyStates) (payload : List Byte) (s : State) : Out :=
  .next (if forSession s env && (s.link env.link).session != .closing then
    settle (takeAudio env.link seq keys { seq := seq, quality := quality, port := env.port, payload := payload }
      (takeEnvelope env s))
  else strayOn env.port env.link s)

/-- KEEPALIVE (R115). -/
def execKeepalive (env : Envelope) (keys : KeyStates) (s : State) : Out :=
  .next (if forSession s env && (s.link env.link).session != .closing then
    settle (takeKeys env.link keys (takeEnvelope env s))
  else strayOn env.port env.link s)

/-- STRAY_MESSAGE (R114). -/
def execStrayMessage (port : Port) (link : Nat) (s : State) : Out := .next (strayOn port link s)

/-! ### The end of a session -/

/-- What the end of a session does to the link's neighbours and record (R129), but for its report. -/
def closeSession (n : Nat) (reserve : Bool) (s : State) : State :=
  let s1 := releaseKeys (64 + n) 4 s
  let s2 := stopJitter n s1
  let s3 := if (s2.link n).session = .live then claimCause n (some .notLive) s2 else s2
  let l := s3.link n
  let res := if reserve ∧ 0 < l.rejoin then some (l.unitId, s.now + 1000 * l.rejoin) else l.reserved
  putLink n
    { l with
      session := .vacant, reserved := res, unit := none, offer := none, format := none, offered := none
      effective := l.duty, pathMain := none, pathAlt := none, keyStates := keysReleased
      timers := LinkTimers.stopped } s3

/-- A session ends (R129, Table 6-7): one change to Vacant, its record written before its event (log entry 52). -/
def endSession (n : Nat) (reason : LinkReason) (reserve : Bool) (s : State) : State :=
  let l := s.link n
  let s1 := closeSession n reserve s
  linkEvent n l.session .vacant reason l.unitId s1

/-- CLOSEACK (R128). -/
def execCloseAck (env : Envelope) (s : State) : Out :=
  .next (if forSession s env && (s.link env.link).session == .closing then settle (endSession env.link .closed false s)
  else strayOn env.port env.link s)

/-! ### Timers -/

/-- NEGOTIATION_TIMER_EXPIRY (R124). -/
def execNegotiationTimerExpiry (link : Nat) (s : State) : Out :=
  .next (if (s.link link).session = .negotiating ∧ due (s.link link).timers.negotiation s.now then
    settle (endSession link .noAudio false s) else s)

/-- LINGER_TIMER_EXPIRY (R132). -/
def execLingerTimerExpiry (link : Nat) (s : State) : Out :=
  .next (if (s.link link).session = .live ∧ due (s.link link).timers.linger s.now then
    goResting link .rested true s else s)

/-- RECOVERY_TIMER_EXPIRY (R125). -/
def execRecoveryTimerExpiry (link : Nat) (s : State) : Out :=
  .next (if (s.link link).session = .fading ∧ due (s.link link).timers.recovery s.now then
    settle (endSession link .recoveryExpired true s) else s)

/-- WAKE_TIMER_EXPIRY (R127). -/
def execWakeTimerExpiry (link : Nat) (s : State) : Out :=
  .next (if (s.link link).session = .waking ∧ due (s.link link).timers.wake s.now then
    goResting link .wakeFailed false s else s)

/-- SILENCE_TIMER_EXPIRY (R126). -/
def execSilenceTimerExpiry (link : Nat) (s : State) : Out :=
  .next (if ((s.link link).session = .resting ∨ (s.link link).session = .waking)
      ∧ due (s.link link).timers.silence s.now then
    settle (endSession link .silenceTimeout true s) else s)

/-- KEEPALIVE_TIMER_EXPIRY (R126): the part's Keepalive, once every second. -/
def execKeepaliveTimerExpiry (link : Nat) (s : State) : Out :=
  let l := s.link link
  .next (if l.session = .resting ∧ due l.timers.keepalive s.now then
    putLink link { l with timers := { l.timers with keepalive := l.timers.keepalive.map (· + 1000) } }
      (sendAll link (.keepalive l.unitId link (talliesOf s link)) s)
  else s)

/-- CLOSE_TIMER_EXPIRY (R128). -/
def execCloseTimerExpiry (link : Nat) (s : State) : Out :=
  .next (if (s.link link).session = .closing ∧ due (s.link link).timers.close s.now then
    settle (endSession link .closeTimeout false s) else s)

/-- RESERVATION_TIMER_EXPIRY (R130). -/
def execReservationTimerExpiry (link : Nat) (s : State) : Out :=
  let l := s.link link
  .next (if due (l.reserved.map (·.2)) s.now then putLink link { l with reserved := none } s else s)

/-! ### Playout and return -/

/-- What the link controller does with the report of an instant (R125, R144). -/
def instantReport (n : Nat) (real : Bool) (s : State) : State :=
  let l := s.link n
  if l.session = .fading ∧ real = true then
    let s1 := goLive n .recovered s
    if l.effective = .paused then goResting n .dutyChange true s1 else s1
  else if l.session = .live ∧ l.loss ≤ (tget s.jits n).gap then
    let s1 := goFading n s
    if l.recovery = 0 then endSession n .recoveryExpired true s1 else s1
  else s

/-- PLAYOUT_INSTANT (R142). -/
def execPlayoutInstant (link : Nat) (s : State) : Out :=
  let j := tget s.jits link
  .next (match j.instant, (s.link link).format with
    | some t, some fmt =>
      if t ≤ s.now then
        let (j1, counts, real) := j.instantTaken fmt.1 t
        settle (instantReport link real (countLink link counts (setJit link j1 s)))
      else s
    | _, _ => s)

/-- RETURN_AUDIO (R123): one message, the next return sequence, the tallies, one frame duration of the return. -/
def execReturnAudio (link : Nat) (s : State) : Out :=
  let l := s.link link
  .next (match l.format with
    | none => s
    | some (codec, duration) =>
      if l.session = .live ∨ l.session = .waking then
        let buf := tget s.mix.returnBuf link
        let samples := (List.range (48 * duration)).map fun k => buf.getD k 0
        let msg := LinkMsg.audio l.unitId link l.returnSeq (talliesOf s link) (Config.payloadOf codec samples)
        let s1 := if l.dual then sendAll link msg s else sendOn link l.latestPort msg s
        let s2 := { s1 with mix.returnBuf := tset s1.mix.returnBuf link (buf.drop (48 * duration)) }
        putLink link { l with returnSeq := (l.returnSeq + 1) % 65536 } s2
      else s)

/-! ### Offers -/

/-- The blocks an Offer's header counts. -/
def offerBlocks (m : OfferMsg) : List ProfileBlock := m.blocks.take m.nBlocks

/-- The content of the first version 1 block of a kind (R116). -/
def firstBlock {α : Type} (pick : BlockBody → Option α) (bs : List ProfileBlock) : Option α :=
  bs.findSome? fun b => if b.version = 1 then pick b.body else none

/-- Formats block. -/
def formatsOf : BlockBody → Option (List Codec × List Nat)
  | .formats cs ds => some (cs.filterMap id, ds.filter fun d => d == 2 || d == 4 || d == 8)
  | _ => none

/-- Delay block: typical and maximum delay, or none where its unit is none of 1, 8 and 64 ms. -/
def delayOf : BlockBody → Option (Option (Nat × Nat))
  | .delay c u m =>
    some (if u = 1 ∨ u = 8 ∨ u = 64 then some ((c + 1) * u, 2 * (m + 1) * ((c + 1) * u)) else none)
  | _ => none

/-- Keys block. -/
def keysOf : BlockBody → Option Nat
  | .keys n => some n
  | _ => none

/-- Duty block. -/
def dutyBlockOf : BlockBody → Option Bool
  | .duty b => some b
  | _ => none

/-- What an Offer offers (R116): its formats and profile, or none for BadProfile. -/
def readOffer (m : OfferMsg) : Option ((List Codec × List Nat) × OfferedProfile) :=
  let bs := offerBlocks m
  let keys := (firstBlock keysOf bs).getD 0
  let delay := firstBlock delayOf bs
  if m.blocks.length < m.nBlocks ∨ bs.any (fun b => b.framing != .within) ∨ delay = some none ∨ 4 < keys then none
  else
    (firstBlock formatsOf bs).map fun f =>
      (f, { delay := delay.bind id, keys := keys, duty := (firstBlock dutyBlockOf bs).getD false })

/-- The format chosen against a link record (R117). -/
def chooseFormat (l : Link) (f : List Codec × List Nat) : Option (Codec × Nat) :=
  match l.codecs.find? (fun c => f.1.contains c), [2, 4, 8].find? (fun d => f.2.contains d && decide (l.minFrame ≤ d)) with
  | some c, some d => some (c, d)
  | _, _ => none

/-- A Refuse sent, and OfferRefused (R119, Table 6-3). That Refuse leaves first is the model's choice (log entry 77). -/
def refuseOffer (p : Port) (source : Nat) (m : OfferMsg) (reason : RefuseReason) (link : Option Nat) (s : State) :
    State :=
  raiseEvent 50 (u32 m.unit.toNat ++ u8 m.number ++ u8 p.ctorIdx ++ u8 reason.ctorIdx ++ uOpt 1 link)
    (emit (.linkMsg p source (.refuse m.unit m.number reason)) s)

/-- An Offer accepted in link `n` (R120), from the state the change is reported from. That the record is written
once, Negotiating with the rest, before Accept is sent and the event raised is the model's choice (log entry 52). -/
def acceptOffer (p : Port) (source : Nat) (m : OfferMsg) (prof : OfferedProfile) (fmt : Codec × Nat) (n : Nat)
    (old : Session) (reason : LinkReason) (s : State) : State :=
  let l := s.link n
  let l1 : Link := Link.setPath
    { l with
      reserved := none, unit := some m.unit, offer := some m.number, format := some fmt, offered := some prof
      pathMain := none, pathAlt := none, keyStates := keysReleased, lastRest := none, keySeq := none
      counters := LinkCounters.zero, latestPort := p, returnSeq := 0
      session := .negotiating, timers := { LinkTimers.stopped with negotiation := some (s.now + 2000) } } p source
  let l2 := { l1 with effective := effectiveDuty l1 }
  let s1 := putJit n ((tget s.jits n).accept fmt.2) { s with mix.returnBuf := tset s.mix.returnBuf n [] }
  let s2 := emit (.linkMsg p source (.accept m.unit m.number n fmt.1 fmt.2)) (putLink n l2 s1)
  linkEvent n old .negotiating reason m.unit s2

/-- Is the link in a state whose session R118 compares? -/
def Session.compared (x : Session) : Bool := x != .vacant && x != .closing

/-- The link that holds a session of the unit (R118). -/
def sessionOf (s : State) (unit : Word32) : Option Nat :=
  (List.range 24).find? fun n => (s.link n).session.compared && (s.link n).unit == some unit

/-- A copy of the Offer that made the session (R118). That a discarded copy, which names no link, is counted in the record of
the link whose session it copies is the model's choice (log entry 16). -/
def takeCopy (p : Port) (source : Nat) (n : Nat) (s : State) : State :=
  let l := s.link n
  match l.session, l.offer, l.format with
  | .negotiating, some number, some fmt =>
    emit (.linkMsg p source (.accept l.unitId number n fmt.1 fmt.2))
      (putLink n { l.setPath p source with latestPort := p } s)
  | _, _, _ => strayOn p n s

/-- A unit that has restarted (R118): its session ends, the Offer is placed in the same link. The event is raised once,
from the old state (R122); that the link's mirror record is written twice, Vacant as the session ends and Negotiating as
the Offer is placed, is the model's choice (log entry 52). -/
def takeRestart (p : Port) (source : Nat) (m : OfferMsg) (f : List Codec × List Nat) (prof : OfferedProfile) (n : Nat)
    (s : State) : State :=
  let old := (s.link n).session
  let s1 := closeSession n false s
  match chooseFormat (s1.link n) f with
  | some fmt => acceptOffer p source m prof fmt n old .restarted s1
  | none => refuseOffer p source m .noCommonFormat (some n) (linkEvent n old .vacant .restarted m.unit s1)

/-- Vacant links by the rules of R119, lowest number first: whether the rule that gave it refuses Held. -/
def placeFor (s : State) (unit : Word32) : Option (Nat × Bool) :=
  let vacant := (List.range 24).filter fun n => (s.link n).session == .vacant
  let r1 := vacant.find? fun n => (s.link n).reserved.map (·.1) == some unit
  let r2 := vacant.find? fun n => (s.link n).reserved.isNone && (s.link n).allowed == some unit
  let r3 := vacant.find? fun n => (s.link n).reserved.isNone && (s.link n).allowed.isNone && (s.link n).duty != .held
  match r1, r2, r3 with
  | some n, _, _ => some (n, true)
  | none, some n, _ => some (n, true)
  | none, none, some n => some (n, false)
  | none, none, none => none

/-- Is some link kept for another unit (R119)? -/
def keptForOther (s : State) (unit : Word32) : Bool :=
  (List.range 24).any fun n =>
    let l := s.link n
    l.session == .vacant && l.duty != .held && (l.allowed.isNone || l.allowed == some unit)
      && (match l.reserved with | some (u, _) => u != unit | none => false)

/-- An Offer placed by R119. -/
def placeOffer (p : Port) (source : Nat) (m : OfferMsg) (f : List Codec × List Nat) (prof : OfferedProfile)
    (s : State) : State :=
  match placeFor s m.unit with
  | none => refuseOffer p source m (if keptForOther s m.unit then .reserved else .noSlot) none s
  | some (n, checkHeld) =>
    if checkHeld && (s.link n).duty == .held then refuseOffer p source m .held (some n) s
    else
      match chooseFormat (s.link n) f with
      | none => refuseOffer p source m .noCommonFormat (some n) s
      | some fmt => acceptOffer p source m prof fmt n .vacant .accepted s

/-- An Offer taken (R116 to R119). -/
def takeOffer (p : Port) (source : Nat) (m : OfferMsg) (s : State) : State :=
  match readOffer m with
  | none => refuseOffer p source m .badProfile none s
  | some (f, prof) =>
    match sessionOf s m.unit with
    | some n =>
      if (s.link n).offer = some m.number then takeCopy p source n s
      else takeRestart p source m f prof n s
    | none => placeOffer p source m f prof s

/-- OFFER (R119). -/
def execOffer (port : Port) (source : Nat) (msg : OfferMsg) (s : State) : Out :=
  .next (settle (takeOffer port source msg s))

end Sys2Proof.Machine
end

