-- ==== Sys2Proof/Machine/LinkOrders.lean ====
section
/-!
DEFINITION. Orders of the link controller and of the delay profiles (R130, R133 to R135, R146).
-/
namespace Sys2Proof.Machine

/-- The session state as a result value (R133 to R135), coded in the order of the link record's field, Table 6-4: the
model's choice (log entry 15). -/
def sessionValue (n : Nat) (s : State) : List Byte := u8 (s.link n).session.ctorIdx

/-- LINK.CONFIG's checks after the link number (R134). -/
def linkArgsOk (codecs : Option (List Nat)) (minFrame dual loss recovery rejoin linger : Option Nat) : Bool :=
  (match codecs with | none => true | some l => (codecListOf l).isSome)
    && presentOk (fun d => d == 2 || d == 4 || d == 8) minFrame
    && presentOk (fun d => (flagValue d).isSome) dual
    && presentOk (fun x => decide (40 ≤ x) && decide (x ≤ 2000)) loss
    && presentOk (fun x => decide (x ≤ 10000) && x % 100 == 0) recovery
    && presentOk (· ≤ 300) rejoin
    && presentOk (fun x => decide (1 ≤ x) && decide (x ≤ 60)) linger

/-- An allowed unit argument: a unit id, or Any, every bit set. An argument above 32 bits and not all ones is taken by its
low 32 bits: the model's choice (log entry 53). -/
def allowedOf (v : Nat) : Option Word32 := if v = 18446744073709551615 then none else some (BitVec.ofNat 32 v)

/-- LINK.CONFIG (R134). -/
def orderLinkConfig (n : Nat) (allowed : Option Nat) (codecs : Option (List Nat))
    (minFrame dual loss recovery rejoin linger : Option Nat) (s : State) : Result × State :=
  if 23 < n then failWith .badValue s
  else if !linkArgsOk codecs minFrame dual loss recovery rejoin linger then
    ({ code := .badValue, values := sessionValue n s }, s)
  else
    let l := s.link n
    let t := putLink n
      { l with
        allowed := match allowed with | none => l.allowed | some v => allowedOf v
        codecs := (codecs.bind codecListOf).getD l.codecs
        minFrame := minFrame.getD l.minFrame
        dual := (dual.bind flagValue).getD l.dual
        loss := loss.getD l.loss
        recovery := recovery.getD l.recovery
        rejoin := rejoin.getD l.rejoin
        linger := linger.getD l.linger } s
    ({ code := .done, values := sessionValue n t }, t)

/-- What a new effective duty mode does at once (Table 6-10). -/
def dutyActs (n : Nat) (s : State) : State :=
  let l := s.link n
  match l.effective, l.session with
  | .held, .negotiating | .held, .live | .held, .resting | .held, .waking | .held, .fading =>
    enterClosing n .dutyChange s
  | .paused, .live | .paused, .waking => goResting n .dutyChange true s
  | .always, .resting | .wakeRest, .resting | .wakeStay, .resting => restingCheck n .dutyChange s
  | .wakeRest, .live => putLink n { l with timers := { l.timers with linger := lingerStart l s.now } } s
  | .always, .live | .wakeStay, .live => putLink n { l with timers := { l.timers with linger := none } } s
  | _, _ => s

/-- LINK.DUTY (R133). -/
def orderLinkDuty (n mode : Nat) (s : State) : Result × State :=
  if 23 < n then failWith .badValue s
  else
    match dutyOf mode with
    | none => ({ code := .badValue, values := sessionValue n s }, s)
    | some d =>
      let l := s.link n
      let t :=
        if l.duty = d then s
        else
          let l1 := { l with duty := d }
          dutyActs n (putLink n { l1 with effective := effectiveDuty l1 } s)
      ({ code := .done, values := sessionValue n t }, t)

/-- LINK.CLOSE (R135). -/
def orderLinkClose (n : Nat) (s : State) : Result × State :=
  if 23 < n then failWith .badValue s
  else
    match (s.link n).session with
    | .vacant => ({ code := .wrongState, values := sessionValue n s }, s)
    | .closing => ({ code := .done, values := sessionValue n s }, s)
    | _ =>
      let t := enterClosing n .hostClose s
      ({ code := .done, values := sessionValue n t }, t)

/-- LINK.RESERVE.CLEAR (R130): 1 when a reservation was cleared. -/
def orderLinkReserveClear (n : Nat) (s : State) : Result × State :=
  if 23 < n then failWith .badValue s
  else ({ code := .done, values := uFlag (s.link n).reserved.isSome }, putLink n { s.link n with reserved := none } s)

/-- Selected profile and depth (R146). -/
def profileValues (n : Nat) (s : State) : List Byte :=
  let j := tget s.jits n
  uOpt 1 j.selected ++ u16 (j.frames.length * j.duration)

/-- The profile LINK.PROFILES gives, where its checks pass (R146). -/
def profileArgs (target minimum maximum concealment usable : Nat) : Option Profile :=
  match concealmentOf concealment, flagValue usable with
  | some c, some u =>
    if target % 2 = 0 ∧ minimum % 2 = 0 ∧ maximum % 2 = 0 ∧ 1 ≤ target ∧ target ≤ 256 ∧ maximum ≤ 256
        ∧ minimum ≤ target ∧ target ≤ maximum then
      some { target := target, minimum := minimum, maximum := maximum, concealment := c, usable := u }
    else none
  | _, _ => none

/-- LINK.PROFILES (R146): a selected profile of a session acts at once. The buffer of a Vacant link holds no frame, so
its maximum depth (R136) removes none. -/
def orderLinkProfiles (n p target minimum maximum concealment usable : Nat) (s : State) : Result × State :=
  if 23 < n then failWith .badValue s
  else
    match (if p ≤ 3 then profileArgs target minimum maximum concealment usable else none) with
    | none => ({ code := .badValue, values := profileValues n s }, s)
    | some prof =>
      let j := tget s.jits n
      let j1 := { j with profiles := tset j.profiles p prof }
      let t :=
        if j.selected = some p ∧ (s.link n).session ≠ .vacant then
          let (j2, counts) := j1.enforce
          countLink n counts (setJit n j2.recause s)
        else putJit n (if j.selected = some p then j1.enforce.1 else j1) s
      ({ code := .done, values := profileValues n t }, t)

/-- LINK_CONFIG (R134). -/
def execLinkConfig (link : Nat) (allowed : Option Nat) (codecs : Option (List Nat))
    (minFrame dual loss recovery rejoin linger : Option Nat) (s : State) : Out :=
  .next (runOrder (.linkConfig link allowed codecs minFrame dual loss recovery rejoin linger)
    (orderLinkConfig link allowed codecs minFrame dual loss recovery rejoin linger) s)
/-- LINK_DUTY (R133). -/
def execLinkDuty (link mode : Nat) (s : State) : Out :=
  .next (runOrder (.linkDuty link mode) (orderLinkDuty link mode) s)
/-- LINK_CLOSE (R135). -/
def execLinkClose (link : Nat) (s : State) : Out := .next (runOrder (.linkClose link) (orderLinkClose link) s)
/-- LINK_PROFILES (R146). -/
def execLinkProfiles (link profile target minimum maximum concealment usable : Nat) (s : State) : Out :=
  .next (runOrder (.linkProfiles link profile target minimum maximum concealment usable)
    (orderLinkProfiles link profile target minimum maximum concealment usable) s)
/-- LINK_RESERVE_CLEAR (R130). -/
def execLinkReserveClear (link : Nat) (s : State) : Out :=
  .next (runOrder (.linkReserveClear link) (orderLinkReserveClear link) s)

end Sys2Proof.Machine
end

