-- ==== Sys2Proof/Machine/PanelLoops.lean ====
section
/-!
DEFINITION. The panel loop controllers (chapter 5): the round, the frames, presence, lamps, orders.
-/
namespace Sys2Proof.Machine

/-- Loop record `l`. -/
def State.loop (s : State) (l : Nat) : Loop := tget s.loops l

/-- Panel record of a station. -/
def State.panel (s : State) (st : Nat) : Panel := tget s.panels st

/-- Is the record in any presence state other than Unconfigured? -/
def Panel.configured (p : Panel) : Bool := p.presence != .unconfigured

/-- Joining, Present or Silent: polled with acknowledgement and sent lamps (Table 5-4). -/
def Panel.known (p : Panel) : Bool := p.presence == .joining || p.presence == .present || p.presence == .silent

/-- The configured addresses of a loop, ascending (R98). -/
def addresses (s : State) (l : Nat) : List Nat := (List.range 16).filter fun a => (s.panel (16 * l + a)).configured

/-- The address polled next (R98): the next above the round position, else the lowest. -/
def nextAddress (s : State) (l : Nat) : Option Nat :=
  let as := addresses s l
  match (s.loop l).position with
  | none => as.head?
  | some p =>
    match as.find? (p < ·) with
    | some a => some a
    | none => as.head?

/-- Change every lamp cell of a panel record by its key index. -/
def Panel.mapLamps (f : Nat → LampCell → LampCell) (p : Panel) : Panel :=
  { p with lamps := build 24 fun k => f k (tget p.lamps k) }

/-- The keys a Lamps frame to the panel lists (R109). -/
def Panel.lampKeys (p : Panel) : List Nat :=
  if p.known then (List.range 24).filter fun k => decide (k < p.keyCount) && (tget p.lamps k).marked else []

/-- A Poll to address `a`, which acknowledges the record's last accepted sequence, with its Lamps frame where lamps follow
(R100, R109, R110). That the loop record is written before the Poll leaves is the model's choice (log entry 80). -/
def sendPoll (l a : Nat) (s : State) : State :=
  let lp := s.loop l
  let p := s.panel (16 * l + a)
  let keys := p.lampKeys
  let phases := s.call.gens.toList.map (·.phaseOn)
  let s1 := putLoop l { lp with position := some a, polls := satAdd max16 lp.polls 1, inHand := true } s
  let s2 := emit (.poll l a p.lastSeq (!keys.isEmpty) phases) s1
  let s3 := putPanel (16 * l + a) (p.mapLamps fun k c => { c with carried := keys.contains k }) s2
  if keys.isEmpty then s3 else emit (.lamps l a (keys.map fun k => (k, (tget p.lamps k).lamp))) s3

/-- POLL (R98, R100): the next transaction of an Enabled loop. -/
def execPoll (loop : Nat) (s : State) : Out :=
  let lp := s.loop loop
  .next (if lp.enabled && !lp.inHand then
    match nextAddress s loop with
    | none => s
    | some a => sendPoll loop a s
  else s)

/-- The panel of the transaction in hand. -/
def polled (s : State) (l : Nat) : Option Nat :=
  if (s.loop l).enabled && (s.loop l).inHand then (s.loop l).position else none

/-- The transaction in hand ends. -/
def endTransaction (l : Nat) (s : State) : State := putLoop l { s.loop l with inHand := false } s

/-- A panel record written; a change of presence raises the loop's event (R107, Table 5-5). That the mirror record is
written before the event's detail and word is the model's choice (log entry 52). -/
def setPanel (l a : Nat) (p : Panel) (reason : PresenceReason) (s : State) : State :=
  let old := (s.panel (16 * l + a)).presence
  let s1 := putPanel (16 * l + a) p s
  if old = p.presence then s1
  else raiseEvent (3 + l) (u8 a ++ u8 old.ctorIdx ++ u8 p.presence.ctorIdx ++ u8 reason.ctorIdx) s1

/-- The keys of a panel's station released (R106). -/
def releasePanel (l a : Nat) (s : State) : State := releaseKeys (16 * l + a) 24 s

/-- One more missed poll; the count stays at 8 (R105). -/
def nextMiss (n : Nat) : Nat := if n < 8 then n + 1 else 8

/-- A missed poll taken by the panel's presence (R105); an Absent record holds no accepted sequence (R100).
That the missed-poll count is shown by a write of the mirror record of its own, before that of the presence, is the model's
choice (log entry 76). -/
def missPanel (l a : Nat) (s : State) : State :=
  let p := s.panel (16 * l + a)
  let n := nextMiss p.missed
  let s1 := putPanel (16 * l + a) { p with missed := n } s
  if p.presence = .present ∧ 3 ≤ n then
    setPanel l a { s1.panel (16 * l + a) with presence := .silent } .threeMisses s1
  else if (p.presence = .silent ∨ p.presence = .joining) ∧ 8 ≤ n then
    let s2 := releasePanel l a s1
    setPanel l a { s2.panel (16 * l + a) with presence := .absent, lastSeq := none } .eightMisses s2
  else s1

/-- A poll is missed (R100). -/
def missPoll (l a : Nat) (s : State) : State :=
  let s1 := endTransaction l s
  missPanel l a (putLoop l { s1.loop l with missed := satAdd max16 (s1.loop l).missed 1 } s1)

/-- A frame for no transaction in hand is a stray reply on an Enabled loop (R112), and is not counted on a
Disabled one (R113). -/
def countStray (l : Nat) (s : State) : State :=
  if (s.loop l).enabled then putLoop l { s.loop l with stray := satAdd max16 (s.loop l).stray 1 } s else s

/-- A frame that fails its check or is malformed (R100). -/
def countBad (l : Nat) (s : State) : State :=
  if (s.loop l).enabled then putLoop l { s.loop l with bad := satAdd max16 (s.loop l).bad 1 } s else s

/-- A Hello answered (R102). That all its fields are shown by one write of the panel's mirror record is the model's choice
(log entry 76). -/
def answerHello (l a kind count : Nat) (reason : PresenceReason) (s : State) : State :=
  let p := s.panel (16 * l + a)
  setPanel l a
    (Panel.mapLamps (fun k c => { c with marked := c.marked || decide (k < p.keyCount), carried := false })
      { p with reported := some (kind, count), lastSeq := some 7, missed := 0, presence := .joining }) reason s

/-- A Hello from the polled panel (R102). -/
def takeHello (l kind count : Nat) (s : State) : State :=
  if count = 0 ∨ 24 < count then countBad l s
  else
    match polled s l with
    | none => countStray l s
    | some a =>
      let s1 := endTransaction l s
      match (s1.panel (16 * l + a)).presence with
      | .present | .silent => answerHello l a kind count .restart (releasePanel l a s1)
      | _ => answerHello l a kind count .hello s1

/-- A Report or Idle reply is acceptable (R103): Present, no misses, the lamps sent are delivered (R109). -/
def acceptAnswer (l a : Nat) (s : State) : State :=
  let p := s.panel (16 * l + a)
  setPanel l a
    (Panel.mapLamps (fun _ c => { c with marked := c.marked && !c.carried, carried := false })
      { p with presence := .present, missed := 0 }) .answer s

/-- The key changes of an accepted Report, in its order (R104). -/
def takeChanges (l a : Nat) : List (Nat × Bool) → State → State
  | [], s => s
  | (k, press) :: rest, s =>
    let p := s.panel (16 * l + a)
    takeChanges l a rest
      (if k < p.keyCount then keyEvent press { station := 16 * l + a, key := k } s
       else putPanel (16 * l + a) { p with outOfRange := satAdd max16 p.outOfRange 1 } s)

/-- A Report taken by its sequence (R104). That the sequence is shown by a write of the panel's mirror record of its own,
after that of presence and missed polls, is the model's choice (log entry 76). -/
def takeReportSeq (l a seq : Nat) (changes : List (Nat × Bool)) (s : State) : State :=
  let p := s.panel (16 * l + a)
  if p.lastSeq = some seq then s
  else takeChanges l a changes (putPanel (16 * l + a) { p with lastSeq := some seq } s)

/-- A Report or Idle reply from the polled panel (R103). -/
def takeAnswer (l : Nat) (report : Option (Nat × List (Nat × Bool))) (s : State) : State :=
  match polled s l with
  | none => countStray l s
  | some a =>
    if (s.panel (16 * l + a)).presence = .absent then missPoll l a s
    else
      let s1 := acceptAnswer l a (endTransaction l s)
      match report with
      | none => s1
      | some (seq, changes) => takeReportSeq l a seq changes s1

/-! ### Orders -/

/-- PANEL.CONFIG with the clear flag clear (R111, Table 5-7): the presence state. A key the Lamps frame in hand carries
that the raised count marks again keeps that mark when the answer comes, as one marked by R108 does: the model's choice
(log entry 57). -/
def orderPanelConfig (l a mic speaker count : Nat) (s : State) : Result × State :=
  if 3 < l ∨ 15 < a then failWith .badValue s
  else
    let p := s.panel (16 * l + a)
    if !localOk mic || !localOk speaker || count == 0 || decide (24 < count) then
      ({ code := .badValue, values := u8 p.presence.ctorIdx }, s)
    else
      let p1 := Panel.mapLamps
        (fun k c => { c with
          marked := if count ≤ k then false else c.marked || decide (p.keyCount < count)
          carried := if p.keyCount < count ∨ count ≤ k then false else c.carried })
        { p with mic := noneByte mic, speaker := noneByte speaker, keyCount := count }
      let p2 := if p.presence = .unconfigured then
          { p1 with presence := .absent, missed := 8, lastSeq := none, reported := none, outOfRange := 0 }
        else p1
      ({ code := .done, values := u8 p2.presence.ctorIdx }, setPanel l a p2 .configured s)

/-- The transaction in hand with a cleared panel ends; a loop with no configured address has no round position
(R98, R112). -/
def forgetPanel (l a : Nat) (s : State) : State :=
  let lp := s.loop l
  let here := lp.position = some a
  putLoop l { lp with
    inHand := if here then false else lp.inHand
    position := if (addresses s l).isEmpty then none else lp.position } s

/-- PANEL.CONFIG with the clear flag set (R112): the presence state. That the panel record is written and Cleared raised
before the loop record is written is the model's choice (log entry 76). -/
def orderPanelConfigClear (l a : Nat) (s : State) : Result × State :=
  if 3 < l ∨ 15 < a then failWith .badValue s
  else
    let r : Result := { code := .done, values := u8 Presence.unconfigured.ctorIdx }
    if !(s.panel (16 * l + a)).configured then (r, s)
    else
      let s1 := if (s.panel (16 * l + a)).known then releasePanel l a s else s
      let p := s1.panel (16 * l + a)
      let s2 := setPanel l a
        { p with
          presence := .unconfigured, mic := none, speaker := none, keyCount := 24, lastSeq := none, missed := 0
          reported := none, outOfRange := 0 } .cleared s1
      (r, forgetPanel l a s2)

/-- A known panel of a loop being disabled goes Absent (R113), without an accepted sequence (R100). -/
def disablePanel (l a : Nat) (s : State) : State :=
  if (s.panel (16 * l + a)).known then
    let s1 := releasePanel l a s
    setPanel l a { s1.panel (16 * l + a) with presence := .absent, missed := 8, lastSeq := none } .loopDisabled s1
  else s

/-- A bit rate the loop has (Table 5-1). -/
def rateOk (r : Nat) : Bool := r == 250 || r == 500 || r == 1000 || r == 2000

/-- The counts LOOP.CONFIG reports (R113): configured panels, and those Present. -/
def loopCounts (l : Nat) (s : State) : List Byte :=
  u8 (addresses s l).length
    ++ u8 ((addresses s l).filter fun a => (s.panel (16 * l + a)).presence == .present).length

/-- LOOP.CONFIG (R113). That a disable writes the loop record once, the enable and the round position together, before
the panels are released and go Absent is the model's choice (log entry 76). -/
def orderLoopConfig (l : Nat) (enable : Bool) (rate : Option Nat) (s : State) : Result × State :=
  if 3 < l then failWith .badValue s
  else if !presentOk rateOk rate then ({ code := .badValue, values := loopCounts l s }, s)
  else
    let lp := s.loop l
    let rated := { lp with rate := rate.getD lp.rate }
    let t :=
      if lp.enabled = enable then putLoop l rated s
      else
        let s1 := putLoop l { rated with enabled := enable, inHand := false, position := none } s
        if enable then s1 else forEach 16 (disablePanel l) s1
    ({ code := .done, values := loopCounts l t }, t)

/-! ### Meanings -/

/-- HELLO (R102). -/
def execHello (loop kind keyCount : Nat) (s : State) : Out := .next (settle (takeHello loop kind keyCount s))
/-- REPORT (R103, R104); more than 8 changes or a sequence above 7 is malformed (R100). -/
def execReport (loop seq : Nat) (changes : List (Nat × Bool)) (s : State) : Out :=
  .next (if 7 < seq ∨ 8 < changes.length then countBad loop s
    else settle (takeAnswer loop (some (seq, changes)) s))
/-- IDLE_REPLY (R103). -/
def execIdleReply (loop : Nat) (s : State) : Out := .next (takeAnswer loop none s)
/-- BAD_FRAME (R100). -/
def execBadFrame (loop : Nat) (s : State) : Out := .next (countBad loop s)
/-- STRAY_REPLY (R100). -/
def execStrayReply (loop : Nat) (s : State) : Out := .next (countStray loop s)
/-- POLL_OR_LAMPS_RECEIVED (R100): discarded without count. -/
def execPollOrLampsReceived (_loop : Nat) (s : State) : Out := .next s
/-- REPLY_TIMEOUT (R105). -/
def execReplyTimeout (loop : Nat) (s : State) : Out :=
  .next (match polled s loop with
    | none => s
    | some a => settle (missPoll loop a s))
/-- PANEL_CONFIG (R111). -/
def execPanelConfig (loop address mic speaker keyCount : Nat) (s : State) : Out :=
  .next (runOrder (.panelConfig loop address mic speaker keyCount)
    (orderPanelConfig loop address mic speaker keyCount) s)
/-- PANEL_CONFIG_CLEAR (R112). -/
def execPanelConfigClear (loop address : Nat) (s : State) : Out :=
  .next (settle (runOrder (.panelConfigClear loop address) (orderPanelConfigClear loop address) s))
/-- LOOP_CONFIG (R113). -/
def execLoopConfig (loop : Nat) (enable : Bool) (rate : Option Nat) (s : State) : Out :=
  .next (settle (runOrder (.loopConfig loop enable rate) (orderLoopConfig loop enable rate) s))

end Sys2Proof.Machine
end

