-- ==== Sys2Proof/Machine/FoldOrders.lean ====
section
/-!
DEFINITION. Orders of the foldback unit (R31, R32, R34, R36, R43, R48) and the hold timer (R46).
-/
namespace Sys2Proof.Machine

/-- Foldback record `r`. -/
def State.rec_ (s : State) (r : Nat) : FoldRec := tget s.fold.recs r

/-- The lock of a bound destination refuses changes of its record (R170). -/
def recLocked (s : State) (r : Nat) : Bool :=
  match (s.rec_ r).bound with
  | some d => s.locked d
  | none => false

/-- FOLD.BIND with the bind flag set (R31, Table 2-4). -/
def orderFoldBind (r d : Nat) (s : State) : Result × State :=
  if 24 ≤ r then failWith .badValue s
  else if 127 < d then failWith .badValue s
  else if (s.rec_ r).bound.isSome then failWith .wrongState s
  else if (recordOf s d).isSome then failWith .wrongState s
  else
    let (c, s1) := claimBind d .foldback s
    if c = .done then (Result.of .done, putRec r { s.rec_ r with bound := some d } s1) else failWith c s

/-- FOLD.BIND with the bind flag clear (R32, Table 2-4). -/
def orderFoldUnbind (r : Nat) (s : State) : Result × State :=
  if 24 ≤ r then failWith .badValue s
  else
    let rec_ := s.rec_ r
    match rec_.bound with
    | none => failWith .wrongState s
    | some d =>
      if !rec_.ints.isEmpty || !rec_.pends.isEmpty then failWith .wrongState s
      else
        let (c, s1) := claimBind d .plain s
        if c = .done then
          (Result.of .done,
            putRec r { rec_ with bound := none, minus := [], duck := .opened, holdTimer := none } s1)
        else failWith c s

/-- Programme bus argument: 0 to 7, or none (FFH). -/
def busArgOk (v : Nat) : Bool := v < 8 || v == 255

/-- The settings of a record with the present fields written; the depth is written apart (R43, R44). A hold time of 0
ends Holding at once (R46). -/
def FoldRec.withSettings (bus level mode dim hold : Option Nat) (r : FoldRec) : FoldRec :=
  let r1 := { r with
    bus := match bus with | none => r.bus | some v => noneByte v
    level := level.getD r.level
    mode := (mode.bind foldModeOf).getD r.mode
    dim := dim.getD r.dim
    hold := hold.getD r.hold }
  if r.duck = .holding ∧ hold = some 0 then { r1 with duck := .opened, holdTimer := none } else r1

/-- The settings of FOLD.CONFIG, or of a scene's Fold entry (R43, R44, R48, R166). That the lock refuses an order with no
present flag too is the model's choice (log entry 48). -/
def configFold (scene : Bool) (r : Nat) (bus level mode depth dim hold : Option Nat) (s : State) : Code × State :=
  let rec_ := s.rec_ r
  if 47 < r then (.badValue, s)
  else if !presentOk busArgOk bus || !presentOk levelOk level || !presentOk (fun m => (foldModeOf m).isSome) mode
      || !presentOk (fun n => decide (1 ≤ n) && decide (n ≤ 4)) depth || !presentOk (· ≤ 60) dim
      || !presentOk (· ≤ 2000) hold then (.badValue, s)
  else if recLocked s r then (.locked, s)
  else if scene && depth.getD rec_.depth != rec_.depth && (!rec_.ints.isEmpty || !rec_.pends.isEmpty) then (.busy, s)
  else
    let s1 := putRec r (rec_.withSettings bus level mode dim hold) s
    match depth with
    | none => (.done, s1)
    | some n => (.done, applyFold r (rec_.bound.getD 0) ((s1.rec_ r).setDepth n) s1)

/-- FOLD.CONFIG (R43): numbers of interrupt and pending entries after the order. -/
def orderFoldConfig (r : Nat) (bus level mode depth dim hold : Option Nat) (s : State) : Result × State :=
  let (c, t) := configFold false r bus level mode depth dim hold s
  ({ code := c
     values := if r < 48 then u8 (t.rec_ r).ints.length ++ u8 (t.rec_ r).pends.length else [] }, t)

/-- The checks FOLD.MINUS makes first, add or remove (R34, R36). -/
def minusChecks (r src : Nat) (s : State) : Code :=
  if 47 < r ∨ portOk src = false then .badValue
  else if (s.rec_ r).bound.isNone then .wrongState
  else if recLocked s r then .locked
  else .done

/-- A source added to a minus set (R34). -/
def addMinus (r src : Nat) (s : State) : Code × State :=
  let rec_ := s.rec_ r
  let c := minusChecks r src s
  if c ≠ .done then (c, s)
  else if rec_.minus.contains src then (.done, s)
  else if 4 ≤ rec_.minus.length then (.noRoom, s)
  else if (rec_.ints ++ rec_.pends).any (·.source == src) then (.minusConflict, s)
  else
    match claimMinus (rec_.bound.getD 0) src s with
    | .done => (.done, putRec r { rec_ with minus := rec_.minus ++ [src] } s)
    | c => (c, s)

/-- FOLD.MINUS with the add flag set (R34). -/
def orderFoldMinusAdd (r src : Nat) (s : State) : Result × State :=
  let (c, t) := addMinus r src s
  (Result.of c, t)

/-- FOLD.MINUS with the add flag clear (R36). -/
def orderFoldMinusRemove (r src : Nat) (s : State) : Result × State :=
  let rec_ := s.rec_ r
  let c := minusChecks r src s
  if c ≠ .done then failWith c s
  else if 24 ≤ r ∧ src = 104 + r then failWith .badValue s
  else (Result.of .done, putRec r { rec_ with minus := rec_.minus.filter (· != src) } s)

/-- FOLD_BIND (R31). -/
def execFoldBind (record dest : Nat) (s : State) : Out :=
  .next (runOrder (.foldBind record dest) (orderFoldBind record dest) s)
/-- FOLD_UNBIND (R32). -/
def execFoldUnbind (record : Nat) (s : State) : Out :=
  .next (runOrder (.foldUnbind record) (orderFoldUnbind record) s)
/-- FOLD_CONFIG (R43). -/
def execFoldConfig (record : Nat) (bus level mode depth dim hold : Option Nat) (s : State) : Out :=
  .next (settle (runOrder (.foldConfig record bus level mode depth dim hold)
    (orderFoldConfig record bus level mode depth dim hold) s))
/-- FOLD_MINUS_ADD (R34). -/
def execFoldMinusAdd (record source : Nat) (s : State) : Out :=
  .next (runOrder (.foldMinusAdd record source) (orderFoldMinusAdd record source) s)
/-- FOLD_MINUS_REMOVE (R36). -/
def execFoldMinusRemove (record source : Nat) (s : State) : Out :=
  .next (runOrder (.foldMinusRemove record source) (orderFoldMinusRemove record source) s)

/-- HOLD_TIMER_EXPIRY (R46): from Holding to Open. -/
def execHoldTimerExpiry (record : Nat) (s : State) : Out :=
  let r := s.rec_ record
  .next (if r.duck = .holding ∧ due r.holdTimer s.now then
    putRec record { r with duck := .opened, holdTimer := none } s else s)

end Sys2Proof.Machine
end

