-- ==== Sys2Proof/Machine/KeyOrders.lean ====
section
/-!
DEFINITION. Orders of the grant arbiter (R71 to R77) and its timers (R55, R56, R69).
-/
namespace Sys2Proof.Machine

/-! ### Keys -/

/-- The checks of Table 3-9; none where one fails. -/
def keyArgs (st k f t m c l : Nat) : Option (Function × KeyMode) :=
  match functionOf f, keyModeOf m with
  | some fn, some md =>
    if st ≤ 88 ∧ k < stationKeys st ∧ fn ≠ .none ∧ targetOk fn t = true ∧ ¬(fn = .call ∧ t = st) ∧ c ≤ 7 ∧ 1 ≤ l ∧ l ≤ 240
    then some (fn, md) else none
  | _, _ => none

/-- Does the key have something KEY.ASSIGN ends: not Idle, or a listen count held (R73)? -/
def KeyEntry.active (e : KeyEntry) : Bool := e.state != .idle || e.listening

/-- A key assigned by KEY.ASSIGN, or by a scene's Key entry (R73, R166); whether a request was ended. A forced end of a key
that is Idle with nothing held finds nothing to end. -/
def assignKey (scene : Bool) (st k f t m c l : Nat) (s : State) : Code × Bool × State :=
  match keyArgs st k f t m c l with
  | none => (.badValue, false, s)
  | some (fn, md) =>
    let active := (s.key st k).active
    if scene && active then (.busy, false, s)
    else
      let s1 := forcedEnd { station := st, key := k } s
      (.done, active, putKey st k
        { (s1.key st k).ended with
          function := fn, target := t, mode := md, cls := c, level := l, busy := none } s1)

/-- KEY.ASSIGN (R73): 1 when a request was ended. -/
def orderKeyAssign (st k f t m c l : Nat) (s : State) : Result × State :=
  let (code, ended, t') := assignKey false st k f t m c l s
  ({ code := code, values := uFlag ended }, t')

/-- KEY.CLEAR (R74): the key is unassigned and Idle with nothing held; 1 when a request was ended. -/
def orderKeyClear (st k : Nat) (s : State) : Result × State :=
  if 88 < st ∨ stationKeys st ≤ k then ({ code := .badValue, values := uFlag false }, s)
  else
    let active := (s.key st k).active
    let s1 := forcedEnd { station := st, key := k } s
    ({ code := .done, values := uFlag active },
      putKey st k { (s1.key st k).ended with function := .none, busy := none } s1)

/-- A desk key's event given by an order (R76): the key's state after it. -/
def deskEvent (press : Bool) (k : Nat) (s : State) : Result × State :=
  if 31 < k then failWith .badValue s
  else
    let state (s : State) : List Byte := u8 (s.key 88 k).state.ctorIdx
    if (s.key 88 k).pressed = press then ({ code := .wrongState, values := state s }, s)
    else
      let t := keyEvent press { station := 88, key := k } s
      ({ code := .done, values := state t }, t)

/-! ### Party lines -/

/-- Talkers displaced until the set holds the limit (Table 3-8). -/
def shrinkTalkers (l : Nat) : Nat → State → State
  | 0, s => s
  | fuel + 1, s =>
    let r := s.line l
    if r.limit < r.talkers.length then
      match lowestOf s (r.talkers.map (·.key)) with
      | none => s
      | some k => shrinkTalkers l fuel (displaceTalker l k s)
    else s

/-- The effects of Table 3-8 on limit and lists. -/
def applyLimit (l : Nat) (s : State) : State :=
  let s1 := shrinkTalkers l (s.line l).talkers.length s
  let s2 := trimWaiting l (s1.line l).waiting.length s1
  takeInAll l s2

/-- The turn timers after a change of policy (Table 3-8). -/
def Line.retime (old : Policy) (now : Nat) (r : Line) : Line :=
  match old, r.policy with
  | .fixed, .rotating =>
    { r with talkers := r.talkers.map fun t => { t with timer := some (now + 1000 * r.turn) } }
  | .rotating, .fixed => { r with talkers := r.talkers.map fun t => { t with timer := none } }
  | _, _ => r

/-- LINE.CONFIG (R71): numbers of talkers and of waiting keys. -/
def orderLineConfig (l : Nat) (limit policy turn : Option Nat) (s : State) : Result × State :=
  if 31 < l then failWith .badValue s
  else
    let counts (s : State) : List Byte := u8 (s.line l).talkers.length ++ u8 (s.line l).waiting.length
    if !presentOk (fun n => decide (1 ≤ n) && decide (n ≤ 8)) limit || !presentOk (fun p => (policyOf p).isSome) policy
        || !presentOk (fun n => decide (1 ≤ n) && decide (n ≤ 30)) turn then
      ({ code := .badValue, values := counts s }, s)
    else
      let r := s.line l
      let s1 := putLine l { r with
        limit := limit.getD r.limit, policy := (policy.bind policyOf).getD r.policy, turn := turn.getD r.turn } s
      let s2 := if limit.isSome then applyLimit l s1 else s1
      let s3 := putLine l ((s2.line l).retime r.policy s.now) s2
      ({ code := .done, values := counts s3 }, s3)

/-- A station's membership of a line. -/
def memberOf (r : Line) (st : Nat) : Option LineMember := r.members.find? (·.station == st)

/-- The keys of a station that talk or wait on a line, in ascending key index: the order in which their forced ends are
made is the model's choice (log entry 49). -/
def lineKeys (s : State) (l st : Nat) : List Nat :=
  (List.range (stationKeys st)).filter fun k =>
    match (s.key st k).held with
    | some (.line l' _) => l' == l
    | _ => false

/-- The member list with a station's entry written, added or removed (R72). -/
def setMember (st : Nat) (m : Option LineMember) (ms : List LineMember) : List LineMember :=
  match m with
  | none => ms.filter (·.station != st)
  | some m =>
    if ms.any (·.station == st) then ms.map fun x => if x.station = st then m else x else ms ++ [m]

/-- Does a membership hold the Talk right? -/
def talksOf (m : Option LineMember) : Bool :=
  match m with
  | some m => m.talk
  | none => false

/-- Does a membership hold the Listen right? -/
def listensOf (m : Option LineMember) : Bool :=
  match m with
  | some m => m.listen
  | none => false

/-- The slot destination of a membership. -/
def slotIn (m : Option LineMember) : Option Nat :=
  match m with
  | some m => m.slot
  | none => none

/-- New rights take effect (R72): a lost Listen right leaves the slot, a lost Talk right ends the station's keys on the
line, the member list is written. -/
def writeRights (l st : Nat) (talk listen : Bool) (old : Option LineMember) (speaker : Option Nat) (s : State) : State :=
  let s1 := if listensOf old && !listen then leaveSlot l (slotIn old) s else s
  let s2 :=
    if talksOf old && !talk then
      (lineKeys s1 l st).foldl (fun s k => forcedEnd { station := st, key := k } s) s1
    else s1
  let slot := if listen then (if listensOf old then slotIn old else speaker) else none
  let m : Option LineMember :=
    if talk || listen then some { station := st, talk := talk, listen := listen, slot := slot } else none
  putLine l { s2.line l with members := setMember st m (s2.line l).members } s2

/-- The slot join claim of a new Listen right (R72). -/
def joinFor (wanted : Bool) (d l : Nat) (s : State) : Code × State := if wanted then claimJoin d l s else (.done, s)

/-- The rights of a station on a line set by LINE.MEMBER, or by a scene's Member entry (R72, R166). That the join claim's
NoRoom counts among the checks of R72, before a scene's Busy, is the model's choice (log entry 65). -/
def setRights (scene : Bool) (l st rights : Nat) (s : State) : Code × State :=
  match rightsOf rights with
  | none => (.badValue, s)
  | some (talk, listen) =>
    let old := memberOf (s.line l) st
    let join := joinFor (listen && !listensOf old) ((speakerOf s st).getD 0) l s
    if 31 < l ∨ 88 < st then (.badValue, s)
    else if listen && !listensOf old && (speakerOf s st).isNone then (.badValue, s)
    else if old.isNone && !(talk || listen) then (.done, s)
    else if old.isNone && decide (32 ≤ (s.line l).members.length) then (.noRoom, s)
    else if join.1 ≠ .done then (join.1, s)
    else if scene && talksOf old && !talk && !(lineKeys s l st).isEmpty then (.busy, s)
    else (.done, writeRights l st talk listen old (speakerOf s st) join.2)

/-- LINE.MEMBER (R72): number of members. -/
def orderLineMember (l st rights : Nat) (s : State) : Result × State :=
  let (c, t) := setRights false l st rights s
  ({ code := c, values := if l < 32 then u8 (t.line l).members.length else [] }, t)

/-! ### Desk and times -/

/-- DESK.CONFIG (R75). -/
def orderDeskConfig (src : Nat) (s : State) : Result × State :=
  if portOk src || src == 255 then (Result.of .done, { s with arb.deskMic := noneByte src })
  else failWith .badValue s

/-- A smart threshold in range (R77). -/
def smartOk (n : Nat) : Bool := decide (100 ≤ n) && decide (n ≤ 1000) && n % 50 == 0

/-- A call timeout in range (R77). -/
def timeoutOk (n : Nat) : Bool := decide (5 ≤ n) && decide (n ≤ 120)

/-- SYS.TIMES (R77). -/
def orderSysTimes (smart timeout : Option Nat) (s : State) : Result × State :=
  if !presentOk smartOk smart || !presentOk timeoutOk timeout then failWith .badValue s
  else
    (Result.of .done, { s with
      arb.smart := smart.getD s.arb.smart
      call.timeout := timeout.getD s.call.timeout })

/-! ### Timers -/

/-- The turn check of a line for the class of a talker whose timer expired (R69): the oldest talker of the class waits
after its class, the first waiting key of the class talks. -/
def turnOver (l : Nat) (old next : KeyId) (s : State) : State :=
  let r := s.line l
  let s1 := putLine l
    { r with
      talkers := r.talkers.filter (·.key != old)
      waiting := waitBack s old (r.waiting.filter (· != next)) } s
  joinTalkers l next (slotOf (s1.keyOf next)) (putKey old.station old.key { s1.keyOf old with state := .waiting } s1)

/-- The timer of a talker started again for another turn time (R69). -/
def restartTurn (l : Nat) (k : KeyId) (s : State) : State :=
  let r := s.line l
  putLine l { r with
    talkers := r.talkers.map fun t => if t.key = k then { t with timer := some (s.now + 1000 * r.turn) } else t } s

/-- The turn timer of a talker has expired (R69). -/
def turnExpired (l : Nat) (k : KeyId) (s : State) : State :=
  let c := (s.keyOf k).cls
  let r := s.line l
  match r.waiting.find? (fun w => (s.keyOf w).cls == c), (r.talkers.map (·.key)).find? (fun t => (s.keyOf t).cls == c) with
  | some next, some old => restartTurn l k (turnOver l old next s)
  | _, _ => restartTurn l k s

/-! ### Meanings -/

/-- KEY_ASSIGN (R73). -/
def execKeyAssign (station key function target mode cls level : Nat) (s : State) : Out :=
  .next (settle (runOrder (.keyAssign station key function target mode cls level)
    (orderKeyAssign station key function target mode cls level) s))
/-- KEY_CLEAR (R74). -/
def execKeyClear (station key : Nat) (s : State) : Out :=
  .next (settle (runOrder (.keyClear station key) (orderKeyClear station key) s))
/-- KEY_PRESS (R76). -/
def execKeyPress (key : Nat) (s : State) : Out :=
  .next (settle (runOrder (.keyPress key) (deskEvent true key) s))
/-- KEY_RELEASE (R76). -/
def execKeyRelease (key : Nat) (s : State) : Out :=
  .next (settle (runOrder (.keyRelease key) (deskEvent false key) s))
/-- LINE_CONFIG (R71). -/
def execLineConfig (line : Nat) (limit policy turn : Option Nat) (s : State) : Out :=
  .next (runOrder (.lineConfig line limit policy turn) (orderLineConfig line limit policy turn) s)
/-- LINE_MEMBER (R72). -/
def execLineMember (line station rights : Nat) (s : State) : Out :=
  .next (runOrder (.lineMember line station rights) (orderLineMember line station rights) s)
/-- DESK_CONFIG (R75). -/
def execDeskConfig (source : Nat) (s : State) : Out :=
  .next (runOrder (.deskConfig source) (orderDeskConfig source) s)
/-- SYS_TIMES (R77). -/
def execSysTimes (smart timeout : Option Nat) (s : State) : Out :=
  .next (runOrder (.sysTimes smart timeout) (orderSysTimes smart timeout) s)

/-- TURN_TIMER_EXPIRY (R69). -/
def execTurnTimerExpiry (line station key : Nat) (s : State) : Out :=
  let k : KeyId := { station := station, key := key }
  .next (if (s.line line).talkers.any fun t => t.key == k && due t.timer s.now then turnExpired line k s else s)
/-- BUSY_MARK_EXPIRY (R56). -/
def execBusyMarkExpiry (station key : Nat) (s : State) : Out :=
  .next (if s.hasKey station key && due (s.key station key).busy s.now then
    putKey station key { s.key station key with busy := none } s else s)
/-- REFUSAL_TIMER_EXPIRY (R55): Refused goes Idle. -/
def execRefusalTimerExpiry (station key : Nat) (s : State) : Out :=
  .next (if s.hasKey station key && due (s.key station key).refusal s.now then
    putKey station key { s.key station key with state := .idle, refusal := none } s else s)

end Sys2Proof.Machine
end

