-- ==== Sys2Proof/Machine/RecallSteps.lean ====
section
/-!
DEFINITION. The recall engine (R161 to R173): loading, steps, endings and the fallback recall. What the boundaries of
a recall leave open is log entry 25.
-/
namespace Sys2Proof.Machine

/-! ### Scene records (section 10.5) -/

/-- Sum of the four 16-bit words of an entry. -/
def entrySum (e : SceneEntry) : BitVec 16 :=
  e.extractLsb' 0 16 + e.extractLsb' 16 16 + e.extractLsb' 32 16 + e.extractLsb' 48 16

/-- The checksum of a list of entries (R161). -/
def sceneSum (l : List SceneEntry) : BitVec 16 := l.foldl (fun a e => a + entrySum e) 0

/-- The first `n` entries in a run of bytes. -/
def entriesOf : Nat → List Byte → List SceneEntry
  | 0, _ => []
  | n + 1, b => BitVec.ofNat 64 (leNat (b.take 8)) :: entriesOf n (b.drop 8)

/-- Byte `i` of an entry. -/
def entryByte (e : SceneEntry) (i : Nat) : Nat := (e.extractLsb' (8 * i) 8).toNat

/-! ### Endings -/

/-- The six result values of a host recall (R168): scene number, four counts, entries taken. -/
def recallValues (r : Recall) : List Byte :=
  u16 r.scene ++ u16 r.applied ++ u16 r.lockedCount ++ u16 r.noRoomCount ++ u16 r.invalid ++ u16 r.nextEntry

/-- The result of a long order is handed over: to its slot where it is still wanted there. -/
def handResult (r : Result) (s : State) : State :=
  let s1 := { s with exch.lastResult := some r }
  match s.engine.slot with
  | some k => if s.engine.resultWanted then finishSlot k r s1 else s1
  | none => s1

/-- The part enters a recall's first step, or Suspended where a cause is present (R163). -/
def enterSteps (s : State) : State :=
  let target : EngineState := if s.engine.merge then .applying else .clearing
  if s.engine.allCall || s.engine.emergency then suspendRecall target s
  else putRecall { s.engine with state := target } s

/-- The context at the start of a work (R163, R172, R173). Scene number, mode and entry count stay those of the work before
until the header is read, and are what a work that ends before it reports (R168): the model's choice (log entry 55). That
a Store too sets the counts, the next destination and entry and the protected steps to 0 is the model's choice (log
entry 25). -/
def Recall.begin (r : Recall) (work : Work) (slot : Option Nat) : Recall :=
  { r with
    work := some work, slot := slot, nextDest := 0, nextEntry := 0
    applied := 0, lockedCount := 0, noRoomCount := 0, invalid := 0, protectedN := 0
    abortRequest := false, buffer := [], header := none, resultWanted := slot.isSome }

/-- The fallback recall starts where the store is not empty (R173). -/
def startFallback (s : State) : State :=
  match s.engine.store with
  | none => s
  | some (scene, es) =>
    let r := { s.engine.begin .fallbackRecall none with
      scene := scene, merge := false, entryCount := es.length, buffer := es }
    enterSteps { s with engine := r, exch.fallback := .inProgress }

/-- A Store ends (R172): result to its slot, no event and no trigger. That the slot finishes before the mirror record is
written, once, with the new store and Idle, is the model's choice (log entry 78). -/
def endStore (code : Code) (s : State) : State :=
  let s1 := handResult { code := code, values := u16 s.engine.scene ++ u16 s.engine.entryCount } s
  putRecall { s1.engine with state := .idle } s1

/-- A recall ends (R168): result of a host recall, RecallState, RecallEnd trigger, Idle; in Autonomous a fallback
recall that waited for it starts (R173). `more` is the computed sum of a Checksum ending. -/
def endRecall (code : Code) (more : List Byte) (s : State) : State :=
  let host := s.engine.work == some .hostRecall
  let s1 := if host then handResult { code := code, values := recallValues s.engine ++ more } s else s
  let s2 := raiseEvent 1 (endDetail code s.engine) s1
  let s3 := putRecall { s2.engine with state := .idle } { s2 with reports := s2.reports ++ [.recallEnd] }
  if s.exch.part = .autonomous then
    if host then
      if s3.exch.fallbackDue then startFallback { s3 with exch.fallbackDue := false } else s3
    else { s3 with exch.fallback := .ended }
  else s3

/-- The work in the engine ends. -/
def endWork (code : Code) (more : List Byte) (s : State) : State :=
  if s.engine.work = some .store then endStore code s else endRecall code more s

/-! ### Loading -/

/-- The largest entry count of the work (R163, R172). -/
def entryLimit (r : Recall) : Nat := if r.work = some .store then 512 else 4096

/-- Mode and entry count of a header (section 10.5). -/
def headerMode (b : List Byte) : Nat := leNat ((b.drop 2).take 1)
/-- See `headerMode`. -/
def headerCount (b : List Byte) : Nat := leNat ((b.drop 4).take 2)

/-- The context with a header's fields (R163); the mode is a recall's alone. -/
def Recall.withHeader (b : List Byte) (r : Recall) : Recall :=
  { r with
    scene := leNat (b.take 2), entryCount := headerCount b, header := some (leNat ((b.drop 6).take 2))
    merge := if r.work = some .store then r.merge else headerMode b == 1 }

/-- Is the count in range for the work, and the mode one of the two (R163, R172)? -/
def headerOk (b : List Byte) (r : Recall) : Bool :=
  decide (1 ≤ headerCount b) && decide (headerCount b ≤ entryLimit r) && decide (headerMode b ≤ 1)

/-- The header has been read (R163): 16 bytes. -/
def readHeader (b : List Byte) (s : State) : State :=
  let s1 := putRecall (s.engine.withHeader b) s
  if headerOk b s.engine then s1 else endWork .badValue [] s1

/-- Loading has read the last entry (R163, R172). -/
def finishLoading (s : State) : State :=
  let r := s.engine
  let sum := (sceneSum r.buffer).toNat
  if r.header ≠ some sum then endWork .checksum (u16 sum) s
  else if r.work = some .store then endStore .done { s with engine := { r with store := some (r.scene, r.buffer) } }
  else enterSteps s

/-- Entries have been read into the recall buffer; what stands behind the last one is not taken. -/
def readEntries (b : List Byte) (s : State) : State :=
  let r := s.engine
  let n := min (r.entryCount - r.buffer.length) (b.length / 8)
  let s1 := putRecall { r with buffer := r.buffer ++ entriesOf n b } s
  if s1.engine.buffer.length = r.entryCount then finishLoading s1 else s1

/-- A read of the scene record ends (R163). -/
def sceneRead (bytes : Option (List Byte)) (s : State) : State :=
  if s.engine.state ≠ .loading then s
  else
    match bytes, s.engine.header with
    | none, _ => endWork .hostFault [] s
    | some b, none => if b.length = 16 then readHeader b s else s
    | some b, some _ => readEntries b s

/-! ### Steps -/

/-- What stands before a step (R167): whether the step is handed over, and the state. That a cause handed over between two
step commands suspends only here, as the next one begins, is the model's choice (log entry 25). -/
def boundary (s : State) : Bool × State :=
  if s.engine.abortRequest then (false, endRecall .aborted [] s)
  else if (s.engine.allCall || s.engine.emergency) && s.engine.protectedN == 0 then
    (false, suspendRecall s.engine.state s)
  else (true, s)

/-- One destination visited by Clearing (R164); with the last one the engine goes Applying. -/
def clearingStep (s : State) : State :=
  if s.engine.state ≠ .clearing then s
  else
    match boundary s with
    | (false, t) => t
    | (true, _) =>
      let d := s.engine.nextDest
      let t := (claimRemoveDest d s).2
      putRecall { s.engine with
        nextDest := d + 1, protectedN := s.engine.protectedN - 1
        state := if d < 159 then .clearing else .applying } t

/-- A Minus entry goes to the record bound to its destination (Table 9-1). -/
def sceneMinus (d src : Nat) (s : State) : Code × State :=
  match recordOf s d with
  | none => (.wrongState, s)
  | some r => addMinus r src s

/-- One entry handed to its owner (Table 9-1, Table 10-7), and the owner's answer. That the bits of a Fold entry's byte 4
which the table does not name are ignored is the model's choice (log entry 85). -/
def applyEntry (e : SceneEntry) (s : State) : Code × State :=
  let b := entryByte e
  match b 0 with
  | 1 => claimAdd .scene (b 1) (b 2) (b 3) s
  | 2 => configFold true (b 1) (some (b 2)) (some (b 3)) (some (b 4 % 4)) (some (b 4 / 16 % 8)) (some (b 5))
      (some (b 6 + 256 * b 7)) s
  | 3 => sceneMinus (b 1) (b 2) s
  | 4 => setRights true (b 1) (b 2) (b 3) s
  | 5 =>
    let (code, _, t) := assignKey true (b 1) (b 2) (b 3) (b 4) (b 5) (b 6) (b 7) s
    (code, t)
  | 6 => claimHeld (b 1) s
  | _ => (.badKind, s)

/-- The answer counted (R165). -/
def Recall.tally (c : Code) (r : Recall) : Recall :=
  match c with
  | .done => { r with applied := r.applied + 1 }
  | .locked => { r with lockedCount := r.lockedCount + 1 }
  | .noRoom => { r with noRoomCount := r.noRoomCount + 1 }
  | _ => { r with invalid := r.invalid + 1 }

/-- The code of a recall that has made its last step (R168). -/
def Recall.endCode (r : Recall) : Code :=
  if r.lockedCount = 0 ∧ r.noRoomCount = 0 ∧ r.invalid = 0 then .done else .partDone

/-- One entry taken by Applying (R165); with the last one the recall ends. -/
def applyingStep (s : State) : State :=
  if s.engine.state ≠ .applying then s
  else
    match boundary s with
    | (false, t) => t
    | (true, _) =>
      match s.engine.buffer[s.engine.nextEntry]? with
      | none => endRecall s.engine.endCode [] s
      | some e =>
        let (c, t) := applyEntry e s
        let r := { t.engine.tally c with nextEntry := t.engine.nextEntry + 1, protectedN := t.engine.protectedN - 1 }
        let t1 := putRecall r t
        if t1.engine.nextEntry < t1.engine.entryCount then t1 else endRecall t1.engine.endCode [] t1

/-! ### Aborts -/

/-- An abort (R168): at once in Loading and Suspended, at the next boundary in Clearing and Applying. -/
def abortRecall (s : State) : State :=
  match s.engine.state with
  | .idle => s
  | .loading | .suspended => endWork .aborted [] s
  | .clearing | .applying => putRecall { s.engine with abortRequest := true } s

/-- The result of the work in the engine is not to be written (R169). -/
def dropResult (s : State) : State := { s with engine := { s.engine with resultWanted := false } }

/-- Stop (R169, R180): the work ends with Aborted at once, its result written. -/
def stopRecall (s : State) : State := if s.engine.state = .idle then s else endWork .aborted [] s

/-- Restart (R169): a host recall or Store is aborted without result. -/
def restartRecall (s : State) : State :=
  if s.engine.state = .idle ∨ s.engine.work = some .fallbackRecall then s else abortRecall (dropResult s)

/-- Autonomous entry (R169, R173): the fallback recall starts, or waits for an abort to end where the store is not
empty. That one still in progress is reported so even where the store has been cleared since is the model's choice (log
entry 26). -/
def autonomousRecall (s : State) : State :=
  match s.engine.state with
  | .idle => startFallback s
  | st =>
    if s.engine.work = some .fallbackRecall then { s with exch.fallback := .inProgress }
    else
      let t := abortRecall (dropResult s)
      if st = .loading ∨ st = .suspended then startFallback t else { t with exch.fallbackDue := t.engine.store.isSome }

/-! ### Orders -/

/-- SCENE.RECALL and FALLBACK.STORE up to their beginning (R163, R172): the code of a refusal, or the work begun. -/
def beginLong (work : Work) (address : Nat) (slot : Option Nat) (s : State) : Option Code × State :=
  if address % 8 ≠ 0 then (some .badValue, s)
  else if s.engine.state ≠ .idle then (some .busy, s)
  else (none, putRecall { s.engine.begin work slot with state := .loading } s)

/-- A long order's row (R177): refused, it finishes as a short order does; begun, its slot stays In flight. -/
def runLong (i : Instr) (work : Work) (address : Nat) (s : State) : State :=
  match s.exch.inHand with
  | none =>
    if s.exch.part = .autonomous then s
    else
      match beginLong work address none s with
      | (some c, _) => { s with exch.lastResult := some (Result.of c) }
      | (none, t) => t
  | some h =>
    if h.order = i then
      match beginLong work address (some h.slot) { s with exch.inHand := none } with
      | (some c, t) => finishSlot h.slot (Result.of c) { t with exch.lastResult := some (Result.of c) }
      | (none, t) => t
    else s

/-- The engine state as a result value. -/
def engineValue (s : State) : List Byte := u8 s.engine.state.ctorIdx

/-- SCENE.ABORT (R168): the engine state it found. Where it ends a host recall or a Store at once, that the slot of that
work finishes before the slot of SCENE.ABORT is the model's choice (log entry 72). -/
def orderSceneAbort (s : State) : Result × State :=
  if s.engine.state = .idle then ({ code := .wrongState, values := engineValue s }, s)
  else ({ code := .done, values := engineValue s }, abortRecall s)

/-- The number of entries the store holds. -/
def storeCount (s : State) : Nat := match s.engine.store with | none => 0 | some (_, es) => es.length

/-- FALLBACK.CLEAR (R173): the number of entries the store held. -/
def orderFallbackClear (s : State) : Result × State :=
  let held := u16 (storeCount s)
  if s.engine.state ≠ .idle ∧ s.engine.work = some .store then ({ code := .busy, values := held }, s)
  else ({ code := .done, values := held }, putRecall { s.engine with store := none } s)

/-- SCENE_RECALL (R163). -/
def execSceneRecall (address : Nat) (s : State) : Out :=
  .next (runLong (.sceneRecall address) .hostRecall address s)
/-- SCENE_ABORT (R168). -/
def execSceneAbort (s : State) : Out := .next (settle (runOrder .sceneAbort orderSceneAbort s))
/-- FALLBACK_STORE (R172). -/
def execFallbackStore (address : Nat) (s : State) : Out :=
  .next (runLong (.fallbackStore address) .store address s)
/-- FALLBACK_CLEAR (R173). -/
def execFallbackClear (s : State) : Out := .next (runOrder .fallbackClear orderFallbackClear s)
/-- SCENE_READ_DONE (R163). -/
def execSceneReadDone (bytes : Option (List Byte)) (s : State) : Out := .next (settle (sceneRead bytes s))
/-- CLEARING_STEP (R164). -/
def execClearingStep (s : State) : Out := .next (settle (clearingStep s))
/-- APPLYING_STEP (R165). -/
def execApplyingStep (s : State) : Out := .next (settle (applyingStep s))

end Sys2Proof.Machine
end

