-- ==== Sys2Proof/Machine/Routing.lean ====
section
/-!
DEFINITION. Orders of the matrix controller and of the mixer's programme buses (R3, R8, R18 to R20, R25, R26, R171).
-/
namespace Sys2Proof.Machine

/-- The counts ROUTE.SET reports (R18). -/
def poolCounts (d : Nat) (s : State) : List Byte := u16 s.mat.pool.length ++ u8 (destCount s.mat.pool d)

/-- ROUTE.SET (R18, Table 1-6). -/
def orderRouteSet (d src lvl : Nat) (s : State) : Result × State :=
  let (c, t) := claimAdd .route d src lvl s
  ({ code := c, values := poolCounts d t }, t)

/-- ROUTE.CLEAR (R19). -/
def orderRouteClear (d src : Nat) (s : State) : Result × State :=
  if !portOk d || !portOk src then ({ code := .badValue, values := u8 0 ++ u8 0 ++ u16 s.mat.pool.length }, s)
  else
    let held := match findEntry s.mat.pool d src with | some e => e.holds | none => false
    let (c, t) := claimRemove d src s
    let gone := (findEntry s.mat.pool d src).isSome && (findEntry t.mat.pool d src).isNone
    ({ code := c, values := uFlag (c == .done && held) ++ uFlag gone ++ u16 t.mat.pool.length }, t)

/-- ROUTE.CLEARDEST (R20). -/
def orderRouteClearDest (d : Nat) (s : State) : Result × State :=
  if !portOk d then ({ code := .badValue, values := u8 0 ++ u8 0 ++ u16 s.mat.pool.length }, s)
  else
    let held := (s.mat.pool.filter fun e => e.dest == d && e.holds).length
    let (c, t) := claimRemoveDest d s
    ({ code := c
       values := u8 (if c = .done then held else 0) ++ u8 (s.mat.pool.length - t.mat.pool.length)
         ++ u16 t.mat.pool.length }, t)

/-- SOURCE.CONFIG (R3, Table 1-2). -/
def orderSourceConfig (src : Nat) (trim mute : Option Nat) (s : State) : Result × State :=
  if !portOk src then failWith .badValue s
  else if !presentOk levelOk trim then failWith .badValue s
  else if !presentOk (fun m => (flagValue m).isSome) mute then failWith .badValue s
  else
    (Result.of .done, { s with
      mat.sources := tmod s.mat.sources src fun r =>
        { r with trim := trim.getD r.trim, mute := (mute.bind flagValue).getD r.mute } })

/-- DEST.CONFIG (R8, Table 1-4). -/
def orderDestConfig (d : Nat) (level limit : Option Nat) (s : State) : Result × State :=
  if !portOk d then failWith .badValue s
  else if !presentOk levelOk level then failWith .badValue s
  else if !presentOk (fun n => decide (1 ≤ n) && decide (n ≤ 24)) limit then failWith .badValue s
  else if level.isSome && s.locked d then failWith .locked s
  else
    let r := s.dest d
    (Result.of .done, s.withDest d { r with level := level.getD r.level, limit := limit.getD r.limit })

/-- Members of a programme bus. -/
def State.bus (s : State) (b : Nat) : List Member := tget s.mix.buses b

/-- The members of a programme bus written. -/
def putBus (b : Nat) (l : List Member) (s : State) : State := { s with mix.buses := tset s.mix.buses b l }

/-- BUS.SET (R25, Table 2-1). The count of 0 given for a bus number above 7 is the model's choice (log entry 47). -/
def orderBusSet (b src lvl : Nat) (s : State) : Result × State :=
  let ms := s.bus b
  let stay (c : Code) : Result × State := ({ code := c, values := u8 ms.length }, s)
  if 7 < b then stay .badValue
  else if !portOk src then stay .badValue
  else if !levelOk lvl then stay .badValue
  else if ms.any (·.source == src) then
    ({ code := .done, values := u8 ms.length },
      putBus b (ms.map fun m => if m.source = src then { m with level := lvl } else m) s)
  else if 32 ≤ ms.length then stay .noRoom
  else ({ code := .done, values := u8 (ms.length + 1) }, putBus b (ms ++ [{ source := src, level := lvl }]) s)

/-- BUS.CLEAR (R26): members removed and members left. The values of a refused order, 0 and the count (0 and 0 for a bus
number above 7), are the model's choice (log entry 47). -/
def orderBusClear (b : Nat) (all : Bool) (src : Nat) (s : State) : Result × State :=
  let ms := s.bus b
  if 7 < b ∨ (all = false ∧ portOk src = false) then ({ code := .badValue, values := u8 0 ++ u8 ms.length }, s)
  else
    let left := if all then [] else ms.filter (·.source != src)
    ({ code := .done, values := u8 (ms.length - left.length) ++ u8 left.length }, putBus b left s)

/-- LOCK.SET (R171). -/
def orderLockSet (d lock : Nat) (s : State) : Result × State :=
  if !portOk d then failWith .badValue s
  else
    let now := (s.dest d).lock
    let stay (c : Code) : Result × State := ({ code := c, values := u8 now.ctorIdx }, s)
    match lockOf lock with
    | none => stay .badValue
    | some l =>
      if s.engine.state = .suspended then stay .suspended
      else if l = .held ∧ now = .fixed then stay .locked
      else ({ code := .done, values := u8 l.ctorIdx }, s.withDest d { s.dest d with lock := l })

/-- LOCK.CLEAR (R171). -/
def orderLockClear (d : Nat) (s : State) : Result × State :=
  if !portOk d then failWith .badValue s
  else
    let now := (s.dest d).lock
    if s.engine.state = .suspended then ({ code := .suspended, values := u8 now.ctorIdx }, s)
    else if now = .fixed then ({ code := .locked, values := u8 now.ctorIdx }, s)
    else ({ code := .done, values := u8 Lock.free.ctorIdx }, s.withDest d { s.dest d with lock := .free })

/-- ROUTE_SET (R18). -/
def execRouteSet (dest source level : Nat) (s : State) : Out :=
  .next (runOrder (.routeSet dest source level) (orderRouteSet dest source level) s)
/-- ROUTE_CLEAR (R19). -/
def execRouteClear (dest source : Nat) (s : State) : Out :=
  .next (runOrder (.routeClear dest source) (orderRouteClear dest source) s)
/-- ROUTE_CLEARDEST (R20). -/
def execRouteClearDest (dest : Nat) (s : State) : Out :=
  .next (runOrder (.routeClearDest dest) (orderRouteClearDest dest) s)
/-- SOURCE_CONFIG (R3). -/
def execSourceConfig (source : Nat) (trim mute : Option Nat) (s : State) : Out :=
  .next (runOrder (.sourceConfig source trim mute) (orderSourceConfig source trim mute) s)
/-- DEST_CONFIG (R8). -/
def execDestConfig (dest : Nat) (level limit : Option Nat) (s : State) : Out :=
  .next (runOrder (.destConfig dest level limit) (orderDestConfig dest level limit) s)
/-- BUS_SET (R25). -/
def execBusSet (bus source level : Nat) (s : State) : Out :=
  .next (runOrder (.busSet bus source level) (orderBusSet bus source level) s)
/-- BUS_CLEAR (R26). -/
def execBusClear (bus : Nat) (all : Bool) (source : Nat) (s : State) : Out :=
  .next (runOrder (.busClear bus all source) (orderBusClear bus all source) s)
/-- LOCK_SET (R171). -/
def execLockSet (dest lock : Nat) (s : State) : Out :=
  .next (runOrder (.lockSet dest lock) (orderLockSet dest lock) s)
/-- LOCK_CLEAR (R171). -/
def execLockClear (dest : Nat) (s : State) : Out :=
  .next (runOrder (.lockClear dest) (orderLockClear dest) s)

end Sys2Proof.Machine
end

