-- ==== Sys2Proof/Machine/StreamOrders.lean ====
section
/-!
DEFINITION. Orders of the stream unit (R149, R151, R154, R155, R159).
-/
namespace Sys2Proof.Machine

/-- The channel state as a result value. -/
def chanValue (c : Nat) (s : State) : List Byte := u8 (s.chan c).state.ctorIdx

/-- The checks of STREAM.APPEND on what the descriptor's read returned (checks 5 to 8 of Table 8-4). -/
def descOk (c : Nat) (d : DescRead) : Bool :=
  d.hostState == 1 && decide (48 ≤ d.length) && decide (d.length ≤ 1048576) && d.length % 48 == 0 && d.buffer % 4 == 0
    && (isPlayback c || !bit d.flags 0)

/-- A descriptor joins the chain: Idle arms the channel and an Immediate trigger starts it; Starved goes back to
Running (R149, R152). That an append which starts the channel shows the descriptor by one write of the mirror record and
Running by the next is the model's choice (log entry 76). -/
def joinChain (c : Nat) (d : Desc) (s : State) : State :=
  let r := s.chan c
  let r1 := { r with chain := r.chain ++ [d], nextIndex := (r.nextIndex + 1) % 256 }
  match r.state with
  | .idle =>
    let s1 := putChan c { r1 with state := .armed } s
    if r.trigger = .immediate then enterRunning c s1 else s1
  | .starved => enterRunning c (putChan c r1 s)
  | _ => putChan c r1 s

/-- STREAM.APPEND (R149, Table 8-4): chain index given, or none, and the channel state. That the bits of the flags which
no table names are ignored is the model's choice (log entry 85). -/
def orderStreamAppend (c address : Nat) (read : Option DescRead) (s : State) : Result × State :=
  let r := s.chan c
  let stay (code : Code) : Result × State := ({ code := code, values := uOpt 2 none ++ chanValue c s }, s)
  if 15 < c then ({ code := .badValue, values := uOpt 2 none ++ u8 255 }, s)
  else if 8 ≤ r.chain.length then stay .noRoom
  else if r.chain.any (·.address == address) then stay .badValue
  else
    match read with
    | none => stay .hostFault
    | some d =>
      if descOk c d then
        let t := joinChain c
          { address := address, buffer := d.buffer, length := d.length, loop := bit d.flags 0, last := bit d.flags 1
            index := r.nextIndex } s
        ({ code := .done, values := u16 r.nextIndex ++ chanValue c t }, t)
      else stay .badValue

/-- STREAM.START (R151). -/
def orderStreamStart (c : Nat) (s : State) : Result × State :=
  if 15 < c then failWith .badValue s
  else
    match (s.chan c).state with
    | .idle => ({ code := .wrongState, values := chanValue c s }, s)
    | _ =>
      let t := startChannel c s
      ({ code := .done, values := chanValue c t }, t)

/-- STREAM.CUT (R154), the Cut made by `cut`. -/
def orderStreamCutBy (cut : Nat → State → State) (c : Nat) (s : State) : Result × State :=
  if 15 < c then failWith .badValue s
  else
    match (s.chan c).state with
    | .idle | .starved => ({ code := .wrongState, values := chanValue c s }, s)
    | _ =>
      let t := cut c s
      ({ code := .done, values := chanValue c t }, t)

/-- STREAM.CUT (R154). -/
def orderStreamCut (c : Nat) (s : State) : Result × State := orderStreamCutBy cutChannel c s

/-- STREAM.STOP (R155): the number of descriptors returned. -/
def orderStreamStop (c : Nat) (s : State) : Result × State :=
  if 15 < c then failWith .badValue s
  else ({ code := .done, values := u8 (s.chan c).chain.length }, stopChannel c s)

/-- STREAM.STOP where nothing is returned any more (R160, log entry 8): the chain is discarded, 0 descriptors returned. -/
def discardStreamStop (c : Nat) (s : State) : Result × State :=
  if 15 < c then failWith .badValue s else ({ code := .done, values := u8 0 }, discardChannel c s)

/-- A cue binding argument in range: absent (both FFH), or a destination 0 to 151 and a class 0 to 7. -/
def cueArgOk (q : Nat × Nat) : Bool := (q.1 == 255 && q.2 == 255) || (decide (q.1 < 152) && decide (q.2 < 8))

/-- The trigger a present argument names; none where it is out of range. -/
def triggerArg (old : Trigger) : Option (Nat × Nat) → Option Trigger
  | none => some old
  | some (k, a) => triggerOf k a

/-- The cue binding after STREAM.CONFIG. -/
def cueArg (old : Option (Nat × Nat)) : Option (Nat × Nat) → Option (Nat × Nat)
  | none => old
  | some q => if q.1 = 255 then none else some q

/-- The checks of STREAM.CONFIG after the trigger's (R159). -/
def streamChecks (c : Nat) (cue : Option (Nat × Nat)) (mirror : Option Nat) (r : Channel) : Code :=
  if cue.isSome && (!isPlayback c || !(match cue with | some q => cueArgOk q | none => true)) then .badValue
  else if mirror.isSome && isPlayback c then .badValue
  else if cue.isSome && r.state == .running then .wrongState
  else .done

/-- STREAM.CONFIG (R159): the channel state. -/
def orderStreamConfig (c : Nat) (trigger cue : Option (Nat × Nat)) (mirror : Option Nat) (s : State) : Result × State :=
  if 15 < c then failWith .badValue s
  else
    let r := s.chan c
    let stay (code : Code) : Result × State := ({ code := code, values := chanValue c s }, s)
    match triggerArg r.trigger trigger with
    | none => stay .badValue
    | some tr =>
      match streamChecks c cue mirror r with
      | .done =>
        let (m, s1) := match mirror with
          | none => (Code.done, s)
          | some v => claimMirror (144 + c) (noneByte v) s
        if m = .done then
          ({ code := .done, values := chanValue c s }, putChan c { r with trigger := tr, cue := cueArg r.cue cue } s1)
        else stay m
      | code => stay code

/-- STREAM_APPEND (R149). -/
def execStreamAppend (channel address : Nat) (read : Option DescRead) (s : State) : Out :=
  .next (settle (runOrder (.streamAppend channel address read) (orderStreamAppend channel address read) s))
/-- STREAM_START (R151). -/
def execStreamStart (channel : Nat) (s : State) : Out :=
  .next (settle (runOrder (.streamStart channel) (orderStreamStart channel) s))
/-- STREAM_STOP (R155). -/
def execStreamStop (channel : Nat) (s : State) : Out :=
  .next (settle (runOrder (.streamStop channel) (orderStreamStop channel) s))
/-- STREAM_CUT (R154). -/
def execStreamCut (channel : Nat) (s : State) : Out :=
  .next (settle (runOrder (.streamCut channel) (orderStreamCut channel) s))
/-- STREAM_CONFIG (R159). -/
def execStreamConfig (channel : Nat) (trigger cue : Option (Nat × Nat)) (mirror : Option Nat) (s : State) : Out :=
  .next (runOrder (.streamConfig channel trigger cue mirror) (orderStreamConfig channel trigger cue mirror) s)

end Sys2Proof.Machine
end

