-- ==== Sys2Proof/Machine/ExchangeOps.lean ====
section
/-!
DEFINITION. The exchange unit: resets, registers, part state, intake (R174 to R182), supervision and Autonomous (R188
to R190).
-/
namespace Sys2Proof.Machine

/-! ### Registers (Table 10-2) -/

/-- Supervision mode of an XCTL write; code 3 is log entry 13. -/
def modeOf (now : Nat) (m : BitVec 2) : SuperMode :=
  if m = 0 then .off else if m = 1 then .attended else if m = 2 then .strict else Config.modeThree now

/-- Period of an XCTL write: 0 is taken as 1. -/
def periodOf (p : Byte) : Nat := if p = 0 then 1 else p.toNat

/-- The area's base: XBASE with the low 12 bits taken as 0 (R174). -/
def baseOf (lo hi : Word32) : Nat := 4096 * (lo.toNat / 4096) + 4294967296 * hi.toNat

/-- What a read of XBASE_L, XBASE_H, PSTATE or NVSTAT gives (R174, R186, Table 10-2). That the bits of PSTATE and NVSTAT which
the table does not name read as 0 is the model's choice (log entry 83). -/
def readRegister (reg : Reg) (s : State) : Word32 :=
  match reg with
  | .xbaseL => s.exch.xbaseL
  | .xbaseH => s.exch.xbaseH
  | .pstate => BitVec.ofNat 32 (s.exch.part.ctorIdx + 16 * s.exch.startCause.ctorIdx)
  | .nvstat => BitVec.ofNat 32 ((List.range 4).foldl (fun n v => n + (if tget s.ev.vectors v then 2 ^ v else 0)) 0)

/-- What a read of XCTL gives: mode and period, command None (R175). That the bits Table 10-2 does not name read as 0 is the
model's choice (log entry 83). -/
def readXctl (s : State) : Word32 := BitVec.ofNat 32 (4 * s.exch.mode.ctorIdx + 256 * s.exch.period)

/-- A write to XBASE_L or XBASE_H is held; one to PSTATE or NVSTAT is ignored (R174, R175). -/
def writeRegister (reg : Reg) (v : Word32) (s : State) : State :=
  match reg with
  | .xbaseL => { s with exch.xbaseL := v &&& 0xFFFFF000#32 }
  | .xbaseH => { s with exch.xbaseH := v }
  | .pstate => s
  | .nvstat => s

/-! ### Supervision timer (R188) -/

/-- Does the supervision timer run? -/
def timerRuns (x : Exchange) : Bool :=
  match x.mode with
  | .off => false
  | .attended => x.part == .running
  | .strict => x.started && x.part != .autonomous

/-- One full period from now, where the timer runs. -/
def freshTimer (s : State) : Option Nat := if timerRuns s.exch then some (s.now + 100 * s.exch.period) else none

/-- The timer restarted by a write. -/
def restartTimer (s : State) : State := { s with exch.superTimer := freshTimer s }

/-- The timer after a change of part state: it goes on, comes to run with one full period, or stops. -/
def followTimer (s : State) : State :=
  if timerRuns s.exch && s.exch.superTimer.isSome then s else restartTimer s

/-- Mode and period, written by every XCTL write. -/
def writeSettings (mode : BitVec 2) (period : Byte) (s : State) : State :=
  restartTimer { s with exch.mode := modeOf s.now mode, exch.period := periodOf period }

/-! ### The order in hand -/

/-- What each short order does; `desc` is what STREAM.APPEND reads of its descriptor. None for what is no short
order. -/
def orderBody (desc : Option DescRead) : Instr → Option (State → Result × State)
  | .nop t => some (orderNop t)
  | .exchScan i => some (orderExchScan i)
  | .routeSet d s l => some (orderRouteSet d s l)
  | .routeClear d s => some (orderRouteClear d s)
  | .routeClearDest d => some (orderRouteClearDest d)
  | .sourceConfig s t m => some (orderSourceConfig s t m)
  | .destConfig d l k => some (orderDestConfig d l k)
  | .busSet b s l => some (orderBusSet b s l)
  | .busClear b a s => some (orderBusClear b a s)
  | .foldBind r d => some (orderFoldBind r d)
  | .foldUnbind r => some (orderFoldUnbind r)
  | .foldConfig r b l m d i h => some (orderFoldConfig r b l m d i h)
  | .foldMinusAdd r s => some (orderFoldMinusAdd r s)
  | .foldMinusRemove r s => some (orderFoldMinusRemove r s)
  | .keyAssign st k f t m c l => some (orderKeyAssign st k f t m c l)
  | .keyClear st k => some (orderKeyClear st k)
  | .keyPress k => some (deskEvent true k)
  | .keyRelease k => some (deskEvent false k)
  | .lineConfig l k p t => some (orderLineConfig l k p t)
  | .lineMember l st r => some (orderLineMember l st r)
  | .deskConfig s => some (orderDeskConfig s)
  | .sysTimes s t => some (orderSysTimes s t)
  | .callSend t => some (orderCallSend t)
  | .callClear st a c => some (orderCallClear st a c)
  | .cadenceSet g r a b => some (orderCadenceSet g r a b)
  | .ciBind i f a s v => some (orderCiBind i f a s v)
  | .coBind o f a d g v => some (orderCoBind o f a d g v)
  | .panelConfig l a m s k => some (orderPanelConfig l a m s k)
  | .panelConfigClear l a => some (orderPanelConfigClear l a)
  | .loopConfig l e r => some (orderLoopConfig l e r)
  | .linkConfig l al cs mf du lo rc rj li => some (orderLinkConfig l al cs mf du lo rc rj li)
  | .linkDuty l m => some (orderLinkDuty l m)
  | .linkClose l => some (orderLinkClose l)
  | .linkProfiles l p t mi ma c u => some (orderLinkProfiles l p t mi ma c u)
  | .linkReserveClear l => some (orderLinkReserveClear l)
  | .streamConfig c t q m => some (orderStreamConfig c t q m)
  | .streamAppend c a _ => some (orderStreamAppend c a desc)
  | .streamStart c => some (orderStreamStart c)
  | .streamStop c => some (orderStreamStop c)
  | .streamCut c => some (orderStreamCut c)
  | .sceneAbort => some orderSceneAbort
  | .lockSet d l => some (orderLockSet d l)
  | .lockClear d => some (orderLockClear d)
  | .fallbackClear => some orderFallbackClear
  | _ => none

/-- What a short order in hand does at a Restart and at the entry to Autonomous: its effect, but no descriptor returned,
since the stream unit writes no host memory there (R160, log entry 8). -/
def abandonedBody (desc : Option DescRead) (i : Instr) : Option (State → Result × State) :=
  match i with
  | .ciBind i f a s v => some (orderCiBindBy discardHead i f a s v)
  | .streamStop c => some (discardStreamStop c)
  | .streamCut c => some (orderStreamCutBy discardHead c)
  | i => orderBody desc i

/-- The order in hand finishes and is written (R180, log entry 8). -/
def finishInHand (desc : Option DescRead) (s : State) : State :=
  match s.exch.inHand with
  | none => s
  | some h =>
    match h.order with
    | .sceneRecall a => runLong (.sceneRecall a) .hostRecall a s
    | .fallbackStore a => runLong (.fallbackStore a) .store a s
    | i =>
      match orderBody desc i with
      | some body => settle (runOrder i body s)
      | none => s

/-- The order in hand is carried out by its owner; no result is written for it, nor for a long order that it ends
(R181, R189, log entry 8). -/
def abandonInHand (desc : Option DescRead) (s : State) : State :=
  match s.exch.inHand with
  | none => s
  | some h =>
    let s1 := dropResult { s with exch.inHand := none }
    match h.order with
    | .sceneRecall a => (beginLong .hostRecall a (some h.slot) s1).2
    | .fallbackStore a => (beginLong .store a (some h.slot) s1).2
    | i =>
      match abandonedBody desc i with
      | some body =>
        let (r, t) := body s1
        settle { t with exch.lastResult := some r }
      | none => s1

/-! ### Start, Stop, Restart -/

/-- The header written (R182, Table 10-3). That a write that fails is not made again before the next Start or Restart is
the model's choice (log entry 61). -/
def writeHeader (s : State) : State :=
  let s1 := (areaWrite 0 (u16 1 ++ u8 s.exch.startCause.ctorIdx) s).2
  (areaWrite 4 (u32 s.exch.restarts.toNat ++ u32 s.exch.autonomous.toNat) s1).2

/-- XBASE read (R174). -/
def readBase (s : State) : State := { s with exch.base := baseOf s.exch.xbaseL s.exch.xbaseH }

/-- The done baseline (R179, R181): the done copy equals the post word and is written, every slot Free. That a read asked for
and not ended is dropped is the model's choice (log entry 69). -/
def baseline (post : Word64) (s : State) : State :=
  writeDone { s with
    exch.doneCopy := post, exch.postCopy := post, exch.intake := build 64 fun _ => .free, exch.scanPtr := 0
    exch.inHand := none, exch.readsDue := 0 }

/-- The part becomes Running: scan timer and supervision timer run as R176 and R188 give. -/
def becomeRunning (s : State) : State :=
  followTimer { s with
    exch.part := .running
    exch.scanTimer :=
      if s.exch.scanInterval = 0 then none else some (s.exch.scanTimer.getD (s.now + s.exch.scanInterval)) }

/-- Start (R179), and the first Start or Restart taken sets the started flag (R188). A failed read ends it where it
stands, the part Stopped (log entry 23). -/
def startPart (post seen : Option Word64) (s : State) : State :=
  let s1 := writeHeader (readBase { s with exch.started := true })
  match post, seen with
  | some p, some q => becomeRunning (writeMirror (rebuildEvents q (baseline p s1)))
  | some p, none => followTimer (baseline p s1)
  | none, _ => followTimer s1

/-- Restart taken in Stopped (Table 10-1): as Start, then the restart count rises by one (log entry 24). -/
def restartStopped (post seen : Option Word64) (s : State) : State :=
  let t := startPart post seen s
  if t.running then { t with exch.restarts := t.exch.restarts + 1 } else t

/-- Stop (R180). -/
def stopPart (desc : Option DescRead) (s : State) : State :=
  let s1 := finishInHand desc { s with exch.readsDue := 0 }
  let s2 := forEach 16 stopChannel s1
  let s3 := settle (stopRecall s2)
  followTimer (dropVectors { s3 with exch.part := .stopped, exch.scanTimer := none })

/-- The fallback outcome the Supervision detail gives (Table 11-3, log entry 26). -/
def fallbackOutcome (s : State) : FallbackOutcome :=
  if s.exch.fallbackDue then Config.fallbackNotBegun s.now else s.exch.fallback

/-- Supervision detail (Table 11-3). That the time is rounded down to whole units is the model's choice (log entry 68). -/
def superDetail (marks : Word64) (s : State) : List Byte :=
  u32 (min ((s.now - s.exch.autoSince) / 100) max32) ++ u8 s.exch.autoCause.ctorIdx ++ u8 s.exch.autoFrom.ctorIdx
    ++ u64 marks.toNat ++ u8 (fallbackOutcome s).ctorIdx

/-- Everything in flight ends without a written result (R181). That the channels hand over their cue removals from P0 to
P7 and then from C0 to C7 is the model's choice (log entry 59). -/
def endInFlight (desc : Option DescRead) (s : State) : State :=
  let s1 := abandonInHand desc s
  let s2 := settle (restartRecall s1)
  settle (forEach 16 discardChannel s2)

/-- A Restart that has read the post word and the seen word (R181, R190); `s` stands on the new baseline. -/
def restartRunning (seen : Word64) (s : State) : State :=
  let s1 := rebuildEvents seen s
  let s2 := writeMirror (writeHeader { s1 with exch.restarts := s1.exch.restarts + 1 })
  let s3 := becomeRunning s2
  let s4 := { s3 with exch.fallbackDue := false }
  if s.exch.part = .autonomous then raiseEvent 2 (superDetail s.ev.marks s3) s4 else s4

/-- Restart in Running or Autonomous (R181, R190): everything in flight ends and XBASE is read, then the two words. A
failed read ends it where it stands, the part state and the restart count kept (log entry 23). -/
def restartPart (post seen : Option Word64) (desc : Option DescRead) (s : State) : State :=
  let s1 := readBase (endInFlight desc { s with exch.started := true })
  match post, seen with
  | some p, some q => restartRunning q (baseline p s1)
  | some p, none => followTimer (baseline p s1)
  | none, _ => followTimer s1

/-! ### Autonomous (R189) -/

/-- A slot In flight is abandoned. -/
def Intake.abandon : Intake → Intake
  | .inFlight => .free
  | i => i

/-- Autonomous entry (R189). That the channels hand over their cue removals from P0 to P7 and then from C0 to C7 is the
model's choice (log entry 59). -/
def enterAutonomous (cause : AutoCause) (s : State) : State :=
  let s1 := dropVectors { s with
    exch.part := .autonomous, exch.autoCause := cause, exch.autoFrom := s.exch.part, exch.autoSince := s.now
    exch.readsDue := 0, exch.superTimer := none, exch.scanTimer := none
    exch.autonomous := s.exch.autonomous + 1
    exch.fallback := .noneStored, exch.fallbackDue := false }
  let s2 := abandonInHand none s1
  let s3 := { s2 with exch.intake := build 64 fun k => (tget s2.exch.intake k).abandon }
  settle (autonomousRecall (forEach 16 discardChannel s3))

/-- Does a link loss enter Autonomous (R189)? -/
def lossEnters (x : Exchange) : Bool :=
  match x.part with
  | .running => true
  | .stopped => x.mode == .strict && x.started
  | .autonomous => false

/-! ### Intake -/

/-- The intake states judged from the post word (R176). -/
def judgeIntake (post : Word64) (x : Exchange) : Vector Intake 64 :=
  build 64 fun k =>
    match tget x.intake k with
    | .inFlight => .inFlight
    | _ => if bit post k != bit x.doneCopy k then .pending else .free

/-- The exchange unit's part of a read of the area: a done word not written is written again (R178). -/
def takePost (post : Option Word64) (s : State) : State :=
  let s1 := if s.exch.doneUnwritten then writeDone s else s
  match post with
  | none => s1
  | some p => { s1 with exch.postCopy := p, exch.intake := judgeIntake p s1.exch }

/-- The first Pending slot from the scan pointer upward (R177). -/
def nextPending (x : Exchange) : Option Nat :=
  ((List.range 64).map fun i => (x.scanPtr + i) % 64).find? fun k => tget x.intake k == .pending

/-- A slot is taken: In flight, its post bit recorded, the pointer behind it (R177). -/
def takeSlot (k : Nat) (s : State) : State :=
  { s with
    exch.intake := tset s.exch.intake k .inFlight
    exch.scanPtr := (k + 1) % 64
    exch.postTaken := setBit s.exch.postTaken k (bit s.exch.postCopy k) }

/-- A slot finishes without asking an owner (R177). -/
def finishUnasked (k : Nat) (c : Code) (s : State) : State :=
  finishSlot k (Result.of c) { s with exch.lastResult := some (Result.of c) }

/-- A slot is taken and its 64 bytes are read (R177). -/
def takeOrder (slot : Option (List Byte)) (s : State) : State :=
  match s.exch.inHand, nextPending s.exch with
  | none, some k =>
    let s1 := takeSlot k s
    match slot with
    | none => finishUnasked k .hostFault s1
    | some b =>
      match decodeOrder b with
      | none => finishUnasked k .badKind s1
      | some i => { s1 with exch.inHand := some { slot := k, order := i } }
  | _, _ => s

/-! ### Meanings -/

/-- POWER_ON (R174): full reset, last start cause PowerOn. -/
def execPowerOn (inputs : Inputs) (s : State) : Out :=
  .next (State.fullReset .powerOn inputs s.pending s.sent s.writeFaults)
/-- RESET_PIN (R174): full reset, last start cause ResetPin. -/
def execResetPin (inputs : Inputs) (s : State) : Out :=
  .next (State.fullReset .resetPin inputs s.pending s.sent s.writeFaults)

/-- LINK_LOSS (R189): a change of the link-active input from active to inactive. -/
def execLinkLoss (s : State) : Out :=
  .next (if s.exch.linkActive then
    let s1 := { s with exch.linkActive := false }
    if lossEnters s.exch then enterAutonomous .linkLoss s1 else s1
  else s)
/-- LINK_ACTIVE (R189): the part stays in its state. -/
def execLinkActive (s : State) : Out := .next { s with exch.linkActive := true }

/-- XCTL_NONE (R175). -/
def execXctlNone (mode : BitVec 2) (period : Byte) (s : State) : Out :=
  .next (if s.exch.linkActive then writeSettings mode period s else s)
/-- START (R179, Table 10-1). -/
def execStart (mode : BitVec 2) (period : Byte) (post seen : Option Word64) (s : State) : Out :=
  .next (if s.exch.linkActive then
    let s1 := writeSettings mode period s
    if s.exch.part = .stopped then startPart post seen s1 else s1
  else s)
/-- STOP (R180, Table 10-1). -/
def execStop (mode : BitVec 2) (period : Byte) (desc : Option DescRead) (s : State) : Out :=
  .next (if s.exch.linkActive then
    let s1 := writeSettings mode period s
    if s.exch.part = .running then stopPart desc s1 else s1
  else s)
/-- RESTART (R181, Table 10-1). -/
def execRestart (mode : BitVec 2) (period : Byte) (post seen : Option Word64) (desc : Option DescRead) (s : State) : Out :=
  .next (if s.exch.linkActive then
    let s1 := writeSettings mode period s
    if s.exch.part = .stopped then restartStopped post seen s1 else restartPart post seen desc s1
  else s)
/-- ATTN (R175): supervision restarts, and while Running a read of the area is asked for. -/
def execAttn (s : State) : Out :=
  .next (if s.exch.linkActive then
    let s1 := restartTimer s
    if s1.running then { s1 with exch.readsDue := s1.exch.readsDue + 1 } else s1
  else s)
/-- REGISTER_WRITE (R174, R175). -/
def execRegisterWrite (reg : Reg) (value : Word32) (s : State) : Out :=
  .next (if s.exch.linkActive then writeRegister reg value s else s)

/-- SCAN_EXPIRY (R176): a read of the area is asked for; the next expiry comes one interval later. -/
def execScanExpiry (s : State) : Out :=
  .next (if s.running && due s.exch.scanTimer s.now then
    { s with
      exch.readsDue := s.exch.readsDue + 1
      exch.scanTimer := s.exch.scanTimer.map (· + s.exch.scanInterval) }
  else s)
/-- POST_WORD_READ (R176, R185). That a done word made again (R178) goes before what the event unit makes again (R184)
is the model's choice (log entry 74). -/
def execPostWordRead (read : AreaRead) (s : State) : Out :=
  .next (if s.running && decide (0 < s.exch.readsDue) then
    takeSeen read (takePost read.post { s with exch.readsDue := s.exch.readsDue - 1 })
  else s)
/-- ORDER_TAKE (R177). -/
def execOrderTake (slot : Option (List Byte)) (s : State) : Out :=
  .next (if s.running then takeOrder slot s else s)
/-- SUPERVISION_EXPIRY (R188); in Autonomous it has no effect (R189). -/
def execSupervisionExpiry (s : State) : Out :=
  .next (if due s.exch.superTimer s.now && s.exch.part != .autonomous then enterAutonomous .expiry s else s)

end Sys2Proof.Machine
end

