-- ==== Sys2Proof/Machine/MixOps.lean ====
section
/-!
DEFINITION. The mixer (R2, R6, R21, R22, R24, R27, R28, R47): the gains in use, and one mix period.
-/
namespace Sys2Proof.Machine

/-! ### Gains -/

/-- The gain of a level value (Table 0-7), in half decibels; 0 is Off. -/
def gainOf (v : Nat) : Gain := if v = 0 then none else some ((v : Int) - 216)

/-- Is a source silent (R2)? -/
def SourceRec.silent (r : SourceRec) : Bool := r.mute || r.cause.isSome

/-- The gain of a source wherever it is taken (R2). -/
def SourceRec.gain (r : SourceRec) : Gain := if r.silent then none else gainOf r.trim

/-- The larger of two levels for one source, at the place of the first (R27, R47). -/
def mergeLevels : List (Nat × Nat) → List (Nat × Nat)
  | [] => []
  | (src, lvl) :: rest =>
    let m := mergeLevels rest
    if m.any (·.1 == src) then m.map fun p => if p.1 = src then (src, max p.2 lvl) else p else (src, lvl) :: m

/-! ### What reaches a destination -/

/-- The talkers of a party line as sources with key levels (R27). -/
def lineSources (s : State) (l : Nat) : List (Nat × Nat) :=
  mergeLevels ((tget s.arb.lines l).talkers.filterMap fun t =>
    (micOf s t.key.station).map fun src => (src, (s.keyOf t.key).level))

/-- Is a source the microphone of a station whose speaker destination is `d` (R21, R28)? -/
def ownVoice (s : State) (d src : Nat) : Bool :=
  (List.range 89).any fun st => speakerOf s st == some d && micOf s st == some src

/-- Crosspoint part (Table 1-7). -/
def crosspointTerms (s : State) (d : Nat) : List Term :=
  (s.mat.pool.filter fun e => e.dest == d && decide (0 < e.heard)).map fun e =>
    { path := .crosspoint, source := e.source, gain := gainOf e.heard }

/-- Bus slot part (Table 1-7, R28). That a slot which appears or goes in the period in which a talker of its line joins or
leaves, or a source's level on the line changes, makes one move with it is the model's choice (log entry 75). -/
def slotTerms (s : State) (d : Nat) : List Term :=
  (s.dest d).slots.flatMap fun sl =>
    ((lineSources s sl.line).filter fun p => !ownVoice s d p.1 && !minusHolds s d p.1).map fun p =>
      { path := .busSlot sl.line, source := p.1, gain := gainOf p.2 }

/-- The duck factor (Table 2-8). -/
def FoldRec.duckGain (r : FoldRec) : Gain :=
  if r.duck = .opened then some 0
  else match r.mode with
    | .cut => none
    | .dim => some (-2 * (r.dim : Int))
    | .over => some 0

/-- The gains that scale the whole programme part of a record: programme level and duck factor (R47). -/
def FoldRec.programmeGains (r : FoldRec) : Gain × Gain := (gainOf r.level, r.duckGain)

/-- Programme part of record `k` (R24, R47). -/
def programmeTerms (s : State) (k : Nat) : List Term :=
  let r := tget s.fold.recs k
  match r.bus with
  | none => []
  | some b =>
    ((tget s.mix.buses b).filter fun m => !r.minus.contains m.source).map fun m =>
      { path := .programme k, source := m.source, gain := gainOf m.level }

/-- Interrupt part of a record (R47), filtered through the minus set (Table 1-7). -/
def interruptTerms (r : FoldRec) : List Term :=
  ((mergeLevels (r.ints.map fun e => (e.source, e.level))).filter fun p => !r.minus.contains p.1).map fun p =>
    { path := .interrupt, source := p.1, gain := gainOf p.2 }

/-- Foldback part (Table 1-7). -/
def foldTerms (s : State) (d : Nat) : List Term :=
  if isFoldDest s d then
    match recordOf s d with
    | some r => programmeTerms s r ++ interruptTerms (tget s.fold.recs r)
    | none => []
  else []

/-- The mirrored destination of a capture destination. -/
def mirrorAt (s : State) (d : Nat) : Option Nat := if (s.dest d).kind = .capture then (s.dest d).mirror else none

/-- The gains a destination is formed with from now on (R21). -/
def planOf (s : State) (d : Nat) : Plan :=
  { terms := if (mirrorAt s d).isSome then [] else crosspointTerms s d ++ slotTerms s d ++ foldTerms s d
    level := gainOf (s.dest d).level }

/-- The programme level and duck factor of every record from now on (R47). That the value in use of a record whose programme
is heard nowhere is that of the latest period, too, is the model's choice (log entry 75). -/
def programmeNow (s : State) : Vector (Gain × Gain) 48 := build 48 fun r => (tget s.fold.recs r).programmeGains

/-! ### Samples -/

/-- One gain applied to sample `k` of the period, from its old to its new value (R22). -/
def gainStep (old new : Gain) (k : Nat) (x : Int) : Int := rampSample old new k 48 x

/-- Gains applied one after another, each moving from its old to its new value. -/
def gainSteps (k : Nat) : List (Gain × Gain) → Int → Int
  | [], x => x
  | (o, n) :: rest, x => gainSteps k rest (gainStep o n k x)

/-- Do two terms bring the same source by the same path? That a member of both a record's old and its new programme bus
counts as one that stays is the model's choice (log entry 75). -/
def Term.same (a b : Term) : Bool := a.path == b.path && a.source == b.source

/-- The gains that all terms of a path share, each from the one in use to the new one: the programme level and the duck
factor of the record (R47). -/
def Path.shared (old new : Vector (Gain × Gain) 48) : Path → List (Gain × Gain)
  | .programme r => [((tget old r).1, (tget new r).1), ((tget old r).2, (tget new r).2)]
  | _ => []

/-- The stages of every term heard in the period (R22): those that stay or appear, then those that go. The own gain of a
term that appears moves from nothing, of one that goes to nothing; the gains its path shares move as for every other term.
That a source which appears or goes for two reasons at once, its talker and the bus slot or its member and the foldback
part, makes this one move is the model's choice (log entry 75). -/
def stages (shared : Path → List (Gain × Gain)) (old new : List Term) : List (Nat × List (Gain × Gain)) :=
  (new.map fun t => (t.source, ((old.find? (Term.same t)).bind (·.gain), t.gain) :: shared t.path)) ++
  ((old.filter fun o => !new.any (Term.same o)).map fun o => (o.source, (o.gain, none) :: shared o.path))

/-- The mix of a destination at sample `k` (R21), with its binary places. -/
def mixSample (src : Vector (List Int) 160) (gOld gNew : Vector Gain 160) (st : List (Nat × List (Gain × Gain)))
    (k : Nat) : Int :=
  st.foldl (fun acc p =>
    acc + gainSteps k ((tget gOld p.1, tget gNew p.1) :: p.2) (widen ((tget src p.1).getD k 0))) 0

/-- A mix scaled by the output level, rounded and limited (R22). -/
def finish (old new : Gain) (f : Nat → Int) : List Int :=
  (List.range 48).map fun k => clamp24 (rounded (gainStep old new k (f k)))

/-- The samples of every source in this period (Table 0-3). -/
def sourceSamples (inputs : List (Nat × List Int)) (s : State) : Vector (List Int) 160 :=
  build 160 fun i =>
    if i < 128 then ((inputs.find? fun p => p.1 == i).map (·.2)).getD []
    else if i < 152 then (tget s.jits (i - 128)).playing.take 48
    else (s.chan (i - 152)).plays

/-- Every finished output (R6, R21, R22): a capture destination with a mirror takes the mirrored one (R11). That
the change to or from a mirror is heard at once, with no move of a gain, is the model's choice (log entry 62). -/
def finishedOutputs (inputs : List (Nat × List Int)) (s : State) : Vector (List Int) 160 :=
  let src := sourceSamples inputs s
  let gNew := build 160 fun i => (tget s.mat.sources i).gain
  let shared := Path.shared s.mix.programme (programmeNow s)
  let base := build 160 fun d =>
    let old := tget s.mix.plans d
    let new := planOf s d
    finish old.level new.level (mixSample src s.mix.sourceGain gNew (stages shared old.terms new.terms))
  build 160 fun d =>
    match mirrorAt s d with
    | none => tget base d
    | some m => finish (tget s.mix.plans d).level (planOf s d).level fun k => widen ((tget base m).getD k 0)

/-- The mixer's own state after the period: the gains now in use, the outputs, the return audio to be sent (R6). -/
def Mixer.afterPeriod (inputs : List (Nat × List Int)) (s : State) : Mixer :=
  let out := finishedOutputs inputs s
  { s.mix with
    sourceGain := build 160 fun i => (tget s.mat.sources i).gain
    plans := build 160 (planOf s)
    programme := programmeNow s
    finished := out
    returnBuf := build 24 fun n =>
      if (tget s.links n).session = .live ∨ (tget s.links n).session = .waking then
        tget s.mix.returnBuf n ++ tget out (128 + n)
      else [] }

/-- MIX_PERIOD (R21): outputs formed, stream blocks moved (R152), one millisecond passed (log entry 2). That the channels
act from P0 to P7 and then from C0 to C7 is the model's choice (log entry 59). -/
def execMixPeriod (inputs : List (Nat × List Int)) (s : State) : Out :=
  let mix := Mixer.afterPeriod inputs s
  let s1 := { s with
    mix := mix
    jits := build 24 fun n => { tget s.jits n with playing := (tget s.jits n).playing.drop 48 } }
  let s2 := forEach 8 playbackPeriod s1
  let s3 := forEach 8 (fun c s => capturePeriod (8 + c) (tget mix.finished (152 + c)) s) s2
  .next (settle { s3 with now := s3.now + 1 })

/-- PLAYBACK_READ_DONE (R152, R156). -/
def execPlaybackReadDone (channel : Nat) (block : Option (List Word32)) (s : State) : Out :=
  .next (settle (playbackRead channel block s))

/-- CAPTURE_WRITE_DONE (R152, R156). -/
def execCaptureWriteDone (channel : Nat) (ok : Bool) (s : State) : Out :=
  .next (captureWrite channel ok s)

end Sys2Proof.Machine
end

