-- ==== Sys2Proof/Machine/Dispatch.lean ====
section
/-!
DEFINITION. The command dispatch: one arm per row of the opcode table.
-/
namespace Sys2Proof.Machine

/-- The effect of a command on everything but the queue. -/
def exec (i : Instr) (s : State) : Host.Outcome State Fault Refusal :=
  match i with
  | .powerOn inputs => Sys2Proof.Machine.execPowerOn inputs s
  | .resetPin inputs => Sys2Proof.Machine.execResetPin inputs s
  | .linkLoss => Sys2Proof.Machine.execLinkLoss s
  | .linkActive => Sys2Proof.Machine.execLinkActive s
  | .controlInputChange input high => Sys2Proof.Machine.execControlInputChange input high s
  | .xctlNone mode period => Sys2Proof.Machine.execXctlNone mode period s
  | .start mode period post seen => Sys2Proof.Machine.execStart mode period post seen s
  | .stop mode period desc => Sys2Proof.Machine.execStop mode period desc s
  | .restart mode period post seen desc => Sys2Proof.Machine.execRestart mode period post seen desc s
  | .attn => Sys2Proof.Machine.execAttn s
  | .registerWrite reg value => Sys2Proof.Machine.execRegisterWrite reg value s
  | .scanExpiry => Sys2Proof.Machine.execScanExpiry s
  | .postWordRead read => Sys2Proof.Machine.execPostWordRead read s
  | .orderTake slot => Sys2Proof.Machine.execOrderTake slot s
  | .supervisionExpiry => Sys2Proof.Machine.execSupervisionExpiry s
  | .nop tag => Sys2Proof.Machine.execNop tag s
  | .exchScan interval => Sys2Proof.Machine.execExchScan interval s
  | .routeSet dest source level => Sys2Proof.Machine.execRouteSet dest source level s
  | .routeClear dest source => Sys2Proof.Machine.execRouteClear dest source s
  | .routeClearDest dest => Sys2Proof.Machine.execRouteClearDest dest s
  | .sourceConfig source trim mute => Sys2Proof.Machine.execSourceConfig source trim mute s
  | .destConfig dest level limit => Sys2Proof.Machine.execDestConfig dest level limit s
  | .busSet bus source level => Sys2Proof.Machine.execBusSet bus source level s
  | .busClear bus all source => Sys2Proof.Machine.execBusClear bus all source s
  | .foldBind record dest => Sys2Proof.Machine.execFoldBind record dest s
  | .foldUnbind record => Sys2Proof.Machine.execFoldUnbind record s
  | .foldConfig record bus level mode depth dim hold => Sys2Proof.Machine.execFoldConfig record bus level mode depth dim hold s
  | .foldMinusAdd record source => Sys2Proof.Machine.execFoldMinusAdd record source s
  | .foldMinusRemove record source => Sys2Proof.Machine.execFoldMinusRemove record source s
  | .keyAssign station key function target mode cls level => Sys2Proof.Machine.execKeyAssign station key function target mode cls level s
  | .keyClear station key => Sys2Proof.Machine.execKeyClear station key s
  | .keyPress key => Sys2Proof.Machine.execKeyPress key s
  | .keyRelease key => Sys2Proof.Machine.execKeyRelease key s
  | .lineConfig line limit policy turn => Sys2Proof.Machine.execLineConfig line limit policy turn s
  | .lineMember line station rights => Sys2Proof.Machine.execLineMember line station rights s
  | .deskConfig source => Sys2Proof.Machine.execDeskConfig source s
  | .sysTimes smart timeout => Sys2Proof.Machine.execSysTimes smart timeout s
  | .callSend target => Sys2Proof.Machine.execCallSend target s
  | .callClear station all caller => Sys2Proof.Machine.execCallClear station all caller s
  | .cadenceSet gen run onTime offTime => Sys2Proof.Machine.execCadenceSet gen run onTime offTime s
  | .ciBind input function argument sensing active => Sys2Proof.Machine.execCiBind input function argument sensing active s
  | .coBind output function argument drive gen active => Sys2Proof.Machine.execCoBind output function argument drive gen active s
  | .panelConfig loop address mic speaker keyCount => Sys2Proof.Machine.execPanelConfig loop address mic speaker keyCount s
  | .panelConfigClear loop address => Sys2Proof.Machine.execPanelConfigClear loop address s
  | .loopConfig loop enable rate => Sys2Proof.Machine.execLoopConfig loop enable rate s
  | .linkConfig link allowed codecs minFrame dual loss recovery rejoin linger => Sys2Proof.Machine.execLinkConfig link allowed codecs minFrame dual loss recovery rejoin linger s
  | .linkDuty link mode => Sys2Proof.Machine.execLinkDuty link mode s
  | .linkClose link => Sys2Proof.Machine.execLinkClose link s
  | .linkProfiles link profile target minimum maximum concealment usable => Sys2Proof.Machine.execLinkProfiles link profile target minimum maximum concealment usable s
  | .linkReserveClear link => Sys2Proof.Machine.execLinkReserveClear link s
  | .streamConfig channel trigger cue mirror => Sys2Proof.Machine.execStreamConfig channel trigger cue mirror s
  | .streamAppend channel address read => Sys2Proof.Machine.execStreamAppend channel address read s
  | .streamStart channel => Sys2Proof.Machine.execStreamStart channel s
  | .streamStop channel => Sys2Proof.Machine.execStreamStop channel s
  | .streamCut channel => Sys2Proof.Machine.execStreamCut channel s
  | .sceneRecall address => Sys2Proof.Machine.execSceneRecall address s
  | .sceneAbort => Sys2Proof.Machine.execSceneAbort s
  | .lockSet dest lock => Sys2Proof.Machine.execLockSet dest lock s
  | .lockClear dest => Sys2Proof.Machine.execLockClear dest s
  | .fallbackStore address => Sys2Proof.Machine.execFallbackStore address s
  | .fallbackClear => Sys2Proof.Machine.execFallbackClear s
  | .mixPeriod inputs => Sys2Proof.Machine.execMixPeriod inputs s
  | .playbackReadDone channel block => Sys2Proof.Machine.execPlaybackReadDone channel block s
  | .captureWriteDone channel ok => Sys2Proof.Machine.execCaptureWriteDone channel ok s
  | .holdTimerExpiry record => Sys2Proof.Machine.execHoldTimerExpiry record s
  | .turnTimerExpiry line station key => Sys2Proof.Machine.execTurnTimerExpiry line station key s
  | .busyMarkExpiry station key => Sys2Proof.Machine.execBusyMarkExpiry station key s
  | .refusalTimerExpiry station key => Sys2Proof.Machine.execRefusalTimerExpiry station key s
  | .callExpiry station caller => Sys2Proof.Machine.execCallExpiry station caller s
  | .cadencePhaseExpiry gen => Sys2Proof.Machine.execCadencePhaseExpiry gen s
  | .poll loop => Sys2Proof.Machine.execPoll loop s
  | .hello loop kind keyCount => Sys2Proof.Machine.execHello loop kind keyCount s
  | .report loop seq changes => Sys2Proof.Machine.execReport loop seq changes s
  | .idleReply loop => Sys2Proof.Machine.execIdleReply loop s
  | .badFrame loop => Sys2Proof.Machine.execBadFrame loop s
  | .strayReply loop => Sys2Proof.Machine.execStrayReply loop s
  | .pollOrLampsReceived loop => Sys2Proof.Machine.execPollOrLampsReceived loop s
  | .replyTimeout loop => Sys2Proof.Machine.execReplyTimeout loop s
  | .offer port source msg => Sys2Proof.Machine.execOffer port source msg s
  | .audio env seq quality keys payload => Sys2Proof.Machine.execAudio env seq quality keys payload s
  | .keepalive env keys => Sys2Proof.Machine.execKeepalive env keys s
  | .closeAck env => Sys2Proof.Machine.execCloseAck env s
  | .strayMessage port link => Sys2Proof.Machine.execStrayMessage port link s
  | .negotiationTimerExpiry link => Sys2Proof.Machine.execNegotiationTimerExpiry link s
  | .lingerTimerExpiry link => Sys2Proof.Machine.execLingerTimerExpiry link s
  | .recoveryTimerExpiry link => Sys2Proof.Machine.execRecoveryTimerExpiry link s
  | .wakeTimerExpiry link => Sys2Proof.Machine.execWakeTimerExpiry link s
  | .silenceTimerExpiry link => Sys2Proof.Machine.execSilenceTimerExpiry link s
  | .keepaliveTimerExpiry link => Sys2Proof.Machine.execKeepaliveTimerExpiry link s
  | .closeTimerExpiry link => Sys2Proof.Machine.execCloseTimerExpiry link s
  | .reservationTimerExpiry link => Sys2Proof.Machine.execReservationTimerExpiry link s
  | .returnAudio link => Sys2Proof.Machine.execReturnAudio link s
  | .playoutInstant link => Sys2Proof.Machine.execPlayoutInstant link s
  | .sceneReadDone bytes => Sys2Proof.Machine.execSceneReadDone bytes s
  | .clearingStep => Sys2Proof.Machine.execClearingStep s
  | .applyingStep => Sys2Proof.Machine.execApplyingStep s

end Sys2Proof.Machine
end

