-- ==== Sys2Proof/Safety.lean ====
section
/-!
DEFINITION. What "safe" means for this part: it never stops on its own, and what every command keeps of each block.
-/
namespace Sys2Proof

open Machine

/-- Every command answers a next state: no fault, no refusal. -/
def Safe (s : State) : Prop := ∃ t, step s = .next t

/-- The factor of a level value as a real number (Table 0-7): Off, or half decibels from 216. -/
noncomputable def levelFactor (v : Nat) : ℝ := if v = 0 then 0 else (10 : ℝ) ^ (((v : ℝ) - 216) / 40)

namespace Inv

/-! ### What holds of each block after every command -/

/-- A pool entry the rules allow (R12, R13, R15). -/
def EntryOk (e : PoolEntry) : Prop :=
  e.dest < 160 ∧ e.source < 160 ∧ e.alive = true ∧ e.talk ≤ 63 ∧ e.listen ≤ 63 ∧ e.routeLevel ≤ 240
    ∧ (e.holds = false → e.routeLevel = 0) ∧ (e.talk = 0 → e.listen = 0 → e.keyLevel = 0)

/-- The crosspoint pool: one live entry a pair, at most 2048 entries, at most 24 a destination (R12, R16). -/
def PoolOk (pool : List PoolEntry) : Prop :=
  (∀ e ∈ pool, EntryOk e) ∧ (pool.map fun e => (e.dest, e.source)).Nodup ∧ pool.length ≤ 2048
    ∧ ∀ d, destCount pool d ≤ 24

/-- A source record: its trim is a level value (R3), and only a field link source has a silence cause (R4, Table 1-1). -/
def SourceOk (i : Nat) (r : SourceRec) : Prop := r.trim ≤ 240 ∧ (r.cause ≠ none → 128 ≤ i ∧ i < 152)

/-- A destination record (Table 1-3, R7, R8, R10, R11): ranges, at most four slots of different lines with a holder each,
the kinds a destination can have, a mirror at a capture destination alone. -/
def DestOk (d : Nat) (r : DestRec) : Prop :=
  r.level ≤ 240 ∧ 1 ≤ r.limit ∧ r.limit ≤ 24 ∧ r.slots.length ≤ 4 ∧ (r.slots.map (·.line)).Nodup
    ∧ (∀ sl ∈ r.slots, sl.line < 32 ∧ 0 < sl.holders) ∧ (128 ≤ d → r.kind = DestKind.reset d)
    ∧ (d < 128 → r.kind = .plain ∨ r.kind = .foldback) ∧ ∀ m, r.mirror = some m → 152 ≤ d ∧ m < 152

/-- A programme bus (R23, R25). -/
def BusOk (l : List Member) : Prop :=
  l.length ≤ 32 ∧ (l.map (·.source)).Nodup ∧ ∀ m ∈ l, m.source < 160 ∧ m.level ≤ 240

/-- No entry stands behind one that belongs behind it (R30). -/
def InOrder (l : List FoldEntry) : Prop := l.Pairwise fun x y => y.before x = false

/-- A foldback record (Table 2-2, R30, R37, R41, R45): depth, list lengths, order, the duck state that goes with the
interrupt list; a return keeps its destination and its own source in the minus set (R29, R36). -/
def FoldOk (r : Nat) (f : FoldRec) : Prop :=
  1 ≤ f.depth ∧ f.depth ≤ 4 ∧ f.ints.length ≤ f.depth ∧ f.pends.length ≤ 8 ∧ f.minus.length ≤ 4
    ∧ InOrder f.ints ∧ InOrder f.pends ∧ (f.pends ≠ [] → f.ints.length = f.depth)
    ∧ ((f.ints ++ f.pends).map (·.requester)).Nodup
    ∧ (f.duck = .ducked ↔ f.ints ≠ []) ∧ (f.holdTimer.isSome = true ↔ f.duck = .holding)
    ∧ (24 ≤ r → r < 48 → f.bound = some (104 + r) ∧ (104 + r) ∈ f.minus)

/-- The call list of station `t` (R80, R81). -/
def CallsOk (t : Nat) (l : List CallEntry) : Prop :=
  l.length ≤ 8 ∧ (l.map (·.caller)).Nodup ∧ ∀ e ∈ l, e.caller ≠ t ∧ e.repeats ≤ 255

/-- A stream channel (R147 to R149, R152): chain, staging, and the states that go with an empty chain. -/
def ChanOk (r : Channel) : Prop :=
  r.chain.length ≤ 8 ∧ (r.chain.map (·.address)).Nodup ∧ r.staging.length ≤ 4
    ∧ (r.state = .idle → r.chain = []) ∧ (r.state = .armed ∨ r.state = .running → r.chain ≠ [])

/-- A Vacant link holds no session: no unit, offer, format or path, and no timer runs (R129). -/
def LinkOk (l : Link) : Prop :=
  l.session = .vacant → l.unit = none ∧ l.offer = none ∧ l.format = none ∧ l.pathMain = none ∧ l.pathAlt = none
    ∧ l.timers = LinkTimers.stopped

/-- A key of station `st` (R49, R55, Tables 3-1 and 3-9): class and level in range, a target the function has, no Call
to the own station, nothing held while Refused. -/
structure KeyOk (st : Nat) (e : KeyEntry) : Prop where
  cls     : e.cls ≤ 7
  level   : 1 ≤ e.level ∧ e.level ≤ 240
  target  : targetOk e.function e.target = true
  call    : e.function = .call → e.target ≠ st
  refused : e.state = .refused → e.held = none

/-- The keys of station `st`: as many as the station has (Table 0-5), each in order. -/
def KeysOk (st : Nat) (l : List KeyEntry) : Prop := l.length = stationKeys st ∧ ∀ e ∈ l, KeyOk st e

/-- A party line (R66, Table 3-7): at most 32 members, one entry for each station, each with a right; limit and turn
time in range; no more talkers than the limit and at most 16 waiting keys. -/
structure LineOk (l : Line) : Prop where
  few      : l.members.length ≤ 32
  once     : (l.members.map (·.station)).Nodup
  rights   : ∀ m ∈ l.members, m.station < 89 ∧ (m.talk || m.listen) = true
  limit    : 1 ≤ l.limit ∧ l.limit ≤ 8
  turn     : 1 ≤ l.turn ∧ l.turn ≤ 30
  talkers  : l.talkers.length ≤ l.limit
  waiting  : l.waiting.length ≤ 16

/-- A panel record (R100, R105, Table 5-3): ranges, and no accepted sequence while Unconfigured or Absent. -/
structure PanelOk (p : Panel) : Prop where
  missed : p.missed ≤ 8
  keys   : 1 ≤ p.keyCount ∧ p.keyCount ≤ 24
  range  : p.outOfRange ≤ 65535
  ack    : p.presence = .unconfigured ∨ p.presence = .absent → p.lastSeq = none

/-- A delay profile (Table 7-2, R146). -/
def ProfileOk (p : Profile) : Prop := 1 ≤ p.target ∧ p.minimum ≤ p.target ∧ p.target ≤ p.maximum ∧ p.maximum ≤ 256

/-- A jitter buffer (R136, R137, R144, R145, Table 7-1): at most 128 frames, no more than the selected profile's maximum
depth, no sequence twice; profiles, frame duration and counts in range. -/
structure JitOk (j : Jitter) : Prop where
  profiles   : ∀ p, p < 4 → ProfileOk (tget j.profiles p)
  duration   : j.duration = 2 ∨ j.duration = 4 ∨ j.duration = 8
  few        : j.frames.length ≤ 128
  depth      : j.frames.length ≤ j.maxFrames
  once       : (j.frames.map (·.seq)).Nodup
  gap        : j.gap ≤ 65535
  correction : j.correction ≤ 31

/-- No notify vector is asserted while the part is not Running (R187). -/
def Quiet (s : State) : Prop := s.exch.part ≠ .running → ∀ v, tget s.ev.vectors v = false

/-- Registers and settings of the exchange unit stay in their ranges (Table 10-2, R174 to R177). -/
def RegsOk (x : Exchange) : Prop :=
  x.scanPtr < 64 ∧ x.scanInterval ≤ 64 ∧ 1 ≤ x.period ∧ x.period ≤ 255 ∧ x.xbaseL &&& 0xFFF#32 = 0 ∧ x.base % 4096 = 0

/-! ### What a cascade leaves as it is: the settings that only orders of their own write -/

/-- Route and scene holdings of a pair, with the route level (R13). -/
def heldAt (pool : List PoolEntry) (d src : Nat) : Bool × Bool × Nat :=
  match findEntry pool d src with
  | none => (false, false, 0)
  | some e => (e.route, e.scene, e.routeLevel)

/-- Trim and mute of a source. -/
def sourceSettings (r : SourceRec) : Nat × Bool := (r.trim, r.mute)

/-- A destination record apart from its bus slots. -/
def destSettings (r : DestRec) : DestRec := { r with slots := [] }

/-- A foldback record apart from its lists and duck state. -/
def foldSettings (f : FoldRec) : FoldRec := { f with ints := [], pends := [], duck := .opened, holdTimer := none }

/-- A key's assignment: function, target, mode, class and level. -/
def keySettings (e : KeyEntry) : Function × Nat × KeyMode × Nat × Nat := (e.function, e.target, e.mode, e.cls, e.level)

/-- A party line apart from its talkers and waiting keys. -/
def lineSettings (l : Line) : Line := { l with talkers := [], waiting := [] }

/-- The call unit apart from the call lists. -/
def callSettings (c : CallUnit) : Nat × Vector Cadence 4 × Vector ControlIn 16 × Vector ControlOut 16 :=
  (c.timeout, c.gens, c.inputs, c.outputs)

/-- A panel record apart from its lamps. -/
def panelSettings (p : Panel) : Panel := { p with lamps := build 24 fun _ => default }

/-- The settings of a link record. -/
def linkSettings (l : Link) : Option Word32 × List Codec × Nat × Duty × Bool × Nat × Nat × Nat × Nat :=
  (l.allowed, l.codecs, l.minFrame, l.duty, l.dual, l.loss, l.recovery, l.rejoin, l.linger)

/-- Trigger and cue binding of a channel. -/
def chanSettings (r : Channel) : Trigger × Option (Nat × Nat) := (r.trigger, r.cue)

/-- The recall engine apart from its causes, protected steps and whether it is Suspended. -/
def recallSettings (r : Recall) : Recall :=
  { r with state := .idle, resume := .idle, protectedN := 0, allCall := false, emergency := false }

/-- What a command on keys, calls, panels, links or streams leaves as it is, whatever it sets off: the settings of
every block, the buses and gains of the mixer, the loops, the clock and the queue. -/
structure SameSettings (s t : State) : Prop where
  pending : t.pending = s.pending
  now     : t.now = s.now
  held    : PoolOk s.mat.pool → ∀ d src, heldAt t.mat.pool d src = heldAt s.mat.pool d src
  sources : ∀ i, sourceSettings (tget t.mat.sources i) = sourceSettings (tget s.mat.sources i)
  dests   : ∀ d, destSettings (t.dest d) = destSettings (s.dest d)
  buses   : t.mix.buses = s.mix.buses
  plans   : t.mix.sourceGain = s.mix.sourceGain ∧ t.mix.plans = s.mix.plans ∧ t.mix.programme = s.mix.programme
      ∧ t.mix.finished = s.mix.finished
  fold    : ∀ r, foldSettings (tget t.fold.recs r) = foldSettings (tget s.fold.recs r)
  keys    : ∀ st k, keySettings (t.key st k) = keySettings (s.key st k)
  lines   : ∀ l, lineSettings (t.line l) = lineSettings (s.line l)
  smart   : t.arb.smart = s.arb.smart
  desk    : t.arb.deskMic = s.arb.deskMic
  call    : callSettings t.call = callSettings s.call
  loops   : t.loops = s.loops
  panels  : ∀ st, panelSettings (tget t.panels st) = panelSettings (tget s.panels st)
  links   : ∀ n, linkSettings (tget t.links n) = linkSettings (tget s.links n)
  jits    : ∀ n, (tget t.jits n).profiles = (tget s.jits n).profiles
  chans   : ∀ c, chanSettings (t.chan c) = chanSettings (s.chan c)
  engine  : recallSettings t.engine = recallSettings s.engine

/-- What an order leaves of the exchange unit: part state, registers, supervision, base, intake pointer. -/
def exchSettings (x : Exchange) : Exchange :=
  { x with
    intake := build 64 fun _ => .free, doneCopy := 0, doneUnwritten := false, inHand := none, scanInterval := 0
    scanTimer := none, completions := 0, failedResults := 0, fallback := .noneStored, fallbackDue := false
    lastResult := none }

end Inv

end Sys2Proof
end

