-- ==== Sys2Proof/WellFormed.lean ====
section
/-!
DEFINITION. Which commands can be sent: each operand fits the field that carries it (section 10.5, Tables 5-2,
6-1, 6-2) and names an object the part has (Tables 0-3 to 0-6) where no rule of the order checks it.
A value inside its field but outside its range is well formed: the rules answer it.
-/
namespace Sys2Proof

/-- Fits one byte. -/
def fits8 (n : Nat) : Bool := n < 256
/-- Fits two bytes. -/
def fits16 (n : Nat) : Bool := n < 65536
/-- Fits four bytes. -/
def fits32 (n : Nat) : Bool := n < 4294967296
/-- Fits eight bytes. -/
def fits64 (n : Nat) : Bool := n < 18446744073709551616

/-- A present value fits its field. -/
def optFits (p : Nat → Bool) : Option Nat → Bool
  | none => true
  | some n => p n

/-- Keys of a station (Table 0-5). -/
def keyCountOf (station : Nat) : Nat :=
  if station < 64 then 24 else if station < 88 then 4 else if station = 88 then 32 else 0

/-- A key the part has. -/
def keyExists (station key : Nat) : Bool := key < keyCountOf station

/-- A block of 48 samples within 24 bits. -/
def sampleBlock (b : List Int) : Bool :=
  b.length == 48 && b.all fun x => (-8388608 : Int) ≤ x && x ≤ 8388607

/-- The commands that can be sent. -/
def Instr.wf : Instr → Bool
  | .powerOn _ => true
  | .resetPin _ => true
  | .linkLoss => true
  | .linkActive => true
  | .controlInputChange i _ => i < 16
  | .xctlNone _ _ => true
  | .start _ _ _ _ => true
  | .stop _ _ _ => true
  | .restart _ _ _ _ _ => true
  | .attn => true
  | .registerWrite _ _ => true
  | .scanExpiry => true
  | .postWordRead _ => true
  | .orderTake b => match b with | none => true | some l => l.length == 64
  | .supervisionExpiry => true
  | .nop t => fits32 t
  | .exchScan i => fits8 i
  | .routeSet d s l => fits8 d && fits8 s && fits8 l
  | .routeClear d s => fits8 d && fits8 s
  | .routeClearDest d => fits8 d
  | .sourceConfig s t m => fits8 s && optFits fits8 t && optFits fits8 m
  | .destConfig d l k => fits8 d && optFits fits8 l && optFits fits8 k
  | .busSet b s l => fits8 b && fits8 s && fits8 l
  | .busClear b _ s => fits8 b && fits8 s
  | .foldBind r d => fits8 r && fits8 d
  | .foldUnbind r => fits8 r
  | .foldConfig r b l m d i h =>
      fits8 r && optFits fits8 b && optFits fits8 l && optFits fits8 m && optFits fits8 d && optFits fits8 i
        && optFits fits16 h
  | .foldMinusAdd r s => fits8 r && fits8 s
  | .foldMinusRemove r s => fits8 r && fits8 s
  | .keyAssign st k f t m c l =>
      fits8 st && fits8 k && fits8 f && fits8 t && fits8 m && fits8 c && fits8 l
  | .keyClear st k => fits8 st && fits8 k
  | .keyPress k => fits8 k
  | .keyRelease k => fits8 k
  | .lineConfig l k p t => fits8 l && optFits fits8 k && optFits fits8 p && optFits fits8 t
  | .lineMember l s r => fits8 l && fits8 s && fits8 r
  | .deskConfig s => fits8 s
  | .sysTimes s t => optFits fits16 s && optFits fits8 t
  | .callSend t => fits8 t
  | .callClear s _ c => fits8 s && fits8 c
  | .cadenceSet g _ a b => fits8 g && fits16 a && fits16 b
  | .ciBind i f a s v => fits8 i && fits8 f && fits8 a && fits8 s && fits8 v
  | .coBind o f a d g v => fits8 o && fits8 f && fits8 a && fits8 d && fits8 g && fits8 v
  | .panelConfig l a m s k => fits8 l && fits8 a && fits8 m && fits8 s && fits8 k
  | .panelConfigClear l a => fits8 l && fits8 a
  | .loopConfig l _ r => fits8 l && optFits fits16 r
  | .linkConfig l al cs mf du lo rc rj li =>
      fits8 l && optFits fits64 al
        && (match cs with | none => true | some c => decide (c.length ≤ 3) && c.all fun x => decide (x < 255))
        && optFits fits8 mf && optFits fits8 du && optFits fits16 lo && optFits fits16 rc && optFits fits16 rj
        && optFits fits8 li
  | .linkDuty l m => fits8 l && fits8 m
  | .linkClose l => fits8 l
  | .linkProfiles l p t mi ma c u =>
      fits8 l && fits8 p && fits16 t && fits16 mi && fits16 ma && fits8 c && fits8 u
  | .linkReserveClear l => fits8 l
  | .streamConfig c t q m =>
      fits8 c && (match t with | none => true | some (k, a) => fits8 k && fits8 a)
        && (match q with | none => true | some (d, k) => fits8 d && fits8 k) && optFits fits8 m
  | .streamAppend c a r =>
      fits8 c && fits64 a && (match r with
        | none => true
        | some d => fits64 d.buffer && fits32 d.length && fits8 d.hostState)
  | .streamStart c => fits8 c
  | .streamStop c => fits8 c
  | .streamCut c => fits8 c
  | .sceneRecall a => fits64 a
  | .sceneAbort => true
  | .lockSet d l => fits8 d && fits8 l
  | .lockClear d => fits8 d
  | .fallbackStore a => fits64 a
  | .fallbackClear => true
  | .mixPeriod ins => ins.all fun (p : Nat × List Int) => decide (p.1 < 128) && sampleBlock p.2
  | .playbackReadDone c b => c < 8 && (match b with | none => true | some l => l.length == 48)
  | .captureWriteDone c _ => 8 ≤ c && c < 16
  | .holdTimerExpiry r => r < 48
  | .turnTimerExpiry l st k => l < 32 && keyExists st k
  | .busyMarkExpiry st k => keyExists st k
  | .refusalTimerExpiry st k => keyExists st k
  | .callExpiry st c => st < 89 && c < 89
  | .cadencePhaseExpiry g => g < 4
  | .poll l => l < 4
  | .hello l k n => l < 4 && fits8 k && 1 ≤ n && n ≤ 24
  | .report l q cs => l < 4 && q < 8 && cs.length ≤ 8 && cs.all fun (p : Nat × Bool) => fits8 p.1
  | .idleReply l => l < 4
  | .badFrame l => l < 4
  | .strayReply l => l < 4
  | .pollOrLampsReceived l => l < 4
  | .replyTimeout l => l < 4
  | .offer _ _ m => fits8 m.number
  | .audio e q c _ p => fits8 e.link && fits16 q && c < 4 && p.length ≤ 65536
  | .keepalive e _ => fits8 e.link
  | .closeAck e => fits8 e.link
  | .strayMessage _ l => fits8 l
  | .negotiationTimerExpiry l => l < 24
  | .lingerTimerExpiry l => l < 24
  | .recoveryTimerExpiry l => l < 24
  | .wakeTimerExpiry l => l < 24
  | .silenceTimerExpiry l => l < 24
  | .keepaliveTimerExpiry l => l < 24
  | .closeTimerExpiry l => l < 24
  | .reservationTimerExpiry l => l < 24
  | .returnAudio l => l < 24
  | .playoutInstant l => l < 24
  | .sceneReadDone b => match b with | none => true | some l => l.length % 8 == 0
  | .clearingStep => true
  | .applyingStep => true

end Sys2Proof
end

