-- ==== Sys2Proof/Certificates/Slice0/Obligations.lean ====
section
/-!
DEFINITION. The statements for the provers. A statement about an order says what the order leaves and what it answers
through `Stmt.finished`; what finishing does to a slot is `FinishedOrderIsReported`. Where a statement rests on a value
or a reading of the model's own, its docstring names the log entry.
-/
namespace Sys2Proof.Stmt

open Machine

/-- The order is carried out: it stands in the slot in hand, or no slot is in hand and the part is not Autonomous (log
entry 7). -/
def CarriedOut (i : Instr) (s : State) : Prop :=
  (s.exch.inHand = none ∧ s.exch.part ≠ .autonomous)
    ∨ ∃ k, s.exch.inHand = some { slot := k, order := Instr.posted i }

/-- A timer that is stopped, or that has not run out: its expiry is no event (log entry 3). -/
def NotDue (timer : Option Nat) (now : Nat) : Prop := ∀ x, timer = some x → now < x

/-- From `s`, an order that leaves `u` finishes with result `r`: it leaves the hand, its result is kept, and the slot
that held it finishes (R178). -/
def finished (r : Result) (u s : State) : State :=
  match s.exch.inHand with
  | none => { u with exch.lastResult := some r }
  | some h => finishSlot h.slot r { u with exch.inHand := none, exch.lastResult := some r }

/-- A result with one value of one byte. -/
def one (c : Code) (x : Nat) : Result := { code := c, values := u8 x }

/-- A result without values. -/
def bare (c : Code) : Result := { code := c, values := [] }

/-- `t` differs from `s` at most in the event unit, the mirror's update counts and what has been sent. -/
def OnlyReports (s t : State) : Prop :=
  { t with ev := s.ev, mirror := s.mirror, sent := s.sent, writeFaults := s.writeFaults } = s

/-- No channel is Armed: a report starts none (R150). -/
def NoneArmed (s : State) : Prop := ∀ c, c < 16 → (s.chan c).state ≠ .armed

/-- Source `e` takes one occurrence, with this detail (R184). -/
def Took (e : Nat) (detail : List Byte) (s t : State) : Prop :=
  tget t.ev.details e = detail
    ∧ tget t.ev.counts e = (if eventPending s.ev e then satAdd max32 (tget s.ev.counts e) 1 else 1)
    ∧ bit t.ev.overrun e = eventPending s.ev e
    ∧ bit t.ev.raised e = (if eventPending s.ev e then bit s.ev.raised e else !bit s.ev.raised e)

/-- Source `e` takes an occurrence with this detail, and no other source does (R184). -/
def Raised (e : Nat) (detail : List Byte) (s t : State) : Prop :=
  Took e detail s t
    ∧ ∀ k, k < 53 → k ≠ e →
        tget t.ev.details k = tget s.ev.details k ∧ tget t.ev.counts k = tget s.ev.counts k
          ∧ bit t.ev.overrun k = bit s.ev.overrun k ∧ bit t.ev.raised k = bit s.ev.raised k

/-- The mode an XCTL write names; code 3 writes a free value (log entry 13). -/
def modeNamed (now : Nat) (m : BitVec 2) : SuperMode :=
  if m = 0 then .off else if m = 1 then .attended else if m = 2 then .strict else Config.modeThree now

/-- Does the supervision timer run (R188)? -/
def TimerRuns (x : Exchange) : Prop :=
  (x.mode = .attended ∧ x.part = .running) ∨ (x.mode = .strict ∧ x.started = true ∧ x.part ≠ .autonomous)

open Classical in
/-- The supervision timer restarted by a write: one full period where it runs, else stopped (R188). -/
noncomputable def restarted (s : State) : State :=
  { s with exch.superTimer := if TimerRuns s.exch then some (s.now + 100 * s.exch.period) else none }

/-- Mode and period written, a period field of 0 as 1 (log entry 13), and the timer restarted. -/
noncomputable def settled (m : BitVec 2) (p : Byte) (s : State) : State :=
  restarted { s with exch.mode := modeNamed s.now m, exch.period := if p = 0 then 1 else p.toNat }

/-- Slot `k` is the first Pending slot from the scan pointer upward, wrapping (R177). -/
def FirstPending (x : Exchange) (k : Nat) : Prop :=
  ∃ n, n < 64 ∧ k = (x.scanPtr + n) % 64 ∧ tget x.intake k = .pending
    ∧ ∀ m, m < n → tget x.intake ((x.scanPtr + m) % 64) ≠ .pending

/-- Every channel is Idle with an empty chain, its trigger and cue binding, chain index counter and counters kept. -/
def ChainsGone (s t : State) : Prop :=
  ∀ c, c < 16 → (t.chan c).state = .idle ∧ (t.chan c).chain = [] ∧ (t.chan c).trigger = (s.chan c).trigger
    ∧ (t.chan c).cue = (s.chan c).cue ∧ (t.chan c).nextIndex = (s.chan c).nextIndex
    ∧ (t.chan c).underrun = (s.chan c).underrun ∧ (t.chan c).lost = (s.chan c).lost

/-- Nothing but host memory writes is missing among what was sent: `t` has sent more than `s`, and no write. -/
def SentNoWrite (s t : State) : Prop :=
  ∃ l, t.sent = l ++ s.sent ∧ ∀ o, o ∈ l → ∀ a b, o ≠ .write a b

/-- Descriptor `d` has been returned: samples moved, end reason and part state Returned were written in this order (R157),
which stand in what was sent newest first. -/
def WroteReturn (d : Desc) (moved : Nat) (reason : EndReason) (t : State) : Prop :=
  ∃ a b, t.sent = a ++ [.write (d.address + 0x0E) (u8 1), .write (d.address + 0x0F) (u8 reason.ctorIdx)
                        , .write (d.address + 0x10) (u32 (min moved max32))] ++ b

/-- The requester of a foldback entry is a key the part has, or one of its channels. -/
def Real (s : State) (x : FoldEntry) : Prop :=
  match x.requester with
  | .key st k => s.hasKey st k = true
  | .channel p => p < 16

/-- Between `s` and `t` the requester of entry `x` of destination `d`'s record is told notice `n`: a key by its state
(Table 3-6, R62, R79), a playback channel by its cue place and a refused or dropped cue's event (R158). -/
def Told (d : Nat) (x : FoldEntry) (n : Notice) (s t : State) : Prop :=
  match x.requester, n with
  | .key st k, .entered | .key st k, .movedIn => (t.key st k).state = .talking ∧ (t.key st k).grant = s.now
  | .key st k, .parked | .key st k, .movedOut => (t.key st k).state = .pending
  | .key st k, .refused code => (t.key st k).state = .refused ∧ (t.key st k).held = none
      ∧ tget t.ev.details 49 = u8 st ++ u8 k ++ u8 code.ctorIdx
  | .key st k, .dropped code => (t.key st k).state = .idle ∧ (t.key st k).held = none
      ∧ (t.key st k).latched = false ∧ (t.key st k).busy = some (s.now + 2000)
      ∧ tget t.ev.details 49 = u8 st ++ u8 k ++ u8 code.ctorIdx
  | .channel p, .entered | .channel p, .movedIn => (t.chan p).cuePlace = .interrupt
  | .channel p, .parked | .channel p, .movedOut => (t.chan p).cuePlace = .pending
  | .channel p, .refused code | .channel p, .dropped code => (t.chan p).cuePlace = .none
      ∧ tget t.ev.details 52 = u8 p ++ u8 d ++ u8 code.ctorIdx

/-- An order's row, with what STREAM.APPEND reads of its descriptor. -/
def rowOf (read : Option DescRead) : Instr → Instr
  | .streamAppend c a _ => .streamAppend c a read
  | i => i

end Sys2Proof.Stmt

open Sys2Proof Sys2Proof.Machine Sys2Proof.Stmt

/-! ### The machine -/

/-- A step is the command at the front of the queue, carried out on the rest of the queue. -/
def Obligations.StepRunsFrontCommand : Prop :=
  ∀ (c : Instr) (rest : List Instr) (s : State), s.pending = c :: rest → step s = exec c { s with pending := rest }

/-- No command stops the part, none touches the queue, and with an empty queue a step changes nothing (the queue is
the model's own, log entry 1). -/
def Obligations.EveryCommandAnswers : Prop :=
  (∀ (c : Instr) (s : State), ∃ t, exec c s = .next t ∧ t.pending = s.pending)
    ∧ ∀ s : State, s.pending = [] → step s = .next s

/-- What the two full resets leave in every block. Three clauses are the model's choice: the queue, what was sent and the
failing addresses are kept (log entry 1), the values of the exchange unit that the spec gives none for, the slots Free
among them, are those of log entry 45, and the pin levels are operands of the command (log entry 10). -/
def Obligations.FullResetLeaves : Prop :=
  ∀ (i : Inputs) (s : State), ∃ t u : State,
    exec (.powerOn i) s = .next t ∧ exec (.resetPin i) s = .next u
      ∧ t.exch.startCause = .powerOn ∧ u = { t with exch.startCause := .resetPin }
      ∧ t.pending = s.pending ∧ t.sent = s.sent ∧ t.writeFaults = s.writeFaults
      ∧ t.exch.part = .stopped ∧ t.exch.xbaseL = 0 ∧ t.exch.xbaseH = 0
      ∧ (∀ k, k < 64 → tget t.exch.intake k = .free) ∧ t.exch.scanPtr = 0
      ∧ t.exch.restarts = 0 ∧ t.exch.autonomous = 0
      ∧ t.exch.mode = .off ∧ t.exch.period = 10 ∧ t.exch.superTimer = none ∧ t.exch.started = false
      ∧ t.ev.raised = 0 ∧ t.ev.overrun = 0 ∧ t.ev.marks = 0 ∧ t.ev.seen = 0
      ∧ (∀ v, v < 4 → tget t.ev.maps v = 0 ∧ tget t.ev.vectors v = false)
      ∧ (∀ e, e < 53 → tget t.ev.counts e = 0)
      ∧ (∀ st, st < 89 → tget t.call.lists st = []) ∧ t.call.timeout = 30
      ∧ (∀ g, g < 4 → tget t.call.gens g
          = { running := false, onTime := 500, offTime := 500, phaseOn := false, expiry := none })
      ∧ (∀ k, k < 16 → (t.input k).pinHigh = bit i.pins k ∧ (t.input k).function = .none)
      ∧ (∀ k, k < 16 → (tget t.call.outputs k).function = .none)
      ∧ t.engine.state = .idle ∧ t.engine.store = none ∧ t.engine.applied = 0 ∧ t.engine.lockedCount = 0
      ∧ t.engine.noRoomCount = 0 ∧ t.engine.invalid = 0 ∧ t.engine.allCall = false ∧ t.engine.emergency = false
    ∧ (∀ x, x < 160 → tget t.mat.sources x
        = { trim := 216, mute := false, cause := if 128 ≤ x ∧ x < 152 then some .notLive else none })
    ∧ (∀ d, d < 160 → t.dest d
        = { kind := if d < 128 then .plain else if d < 152 then .ret else .capture
            level := 216, limit := 8, slots := [], mirror := none, lock := .free })
    ∧ t.mat.pool = [] ∧ (∀ b, b < 8 → t.bus b = [])
    ∧ (∀ r, r < 48 → t.rec_ r
        = { bound := if 24 ≤ r then some (104 + r) else none, bus := none, level := 216
            minus := if 24 ≤ r then [104 + r] else [], mode := .dim, depth := 2, dim := 20, hold := 250
            ints := [], pends := [], duck := .opened, holdTimer := none })
    ∧ (∀ st k, st < 89 → k < stationKeys st → t.hasKey st k = true ∧ (t.key st k).function = .none
        ∧ (t.key st k).state = .idle ∧ (t.key st k).pressed = false ∧ (t.key st k).latched = false
        ∧ (t.key st k).held = none ∧ (t.key st k).busy = none)
    ∧ (∀ d, d < 160 → tget t.arb.talkers d = [])
    ∧ (∀ l, l < 32 → t.line l
        = { members := [], limit := 1, policy := .fixed, turn := 10, talkers := [], waiting := [] })
    ∧ t.arb.allCall = 0 ∧ t.arb.smart = 300 ∧ t.arb.deskMic = none
    ∧ (∀ l, l < 4 → (t.loop l).enabled = false ∧ (t.loop l).rate = 500 ∧ (t.loop l).inHand = false
        ∧ (t.loop l).polls = 0 ∧ (t.loop l).missed = 0 ∧ (t.loop l).bad = 0 ∧ (t.loop l).stray = 0)
    ∧ (∀ st, st < 64 → (t.panel st).presence = .unconfigured ∧ (t.panel st).mic = none
        ∧ (t.panel st).speaker = none ∧ (t.panel st).keyCount = 24 ∧ (t.panel st).lastSeq = none
        ∧ (t.panel st).missed = 0 ∧ (t.panel st).reported = none ∧ (t.panel st).outOfRange = 0
        ∧ ∀ k, k < 24 → (tget (t.panel st).lamps k).lamp = .off ∧ (tget (t.panel st).lamps k).marked = false)
    ∧ (∀ n, n < 24 → (t.link n).session = .vacant ∧ (t.link n).duty = .held ∧ (t.link n).allowed = none
        ∧ (t.link n).unit = none)
    ∧ (∀ n, n < 24 → (tget t.jits n).frames = [] ∧ (tget t.jits n).playout = .off
        ∧ tget (tget t.jits n).profiles 0
            = { target := 40, minimum := 24, maximum := 80, concealment := .repeatFade, usable := true }
        ∧ tget (tget t.jits n).profiles 1
            = { target := 64, minimum := 32, maximum := 128, concealment := .repeatFade, usable := true }
        ∧ tget (tget t.jits n).profiles 2
            = { target := 96, minimum := 48, maximum := 192, concealment := .repeatFade, usable := true }
        ∧ tget (tget t.jits n).profiles 3
            = { target := 160, minimum := 80, maximum := 256, concealment := .repeatFade, usable := true })
    ∧ (∀ c, c < 16 → (t.chan c).state = .idle ∧ (t.chan c).chain = [] ∧ (t.chan c).trigger = .immediate
        ∧ (t.chan c).cue = none ∧ (t.chan c).nextIndex = 0 ∧ (t.chan c).staging = []
        ∧ (t.chan c).underrun = 0 ∧ (t.chan c).lost = 0)

/-- Every rule that the statements below say each step keeps holds after reset. -/
def Obligations.InvariantsHoldAtReset : Prop :=
  let s := State.reset
  Inv.PoolOk s.mat.pool ∧ (∀ i, i < 160 → Inv.SourceOk i (tget s.mat.sources i))
    ∧ (∀ d, d < 160 → Inv.DestOk d (s.dest d)) ∧ (∀ b, b < 8 → Inv.BusOk (s.bus b))
    ∧ (∀ r, r < 48 → Inv.FoldOk r (s.rec_ r)) ∧ (∀ st, st < 89 → Inv.KeysOk st (tget s.arb.keys st))
    ∧ (∀ l, l < 32 → Inv.LineOk (s.line l)) ∧ (∀ st, st < 89 → Inv.CallsOk st (tget s.call.lists st))
    ∧ (∀ st, st < 64 → Inv.PanelOk (s.panel st)) ∧ (∀ n, n < 24 → Inv.LinkOk (s.link n))
    ∧ (∀ n, n < 24 → Inv.JitOk (tget s.jits n)) ∧ (∀ c, c < 16 → Inv.ChanOk (s.chan c))
    ∧ Inv.Quiet s ∧ Inv.RegsOk s.exch

/-! ### What every step keeps -/

/-- The crosspoint pool keeps its rules: live entries, one for each pair, 2048 in all and 24 a destination, counts up
to 63, levels 0 where nothing sets them (R12, R13, R15, R16). Source records, destination records and programme buses keep
their ranges, kinds and lists: only a field link source has a silence cause, a bus slot is one of the 32 lines' and has a
holder, only a capture destination has a mirror (Tables 1-1 and 1-3, R4, R7, R10, R11, R23). -/
def Obligations.MatrixAndBusRulesKept : Prop :=
  ∀ s t : State, step s = .next t →
    (Inv.PoolOk s.mat.pool → Inv.PoolOk t.mat.pool)
      ∧ (∀ i, i < 160 → Inv.SourceOk i (tget s.mat.sources i) → Inv.SourceOk i (tget t.mat.sources i))
      ∧ (∀ d, d < 160 → Inv.DestOk d (s.dest d) → Inv.DestOk d (t.dest d))
      ∧ (∀ b, b < 8 → Inv.BusOk (s.bus b) → Inv.BusOk (t.bus b))

/-- Every foldback record keeps its rules: list lengths and order, no requester twice, the head of the pending list in
while there is room, the duck state that goes with the interrupt list, a return's own source in its minus set (R29,
R30, R36, R37, R41, R45). -/
def Obligations.FoldbackRulesKept : Prop :=
  ∀ (s t : State) (r : Nat), r < 48 → Inv.FoldOk r (s.rec_ r) → step s = .next t → Inv.FoldOk r (t.rec_ r)

/-- The key table keeps its keys in range, with a target each function has (R49, Tables 3-1 and 3-9); party lines their
32 members, 16 waiting keys, limit and turn ranges, and no more talkers than the limit (R66); call lists at most 8
entries, one for each caller (R80); stream channels at most 8 descriptors and 4 staged blocks, an empty chain while Idle
and one that is not while Armed or Running (R147, R152). -/
def Obligations.KeyLineCallAndChannelRulesKept : Prop :=
  ∀ s t : State, step s = .next t →
    (∀ st, st < 89 → Inv.KeysOk st (tget s.arb.keys st) → Inv.KeysOk st (tget t.arb.keys st))
      ∧ (∀ l, l < 32 → Inv.LineOk (s.line l) → Inv.LineOk (t.line l))
      ∧ (∀ st, st < 89 → Inv.CallsOk st (tget s.call.lists st) → Inv.CallsOk st (tget t.call.lists st))
      ∧ (∀ c, c < 16 → Inv.ChanOk (s.chan c) → Inv.ChanOk (t.chan c))

/-- A Vacant link holds no session: no unit, offer, format or path address, and no session timer runs (R129). A panel
record keeps its ranges, and holds no accepted sequence while Unconfigured or Absent (R100, R105, Table 5-3). A jitter
buffer holds at most 128 frames and its selected profile's maximum, no sequence twice, and its profiles stay in range
(R136, R137, R144 to R146, Tables 7-1 and 7-2). No notify vector is asserted while the part is Stopped or Autonomous
(R186, R187). Scan pointer, scan interval, supervision period, XBASE_L's low bits and the area's base stay as the
registers give them (Table 10-2, R174, R176, R177, R188). -/
def Obligations.LinkPanelVectorAndRegisterRulesKept : Prop :=
  ∀ s t : State, step s = .next t →
    (∀ n, n < 24 → Inv.LinkOk (s.link n) → Inv.LinkOk (t.link n))
      ∧ (∀ st, st < 64 → Inv.PanelOk (s.panel st) → Inv.PanelOk (t.panel st))
      ∧ (∀ n, n < 24 → Inv.JitOk (tget s.jits n) → Inv.JitOk (tget t.jits n))
      ∧ (Inv.Quiet s → Inv.Quiet t) ∧ (Inv.RegsOk s.exch → Inv.RegsOk t.exch)

/-- A Fixed lock is cleared by full reset alone (R170). -/
def Obligations.FixedLockEndsByResetAlone : Prop :=
  ∀ (c : Instr) (s : State) (d : Nat), (∀ i, c ≠ .powerOn i ∧ c ≠ .resetPin i) → (s.dest d).lock = .fixed →
    ∃ t, exec c s = .next t ∧ (t.dest d).lock = .fixed

/-- The slot an order is written in is read back as that order, for every order that can be sent: no bit of an
argument is dropped (Tables 10-4 and 10-5; layouts of log entries 14 and 39). -/
def Obligations.OrderSlotsRoundTrip : Prop :=
  ∀ (i : Instr) (b : List Byte), i.wf = true → encodeOrder i = some b →
    b.length = 64 ∧ decodeOrder b = some (Instr.posted i)

/-! ### The exchange unit -/

/-- Every XCTL write that reaches the part writes mode and period and restarts the timer; a command that Table 10-1
gives no effect in the part's state does no more. XBASE_L and XBASE_H hold what is written, the low 12 bits of XBASE_L as
0, and the base in use stays; writes to PSTATE and NVSTAT are ignored. While the link is inactive no write arrives, the
command register's among them (log entry 9). -/
def Obligations.RegisterWrites : Prop :=
  ∀ (m : BitVec 2) (p : Byte) (v : Word32) (s : State),
    (s.exch.linkActive = true →
      exec (.xctlNone m p) s = .next (settled m p s)
        ∧ (s.exch.part ≠ .stopped → ∀ a b, exec (.start m p a b) s = .next (settled m p s))
        ∧ (s.exch.part ≠ .running → ∀ d, exec (.stop m p d) s = .next (settled m p s))
        ∧ exec (.registerWrite .xbaseL v) s = .next { s with exch.xbaseL := v &&& 0xFFFFF000#32 }
        ∧ exec (.registerWrite .xbaseH v) s = .next { s with exch.xbaseH := v }
        ∧ exec (.registerWrite .pstate v) s = .next s ∧ exec (.registerWrite .nvstat v) s = .next s)
    ∧ (s.exch.linkActive = false →
        exec (.xctlNone m p) s = .next s ∧ exec .attn s = .next s
          ∧ (∀ post seen : Option Word64, exec (.start m p post seen) s = .next s
              ∧ ∀ d, exec (.restart m p post seen d) s = .next s)
          ∧ (∀ d, exec (.stop m p d) s = .next s) ∧ ∀ r, exec (.registerWrite r v) s = .next s)

/-- An ATTN write restarts supervision and, while Running, asks for a read of the area; a scan expiry asks for one and
sets the next expiry one interval later (log entry 3). Nothing else changes. A read of the area that was asked for: the
post word read decides the intake states, a failed one leaves them; seen word and vector maps are replaced where their
reads succeeded, and the vectors are judged afresh. -/
def Obligations.AreaReads : Prop :=
  ∀ (r : AreaRead) (s : State),
    (s.exch.linkActive = true → s.exch.part = .running →
      exec .attn s = .next { restarted s with exch.readsDue := s.exch.readsDue + 1 })
    ∧ (s.exch.linkActive = true → s.exch.part ≠ .running → exec .attn s = .next (restarted s))
    ∧ (∀ x, s.exch.part = .running → s.exch.scanTimer = some x → x ≤ s.now →
        exec .scanExpiry s = .next { s with
          exch.readsDue := s.exch.readsDue + 1, exch.scanTimer := some (x + s.exch.scanInterval) })
    ∧ (s.exch.part ≠ .running ∨ NotDue s.exch.scanTimer s.now → exec .scanExpiry s = .next s)
    ∧ (s.exch.part = .running → 0 < s.exch.readsDue →
        ∃ t, exec (.postWordRead r) s = .next t
          ∧ (∀ p, r.post = some p → t.exch.postCopy = p ∧ ∀ k, k < 64 → tget t.exch.intake k =
              if tget s.exch.intake k = .inFlight then .inFlight
              else if bit p k = bit s.exch.doneCopy k then .free else .pending)
          ∧ (r.post = none → t.exch.postCopy = s.exch.postCopy ∧ t.exch.intake = s.exch.intake)
          ∧ t.ev.seen = r.seen.getD s.ev.seen
          ∧ tget t.ev.maps 0 = r.map0.getD (tget s.ev.maps 0) ∧ tget t.ev.maps 1 = r.map1.getD (tget s.ev.maps 1)
          ∧ tget t.ev.maps 2 = r.map2.getD (tget s.ev.maps 2) ∧ tget t.ev.maps 3 = r.map3.getD (tget s.ev.maps 3)
          ∧ (∀ v, v < 4 → (tget t.ev.vectors v = true
              ↔ ∃ e, e < 53 ∧ bit (tget t.ev.maps v) e = true ∧ eventPending t.ev e = true))
          ∧ t.ev.raised = s.ev.raised ∧ t.ev.overrun = s.ev.overrun ∧ t.ev.counts = s.ev.counts
          ∧ t.ev.details = s.ev.details ∧ t.ev.marks = s.ev.marks
          ∧ t.exch.readsDue = s.exch.readsDue - 1
          ∧ { t.exch with
              readsDue := s.exch.readsDue, postCopy := s.exch.postCopy, intake := s.exch.intake
              doneUnwritten := s.exch.doneUnwritten } = s.exch
          ∧ { t with exch := s.exch, ev := s.ev, sent := s.sent, writeFaults := s.writeFaults } = s)

/-- The first Pending slot from the scan pointer is taken: In flight, its post bit recorded, the pointer behind it. A
known kind stands in hand; an unknown kind finishes with BadKind and a failed read with HostFault. With an order in
hand, with no slot Pending or while not Running, nothing is taken. -/
def Obligations.OrderTakeFirstPending : Prop :=
  ∀ (s : State) (k : Nat) (b : List Byte),
    (s.exch.part = .running → s.exch.inHand = none → FirstPending s.exch k →
      let u := { s with
        exch.intake := tset s.exch.intake k .inFlight
        exch.scanPtr := (k + 1) % 64
        exch.postTaken := setBit s.exch.postTaken k (bit s.exch.postCopy k) }
      (∀ i, decodeOrder b = some i →
          exec (.orderTake (some b)) s = .next { u with exch.inHand := some { slot := k, order := i } })
        ∧ (decodeOrder b = none → exec (.orderTake (some b)) s
            = .next (finishSlot k (bare .badKind) { u with exch.lastResult := some (bare .badKind) }))
        ∧ exec (.orderTake none) s
            = .next (finishSlot k (bare .hostFault) { u with exch.lastResult := some (bare .hostFault) }))
    ∧ (s.exch.part ≠ .running ∨ s.exch.inHand ≠ none ∨ (∀ j, j < 64 → tget s.exch.intake j ≠ .pending) →
        exec (.orderTake (some b)) s = .next s ∧ exec (.orderTake none) s = .next s)

/-- A slot finishes: its bit in the done copy becomes the post bit recorded, it leaves In flight, OrdersDone is raised
with the completions and failed result writes since it was last raised anew, and nothing else changes. With no write
failing, the result is written first and then the done word. (The order and widths of the detail's fields are the
model's choice, log entry 14, and so is that the counts stay at their highest 32-bit value, log entry 43.) -/
def Obligations.FinishedOrderIsReported : Prop :=
  ∀ (k : Nat) (r : Result) (s : State), k < 64 →
    let t := finishSlot k r s
    (∀ j, j < 64 → bit t.exch.doneCopy j = if j = k then bit s.exch.postTaken k else bit s.exch.doneCopy j)
      ∧ (∀ j, j < 64 → tget t.exch.intake j = if j = k then .free else tget s.exch.intake j)
      ∧ Raised 0 (u32 t.exch.completions ++ u8 k ++ u8 r.code.ctorIdx ++ u32 t.exch.failedResults) s t
      ∧ t.exch.completions = (if eventPending s.ev 0 then satAdd max32 s.exch.completions 1 else 1)
      ∧ (s.writeFaults = [] →
          t.exch.failedResults = (if eventPending s.ev 0 then s.exch.failedResults else 0)
            ∧ t.exch.doneUnwritten = false
            ∧ ∃ l, t.sent = l ++ .write (s.exch.base + 0x48) (u64 t.exch.doneCopy.toNat)
                :: .write (s.exch.base + (0x800 + 64 * k + 0x30)) (u16 r.code.ctorIdx ++ r.values) :: s.sent)
      ∧ { t.exch with
          doneCopy := s.exch.doneCopy, intake := s.exch.intake, completions := s.exch.completions
          failedResults := s.exch.failedResults, doneUnwritten := s.exch.doneUnwritten } = s.exch
      ∧ { t with exch := s.exch, ev := s.ev, sent := s.sent, writeFaults := s.writeFaults } = s

/-- Start with both reads done takes the part from Stopped to Running with a new base, done baseline and event words,
and writes every mirror record; Restart taken in Stopped does the same and raises the restart count (log entry 24).
With a failed read the part stays Stopped. Every other block is left as it stands. -/
def Obligations.StartMakesRunning : Prop :=
  ∀ (m : BitVec 2) (p : Byte) (d : Option DescRead) (s : State), s.exch.linkActive = true → s.exch.part = .stopped →
    (∀ post seen : Word64, ∃ t, exec (.start m p (some post) (some seen)) s = .next t
      ∧ exec (.restart m p (some post) (some seen) d) s
          = .next { t with exch.restarts := t.exch.restarts + 1 }
      ∧ t.exch.part = .running ∧ t.exch.started = true
      ∧ t.exch.base = 4096 * (s.exch.xbaseL.toNat / 4096) + 4294967296 * s.exch.xbaseH.toNat
      ∧ t.exch.doneCopy = post ∧ (∀ k, k < 64 → tget t.exch.intake k = .free) ∧ t.exch.scanPtr = 0
      ∧ t.exch.inHand = none ∧ t.exch.restarts = s.exch.restarts ∧ t.exch.autonomous = s.exch.autonomous
      ∧ t.ev.raised = seen ∧ t.ev.seen = seen ∧ t.ev.overrun = 0 ∧ t.ev.marks = 0
      ∧ (∀ e, e < 53 → tget t.ev.counts e = 0 ∧ tget t.ev.details e = [])
      ∧ (∀ v, v < 4 → tget t.ev.vectors v = false)
      ∧ (s.writeFaults = [] → ∀ i, i < 109 → tget t.mirror i = tget s.mirror i + 2)
      ∧ { t with exch := s.exch, ev := s.ev, mirror := s.mirror, sent := s.sent, writeFaults := s.writeFaults } = s)
    ∧ (∀ post seen : Option Word64, post = none ∨ seen = none →
        ∃ t, exec (.start m p post seen) s = .next t ∧ exec (.restart m p post seen d) s = .next t
          ∧ t.exch.part = .stopped ∧ t.exch.restarts = s.exch.restarts
          ∧ { t with exch := s.exch, sent := s.sent, writeFaults := s.writeFaults } = s)

/-- Stop with no order in hand takes the part from Running to Stopped: intake ends, every channel is stopped, the work
in the recall engine ends, no vector is asserted, and the settings of every block are kept. (That the engine is Idle in
the same step, from Clearing and Applying too, is the model's reading, log entry 25, and so is that the staged blocks of
a capture channel are not counted as lost samples, log entry 54.) An order in hand: `OrderInHandEnds`. -/
def Obligations.StopMakesStopped : Prop :=
  ∀ (m : BitVec 2) (p : Byte) (d : Option DescRead) (s : State),
    s.exch.linkActive = true → s.exch.part = .running → s.exch.inHand = none →
    (∀ c, c < 16 → Inv.ChanOk (s.chan c)) →
    ∃ t, exec (.stop m p d) s = .next t
      ∧ t.exch.part = .stopped ∧ t.exch.readsDue = 0 ∧ t.exch.scanTimer = none
      ∧ ChainsGone s t ∧ t.engine.state = .idle ∧ (∀ v, v < 4 → tget t.ev.vectors v = false)
      ∧ t.exch.mode = modeNamed s.now m ∧ t.exch.restarts = s.exch.restarts ∧ t.exch.autonomous = s.exch.autonomous
      ∧ Inv.SameSettings s t

/-- Restart with both reads done and no order in hand, from Running or Autonomous: the part is Running on a new done
baseline, the chains are discarded, talk state is left, and leaving Autonomous raises Supervision with count 1; where
nothing was in progress its detail gives time, cause, state at entry, marks and fallback outcome. With a failed read
part state and restart count stay; that what is in flight has ended and XBASE has been read by then, and that the slots
are taken from post words that were read, is the model's reading (log entry 23); that the time is rounded down, its choice
(log entry 68); the fallback outcome of Table 11-3 is log entry 26. An order in hand: `OrderInHandEnds`. -/
def Obligations.RestartMakesRunning : Prop :=
  ∀ (m : BitVec 2) (p : Byte) (d : Option DescRead) (s : State),
    s.exch.linkActive = true → s.exch.part ≠ .stopped → s.exch.inHand = none →
    (∀ post seen : Word64, ∃ t, exec (.restart m p (some post) (some seen) d) s = .next t
      ∧ t.exch.part = .running ∧ t.exch.started = true ∧ t.exch.restarts = s.exch.restarts + 1
      ∧ t.exch.autonomous = s.exch.autonomous
      ∧ t.exch.base = 4096 * (s.exch.xbaseL.toNat / 4096) + 4294967296 * s.exch.xbaseH.toNat
      ∧ t.exch.doneCopy = post ∧ (∀ k, k < 64 → tget t.exch.intake k = .free) ∧ t.exch.scanPtr = 0
      ∧ t.ev.seen = seen ∧ t.ev.marks = 0 ∧ t.ev.overrun = 0
      ∧ (∀ e, e < 53 → bit t.ev.raised e
          = if e = 2 ∧ s.exch.part = .autonomous then !bit seen e else bit seen e)
      ∧ (∀ e, e < 53 → tget t.ev.counts e = if e = 2 ∧ s.exch.part = .autonomous then 1 else 0)
      ∧ (s.exch.part = .autonomous → s.engine.state = .idle → s.reports = [] →
          (∀ c, c < 16 → (s.chan c).cuePlace = .none) →
          tget t.ev.details 2 = u32 (min ((s.now - s.exch.autoSince) / 100) max32) ++ u8 s.exch.autoCause.ctorIdx
            ++ u8 s.exch.autoFrom.ctorIdx ++ u64 s.ev.marks.toNat ++ u8 (fallbackOutcome s).ctorIdx)
      ∧ ChainsGone s t
      ∧ t.mat.pool = s.mat.pool ∧ t.arb.lines = s.arb.lines ∧ t.arb.talkers = s.arb.talkers ∧ t.call = s.call
      ∧ t.loops = s.loops ∧ t.mix = s.mix ∧ t.now = s.now)
    ∧ (∀ post seen : Option Word64, post = none ∨ seen = none → ∃ t, exec (.restart m p post seen d) s = .next t
      ∧ t.exch.part = s.exch.part ∧ t.exch.restarts = s.exch.restarts ∧ t.exch.autonomous = s.exch.autonomous
      ∧ t.exch.started = true ∧ t.exch.mode = modeNamed s.now m
      ∧ t.exch.base = 4096 * (s.exch.xbaseL.toNat / 4096) + 4294967296 * s.exch.xbaseH.toNat
      ∧ t.exch.inHand = none ∧ ChainsGone s t
      ∧ (post = none → t.exch.doneCopy = s.exch.doneCopy ∧ t.exch.intake = s.exch.intake)
      ∧ (∀ q, post = some q →
          t.exch.doneCopy = q ∧ (∀ k, k < 64 → tget t.exch.intake k = .free) ∧ t.exch.scanPtr = 0)
      ∧ t.mat.pool = s.mat.pool ∧ t.arb.lines = s.arb.lines ∧ t.arb.talkers = s.arb.talkers ∧ t.call = s.call
      ∧ t.loops = s.loops ∧ t.mix = s.mix ∧ t.now = s.now)

/-- Entry into Autonomous at an expiry of the supervision timer, or at a link loss while Running or while Stopped
under Strict with the started flag set, with no order in hand: cause, state and time recorded, chains discarded,
vectors deasserted, nothing written to host memory, and the fallback recall begun where the engine was Idle and the
store holds a scene. (That no slot is left in flight is the model's reading, log entry 27.) An order in hand:
`OrderInHandEnds`. A link loss that does not enter Autonomous changes the link-active input alone, and so does the link's
return. An expiry of a supervision timer that is stopped or has not run out is no event (log entry 3), nor is one in
Autonomous, where the timer is stopped. -/
def Obligations.AutonomousEntry : Prop :=
  ∀ s : State,
    let entered (cause : AutoCause) (t : State) : Prop :=
      t.exch.part = .autonomous ∧ t.exch.autoCause = cause ∧ t.exch.autoFrom = s.exch.part
        ∧ t.exch.autoSince = s.now ∧ t.exch.autonomous = s.exch.autonomous + 1
        ∧ t.exch.superTimer = none ∧ t.exch.scanTimer = none ∧ t.exch.readsDue = 0
        ∧ (∀ k, k < 64 → tget t.exch.intake k ≠ .inFlight)
        ∧ ChainsGone s t ∧ (∀ v, v < 4 → tget t.ev.vectors v = false) ∧ SentNoWrite s t
        ∧ t.mat.pool = s.mat.pool ∧ t.arb.lines = s.arb.lines ∧ t.arb.talkers = s.arb.talkers ∧ t.call = s.call
        ∧ t.mix = s.mix ∧ t.loops = s.loops
        ∧ (s.engine.state = .idle → s.engine.store = none → t.engine.state = .idle)
        ∧ (∀ n es, s.engine.state = .idle → s.engine.store = some (n, es) →
            t.engine.work = some .fallbackRecall ∧ t.engine.scene = n ∧ t.engine.buffer = es
              ∧ (t.engine.state = .clearing ∨ t.engine.state = .suspended) ∧ t.exch.fallback = .inProgress)
    (∀ x, s.exch.inHand = none → s.exch.part ≠ .autonomous → s.exch.superTimer = some x → x ≤ s.now →
        ∃ t, exec .supervisionExpiry s = .next t ∧ entered .expiry t)
      ∧ (s.exch.inHand = none → s.exch.linkActive = true →
          s.exch.part = .running ∨ (s.exch.part = .stopped ∧ s.exch.mode = .strict ∧ s.exch.started = true) →
          ∃ t, exec .linkLoss s = .next t ∧ entered .linkLoss t ∧ t.exch.linkActive = false)
      ∧ exec .linkActive s = .next { s with exch.linkActive := true }
      ∧ (s.exch.part = .autonomous ∨ (s.exch.part = .stopped ∧ ¬(s.exch.mode = .strict ∧ s.exch.started = true)) →
          exec .linkLoss s = .next { s with exch.linkActive := false })
      ∧ (NotDue s.exch.superTimer s.now ∨ s.exch.part = .autonomous → exec .supervisionExpiry s = .next s)

/-- The order in hand, `i`, at a change of part state. Stop is a Stop of the state in which the order has been carried out
and has finished its slot, a long order begun and then aborted. A Restart is one of the state in which it has been carried
out without a slot: nothing is written for it, and a long order begun is then aborted without a result. At the entry to
Autonomous a short order has its effect and its result is kept, no slot finishes and nothing is written to host memory; a
long order leaves no work of its own, and the fallback recall begins. `orderBody` is the effect of a short order's row, and
`abandonedBody` the same but for the orders that return descriptors, STREAM.STOP, STREAM.CUT and a CI.BIND with a Cut: at
Restart and at the entry to Autonomous these return none, write no more than the channel's record in the mirror and raise
nothing for it (R180, R181, R189, R160; which writes of an order in hand still go out is log entry 8, and that carrying out needs the slot in hand or none is log
entry 7). -/
def Obligations.OrderInHandEnds : Prop :=
  ∀ (s : State) (k : Nat) (b : List Byte) (i : Instr) (read : Option DescRead) (m : BitVec 2) (p : Byte),
    s.exch.linkActive = true → s.exch.part = .running → s.reports = [] → k < 64 → decodeOrder b = some i →
    s.exch.inHand = some { slot := k, order := i } →
    let short : Prop := ∀ a, i ≠ .sceneRecall a ∧ i ≠ .fallbackStore a
    let begun : State := { settled m p s with exch.inHand := none, exch.started := true, engine.resultWanted := false }
    let entering (cause : AutoCause) (active : Bool) : State := { s with
      exch := { s.exch with
        part := .autonomous, autoCause := cause, autoFrom := .running, autoSince := s.now, linkActive := active
        inHand := none, readsDue := 0, superTimer := none, scanTimer := none, autonomous := s.exch.autonomous + 1
        fallback := .noneStored, fallbackDue := false }
      ev.vectors := build 4 fun _ => false
      engine.resultWanted := false }
    let keeps (u t : State) : Prop := Inv.SameSettings u { t with engine := u.engine } ∧ t.mat.pool = u.mat.pool
      ∧ t.mat.dests = u.mat.dests ∧ t.arb.lines = u.arb.lines ∧ t.arb.talkers = u.arb.talkers ∧ t.call = u.call
      ∧ t.exch.scanInterval = u.exch.scanInterval ∧ t.exch.inHand = none ∧ t.exch.completions = s.exch.completions
      ∧ t.exch.failedResults = s.exch.failedResults
    (∃ u t, exec (rowOf read i) { settled m p s with exch.readsDue := 0 } = .next u ∧ u.exch.inHand = none
        ∧ exec (.stop m p read) s = .next t ∧ exec (.stop m p read) u = .next t
        ∧ t.exch.part = .stopped ∧ t.exch.inHand = none ∧ tget t.exch.intake k = .free
        ∧ bit t.exch.doneCopy k = bit s.exch.postTaken k
        ∧ (short → ∃ r, u.exch.lastResult = some r ∧ (s.writeFaults = [] →
            Output.write (s.exch.base + (0x800 + 64 * k + 0x30)) (u16 r.code.ctorIdx ++ r.values) ∈ t.sent)))
    ∧ (∀ post seen : Option Word64,
        let again (u : State) : Prop := exec (.restart m p post seen read) s = exec (.restart m p post seen read) u
        (∀ a, i = .sceneRecall a → again (beginLong .hostRecall a (some k) begun).2)
        ∧ (∀ a, i = .fallbackStore a → again (beginLong .store a (some k) begun).2)
        ∧ (∀ body, abandonedBody read i = some body →
            let u := settle { (body begun).2 with exch.lastResult := some (body begun).1 }
            again u ∧ ∃ t, exec (.restart m p post seen read) s = .next t ∧ keeps u t
              ∧ (s.engine.state = .idle → t.exch.lastResult = u.exch.lastResult)))
    ∧ (∀ c cause active, (c = .linkLoss ∧ cause = .linkLoss ∧ active = false) ∨ (c = .supervisionExpiry
          ∧ cause = .expiry ∧ active = true ∧ ∃ x, s.exch.superTimer = some x ∧ x ≤ s.now) →
        ∃ t, exec c s = .next t ∧ t.exch.part = .autonomous ∧ SentNoWrite s t
          ∧ (∀ body, abandonedBody none i = some body →
              keeps (body (entering cause active)).2 t
              ∧ (s.engine.state = .idle → t.exch.lastResult = some (body (entering cause active)).1))
          ∧ (¬short → t.mat.pool = s.mat.pool ∧ t.exch.inHand = none ∧ t.exch.completions = s.exch.completions
              ∧ (s.engine.state = .idle → (s.engine.store = none → t.engine.state = .idle)
                  ∧ ∀ n es, s.engine.store = some (n, es) →
                    t.engine.work = some .fallbackRecall ∧ t.engine.scene = n ∧ t.engine.buffer = es
                      ∧ (t.engine.state = .clearing ∨ t.engine.state = .suspended))))
    ∧ (short ↔ ∃ body, orderBody read i = some body) ∧ (short ↔ ∃ body, abandonedBody read i = some body)
    ∧ (∀ body, orderBody none i = some body → ∀ x : State, x.exch.inHand = none → x.exch.part ≠ .autonomous →
        x.reports = [] →
        exec (rowOf none i) x = .next (settle { (body x).2 with exch.lastResult := some (body x).1 }))
    ∧ ((∀ c, i ≠ .streamStop c ∧ i ≠ .streamCut c) → (∀ n f a l h, i = .ciBind n f a l h → inFunctionOf f ≠ some .cut) →
        abandonedBody read i = orderBody read i)
    ∧ (∀ body c, abandonedBody read i = some body →
        i = .streamStop c ∨ i = .streamCut c ∨ (∃ n f l h, i = .ciBind n f c l h ∧ inFunctionOf f = some .cut) →
        ∀ x : State, (x.chan c).cuePlace = .none → (∀ n, n < 16 → (x.input n).function = .none) →
        (body x).2.ev = x.ev ∧ (∃ k, ((body x).2.chan c).chain = (x.chan c).chain.drop k)
          ∧ ∃ l, (body x).2.sent = l ++ x.sent
              ∧ ∀ o, o ∈ l → ∃ a bytes, 0x2100 ≤ a ∧ a < 0x2300 ∧ o = .write (x.exch.base + a) bytes)

/-- Orders on settings of the whole part. NOP gives its tag. EXCH.SCAN writes the interval, which acts from the next
expiry, at once when scanning was off, and an interval above 64 is refused (that 0 stops a running timer at once is the
model's choice, log entry 66). DESK.CONFIG writes the desk's microphone source or none. SYS.TIMES writes the present times
together; a value out of range is BadValue and changes nothing. -/
def Obligations.PartSettingOrders : Prop :=
  ∀ (n : Nat) (smart timeout : Option Nat) (s : State),
    let bad : Prop := (∃ v, smart = some v ∧ (v < 100 ∨ 1000 < v ∨ v % 50 ≠ 0))
      ∨ (∃ v, timeout = some v ∧ (v < 5 ∨ 120 < v))
    (CarriedOut (.nop n) s → exec (.nop n) s = .next (finished { code := .done, values := u32 n } s s))
    ∧ (CarriedOut (.exchScan n) s →
      (64 < n → exec (.exchScan n) s = .next (finished (bare .badValue) s s))
      ∧ (n ≤ 64 → exec (.exchScan n) s = .next (finished (bare .done) { s with
          exch.scanInterval := n
          exch.scanTimer :=
            if n = 0 then none
            else if s.exch.scanTimer.isSome then s.exch.scanTimer
            else if s.exch.part = .running then some (s.now + n) else none } s)))
    ∧ (CarriedOut (.deskConfig n) s →
      (159 < n → n ≠ 255 → exec (.deskConfig n) s = .next (finished (bare .badValue) s s))
      ∧ (n < 160 → exec (.deskConfig n) s = .next (finished (bare .done) { s with arb.deskMic := some n } s))
      ∧ (n = 255 → exec (.deskConfig n) s = .next (finished (bare .done) { s with arb.deskMic := none } s)))
    ∧ (CarriedOut (.sysTimes smart timeout) s →
      (bad → exec (.sysTimes smart timeout) s = .next (finished (bare .badValue) s s))
      ∧ (¬bad → exec (.sysTimes smart timeout) s = .next (finished (bare .done) { s with
          arb.smart := smart.getD s.arb.smart, call.timeout := timeout.getD s.call.timeout } s)))

/-! ### The event unit -/

/-- An occurrence is taken by the state of its source, in every part state; while not Running nothing is written and
no message sent, and in Autonomous the source is marked. While Running with no write failing, the detail record is
written first, then the overrun word, then the raised word where it changed, and messages follow. A vector is
asserted while the part is Running and a source of its map pends, and not otherwise; each that becomes asserted sends one
message while message-enable is set (in ascending vector number, the model's choice, log entry 67). -/
def Obligations.EventsAndVectors : Prop :=
  (∀ (e : Nat) (d : List Byte) (s : State), e < 53 →
    let t := raiseEvent e d s
    Raised e d s t
      ∧ (∀ k, k < 53 → bit t.ev.marks k = (bit s.ev.marks k || (k == e && s.exch.part == .autonomous)))
      ∧ t.ev.seen = s.ev.seen ∧ t.ev.maps = s.ev.maps
      ∧ { t with ev := s.ev, sent := s.sent, writeFaults := s.writeFaults } = s
      ∧ (s.exch.part ≠ .running → t.sent = s.sent ∧ t.ev.vectors = s.ev.vectors)
      ∧ (s.exch.part = .running → s.writeFaults = [] →
          ∃ l, t.sent = l ++ (if eventPending s.ev e then [] else
                [.write (s.exch.base + 0x58) (u64 t.ev.raised.toNat)])
              ++ .write (s.exch.base + 0x60) (u64 t.ev.overrun.toNat)
              :: .write (s.exch.base + (0x100 + 32 * e)) (detailRecord t.ev e) :: s.sent
            ∧ ∀ o, o ∈ l → ∃ v, v < 4 ∧ o = .interrupt v))
  ∧ ∀ s : State,
    let t := judgeVectors s
    (∀ v, v < 4 → (tget t.ev.vectors v = true ↔
        s.exch.part = .running ∧ ∃ e, e < 53 ∧ bit (tget s.ev.maps v) e = true ∧ eventPending s.ev e = true))
      ∧ t = { s with ev.vectors := t.ev.vectors, sent := t.sent }
      ∧ t.sent = (if s.exch.messageEnable = true then
            (((List.range 4).filter fun v => tget t.ev.vectors v && !tget s.ev.vectors v).map Output.interrupt).reverse
          else []) ++ s.sent

/-! ### Matrix controller -/

/-- ROUTE.SET: the checks in the order of Table 1-6, the first that fails gives the code and nothing is changed. When
they pass, Route is added and the route level written, the entry created if absent, and every other pair is left. Both
counts are given in either case. -/
def Obligations.RouteSetOrder : Prop :=
  ∀ (d src lvl : Nat) (s : State), CarriedOut (.routeSet d src lvl) s →
    let refused (c : Code) : Prop := exec (.routeSet d src lvl) s
      = .next (finished { code := c, values := u16 s.mat.pool.length ++ u8 (destCount s.mat.pool d) } s s)
    (159 < d ∨ 159 < src ∨ 240 < lvl → refused .badValue)
      ∧ (d < 160 → src < 160 → lvl ≤ 240 →
          ((s.dest d).lock ≠ .free → refused .locked)
            ∧ ((s.dest d).lock = .free →
                (minusHolds s d src = true → refused .minusConflict)
                  ∧ (minusHolds s d src = false → findEntry s.mat.pool d src = none →
                      (2048 ≤ s.mat.pool.length ∨ 24 ≤ destCount s.mat.pool d) → refused .noRoom)
                  ∧ (minusHolds s d src = false → Inv.PoolOk s.mat.pool →
                      ((findEntry s.mat.pool d src).isSome = true
                        ∨ (s.mat.pool.length < 2048 ∧ destCount s.mat.pool d < 24)) →
                      ∃ pool, exec (.routeSet d src lvl) s
                          = .next (finished { code := .done, values := u16 pool.length ++ u8 (destCount pool d) }
                              { s with mat.pool := pool } s)
                        ∧ findEntry pool d src = some { (findEntry s.mat.pool d src).getD
                            { dest := d, source := src, route := false, scene := false, talk := 0, listen := 0
                              routeLevel := 0, keyLevel := 0 } with route := true, routeLevel := lvl }
                        ∧ ∀ d' src', (d', src') ≠ (d, src) → findEntry pool d' src' = findEntry s.mat.pool d' src')))

/-- ROUTE.CLEAR and ROUTE.CLEARDEST: BadValue, Locked, or the holdings of the pair, or of every pair of the
destination, are removed: an entry with a talk or listen count stays and is heard at its key level, the others go, the
pool keeps its order, and the result values count what was done. Nothing but the pool changes. -/
def Obligations.RouteClears : Prop :=
  ∀ (d src : Nat) (s : State), Inv.PoolOk s.mat.pool →
    let cleared (pool : List PoolEntry) (x : Nat) : Prop :=
      match findEntry s.mat.pool d x with
      | none => findEntry pool d x = none
      | some e =>
        if e.talk = 0 ∧ e.listen = 0 then findEntry pool d x = none
        else ∃ e', findEntry pool d x = some e' ∧ e' = { e with route := false, scene := false, routeLevel := 0 }
          ∧ e'.heard = e.keyLevel
    let held (x : Nat) : Bool := match findEntry s.mat.pool d x with | none => false | some e => e.route || e.scene
    let ordered (pool : List PoolEntry) : Prop :=
      (pool.map fun e => (e.dest, e.source)).Sublist (s.mat.pool.map fun e => (e.dest, e.source))
    (CarriedOut (.routeClear d src) s →
      (159 < d ∨ 159 < src → ∃ v, exec (.routeClear d src) s
        = .next (finished { code := .badValue, values := v } s s))
      ∧ (d < 160 → src < 160 → (s.dest d).lock ≠ .free → ∃ v, exec (.routeClear d src) s
        = .next (finished { code := .locked, values := v } s s))
      ∧ (d < 160 → src < 160 → (s.dest d).lock = .free → ∃ pool gone, exec (.routeClear d src) s
          = .next (finished { code := .done, values := uFlag (held src) ++ uFlag gone ++ u16 pool.length }
              { s with mat.pool := pool } s)
        ∧ (gone = true ↔ findEntry s.mat.pool d src ≠ none ∧ findEntry pool d src = none)
        ∧ cleared pool src ∧ ordered pool
        ∧ ∀ d' x, (d', x) ≠ (d, src) → findEntry pool d' x = findEntry s.mat.pool d' x))
    ∧ (CarriedOut (.routeClearDest d) s →
      (159 < d → ∃ v, exec (.routeClearDest d) s = .next (finished { code := .badValue, values := v } s s))
      ∧ (d < 160 → (s.dest d).lock ≠ .free → ∃ v, exec (.routeClearDest d) s
        = .next (finished { code := .locked, values := v } s s))
      ∧ (d < 160 → (s.dest d).lock = .free → ∃ pool, exec (.routeClearDest d) s
          = .next (finished { code := .done
                              values := u8 (s.mat.pool.filter fun e => e.dest == d && (e.route || e.scene)).length
                                ++ u8 (s.mat.pool.length - pool.length) ++ u16 pool.length }
              { s with mat.pool := pool } s)
        ∧ (∀ x, cleared pool x) ∧ ordered pool
        ∧ ∀ d' x, d' ≠ d → findEntry pool d' x = findEntry s.mat.pool d' x))

/-- SOURCE.CONFIG: a value out of range is refused with BadValue; otherwise the present fields are written together,
whatever the locks of the destinations the source feeds, and nothing else changes. -/
def Obligations.SourceConfigWrites : Prop :=
  ∀ (src : Nat) (trim mute : Option Nat) (s : State), CarriedOut (.sourceConfig src trim mute) s →
    let bad : Prop := 159 < src ∨ (∃ v, trim = some v ∧ 240 < v) ∨ (∃ v, mute = some v ∧ 1 < v)
    (bad → exec (.sourceConfig src trim mute) s = .next (finished (bare .badValue) s s))
      ∧ (¬bad → exec (.sourceConfig src trim mute) s = .next (finished (bare .done) { s with
          mat.sources := tset s.mat.sources src { tget s.mat.sources src with
            trim := trim.getD (tget s.mat.sources src).trim
            mute := match mute with | none => (tget s.mat.sources src).mute | some v => v == 1 } } s))
      ∧ (src < 160 → trim = none → mute = none →
          exec (.sourceConfig src trim mute) s = .next (finished (bare .done) s s))

/-- DEST.CONFIG: the checks of Table 1-4 in order, Locked only where an output level is present; all present fields are
written together, a refused order writes none, and with neither flag set nothing changes. -/
def Obligations.DestConfigWrites : Prop :=
  ∀ (d : Nat) (level limit : Option Nat) (s : State), CarriedOut (.destConfig d level limit) s →
    let bad : Prop := 159 < d ∨ (∃ v, level = some v ∧ 240 < v) ∨ (∃ v, limit = some v ∧ (v = 0 ∨ 24 < v))
    let locked : Prop := level ≠ none ∧ (s.dest d).lock ≠ .free
    (bad → exec (.destConfig d level limit) s = .next (finished (bare .badValue) s s))
      ∧ (¬bad → locked → exec (.destConfig d level limit) s = .next (finished (bare .locked) s s))
      ∧ (¬bad → ¬locked → exec (.destConfig d level limit) s = .next (finished (bare .done) { s with
          mat.dests := tset s.mat.dests d { s.dest d with
            level := level.getD (s.dest d).level, limit := limit.getD (s.dest d).limit } } s))
      ∧ (d < 160 → level = none → limit = none →
          exec (.destConfig d level limit) s = .next (finished (bare .done) s s))

/-- LOCK.SET and LOCK.CLEAR: their checks in order, then the lock written; the result is the lock afterwards. -/
def Obligations.LockOrders : Prop :=
  ∀ (d lock : Nat) (s : State),
    let now := (s.dest d).lock
    (CarriedOut (.lockSet d lock) s →
      (159 < d → ∃ v, exec (.lockSet d lock) s = .next (finished { code := .badValue, values := v } s s))
      ∧ (d < 160 → lock ≠ 1 → lock ≠ 2 →
          exec (.lockSet d lock) s = .next (finished (one .badValue now.ctorIdx) s s))
      ∧ (d < 160 → lock = 1 ∨ lock = 2 → s.engine.state = .suspended →
          exec (.lockSet d lock) s = .next (finished (one .suspended now.ctorIdx) s s))
      ∧ (d < 160 → s.engine.state ≠ .suspended →
          (lock = 1 → now = .fixed → exec (.lockSet d lock) s = .next (finished (one .locked 2) s s))
          ∧ (lock = 1 → now ≠ .fixed → exec (.lockSet d lock) s = .next (finished (one .done 1)
              { s with mat.dests := tset s.mat.dests d { s.dest d with lock := .held } } s))
          ∧ (lock = 2 → exec (.lockSet d lock) s = .next (finished (one .done 2)
              { s with mat.dests := tset s.mat.dests d { s.dest d with lock := .fixed } } s))))
    ∧ (CarriedOut (.lockClear d) s →
      (159 < d → ∃ v, exec (.lockClear d) s = .next (finished { code := .badValue, values := v } s s))
      ∧ (d < 160 → s.engine.state = .suspended →
          exec (.lockClear d) s = .next (finished (one .suspended now.ctorIdx) s s))
      ∧ (d < 160 → s.engine.state ≠ .suspended →
          (now = .fixed → exec (.lockClear d) s = .next (finished (one .locked 2) s s))
          ∧ (now ≠ .fixed → exec (.lockClear d) s = .next (finished (one .done 0)
              { s with mat.dests := tset s.mat.dests d { s.dest d with lock := .free } } s))))

/-! ### Mixer -/

/-- BUS.SET and BUS.CLEAR: their checks in order; a member keeps its place and takes the new level, a new one stands at
the end; a cleared one leaves the others in their order; only the bus changes. (The values of a refused BUS.CLEAR, and
those of BUS.SET for a bus above 7, are the model's choice, log entry 47.) -/
def Obligations.BusOrders : Prop :=
  ∀ (b src lvl : Nat) (all : Bool) (s : State),
    let ms := s.bus b
    let n := ms.length
    let bus (l : List Member) : State := { s with mix.buses := tset s.mix.buses b l }
    (CarriedOut (.busSet b src lvl) s →
      (7 < b ∨ 159 < src ∨ 240 < lvl → exec (.busSet b src lvl) s = .next (finished (one .badValue n) s s))
      ∧ (b < 8 → src < 160 → lvl ≤ 240 →
          ((∃ m, m ∈ ms ∧ m.source = src) → exec (.busSet b src lvl) s = .next (finished (one .done n)
              (bus (ms.map fun m => if m.source = src then { source := src, level := lvl } else m)) s))
          ∧ ((∀ m, m ∈ ms → m.source ≠ src) →
              (32 ≤ n → exec (.busSet b src lvl) s = .next (finished (one .noRoom n) s s))
              ∧ (n < 32 → exec (.busSet b src lvl) s
                  = .next (finished (one .done (n + 1)) (bus (ms ++ [{ source := src, level := lvl }])) s)))))
    ∧ (CarriedOut (.busClear b all src) s →
      (7 < b ∨ (all = false ∧ 159 < src) → exec (.busClear b all src) s
        = .next (finished { code := .badValue, values := u8 0 ++ u8 n } s s))
      ∧ (b < 8 → all = true → exec (.busClear b all src) s
        = .next (finished { code := .done, values := u8 n ++ u8 0 } (bus []) s))
      ∧ (b < 8 → all = false → src < 160 →
          let left := ms.filter fun m => m.source != src
          exec (.busClear b all src) s = .next (finished
            { code := .done, values := u8 (n - left.length) ++ u8 left.length } (bus left) s)))

/-- A mix period passes one millisecond (log entry 2) and leaves every setting; every sample of every output lies in
the 24-bit range. A local source alone at a destination is heard there scaled by its trim, the entry's heard level and
the output level: at 0 dB, its gains in use already, sample for sample; and where one of the three goes from level `u` to
level `v` (or stays, `u = v`) and the others are at 0 dB, every sample lies within the rounding of the sample under a gain
that moves evenly from the one to the other, an entry that appears or goes counting as a gain from or to Off (R22; how
closely, and that the last sample of the period has the new gain, is the model's choice, log entry 17). (The other parts of
a mix: `SourcesLeftOut`, `MixedParts`; what the period does to the stream channels: `StreamBlocks`.) -/
def Obligations.MixPeriodPasses : Prop :=
  ∀ (ins : List (Nat × List Int)) (s : State), ∃ t, exec (.mixPeriod ins) s = .next t
    ∧ t.now = s.now + 1 ∧ t.exch = s.exch ∧ t.mix.buses = s.mix.buses
    ∧ Inv.SameSettings { s with now := s.now + 1, mix := t.mix } t
    ∧ (∀ d, d < 160 → (tget t.mix.finished d).length = 48
        ∧ ∀ x, x ∈ tget t.mix.finished d → -8388608 ≤ x ∧ x ≤ 8388607)
    ∧ ∀ (d src : Nat) (xs : List Int), d < 160 → src < 128 → xs.length = 48 →
        (∀ x, x ∈ xs → -8388608 ≤ x ∧ x ≤ 8388607) →
        (ins.find? fun p => p.1 == src) = some (src, xs) →
        (s.dest d).kind = .plain → (s.dest d).slots = [] →
        let gains (trim heard level : Nat × Nat) : Prop :=
          tget s.mix.sourceGain src = gainOf trim.1
            ∧ tget s.mat.sources src = { trim := trim.2, mute := false, cause := none }
            ∧ (s.mat.pool.filter fun e => e.dest == d && decide (0 < e.heard)).map (fun e => (e.source, e.heard))
                = (if heard.2 = 0 then [] else [(src, heard.2)])
            ∧ tget s.mix.plans d =
                { terms := if heard.1 = 0 then [] else [{ path := .crosspoint, source := src, gain := gainOf heard.1 }]
                  level := gainOf level.1 }
            ∧ (s.dest d).level = level.2
        let even : Nat × Nat := (216, 216)
        (gains even even even → tget t.mix.finished d = xs)
        ∧ ∀ u v k : Nat, u ≤ 240 → v ≤ 240 → k < 48 →
            gains (u, v) even even ∨ gains even (u, v) even ∨ gains even even (u, v) →
            ∃ y : Int, (tget t.mix.finished d).getD k 0
                = (if y < -8388608 then -8388608 else if 8388607 < y then 8388607 else y)
              ∧ |(y : ℝ) - (xs.getD k 0 : Int) * ((47 - k) * levelFactor u + (k + 1) * levelFactor v) / 48|
                  < 1 + 1 / 2 ^ 39

/-- What a source that is not heard puts into an output: nothing, so that its samples decide nothing, whether it is a
local source, a field link source or a playback channel. A silent source (R2), once it has faded, counts at no
destination. A source in the minus set of a Foldback or Return destination, and at a Plain destination the microphone of a
station whose speaker it is, counts at none of them by a bus slot, a programme bus or an interrupt entry (R21, R28, R33),
where the pool has no entry for the pair and no gain of it is in use. -/
def Obligations.SourcesLeftOut : Prop :=
  ∀ (src : Nat) (ins ins' : List (Nat × List Int)) (jits : Vector Jitter 24) (chans : Vector Channel 16) (s : State),
    src < 160 →
    (∀ i, i ≠ src → ins.find? (fun p => p.1 == i) = ins'.find? fun p => p.1 == i) →
    (∀ n, n < 24 → 128 + n ≠ src → (tget jits n).playing = (tget s.jits n).playing) →
    (∀ c, c < 8 → 152 + c ≠ src → (tget chans c).plays = (s.chan c).plays) →
    let alike (d : Nat) : Prop := ∃ t u, exec (.mixPeriod ins) s = .next t
      ∧ exec (.mixPeriod ins') { s with jits := jits, chans := chans } = .next u
      ∧ tget t.mix.finished d = tget u.mix.finished d
    let noEntry (d : Nat) : Prop := (∀ e, e ∈ s.mat.pool → e.dest = d → e.source ≠ src)
      ∧ ∀ x, x ∈ (tget s.mix.plans d).terms → x.source ≠ src
    ((tget s.mat.sources src).mute = true ∨ (tget s.mat.sources src).cause ≠ none →
        tget s.mix.sourceGain src = none → ∀ d, d < 160 → alike d)
    ∧ (∀ d r, d < 160 → r < 48 → (s.dest d).kind = .foldback ∨ (s.dest d).kind = .ret →
        (s.rec_ r).bound = some d → (∀ q, q < 48 → (s.rec_ q).bound = some d → q = r) →
        src ∈ (s.rec_ r).minus → noEntry d → alike d)
    ∧ (∀ d st, d < 160 → st < 89 → (s.dest d).kind = .plain → speakerOf s st = some d → micOf s st = some src →
        noEntry d → alike d)

/-- What reaches an output by each part of Table 1-7 apart from the crosspoint part, with every level at 0 dB, the gains
in use those of the settings and no pool entry heard there: by a bus slot, the microphone of the line's talker (R27,
R28); by the programme bus, the one member that the minus set leaves (R24); in a Cut that is ducked, the interrupt entry
without the programme (R47). A programme member alone is heard under its member level, the programme level and the duck
factor, each of which moves evenly by itself in the one period, from the level in use to the new one, whether the member
appears, stays or goes (R22, R24, R47; how closely, log entry 17; the level in use of a record that was heard nowhere, log
entry 75). A capture destination with a mirror gives the mirrored output (R11), whole from the first period after the mirror
is set, which is the model's choice (log entry 62). -/
def Obligations.MixedParts : Prop :=
  ∀ (ins : List (Nat × List Int)) (s : State), ∃ t, exec (.mixPeriod ins) s = .next t
    ∧ (∀ (d src : Nat) (xs : List Int), d < 160 → src < 128 → xs.length = 48 →
        (∀ x, x ∈ xs → -8388608 ≤ x ∧ x ≤ 8388607) → (ins.find? fun p => p.1 == src) = some (src, xs) →
        tget s.mat.sources src = { trim := 216, mute := false, cause := none } →
        tget s.mix.sourceGain src = some 0 → (s.dest d).level = 216 →
        (∀ e, e ∈ s.mat.pool → e.dest = d → e.heard = 0) →
        let settled : Prop := tget s.mix.plans d = planOf s d
        let heard : Prop := tget t.mix.finished d = xs
        let bound (r : Nat) : Prop := r < 48 ∧ ((s.dest d).kind = .foldback ∨ (s.dest d).kind = .ret)
          ∧ (s.dest d).slots = [] ∧ (s.rec_ r).bound = some d ∧ ∀ q, q < 48 → (s.rec_ q).bound = some d → q = r
        (∀ l n x, settled → (s.dest d).kind = .plain → (s.dest d).slots = [{ line := l, holders := n }] →
            (s.line l).talkers = [x] → micOf s x.key.station = some src → (s.keyOf x.key).level = 216 →
            (∀ st, st < 89 → ¬(speakerOf s st = some d ∧ micOf s st = some src)) → heard)
        ∧ (∀ r b, settled → bound r → (s.rec_ r).bus = some b → (s.rec_ r).level = 216 → (s.rec_ r).duck = .opened →
            (s.rec_ r).ints = [] → tget s.mix.programme r = (some 0, some 0) →
            ((s.bus b).filter fun m => !(s.rec_ r).minus.contains m.source) = [{ source := src, level := 216 }] →
            heard)
        ∧ (∀ r e, settled → bound r → (s.rec_ r).mode = .cut → (s.rec_ r).duck = .ducked → (s.rec_ r).ints = [e] →
            (tget s.mix.programme r).2 = none → e.source = src → e.level = 216 → src ∉ (s.rec_ r).minus → heard)
        ∧ (∀ (r b k : Nat) (own level duck : Nat × Nat), bound r → (s.rec_ r).bus = some b → (s.rec_ r).ints = [] →
            own.1 ≤ 240 → own.2 ≤ 240 → level.1 ≤ 240 → level.2 ≤ 240 → duck.1 ≤ 240 → (s.rec_ r).dim ≤ 60 → k < 48 →
            (tget s.mix.plans d).level = some 0 →
            (tget s.mix.plans d).terms = [{ path := .programme r, source := src, gain := gainOf own.1 }]
              ∨ (own.1 = 0 ∧ (tget s.mix.plans d).terms = []) →
            ((s.bus b).filter fun m => !(s.rec_ r).minus.contains m.source) = [{ source := src, level := own.2 }]
              ∨ (own.2 = 0 ∧ ((s.bus b).filter fun m => !(s.rec_ r).minus.contains m.source) = []) →
            tget s.mix.programme r = (gainOf level.1, gainOf duck.1) → (s.rec_ r).level = level.2 →
            duck.2 = (if (s.rec_ r).duck = .opened ∨ (s.rec_ r).mode = .over then 216
              else if (s.rec_ r).mode = .cut then 0 else 216 - 2 * (s.rec_ r).dim) →
            let even (g : Nat × Nat) : ℝ := ((47 - k) * levelFactor g.1 + (k + 1) * levelFactor g.2) / 48
            ∃ y : Int, (tget t.mix.finished d).getD k 0
                = (if y < -8388608 then -8388608 else if 8388607 < y then 8388607 else y)
              ∧ |(y : ℝ) - (xs.getD k 0 : Int) * even own * even level * even duck| < 1 + 1 / 2 ^ 34))
    ∧ (∀ d m, 152 ≤ d → d < 160 → m < 160 → (s.dest d).kind = .capture → (s.dest d).mirror = some m →
        (s.dest m).kind ≠ .capture → (s.dest d).level = 216 → (tget s.mix.plans d).level = some 0 →
        tget t.mix.finished d = tget t.mix.finished m)

/-! ### Foldback unit -/

/-- FOLD.BIND in both directions: the checks of Table 2-4 in order, then the binding claim; kind and bound destination
are written together, and unbinding empties the minus set and opens the duck state. FOLD.MINUS in both directions: the
checks in their order; a source already in the set, or not in it, changes nothing; a source that an entry of the record or
of the pool carries is not added, and a return keeps its own. -/
def Obligations.FoldBindingAndMinus : Prop :=
  ∀ (r d src : Nat) (s : State),
    let f := s.rec_ r
    let minus (l : List Nat) : State := { s with fold.recs := tset s.fold.recs r { f with minus := l } }
    (CarriedOut (.foldBind r d) s →
      (23 < r ∨ 127 < d → exec (.foldBind r d) s = .next (finished (bare .badValue) s s))
      ∧ (r < 24 → d < 128 →
          ((s.rec_ r).bound ≠ none ∨ (∃ q, q < 48 ∧ (s.rec_ q).bound = some d) →
            exec (.foldBind r d) s = .next (finished (bare .wrongState) s s))
          ∧ ((s.rec_ r).bound = none → (∀ q, q < 48 → (s.rec_ q).bound ≠ some d) →
              ((s.dest d).lock ≠ .free → exec (.foldBind r d) s = .next (finished (bare .locked) s s))
              ∧ ((s.dest d).lock = .free → exec (.foldBind r d) s = .next (finished (bare .done) { s with
                  mat.dests := tset s.mat.dests d { s.dest d with kind := .foldback }
                  fold.recs := tset s.fold.recs r { s.rec_ r with bound := some d } } s)))))
    ∧ (CarriedOut (.foldUnbind r) s →
      (23 < r → exec (.foldUnbind r) s = .next (finished (bare .badValue) s s))
      ∧ (r < 24 →
          ((s.rec_ r).bound = none ∨ (s.rec_ r).ints ≠ [] ∨ (s.rec_ r).pends ≠ [] →
            exec (.foldUnbind r) s = .next (finished (bare .wrongState) s s))
          ∧ (∀ e, (s.rec_ r).bound = some e → e < 128 → (s.rec_ r).ints = [] → (s.rec_ r).pends = [] →
              ((s.dest e).lock ≠ .free → exec (.foldUnbind r) s = .next (finished (bare .locked) s s))
              ∧ ((s.dest e).lock = .free → exec (.foldUnbind r) s = .next (finished (bare .done) { s with
                  mat.dests := tset s.mat.dests e { s.dest e with kind := .plain }
                  fold.recs := tset s.fold.recs r { s.rec_ r with
                    bound := none, minus := [], duck := .opened, holdTimer := none } } s)))))
    ∧ (CarriedOut (.foldMinusAdd r src) s →
      let ends (c : Code) (u : State) : Prop := exec (.foldMinusAdd r src) s = .next (finished (bare c) u s)
      (47 < r ∨ 159 < src → ends .badValue s)
      ∧ (r < 48 → src < 160 → f.bound = none → ends .wrongState s)
      ∧ (∀ d, r < 48 → src < 160 → f.bound = some d →
          ((s.dest d).lock ≠ .free → ends .locked s)
          ∧ ((s.dest d).lock = .free →
              (src ∈ f.minus → ends .done s)
              ∧ (src ∉ f.minus → 4 ≤ f.minus.length → ends .noRoom s)
              ∧ (src ∉ f.minus → f.minus.length < 4 →
                  ((∃ e, e ∈ f.ints ++ f.pends ∧ e.source = src) → ends .minusConflict s)
                  ∧ ((∃ e, e ∈ s.mat.pool ∧ e.dest = d ∧ e.source = src) → ends .minusConflict s)
                  ∧ ((∀ e, e ∈ f.ints ++ f.pends → e.source ≠ src) →
                      (∀ e, e ∈ s.mat.pool → e.dest = d → e.source ≠ src) →
                      ends .done (minus (f.minus ++ [src])))))))
    ∧ (CarriedOut (.foldMinusRemove r src) s →
      let ends (c : Code) (u : State) : Prop := exec (.foldMinusRemove r src) s = .next (finished (bare c) u s)
      (47 < r ∨ 159 < src → ends .badValue s)
      ∧ (r < 48 → src < 160 → f.bound = none → ends .wrongState s)
      ∧ (∀ d, r < 48 → src < 160 → f.bound = some d →
          ((s.dest d).lock ≠ .free → ends .locked s)
          ∧ ((s.dest d).lock = .free →
              (24 ≤ r → src = 104 + r → ends .badValue s)
              ∧ (¬(24 ≤ r ∧ src = 104 + r) → ends .done (minus (f.minus.filter fun x => x != src))))))

/-- FOLD.CONFIG: a value out of range is BadValue, a locked bound destination Locked; without a depth the present
settings are written together, a hold time of 0 ending Holding at once; with a depth, and no channel waiting for a
start, the lists hold as many entries as the depth and 8 places allow. The hold timer's expiry takes Holding to Open, and
one before its time is no event (log entry 3). (The model's choices: a record above 47 gives no values, log entry 47, and
Locked where no present flag is set and the destination is locked, log entry 48.) -/
def Obligations.FoldConfigAndHold : Prop :=
  ∀ (r : Nat) (bus level mode depth dim hold : Option Nat) (s : State),
    let f := s.rec_ r
    let c : Instr := .foldConfig r bus level mode depth dim hold
    let bad : Prop := (∃ v, bus = some v ∧ 7 < v ∧ v ≠ 255) ∨ (∃ v, level = some v ∧ 240 < v)
      ∨ (∃ v, mode = some v ∧ 2 < v) ∨ (∃ v, depth = some v ∧ (v = 0 ∨ 4 < v)) ∨ (∃ v, dim = some v ∧ 60 < v)
      ∨ (∃ v, hold = some v ∧ 2000 < v)
    let counts (g : FoldRec) : List Byte := u8 g.ints.length ++ u8 g.pends.length
    let written : FoldRec := { f with
      bus := match bus with | none => f.bus | some v => if v = 255 then none else some v
      level := level.getD f.level
      mode := match mode with | none => f.mode | some 0 => .cut | some 1 => .dim | some _ => .over
      dim := dim.getD f.dim, hold := hold.getD f.hold
      duck := if f.duck = .holding ∧ hold = some 0 then .opened else f.duck
      holdTimer := if f.duck = .holding ∧ hold = some 0 then none else f.holdTimer }
    (CarriedOut c s → s.reports = [] →
      (47 < r → exec c s = .next (finished (bare .badValue) s s))
      ∧ (r < 48 → bad → exec c s = .next (finished { code := .badValue, values := counts f } s s))
      ∧ (r < 48 → ¬bad → (∃ d, f.bound = some d ∧ (s.dest d).lock ≠ .free) →
          exec c s = .next (finished { code := .locked, values := counts f } s s))
      ∧ (r < 48 → ¬bad → (∀ d, f.bound = some d → (s.dest d).lock = .free) →
          (depth = none → exec c s = .next (finished { code := .done, values := counts f }
            { s with fold.recs := tset s.fold.recs r written } s))
          ∧ (∀ n, depth = some n → Inv.FoldOk r f → NoneArmed s → ∃ t, exec c s = .next t
              ∧ Inv.foldSettings (t.rec_ r) = Inv.foldSettings { written with depth := n }
              ∧ (t.rec_ r).ints.length = min n (f.ints.length + f.pends.length)
              ∧ (t.rec_ r).pends.length = min 8 (f.ints.length + f.pends.length - n)
              ∧ t.exch.lastResult = some { code := .done, values := counts (t.rec_ r) })))
    ∧ (f.duck = .holding → (∃ x, f.holdTimer = some x ∧ x ≤ s.now) → exec (.holdTimerExpiry r) s
        = .next { s with fold.recs := tset s.fold.recs r { f with duck := .opened, holdTimer := none } })
    ∧ (f.duck ≠ .holding ∨ NotDue f.holdTimer s.now → exec (.holdTimerExpiry r) s = .next s)

/-- A request that passed its checks is placed in one of three ways, or refused: into the interrupt list while it has
room; over the last entry, which is the lowest-class and among those the newest, where the request's class is strictly
higher; or into the pending list. Each entry stands at its place, the notices come in their order, and a ninth pending
entry drops the last. -/
def Obligations.InterruptPlacing : Prop :=
  ∀ (e : FoldEntry) (f : FoldRec), 1 ≤ f.depth → f.ints.length ≤ f.depth → f.pends.length ≤ 8 →
    Inv.InOrder f.ints → Inv.InOrder f.pends →
    (∀ l, Inv.InOrder l → (e.insert l).Perm (e :: l) ∧ Inv.InOrder (e.insert l))
    ∧ (f.ints.length < f.depth → f.place e = ({ f with ints := e.insert f.ints }, [(e, .entered)]))
    ∧ (f.ints.length = f.depth → ∃ last, f.ints.getLast? = some last
        ∧ (∀ x, x ∈ f.ints → last.before x = false)
        ∧ (e.cls < last.cls →
            let pends := last.insert f.pends
            (pends.length ≤ 8 → f.place e
                = ({ f with ints := e.insert f.ints.dropLast, pends := pends },
                    [(last, .movedOut), (e, .entered)]))
            ∧ (8 < pends.length → ∃ out, pends.getLast? = some out ∧ f.place e
                = ({ f with ints := e.insert f.ints.dropLast, pends := pends.dropLast },
                    [(last, .movedOut), (e, .entered), (out, .dropped .noRoom)])))
        ∧ (last.cls ≤ e.cls →
            (f.pends.length < 8 → f.place e = ({ f with pends := e.insert f.pends }, [(e, .parked)]))
            ∧ (8 ≤ f.pends.length → f.place e = (f, [(e, .refused .noRoom)]))))

/-- A request for a place in a foldback record: the press of an Idle Momentary desk key, Interrupt, or Talk toward a
foldback destination, or Reply to a caller whose speaker is one, and the start of an Armed playback channel with a cue
binding. Refused where no record is bound or the source stands in the minus set; else placed as `InterruptPlacing` says,
the record Ducked, each notice told, every call list kept. And its end: the release of that key, and the stop of that
channel while Running: a pending entry leaves; an interrupt entry leaves, the head of the pending list moves in, and where
none is left the record opens, after the hold time if there is one; a Reply's caller leaves the desk's call list (R37 to
R40, R45, R58, R62, R64, R83, R158). (No other channel waits for a start: a join is also
a trigger. Between equal class and stamp the number of requests taken decides, log entry 32.) -/
def Obligations.InterruptKeysAndCues : Prop :=
  ∀ (k c d src cls : Nat) (s : State), s.reports = [] → (∀ x, x < 16 → x ≠ c → (s.chan x).state ≠ .armed) →
    let e := s.key 88 k
    let ch := s.chan c
    let only (r : Nat) (t : State) : Prop := (∀ x, x < 48 → x ≠ r → t.rec_ x = s.rec_ x) ∧ Inv.SameSettings s t
    let bound (r : Nat) : Prop := r < 48 ∧ (s.rec_ r).bound = some d ∧ (∀ x, x < 48 → (s.rec_ x).bound = some d → x = r)
      ∧ Inv.FoldOk r (s.rec_ r)
    let asks (i : Instr) (new : FoldEntry) : Prop :=
      let no (code : Code) : Prop := ∃ t, exec i s = .next t ∧ t.fold.recs = s.fold.recs ∧ Told d new (.refused code) s t
        ∧ Inv.SameSettings s t
      ((∀ x, x < 48 → (s.rec_ x).bound ≠ some d) → no .wrongState)
      ∧ ∀ r, bound r → (∀ x, x ∈ (s.rec_ r).ints ++ (s.rec_ r).pends → x.requester ≠ new.requester) →
          (new.source ∈ (s.rec_ r).minus → no .minusConflict)
          ∧ (new.source ∉ (s.rec_ r).minus → ∃ t, exec i s = .next t ∧ only r t
              ∧ t.rec_ r = { ((s.rec_ r).place new).1 with duck := .ducked, holdTimer := none }
              ∧ t.fold.taken = s.fold.taken + 1
              ∧ ∀ x n, (x, n) ∈ ((s.rec_ r).place new).2 → Real s x →
                  (n = .movedOut → ∀ code, (x, Notice.dropped code) ∉ ((s.rec_ r).place new).2) → Told d x n s t)
    let ends (i : Instr) (q : Requester) : Prop := ∀ r, bound r →
      let f := s.rec_ r
      let left := f.ints.filter fun x => x.requester != q
      ((∀ x, x ∈ f.ints ++ f.pends → x.requester ≠ q) → ∃ t, exec i s = .next t ∧ t.fold.recs = s.fold.recs)
      ∧ ((∃ x, x ∈ f.pends ∧ x.requester = q) → ∃ t, exec i s = .next t ∧ only r t
          ∧ t.rec_ r = { f with pends := f.pends.filter fun x => x.requester != q })
      ∧ ((∃ x, x ∈ f.ints ∧ x.requester = q) → ∃ t, exec i s = .next t ∧ only r t
          ∧ (f.pends = [] → t.rec_ r = { f with
              ints := left
              duck := if left ≠ [] then .ducked else if f.hold = 0 then .opened else .holding
              holdTimer := if left = [] ∧ f.hold ≠ 0 then some (s.now + f.hold) else none })
          ∧ (∀ h rest, f.pends = h :: rest → t.rec_ r = { f with ints := h.insert left, pends := rest }
              ∧ (Real s h → Told d h .movedIn s t)))
    (∀ caller : Option Nat, CarriedOut (.keyPress k) s → k < 32 → s.hasKey 88 k = true → e.pressed = false →
      e.state = .idle → e.held = none → e.mode = .momentary → s.arb.deskMic = some src → ch.state ≠ .armed →
      (caller = none ∧ e.target = d ∧ (e.function = .interrupt ∨ (e.function = .talk ∧ isFoldDest s d = true)))
        ∨ (e.function = .reply ∧ isFoldDest s d = true ∧ ∃ x, (tget s.call.lists 88).getLast? = some x
            ∧ caller = some x.caller ∧ speakerOf s x.caller = some d) →
      let new : FoldEntry := { requester := .key 88 k, source := src, cls := e.cls, level := e.level, stamp := s.now
                               order := s.fold.taken }
      let down : KeyEntry := { e with pressed := true, busy := none, stamp := s.now }
      asks (.keyPress k) new
      ∧ ∀ t, exec (.keyPress k) s = .next t → t.exch.lastResult = some (one .done (t.key 88 k).state.ctorIdx)
          ∧ t.call.lists = s.call.lists
          ∧ ((t.key 88 k).state = .talking →
              t.key 88 k = { down with state := .talking, grant := s.now, held := some (.foldDest d caller) })
          ∧ ((t.key 88 k).state = .pending →
              t.key 88 k = { down with state := .pending, held := some (.foldDest d caller) })
          ∧ ((t.key 88 k).state = .refused → t.key 88 k = { down with state := .refused })
          ∧ (t.key 88 k).state ≠ .idle)
    ∧ (CarriedOut (.streamStart c) s → c < 8 → ch.state = .armed → ch.cue = some (d, cls) →
        asks (.streamStart c) { requester := .channel c, source := 152 + c, cls := cls, level := 216, stamp := s.now
                                order := s.fold.taken }
        ∧ ∃ t, exec (.streamStart c) s = .next t
            ∧ t.chan c = { ch with state := .running, cuePlace := (t.chan c).cuePlace }
            ∧ t.exch.lastResult = some (one .done 2))
    ∧ (∀ caller, CarriedOut (.keyRelease k) s → k < 32 → s.hasKey 88 k = true → e.pressed = true → e.mode = .momentary →
        e.function ≠ .none → e.state = .talking ∨ e.state = .pending → e.held = some (.foldDest d caller) →
        ch.state ≠ .armed →
        ends (.keyRelease k) (.key 88 k) ∧ ∃ t, exec (.keyRelease k) s = .next t
          ∧ (t.key 88 k).state = .idle ∧ (t.key 88 k).held = none ∧ (t.key 88 k).pressed = false
          ∧ tget t.call.lists 88 = (tget s.call.lists 88).filter (fun x => some x.caller != caller)
          ∧ (∀ x, x < 89 → x ≠ 88 → tget t.call.lists x = tget s.call.lists x)
          ∧ t.exch.lastResult = some (one .done 0))
    ∧ (CarriedOut (.streamStop c) s → c < 16 → ch.state = .running → ch.cue = some (d, cls) → ch.cuePlace ≠ .none →
        ends (.streamStop c) (.channel c) ∧ ∃ t, exec (.streamStop c) s = .next t
          ∧ (t.chan c).state = .idle ∧ (t.chan c).cuePlace = .none)

/-! ### Grant arbiter -/

/-- KEY.ASSIGN and KEY.CLEAR: arguments out of range are BadValue and leave the key; otherwise the key is Idle with
nothing held, no latch, no refusal timer and no busy mark, its pressed flag kept, and with the new fields, or its function
None with the other fields kept; a Talking key leaves the talkers of its destination (R57); the result is 1 when the key
was not Idle or held a listen count (log entry 47); no other assignment changes. -/
def Obligations.KeyAssignments : Prop :=
  ∀ (st k f t m c l : Nat) (s : State), s.reports = [] → NoneArmed s →
    let e := s.key st k
    let ok : Prop := st ≤ 88 ∧ k < stationKeys st ∧ 1 ≤ f ∧ f ≤ 7
      ∧ (f = 1 ∨ f = 4 ∨ f = 5 → t < 160) ∧ (f = 2 ∨ f = 3 → t < 32) ∧ (f = 6 → t < 89 ∧ t ≠ st)
      ∧ m ≤ 2 ∧ c ≤ 7 ∧ 1 ≤ l ∧ l ≤ 240
    let active : Bool := e.state != .idle || e.listening
    let others (u : State) : Prop :=
      ∀ st' k', (st', k') ≠ (st, k) → Inv.keySettings (u.key st' k') = Inv.keySettings (s.key st' k')
    let modes : KeyMode := if m = 0 then .momentary else if m = 1 then .latching else .smart
    let ended (u : State) : Prop := (u.key st k).state = .idle ∧ (u.key st k).held = none ∧ (u.key st k).latched = false
      ∧ (u.key st k).refusal = none ∧ (u.key st k).busy = none ∧ (u.key st k).pressed = e.pressed
      ∧ ∀ d src caller, e.held = some (.talkPair d src caller) → d < 160 →
          tget u.arb.talkers d = (tget s.arb.talkers d).filter fun x => x != { station := st, key := k }
    (CarriedOut (.keyAssign st k f t m c l) s →
      (¬ok → exec (.keyAssign st k f t m c l) s = .next (finished (one .badValue 0) s s))
      ∧ (ok → s.hasKey st k = true → ∃ u, exec (.keyAssign st k f t m c l) s = .next u
          ∧ some (u.key st k).function = functionOf f ∧ (u.key st k).target = t ∧ (u.key st k).mode = modes
          ∧ (u.key st k).cls = c ∧ (u.key st k).level = l ∧ ended u ∧ others u
          ∧ u.exch.lastResult = some { code := .done, values := uFlag active }))
    ∧ (CarriedOut (.keyClear st k) s →
      (88 < st ∨ stationKeys st ≤ k → exec (.keyClear st k) s = .next (finished (one .badValue 0) s s))
      ∧ (st ≤ 88 → k < stationKeys st → s.hasKey st k = true → ∃ u, exec (.keyClear st k) s = .next u
          ∧ (u.key st k).function = .none ∧ ended u
          ∧ Inv.keySettings { u.key st k with function := e.function } = Inv.keySettings e
          ∧ others u ∧ u.exch.lastResult = some { code := .done, values := uFlag active }))

/-- KEY.PRESS and KEY.RELEASE. An index above 31 is BadValue; an event the pressed flag already has is WrongState and
changes nothing. A press of an Idle Momentary Talk key toward a destination that is no foldback feed and is below its
talk limit, with room in the pool, goes Talking, and its release ends the talk; class 0 presents the all-call cause.
(No channel waits for a start: a grant is also a trigger. That an index above 31 gives no value is the model's choice,
log entry 47. Other modes and functions: `DeskKeysByFunction`.) -/
def Obligations.DeskTalkKey : Prop :=
  ∀ (k : Nat) (s : State), s.reports = [] →
    let e := s.key 88 k
    let id : KeyId := { station := 88, key := k }
    let entry (pool : List PoolEntry) (d src : Nat) : PoolEntry := (findEntry pool d src).getD
      { dest := d, source := src, route := false, scene := false, talk := 0, listen := 0, routeLevel := 0
        keyLevel := 0 }
    (CarriedOut (.keyPress k) s →
      (31 < k → exec (.keyPress k) s = .next (finished (bare .badValue) s s))
      ∧ (k < 32 → e.pressed = true → exec (.keyPress k) s = .next (finished (one .wrongState e.state.ctorIdx) s s))
      ∧ (∀ d src, k < 32 → s.hasKey 88 k = true → NoneArmed s → Inv.PoolOk s.mat.pool →
          e.pressed = false → e.function = .talk → e.mode = .momentary → e.state = .idle → e.held = none →
          e.target = d → s.arb.deskMic = some src → d < 160 → src < 160 → isFoldDest s d = false →
          (tget s.arb.talkers d).length < (s.dest d).limit →
          ((∃ p, findEntry s.mat.pool d src = some p ∧ p.talk < 63)
            ∨ (findEntry s.mat.pool d src = none ∧ s.mat.pool.length < 2048 ∧ destCount s.mat.pool d < 24)) →
          ∃ t, exec (.keyPress k) s = .next t
            ∧ t.key 88 k = { e with
                pressed := true, busy := none, stamp := s.now, grant := s.now, state := .talking
                held := some (.talkPair d src none) }
            ∧ tget t.arb.talkers d = tget s.arb.talkers d ++ [id]
            ∧ (∀ x, x < 160 → x ≠ d → tget t.arb.talkers x = tget s.arb.talkers x)
            ∧ (let p := entry s.mat.pool d src
               findEntry t.mat.pool d src = some { p with
                 talk := p.talk + 1, keyLevel := if p.talk = 0 ∧ p.listen = 0 then e.level else p.keyLevel })
            ∧ t.exch.lastResult = some (one .done 3)
            ∧ (e.cls = 0 → t.engine.allCall = true)
            ∧ Inv.SameSettings s t))
    ∧ (CarriedOut (.keyRelease k) s →
      (31 < k → exec (.keyRelease k) s = .next (finished (bare .badValue) s s))
      ∧ (k < 32 → e.pressed = false →
          exec (.keyRelease k) s = .next (finished (one .wrongState e.state.ctorIdx) s s))
      ∧ (∀ d src p, k < 32 → s.hasKey 88 k = true → Inv.PoolOk s.mat.pool →
          e.pressed = true → e.function = .talk → e.mode = .momentary → e.state = .talking →
          e.held = some (.talkPair d src none) → d < 160 → findEntry s.mat.pool d src = some p → 0 < p.talk →
          ∃ t, exec (.keyRelease k) s = .next t
            ∧ t.key 88 k = { e with
                pressed := false, busy := none, state := .idle, held := none, latched := false, refusal := none }
            ∧ tget t.arb.talkers d = (tget s.arb.talkers d).filter (fun x => x != id)
            ∧ (if p.route = false ∧ p.scene = false ∧ p.talk = 1 ∧ p.listen = 0 then findEntry t.mat.pool d src = none
               else findEntry t.mat.pool d src = some { p with
                 talk := p.talk - 1, keyLevel := if p.talk = 1 ∧ p.listen = 0 then 0 else p.keyLevel })
            ∧ t.exch.lastResult = some (one .done 0)
            ∧ Inv.SameSettings s t))

/-- Desk keys by function and mode. A Talk, Interrupt or Reply with no desk microphone, and a Listen, which the desk has
no speaker for, is Refused with BadValue, with a refusal timer under Latching; a release of a Refused key makes it Idle
but under Latching. A Reply answers the newest call: refused with WrongState where there is none and with BadValue where
the caller has no speaker, else granted toward the caller's speaker with every call list kept, and its end takes the
caller recorded, if it still stands, from the desk's list (R64, R83; a speaker that is a foldback destination:
`InterruptKeysAndCues`; granted Listen keys: `TalkAndLinesAtLimit`). A Call stands in the list of its target. A LineTalk of a member with the Talk right joins a line
below its limit, and its end leaves the line. Latching latches a Talk that is granted, ignores the release and ends by
the next press; Smart latches by a release before the threshold and ends by a later one. (That a Reply looks for the
microphone before its call list is the model's choice, log entry 71.) -/
def Obligations.DeskKeysByFunction : Prop :=
  ∀ (k : Nat) (s : State), s.reports = [] → NoneArmed s → k < 32 → s.hasKey 88 k = true →
    let e := s.key 88 k
    let id : KeyId := { station := 88, key := k }
    let idle : Prop := e.pressed = false ∧ e.state = .idle ∧ e.held = none ∧ e.latched = false
    let down : KeyEntry := { e with pressed := true, busy := none }
    let up : KeyEntry := { e with pressed := false, busy := none }
    let done (x : KeyEntry) : KeyEntry := { x with state := .idle, held := none, latched := false, refusal := none }
    let leaves (c : Instr) (x : KeyEntry) (t : State) : Prop :=
      exec c s = .next t ∧ t.key 88 k = x ∧ t.exch.lastResult = some (one .done x.state.ctorIdx)
        ∧ Inv.SameSettings s t
    let refused (code : Code) : Prop := ∃ t, leaves (.keyPress k) { down with
        stamp := s.now, state := .refused
        refusal := if e.mode = .latching then some (s.now + 2000) else e.refusal } t
      ∧ tget t.ev.details 49 = u8 88 ++ u8 k ++ u8 code.ctorIdx ∧ t.call.lists = s.call.lists
    (CarriedOut (.keyPress k) s →
      (idle → e.function = .listen
          ∨ ((e.function = .talk ∨ e.function = .interrupt ∨ e.function = .reply) ∧ s.arb.deskMic = none) →
        refused .badValue)
      ∧ (idle → e.function = .reply → s.arb.deskMic ≠ none →
          (tget s.call.lists 88 = [] → refused .wrongState)
          ∧ (∀ x, (tget s.call.lists 88).getLast? = some x → speakerOf s x.caller = none → refused .badValue))
      ∧ (∀ x d src, idle → e.function = .reply → e.mode = .momentary → Inv.PoolOk s.mat.pool →
          (tget s.call.lists 88).getLast? = some x → speakerOf s x.caller = some d → d < 160 →
          s.arb.deskMic = some src → src < 160 → isFoldDest s d = false →
          (tget s.arb.talkers d).length < (s.dest d).limit →
          ((∃ p, findEntry s.mat.pool d src = some p ∧ p.talk < 63)
            ∨ (findEntry s.mat.pool d src = none ∧ s.mat.pool.length < 2048 ∧ destCount s.mat.pool d < 24)) →
          ∃ t, leaves (.keyPress k) { down with
              stamp := s.now, grant := s.now, state := .talking, held := some (.talkPair d src (some x.caller)) } t
            ∧ tget t.arb.talkers d = tget s.arb.talkers d ++ [id]
            ∧ (∃ p, findEntry t.mat.pool d src = some p
                ∧ p.talk = (match findEntry s.mat.pool d src with | none => 0 | some q => q.talk) + 1)
            ∧ t.call.lists = s.call.lists)
      ∧ (idle → e.function = .call → e.mode = .momentary → e.target < 88 →
          (∀ x, x ∈ tget s.call.lists e.target → x.caller ≠ 88) → (tget s.call.lists e.target).length < 8 →
          ∃ t, leaves (.keyPress k) { down with stamp := s.now } t
            ∧ tget t.call.lists e.target = tget s.call.lists e.target
                ++ [{ caller := 88, repeats := 0, expiry := s.now + 1000 * s.call.timeout }])
      ∧ (idle → e.function = .lineTalk → e.mode = .momentary → e.target < 32 →
          (∃ m, m ∈ (s.line e.target).members ∧ m.station = 88 ∧ m.talk = true) →
          (s.line e.target).talkers.length < (s.line e.target).limit →
          ∃ t, leaves (.keyPress k) { down with
              stamp := s.now, grant := s.now, state := .talking, held := some (.line e.target none) } t
            ∧ (let r := s.line e.target
               t.line e.target = { r with talkers := r.talkers ++ [{
                 key := id, timer := if r.policy = .rotating then some (s.now + 1000 * r.turn) else none }] })
            ∧ ∀ l, l < 32 → l ≠ e.target → t.line l = s.line l)
      ∧ (∀ src, idle → e.function = .talk → e.mode = .latching → Inv.PoolOk s.mat.pool → e.target < 160 →
          s.arb.deskMic = some src → src < 160 → isFoldDest s e.target = false →
          (tget s.arb.talkers e.target).length < (s.dest e.target).limit →
          (∃ p, findEntry s.mat.pool e.target src = some p ∧ p.talk < 63) →
          ∃ t, leaves (.keyPress k) { down with
              stamp := s.now, grant := s.now, state := .talking, latched := true
              held := some (.talkPair e.target src none) } t
            ∧ tget t.arb.talkers e.target = tget s.arb.talkers e.target ++ [id])
      ∧ (∀ d src, e.pressed = false → e.function = .talk → e.mode = .latching → e.latched = true →
          e.state = .talking → e.held = some (.talkPair d src none) → d < 160 →
          ∃ t, leaves (.keyPress k) (done down) t
            ∧ tget t.arb.talkers d = (tget s.arb.talkers d).filter (fun x => x != id)))
    ∧ (CarriedOut (.keyRelease k) s → e.pressed = true → e.function ≠ .none →
      (e.state = .refused → e.mode ≠ .latching →
        ∃ t, leaves (.keyRelease k) { up with state := .idle, held := none } t)
      ∧ (e.mode = .latching → ∃ t, leaves (.keyRelease k) up t)
      ∧ (e.mode = .smart → e.state = .talking → e.latched = false → s.now - e.stamp < s.arb.smart →
          ∃ t, leaves (.keyRelease k) { up with latched := true } t
            ∧ t.mat.pool = s.mat.pool ∧ t.arb.talkers = s.arb.talkers ∧ t.arb.lines = s.arb.lines)
      ∧ (∀ d src, e.mode = .smart → e.state = .talking → e.latched = false → s.arb.smart ≤ s.now - e.stamp →
          e.held = some (.talkPair d src none) → d < 160 →
          ∃ t, leaves (.keyRelease k) (done up) t
            ∧ tget t.arb.talkers d = (tget s.arb.talkers d).filter (fun x => x != id))
      ∧ (∀ d src p caller, e.mode = .momentary → e.state = .talking → e.held = some (.talkPair d src (some caller)) →
          d < 160 → Inv.PoolOk s.mat.pool → findEntry s.mat.pool d src = some p → 0 < p.talk →
          ∃ t, leaves (.keyRelease k) (done up) t
            ∧ tget t.arb.talkers d = (tget s.arb.talkers d).filter (fun x => x != id)
            ∧ (if p.route = false ∧ p.scene = false ∧ p.talk = 1 ∧ p.listen = 0 then findEntry t.mat.pool d src = none
               else findEntry t.mat.pool d src = some { p with
                 talk := p.talk - 1, keyLevel := if p.talk = 1 ∧ p.listen = 0 then 0 else p.keyLevel })
            ∧ tget t.call.lists 88 = (tget s.call.lists 88).filter (fun x => x.caller != caller)
            ∧ ∀ x, x < 89 → x ≠ 88 → tget t.call.lists x = tget s.call.lists x)
      ∧ (∀ l, e.mode = .momentary → e.state = .talking → e.held = some (.line l none) → l < 32 →
          (∃ x, x ∈ (s.line l).talkers ∧ x.key = id) → (s.line l).waiting = [] →
          ∃ t, leaves (.keyRelease k) (done up) t
            ∧ t.line l = { s.line l with talkers := (s.line l).talkers.filter fun x => x.key != id }))

/-- Talk and party lines at their limit. A Talk press at the talk limit is Busy, or takes the place of the lowest talker,
which loses it with a busy mark and no refusal event; a claim that finds no room leaves the lowest talker. A LineTalk press
at the limit waits behind its class, is refused with 16 keys waiting, or displaces the lowest talker in front of its class,
a seventeenth waiting key dropped. LineTalkListen joins the speaker's bus slot too, or is refused with NoRoom, and its end
leaves the slot; at the desk, which has no speaker, it is LineTalk (R60, R67, R70). A Listen key at a station with a
speaker raises the listen count of the pair and stays Idle with it held, whatever the talk limit, or is refused with
MinusConflict or NoRoom; its end lowers the count (R63). The lowest talker is strictly lowest here: between equals, log
entry 31. (No channel waits for a start.) -/
def Obligations.TalkAndLinesAtLimit : Prop :=
  ∀ (k : Nat) (low : KeyId) (s : State), s.reports = [] → NoneArmed s →
    let e := s.key 88 k
    let id : KeyId := { station := 88, key := k }
    let lowE := s.keyOf low
    let down (x : KeyEntry) : KeyEntry := { x with pressed := true, busy := none, stamp := s.now }
    let idle (x : KeyEntry) : Prop := x.pressed = false ∧ x.state = .idle ∧ x.held = none ∧ x.mode = .momentary
    let pressed : Prop := CarriedOut (.keyPress k) s ∧ k < 32 ∧ s.hasKey 88 k = true ∧ idle e
    let lowest (ks : List KeyId) : Prop := s.hasKey low.station low.key = true ∧ low ≠ id ∧ low ∈ ks
      ∧ ∀ x, x ∈ ks → x ≠ low →
          (s.keyOf x).cls < lowE.cls ∨ ((s.keyOf x).cls = lowE.cls ∧ (s.keyOf x).grant < lowE.grant)
    let ends (x : KeyEntry) (t : State) : Prop := exec (.keyPress k) s = .next t ∧ t.key 88 k = x
      ∧ t.exch.lastResult = some (one .done x.state.ctorIdx) ∧ Inv.SameSettings s t
    let refused (code : Code) (t : State) : Prop := ends { down e with state := .refused } t
      ∧ tget t.ev.details 49 = u8 88 ++ u8 k ++ u8 code.ctorIdx ∧ t.keyOf low = lowE
      ∧ t.mat.pool = s.mat.pool ∧ t.arb.talkers = s.arb.talkers ∧ t.arb.lines = s.arb.lines
    let talking (h : Held) : KeyEntry := { down e with state := .talking, grant := s.now, held := some h }
    let lost (x : KeyEntry) : KeyEntry :=
      { x with state := .idle, held := none, latched := false, busy := some (s.now + 2000) }
    let joined (r : Line) (x : KeyId) : List Talker :=
      r.talkers ++ [{ key := x, timer := if r.policy = .rotating then some (s.now + 1000 * r.turn) else none }]
    (∀ src, pressed → e.function = .talk → e.target < 160 → src < 160 → s.arb.deskMic = some src →
        isFoldDest s e.target = false → (s.dest e.target).limit ≤ (tget s.arb.talkers e.target).length →
        lowest (tget s.arb.talkers e.target) →
        let d := e.target
        (lowE.cls ≤ e.cls → ∃ t, refused .busy t)
        ∧ (e.cls < lowE.cls → (findEntry s.mat.pool d src = none ∧ (2048 ≤ s.mat.pool.length ∨ 24 ≤ destCount s.mat.pool d))
              ∨ (∃ p, findEntry s.mat.pool d src = some p ∧ 63 ≤ p.talk) → ∃ t, refused .noRoom t)
        ∧ (∀ p' src', e.cls < lowE.cls → Inv.PoolOk s.mat.pool →
            (∃ p, findEntry s.mat.pool d src = some p ∧ p.talk < 63)
              ∨ (findEntry s.mat.pool d src = none ∧ s.mat.pool.length < 2048 ∧ destCount s.mat.pool d < 24) →
            lowE.held = some (.talkPair d src' none) → src' ≠ src → findEntry s.mat.pool d src' = some p' → 0 < p'.talk →
            let p := (findEntry s.mat.pool d src).getD { dest := d, source := src, route := false, scene := false, talk := 0
                                                         listen := 0, routeLevel := 0, keyLevel := 0 }
            ∃ t, ends (talking (.talkPair d src none)) t ∧ t.keyOf low = lost lowE
              ∧ tget t.arb.talkers d = (tget s.arb.talkers d).filter (· != low) ++ [id]
              ∧ findEntry t.mat.pool d src = some { p with
                  talk := p.talk + 1, keyLevel := if p.talk = 0 ∧ p.listen = 0 then e.level else p.keyLevel }
              ∧ (if p'.route = false ∧ p'.scene = false ∧ p'.talk = 1 ∧ p'.listen = 0 then findEntry t.mat.pool d src' = none
                 else findEntry t.mat.pool d src' = some { p' with
                   talk := p'.talk - 1, keyLevel := if p'.talk = 1 ∧ p'.listen = 0 then 0 else p'.keyLevel })
              ∧ tget t.ev.details 49 = tget s.ev.details 49))
    ∧ (pressed → e.function = .lineTalk ∨ e.function = .lineTalkListen → e.target < 32 →
        (∃ m, m ∈ (s.line e.target).members ∧ m.station = 88 ∧ m.talk = true) →
        let l := e.target
        let r := s.line l
        (r.talkers.length < r.limit → ∃ t, ends (talking (.line l none)) t ∧ t.line l = { r with talkers := joined r id })
        ∧ (r.limit ≤ r.talkers.length → lowest (r.talkers.map (·.key)) → r.waiting.length ≤ 16 →
            id ∉ r.waiting → low ∉ r.waiting →
            (lowE.cls ≤ e.cls → r.waiting.length < 16 → ∃ t a b, r.waiting = a ++ b
                ∧ ends { down e with state := .waiting, held := some (.line l none) } t
                ∧ t.line l = { r with waiting := a ++ id :: b } ∧ t.keyOf low = lowE
                ∧ (∀ y, y ∈ a → (s.keyOf y).cls ≤ e.cls) ∧ (∀ y, b.head? = some y → e.cls < (s.keyOf y).cls))
            ∧ (lowE.cls ≤ e.cls → r.waiting.length = 16 → ∃ t, refused .noRoom t)
            ∧ (e.cls < lowE.cls → ∃ t a b, r.waiting = a ++ b ∧ ends (talking (.line l none)) t
                ∧ (∀ y, y ∈ a → (s.keyOf y).cls < lowE.cls) ∧ (∀ y, b.head? = some y → lowE.cls ≤ (s.keyOf y).cls)
                ∧ t.line l = { r with
                    talkers := joined { r with talkers := r.talkers.filter (·.key != low) } id
                    waiting := (a ++ low :: b).take 16 }
                ∧ (r.waiting.length < 16 →
                    t.keyOf low = { lowE with state := .waiting } ∧ tget t.ev.details 49 = tget s.ev.details 49)
                ∧ (∀ out, r.waiting.length = 16 → (a ++ low :: b).getLast? = some out →
                    s.hasKey out.station out.key = true →
                    t.keyOf out = lost (s.keyOf out)
                      ∧ tget t.ev.details 49 = u8 out.station ++ u8 out.key ++ u8 Code.noRoom.ctorIdx))))
    ∧ (∀ lp a q j d, lp < 4 → a < 16 → q < 8 → (s.loop lp).enabled = true → (s.loop lp).inHand = true →
        (s.loop lp).position = some a →
        let st := 16 * lp + a
        let p := s.panel st
        let x := s.key st j
        let l := x.target
        let r := s.line l
        let slots := (s.dest d).slots
        let more : List Slot :=
          if slots.any (fun y => y.line == l) then
            slots.map fun y => if y.line = l then { y with holders := y.holders + 1 } else y
          else slots ++ [{ line := l, holders := 1 }]
        let fewer : List Slot :=
          (slots.map fun y => if y.line = l then { y with holders := y.holders - 1 } else y).filter fun y =>
            decide (0 < y.holders)
        p.presence = .joining ∨ p.presence = .present ∨ p.presence = .silent → p.lastSeq ≠ some q → j < p.keyCount →
        s.hasKey st j = true → p.speaker = some d → d < 160 → x.function = .lineTalkListen → l < 32 →
        (idle x → (∃ m, m ∈ r.members ∧ m.station = st ∧ m.talk = true) → r.talkers.length < r.limit →
            ((∃ y, y ∈ slots ∧ y.line = l) ∨ slots.length < 4 → ∃ t, exec (.report lp q [(j, true)]) s = .next t
                ∧ t.key st j = { down x with state := .talking, grant := s.now, held := some (.line l (some d)) }
                ∧ t.line l = { r with talkers := joined r { station := st, key := j } }
                ∧ t.dest d = { s.dest d with slots := more }
                ∧ Inv.SameSettings { s with panels := t.panels, loops := t.loops } t)
            ∧ ((∀ y, y ∈ slots → y.line ≠ l) → 4 ≤ slots.length → ∃ t, exec (.report lp q [(j, true)]) s = .next t
                ∧ t.key st j = { down x with state := .refused } ∧ t.line l = r ∧ t.dest d = s.dest d
                ∧ tget t.ev.details 49 = u8 st ++ u8 j ++ u8 Code.noRoom.ctorIdx))
        ∧ (x.pressed = true → x.mode = .momentary → x.state = .talking → x.held = some (.line l (some d)) →
            (∃ y, y ∈ r.talkers ∧ y.key = { station := st, key := j }) → r.waiting = [] →
            ∃ t, exec (.report lp q [(j, false)]) s = .next t
              ∧ t.key st j = { x with
                  pressed := false, busy := none, state := .idle, held := none, latched := false, refusal := none }
              ∧ t.line l = { r with talkers := r.talkers.filter fun y => y.key != { station := st, key := j } }
              ∧ t.dest d = { s.dest d with slots := fewer }))
    ∧ (∀ lp a q j d, lp < 4 → a < 16 → q < 8 → (s.loop lp).enabled = true → (s.loop lp).inHand = true →
        (s.loop lp).position = some a →
        let st := 16 * lp + a
        let p := s.panel st
        let x := s.key st j
        let src := x.target
        let report (press : Bool) (y : KeyEntry) (t : State) : Prop := exec (.report lp q [(j, press)]) s = .next t
          ∧ t.key st j = y ∧ t.arb.talkers = s.arb.talkers ∧ t.arb.lines = s.arb.lines
          ∧ Inv.SameSettings { s with panels := t.panels, loops := t.loops } t
        let no (code : Code) : Prop := ∃ t, report true { down x with state := .refused } t ∧ t.mat.pool = s.mat.pool
          ∧ tget t.ev.details 49 = u8 st ++ u8 j ++ u8 code.ctorIdx
        let bound (r : Nat) : Prop := isFoldDest s d = true ∧ r < 48 ∧ (s.rec_ r).bound = some d
          ∧ ∀ y, y < 48 → (s.rec_ y).bound = some d → y = r
        let open_ : Prop := isFoldDest s d = false ∨ ∃ r, bound r ∧ src ∉ (s.rec_ r).minus
        let entry := findEntry s.mat.pool d src
        p.presence = .joining ∨ p.presence = .present ∨ p.presence = .silent → p.lastSeq ≠ some q → j < p.keyCount →
        s.hasKey st j = true → p.speaker = some d → d < 160 → x.function = .listen → src < 160 →
        Inv.PoolOk s.mat.pool →
        (idle x → (∃ r, bound r ∧ src ∈ (s.rec_ r).minus) → no .minusConflict)
        ∧ (idle x → open_ → (entry = none ∧ (2048 ≤ s.mat.pool.length ∨ 24 ≤ destCount s.mat.pool d))
              ∨ (∃ y, entry = some y ∧ 63 ≤ y.listen) → no .noRoom)
        ∧ (idle x → open_ → (entry = none ∧ s.mat.pool.length < 2048 ∧ destCount s.mat.pool d < 24)
              ∨ (∃ y, entry = some y ∧ y.listen < 63) →
            let y := entry.getD { dest := d, source := src, route := false, scene := false, talk := 0, listen := 0
                                  routeLevel := 0, keyLevel := 0 }
            ∃ t, report true { down x with held := some (.listenPair d src) } t
              ∧ findEntry t.mat.pool d src = some { y with
                  listen := y.listen + 1, keyLevel := if y.talk = 0 ∧ y.listen = 0 then x.level else y.keyLevel })
        ∧ (∀ y, x.pressed = true → x.mode = .momentary → x.state = .idle → x.held = some (.listenPair d src) →
            entry = some y → 0 < y.listen → ∃ t, report false { x with
                  pressed := false, busy := none, held := none, latched := false, refusal := none } t
              ∧ (if y.route = false ∧ y.scene = false ∧ y.talk = 0 ∧ y.listen = 1 then findEntry t.mat.pool d src = none
                 else findEntry t.mat.pool d src = some { y with
                   listen := y.listen - 1, keyLevel := if y.talk = 0 ∧ y.listen = 1 then 0 else y.keyLevel })))

/-- The lamp of a key by its state and by the call lists: Busy, On, Flash 0 to 2 or Off (Tables 3-3 and 4-3, R56, R84);
the tallies of a link are those of its four reporter keys, any Flash sent as one Flash (R115, log entry 15). Every write of
a panel key leaves its lamp in the lamp table, a changed one marked where it lies below the key count and not as carried
(R56, R108); so do the assignment of a key, the ends of a busy mark and of a refusal, and a call list's change, for the
keys of the two stations concerned. -/
def Obligations.LampsAndTallies : Prop :=
  ∀ (st k : Nat) (s : State),
    let e := s.key st k
    let free : Prop := e.busy = none ∧ e.state = .idle ∧ ∀ d src, e.held ≠ some (.listenPair d src)
    let cell (x j : Nat) (u : State) : LampCell := tget (u.panel x).lamps j
    let shown (x j : Nat) (t : State) : Prop := (cell x j t).lamp = lampOf t x j
      ∧ ((cell x j t).lamp ≠ (cell x j s).lamp →
          (cell x j t).marked = decide (j < (s.panel x).keyCount) ∧ (cell x j t).carried = false)
    let kept (t : State) : Prop := Inv.SameSettings s t
    (e.busy ≠ none ∨ e.state = .refused → lampOf s st k = .busy)
    ∧ (e.busy = none → e.state = .talking → lampOf s st k = .on)
    ∧ (e.busy = none → e.state = .waiting ∨ e.state = .pending → lampOf s st k = .flash 0)
    ∧ (∀ d src, e.busy = none → e.state = .idle → e.held = some (.listenPair d src) → lampOf s st k = .on)
    ∧ (free → e.function = .reply → lampOf s st k = if tget s.call.lists st = [] then .off else .flash 1)
    ∧ (free → e.function = .call →
        ((∃ x, x ∈ tget s.call.lists e.target ∧ x.caller = st) → lampOf s st k = .flash 2)
        ∧ ((∀ x, x ∈ tget s.call.lists e.target → x.caller ≠ st) → lampOf s st k = .off))
    ∧ (free → e.function ≠ .reply → e.function ≠ .call → lampOf s st k = .off)
    ∧ (∀ n, talliesOf s n = (List.range 4).map fun j =>
        match lampOf s (64 + n) j with | .flash _ => .flash 0 | x => x)
    ∧ (st < 64 → k < 24 → s.hasKey st k = true →
        (∀ x, shown st k (putKey st k x s) ∧ (putKey st k x s).key st k = x)
        ∧ (∀ x, e.busy = some x → x ≤ s.now → ∃ t, exec (.busyMarkExpiry st k) s = .next t ∧ shown st k t ∧ kept t)
        ∧ (∀ x, e.refusal = some x → x ≤ s.now → ∃ t, exec (.refusalTimerExpiry st k) s = .next t ∧ shown st k t ∧ kept t)
        ∧ (∀ f x m c l, CarriedOut (.keyAssign st k f x m c l) s → s.reports = [] → NoneArmed s →
            1 ≤ f → f ≤ 7 → (f = 1 ∨ f = 4 ∨ f = 5 → x < 160) → (f = 2 ∨ f = 3 → x < 32) → (f = 6 → x < 89 ∧ x ≠ st) →
            m ≤ 2 → c ≤ 7 → 1 ≤ l → l ≤ 240 →
            ∃ t, exec (.keyAssign st k f x m c l) s = .next t ∧ shown st k t)
        ∧ (CarriedOut (.keyClear st k) s → s.reports = [] → NoneArmed s →
            ∃ t, exec (.keyClear st k) s = .next t ∧ shown st k t))
    ∧ (∀ j, st < 64 → j < 24 → s.reports = [] → NoneArmed s →
        (CarriedOut (.callSend st) s → (∀ x, x ∈ tget s.call.lists st → x.caller ≠ 88) →
          (tget s.call.lists st).length < 8 → ∃ t, exec (.callSend st) s = .next t ∧ shown st j t ∧ kept t)
        ∧ (∀ all caller, CarriedOut (.callClear st all caller) s → all = true ∨ caller < 89 →
            (∃ x, x ∈ tget s.call.lists st ∧ (all = true ∨ x.caller = caller)) →
            ∃ t, exec (.callClear st all caller) s = .next t ∧ shown st j t ∧ kept t
              ∧ ∀ x, x ∈ tget s.call.lists st → all = true ∨ x.caller = caller → x.caller < 64 → shown x.caller j t)
        ∧ (∀ x, x ∈ tget s.call.lists st → x.expiry ≤ s.now → Inv.CallsOk st (tget s.call.lists st) →
            ∃ t, exec (.callExpiry st x.caller) s = .next t ∧ shown st j t ∧ (x.caller < 64 → shown x.caller j t) ∧ kept t))

/-- LINE.CONFIG: a value out of range is BadValue with the counts; without a limit only policy, turn time and turn
timers change; a new limit is met, the line takes in what it can and at most 16 keys wait. LINE.MEMBER: its checks,
a new member at the end of the list, one with Listen with its bus slot, a full list, None for no member, a Talk member
removed or given Listen; Listen taken away leaves the bus slot at the member's slot destination; Talk taken away ends every
key of the station on the line (R72, R57). (That a line above 31 gives no values is the model's choice, log entry 47; the
order of those ends, log entry 49.) -/
def Obligations.LineOrders : Prop :=
  ∀ (l : Nat) (limit policy turn : Option Nat) (st rights : Nat) (s : State),
    let r := s.line l
    let c : Instr := .lineConfig l limit policy turn
    let bad : Prop := (∃ v, limit = some v ∧ (v = 0 ∨ 8 < v)) ∨ (∃ v, policy = some v ∧ 1 < v)
      ∨ (∃ v, turn = some v ∧ (v = 0 ∨ 30 < v))
    let counts (x : Line) : List Byte := u8 x.talkers.length ++ u8 x.waiting.length
    let pol : Policy := match policy with | none => r.policy | some 0 => .fixed | some _ => .rotating
    let secs : Nat := turn.getD r.turn
    let member (d : Option Nat) (talk listen : Bool) : State := { s with
      arb.lines := tset s.arb.lines l { r with
        members := r.members ++ [{ station := st, talk := talk, listen := listen, slot := d }] } }
    let joined (d : Nat) : Vector DestRec 160 :=
      tset s.mat.dests d { s.dest d with slots := (s.dest d).slots ++ [{ line := l, holders := 1 }] }
    (CarriedOut c s →
      (31 < l → exec c s = .next (finished (bare .badValue) s s))
      ∧ (l < 32 → bad → exec c s = .next (finished { code := .badValue, values := counts r } s s))
      ∧ (l < 32 → ¬bad → ∃ t, exec c s = .next t
          ∧ t.exch.lastResult = some { code := .done, values := counts (t.line l) }
          ∧ Inv.lineSettings (t.line l)
              = Inv.lineSettings { r with limit := limit.getD r.limit, policy := pol, turn := secs }
          ∧ (limit = none →
              (t.line l).waiting = r.waiting ∧ (t.line l).talkers = (match r.policy, pol with
                | .fixed, .rotating => r.talkers.map fun x => { x with timer := some (s.now + 1000 * secs) }
                | .rotating, .fixed => r.talkers.map fun x => { x with timer := none }
                | _, _ => r.talkers))
          ∧ (∀ n, limit = some n → (t.line l).talkers.length ≤ n ∧ (t.line l).waiting.length ≤ 16
              ∧ ((t.line l).waiting = [] ∨ (t.line l).talkers.length = n))))
    ∧ (CarriedOut (.lineMember l st rights) s →
      let ends (code : Code) (u : State) (n : Nat) : Prop :=
        exec (.lineMember l st rights) s = .next (finished (one code n) u s)
      (31 < l → exec (.lineMember l st rights) s = .next (finished (bare .badValue) s s))
      ∧ (l < 32 → 88 < st ∨ 3 < rights → ends .badValue s r.members.length)
      ∧ (l < 32 → st < 89 → (∀ x, x ∈ r.members → x.station ≠ st) →
          (rights = 0 → ends .done s r.members.length)
          ∧ (rights = 2 ∨ rights = 3 → speakerOf s st = none → ends .badValue s r.members.length)
          ∧ (rights = 1 ∨ ((rights = 2 ∨ rights = 3) ∧ speakerOf s st ≠ none) → 32 ≤ r.members.length →
              ends .noRoom s r.members.length)
          ∧ (rights = 1 → r.members.length < 32 → ends .done (member none true false) (r.members.length + 1))
          ∧ (∀ d, rights = 2 ∨ rights = 3 → r.members.length < 32 → speakerOf s st = some d → d < 160 →
              (∀ x, x ∈ (s.dest d).slots → x.line ≠ l) →
              ((s.dest d).slots.length < 4 →
                ends .done { member (some d) (rights == 3) true with mat.dests := joined d } (r.members.length + 1))
              ∧ (4 ≤ (s.dest d).slots.length → ends .noRoom s r.members.length)))
      ∧ (∀ x, l < 32 → st < 89 → r.members.find? (fun y => y.station == st) = some x → x.talk = true →
          x.listen = false →
          (rights = 0 → (∀ k slot, k < stationKeys st → (s.key st k).held ≠ some (.line l slot)) →
            let left := r.members.filter fun y => y.station != st
            ends .done { s with arb.lines := tset s.arb.lines l { r with members := left } } left.length)
          ∧ (∀ d, rights = 3 → speakerOf s st = some d → d < 160 → (∀ y, y ∈ (s.dest d).slots → y.line ≠ l) →
              (s.dest d).slots.length < 4 →
              let new : LineMember := { station := st, talk := true, listen := true, slot := some d }
              ends .done { s with
                arb.lines := tset s.arb.lines l
                  { r with members := r.members.map fun y => if y.station = st then new else y }
                mat.dests := joined d } r.members.length))
      ∧ (∀ x, l < 32 → st < 89 → r.members.find? (fun y => y.station == st) = some x →
          let writes (rs : Option LineMember) (t : State) : Prop := (t.line l).members = match rs with
            | none => r.members.filter fun y => y.station != st
            | some m => r.members.map fun y => if y.station = st then m else y
          (∀ d, x.listen = true → x.slot = some d → d < 160 → rights ≤ 1 →
            (rights = 0 → ∀ k slot, k < stationKeys st → (s.key st k).held ≠ some (.line l slot)) →
            ∃ t, exec (.lineMember l st rights) s = .next (finished (one .done (t.line l).members.length) t s)
              ∧ writes (if rights = 0 then none else some { station := st, talk := true, listen := false, slot := none }) t
              ∧ t = { s with
                  arb.lines := tset s.arb.lines l { r with members := (t.line l).members }
                  mat.dests := tset s.mat.dests d { s.dest d with
                    slots := ((s.dest d).slots.map fun y =>
                      if y.line = l then { y with holders := y.holders - 1 } else y).filter fun y => 0 < y.holders } })
          ∧ (x.talk = true → rights = 0 ∨ (rights = 2 ∧ x.listen = true) →
            (r.talkers.map (·.key) ++ r.waiting).Nodup →
            ∃ t, exec (.lineMember l st rights) s = .next t
              ∧ t.exch.lastResult = some (one .done (t.line l).members.length)
              ∧ writes (if rights = 0 then none else some { x with talk := false }) t
              ∧ (∀ k slot, k < stationKeys st → (s.key st k).held = some (.line l slot) →
                  (t.key st k).state = .idle ∧ (t.key st k).held = none ∧ (t.key st k).latched = false
                    ∧ (∀ y, y ∈ (t.line l).talkers → y.key ≠ ⟨st, k⟩) ∧ ⟨st, k⟩ ∉ (t.line l).waiting)
              ∧ (∀ k, (∀ slot, (s.key st k).held ≠ some (.line l slot)) → ⟨st, k⟩ ∉ r.waiting → t.key st k = s.key st k)
              ∧ ∀ y, y < 32 → y ≠ l → t.line y = s.line y)))

/-- The arbiter's three timers, which act only when they run and have run out (log entry 3): a busy mark goes; a
Refused key goes Idle; at the end of a turn, with no waiting key of the talker's class, the timer alone starts again,
and with one, the oldest talker of the class waits and the first waiting key of the class talks. -/
def Obligations.KeyTimers : Prop :=
  ∀ (st k l : Nat) (s : State),
    let e := s.key st k
    let id : KeyId := { station := st, key := k }
    let r := s.line l
    let kept (t : State) : Prop :=
      (∀ st' k', (st', k') ≠ (st, k) → t.key st' k' = s.key st' k') ∧ t.exch = s.exch ∧ Inv.SameSettings s t
    (∀ x, s.hasKey st k = true → e.busy = some x → x ≤ s.now →
        ∃ t, exec (.busyMarkExpiry st k) s = .next t ∧ t.key st k = { e with busy := none } ∧ kept t)
    ∧ (NotDue e.busy s.now → exec (.busyMarkExpiry st k) s = .next s)
    ∧ (∀ x, s.hasKey st k = true → e.refusal = some x → x ≤ s.now →
        ∃ t, exec (.refusalTimerExpiry st k) s = .next t
          ∧ t.key st k = { e with state := .idle, refusal := none } ∧ kept t)
    ∧ (NotDue e.refusal s.now → exec (.refusalTimerExpiry st k) s = .next s)
    ∧ (∀ x, l < 32 → ({ key := id, timer := some x } : Talker) ∈ r.talkers → x ≤ s.now →
        ((∀ w, w ∈ r.waiting → (s.keyOf w).cls ≠ e.cls) → exec (.turnTimerExpiry l st k) s = .next { s with
            arb.lines := tset s.arb.lines l { r with talkers := r.talkers.map fun t =>
              if t.key = id then { t with timer := some (s.now + 1000 * r.turn) } else t } })
        ∧ (∀ next old, r.waiting.find? (fun w => (s.keyOf w).cls == e.cls) = some next →
            (r.talkers.map (·.key)).find? (fun w => (s.keyOf w).cls == e.cls) = some old →
            s.hasKey next.station next.key = true → s.hasKey old.station old.key = true → next ≠ old →
            ∃ t, exec (.turnTimerExpiry l st k) s = .next t
              ∧ (t.line l).talkers.map (·.key) = (r.talkers.map (·.key)).filter (· != old) ++ [next]
              ∧ (t.line l).waiting.length = (r.waiting.filter (· != next)).length + 1
              ∧ (t.keyOf next).state = .talking ∧ (t.keyOf next).grant = s.now
              ∧ (t.keyOf old).state = .waiting ∧ (t.keyOf old).latched = (s.keyOf old).latched
              ∧ t.exch = s.exch ∧ Inv.SameSettings s t))
    ∧ ((∀ x, x ∈ r.talkers → x.key = id → NotDue x.timer s.now) → exec (.turnTimerExpiry l st k) s = .next s)

/-! ### Call unit -/

/-- CALL.SEND from the desk: New at the end, a repeat renews its entry, a ninth call drops the oldest and raises
CallOverflow. CALL.CLEAR removes one entry or all and gives both counts. An entry's expiry removes it and raises
CallExpired, and one before its time is no event (log entry 3). (That a refused order gives no values is the model's
choice, log entry 47.) -/
def Obligations.CallOrders : Prop :=
  ∀ (st caller : Nat) (all : Bool) (s : State), (∀ x, x < 89 → Inv.CallsOk x (tget s.call.lists x)) →
    let list := tget s.call.lists st
    let expiry := s.now + 1000 * s.call.timeout
    let others (t : State) : Prop := ∀ x, x < 89 → x ≠ st → tget t.call.lists x = tget s.call.lists x
    (CarriedOut (.callSend st) s →
      (88 ≤ st → s.reports = [] → exec (.callSend st) s = .next (finished (bare .badValue) s s))
      ∧ (st < 88 → ∃ t, exec (.callSend st) s = .next t ∧ others t ∧ Inv.SameSettings s t
          ∧ ((∀ e, e ∈ list → e.caller ≠ 88) → list.length < 8 →
              tget t.call.lists st = list ++ [{ caller := 88, repeats := 0, expiry := expiry }]
                ∧ t.exch.lastResult = some (one .done 0))
          ∧ ((∃ e, e ∈ list ∧ e.caller = 88) →
              tget t.call.lists st = list.map (fun e =>
                  if e.caller = 88 then { caller := 88, repeats := satAdd 255 e.repeats 1, expiry := expiry } else e)
                ∧ t.exch.lastResult = some (one .done 1))
          ∧ (∀ old rest, (∀ e, e ∈ list → e.caller ≠ 88) → list = old :: rest → list.length = 8 →
              tget t.call.lists st = rest ++ [{ caller := 88, repeats := 0, expiry := expiry }]
                ∧ t.exch.lastResult = some (one .done 2)
                ∧ tget t.ev.details 48 = u8 st ++ u8 old.caller ++ u8 old.repeats ++ u8 88)))
    ∧ (CarriedOut (.callClear st all caller) s →
      (88 < st ∨ (all = false ∧ 88 < caller) →
        exec (.callClear st all caller) s = .next (finished (bare .badValue) s s))
      ∧ (st < 89 → all = true ∨ caller < 89 → ∃ t, exec (.callClear st all caller) s = .next t
          ∧ tget t.call.lists st = (if all then [] else list.filter fun e => e.caller != caller)
          ∧ t.exch.lastResult = some { code := .done
                                       values := u8 (list.length - (tget t.call.lists st).length)
                                         ++ u8 (tget t.call.lists st).length }
          ∧ others t ∧ Inv.SameSettings s t))
    ∧ (∀ e, st < 89 → e ∈ list → e.caller = caller → e.expiry ≤ s.now →
        ∃ t, exec (.callExpiry st caller) s = .next t
          ∧ tget t.call.lists st = list.filter (fun x => x.caller != caller)
          ∧ tget t.ev.details 47 = u8 st ++ u8 caller ++ u8 e.repeats
          ∧ others t ∧ t.exch = s.exch ∧ Inv.SameSettings s t)
    ∧ ((∀ e, e ∈ list → e.caller = caller → NotDue (some e.expiry) s.now) → exec (.callExpiry st caller) s = .next s)

/-- CADENCE.SET starts a fresh cycle or stops the generator in phase Off; a phase expiry turns the phase and sets the
next expiry from the one just taken; nothing else changes. When the condition of each control output function holds
(Table 4-7), and the level of a pin: low while unbound, else the active level exactly while the condition holds and, under
Cadence, the generator's phase is On (R95, R96), after CO.BIND, after a phase expiry, after a generator stops and after a
call that starts no channel. (Three clauses are the model's choice: a generator above 3 gives no value, log entry 47;
CO.BIND takes any argument byte for a function None or Autonomous and any generator byte under Steady, log entry 51; a phase
expiry that is not due is no event, log entry 3.) -/
def Obligations.CadencesAndOutputs : Prop :=
  ∀ (g a b : Nat) (run : Bool) (s : State),
    let r := tget s.call.gens g
    let bad : Prop := a < 20 ∨ 2000 < a ∨ b < 20 ∨ 2000 < b
    let gen (x : Cadence) : State := { s with call.gens := tset s.call.gens g x }
    let out (i : Nat) : ControlOut := tget s.call.outputs i
    (CarriedOut (.cadenceSet g run a b) s →
      (3 < g → exec (.cadenceSet g run a b) s = .next (finished (bare .badValue) s s))
      ∧ (g < 4 → run = true → bad → exec (.cadenceSet g run a b) s
          = .next (finished { code := .badValue, values := uFlag r.running } s s))
      ∧ (g < 4 → run = true → ¬bad → exec (.cadenceSet g run a b) s = .next (finished (one .done 1)
          (gen { running := true, onTime := a, offTime := b, phaseOn := true, expiry := some (s.now + a) }) s))
      ∧ (g < 4 → run = false → exec (.cadenceSet g run a b) s = .next (finished (one .done 0)
          (gen { r with running := false, phaseOn := false, expiry := none }) s)
          ∧ ∃ t, exec (.cadenceSet g run a b) s = .next t ∧ ∀ i, i < 16 → (out i).function ≠ .none →
              (out i).cadence = some g → outputLevel t i = !(out i).activeHigh))
    ∧ (∀ x, r.running = true → r.expiry = some x → x ≤ s.now → ∃ t, exec (.cadencePhaseExpiry g) s = .next t
        ∧ t = gen { r with phaseOn := !r.phaseOn, expiry := some (x + if r.phaseOn then r.offTime else r.onTime) }
        ∧ (∀ i, i < 16 → g < 4 → (out i).cadence = some g → (out i).function ≠ .none →
            condition s (out i).function = true → outputLevel t i = !outputLevel s i)
        ∧ ∀ i, i < 16 → (out i).cadence ≠ some g → outputLevel t i = outputLevel s i)
    ∧ (r.running = false ∨ NotDue r.expiry s.now → exec (.cadencePhaseExpiry g) s = .next s)
    ∧ (condition s .none = false
      ∧ (∀ d, (isFoldDest s d = false ∨ (∀ q, q < 48 → (s.rec_ q).bound ≠ some d)) →
          (condition s (.destTalk d) = true ↔ tget s.arb.talkers d ≠ []))
      ∧ (∀ d q, isFoldDest s d = true → q < 48 → (s.rec_ q).bound = some d →
          (∀ x, x < 48 → (s.rec_ x).bound = some d → x = q) → (condition s (.destTalk d) = true
            ↔ tget s.arb.talkers d ≠ [] ∨ ∃ x st k, x ∈ (s.rec_ q).ints ∧ x.requester = .key st k))
      ∧ (∀ st, condition s (.stationCalled st) = true ↔ tget s.call.lists st ≠ [])
      ∧ (∀ n, condition s (.linkLive n) = true ↔ (s.link n).session = .live)
      ∧ (condition s .autonomous = true ↔ s.exch.part = .autonomous))
    ∧ (∀ i, ((out i).function = .none → outputLevel s i = false)
      ∧ ((out i).function ≠ .none → (outputLevel s i = (out i).activeHigh ↔
          condition s (out i).function = true ∧ ∀ x, (out i).cadence = some x → (tget s.call.gens x).phaseOn = true)))
    ∧ (∀ i f x sense act fn, i < 16 → outFunctionOf f x = some fn → sense = 0 ∨ (sense = 1 ∧ g < 4) → act ≤ 1 →
        CarriedOut (.coBind i f x sense g act) s → ∃ t, exec (.coBind i f x sense g act) s = .next t
          ∧ outputLevel t i = (if fn = .none then false
              else if condition s fn = true ∧ (sense = 1 → r.phaseOn = true) then act == 0 else act == 1)
          ∧ ∀ j, j < 16 → j ≠ i → outputLevel t j = outputLevel s j)
    ∧ (∀ st i, CarriedOut (.callSend st) s → s.reports = [] → NoneArmed s → st < 88 → i < 16 →
        (out i).function = .stationCalled st → (out i).cadence = none → ∃ t, exec (.callSend st) s = .next t ∧ outputLevel t i = (out i).activeHigh)

/-- CI.BIND: its checks, then the new binding over the taken pin level with a clear latch, and whether it is active. A
Level binding made while the input is active presses its desk key, or cuts or starts its Armed channel, and one to a desk
key unbound while the input is active releases it (R91, R92); where none of this applies, CI.BIND changes the binding
alone. A taken change of a pin: the level is held; an active edge flips the latch of an Edge Emergency, presses the bound
desk key, cuts or starts the bound Armed channel, and starts every Armed channel whose trigger names the input (R89, R150;
but for the channel that the same edge cuts, log entry 56); an inactive edge of an input unbound or bound as Cut or Trigger
gives nothing; Notify raises InputChange. CO.BIND: its checks, then the binding, and
whether its condition holds. (The model's choices: the levels of log entry 15, an unbound input taken with High, log
entry 50, an argument byte without meaning taken, log entry 51, a refused order without values, log entry 47.) -/
def Obligations.ControlLines : Prop :=
  ∀ (i f a sense g act : Nat) (high : Bool) (s : State),
    let c := s.input i
    let others (t : State) : Prop := ∀ j, j < 16 → j ≠ i → t.input j = s.input j
    let now : Bool := if c.function = .none then high else high == c.activeHigh
    let ends : Prop := c.function = .deskKey ∧ c.byLevel = true ∧ c.pinHigh = c.activeHigh
    let starts : Prop := sense = 1 ∧ c.pinHigh = (act == 0)
    (CarriedOut (.ciBind i f a sense act) s →
      let ok : Prop := f ≤ 5 ∧ (f = 1 → a < 32) ∧ (f = 2 ∨ f = 3 → a < 16) ∧ sense ≤ 1 ∧ act ≤ 1
      (15 < i ∨ ¬ok → s.reports = [] → exec (.ciBind i f a sense act) s = .next (finished (bare .badValue) s s))
      ∧ (i < 16 → ok → ∃ t, exec (.ciBind i f a sense act) s = .next t
          ∧ some (t.input i).function = inFunctionOf f ∧ (t.input i).argument = a
          ∧ (t.input i).byLevel = (sense == 1) ∧ (t.input i).activeHigh = (act == 0)
          ∧ (t.input i).latch = false ∧ (t.input i).pinHigh = c.pinHigh ∧ others t
          ∧ t.exch.lastResult = some { code := .done, values := uFlag (t.input i).active }
          ∧ (f = 4 → t.engine.emergency = decide (0 < emergencyCount t))
          ∧ (f = 1 → starts → s.hasKey 88 a = true → (t.key 88 a).pressed = true)
          ∧ (ends → ¬(f = 1 ∧ starts ∧ a = c.argument) → s.hasKey 88 c.argument = true →
              (t.key 88 c.argument).pressed = false)
          ∧ (f = 3 → starts → (s.chan a).state = .armed → (t.chan a).state = .running)
          ∧ (∀ d rest, f = 2 → starts → (s.chan a).state = .armed → (s.chan a).chain = d :: rest → d.last = false →
              (t.chan a).chain = rest))
      ∧ (∀ fn, i < 16 → ok → inFunctionOf f = some fn → s.reports = [] → c.function ≠ .emergency → ¬ends → f ≠ 4 →
          ¬((f = 1 ∨ f = 2 ∨ f = 3) ∧ starts) →
          let new : ControlIn := { pinHigh := c.pinHigh, function := fn, argument := a, byLevel := sense == 1
                                   activeHigh := act == 0, latch := false }
          exec (.ciBind i f a sense act) s = .next (finished { code := .done, values := uFlag new.active }
            { s with call.inputs := tset s.call.inputs i new } s)))
    ∧ (CarriedOut (.coBind i f a sense g act) s →
      (15 < i ∨ 4 < f ∨ (f = 1 ∧ 159 < a) ∨ (f = 2 ∧ 88 < a) ∨ (f = 3 ∧ 23 < a) ∨ 1 < sense ∨ (sense = 1 ∧ 3 < g)
          ∨ 1 < act →
        exec (.coBind i f a sense g act) s = .next (finished (bare .badValue) s s))
      ∧ (∀ fn, i < 16 → outFunctionOf f a = some fn → sense = 0 ∨ (sense = 1 ∧ g < 4) → act ≤ 1 →
          exec (.coBind i f a sense g act) s
            = .next (finished { code := .done, values := uFlag (condition s fn) } { s with
                call.outputs := tset s.call.outputs i
                  { function := fn, cadence := if sense = 0 then none else some g, activeHigh := act == 0 } } s)))
    ∧ (i < 16 → c.pinHigh = high → s.reports = [] → exec (.controlInputChange i high) s = .next s)
    ∧ (i < 16 → c.pinHigh ≠ high → ∃ t, exec (.controlInputChange i high) s = .next t
        ∧ (t.input i).pinHigh = high ∧ others t ∧ t.exch = s.exch
        ∧ (t.input i).latch = (if c.function = .emergency ∧ c.byLevel = false ∧ now = true then !c.latch else c.latch)
        ∧ (c.function = .emergency → t.engine.emergency = decide (0 < emergencyCount t))
        ∧ (c.function = .deskKey → s.hasKey 88 c.argument = true → (t.key 88 c.argument).pressed = now)
        ∧ (c.function = .trigger → now = true → c.argument < 16 → (s.chan c.argument).state = .armed →
            (t.chan c.argument).state = .running)
        ∧ (∀ d rest, c.function = .cut → now = true → c.argument < 16 → (s.chan c.argument).state = .armed →
            (s.chan c.argument).chain = d :: rest → d.last = false → (t.chan c.argument).chain = rest)
        ∧ (∀ x, now = true → x < 16 → (s.chan x).state = .armed → (s.chan x).trigger = .controlInput i →
            ¬(c.function = .cut ∧ c.argument = x) → (t.chan x).state = .running)
        ∧ (now = false → s.reports = [] → c.function = .none ∨ c.function = .cut ∨ c.function = .trigger →
            t = { s with call.inputs := tset s.call.inputs i { c with pinHigh := high } })
        ∧ (c.function = .notify → now = true ∨ c.byLevel = true →
            tget t.ev.details 51 = u8 i ++ u8 (if now then 0 else 1)
              ++ u16 ((List.range 16).foldl (fun n j => n + if (t.input j).active then 2 ^ j else 0) 0)))

/-! ### Panel loops -/

/-- POLL begins the next transaction: the address is the lowest configured above the round position, or the lowest; the
acknowledgement is the record's last accepted sequence, which an Absent panel's record does not hold
(`LinkPanelVectorAndRegisterRulesKept`); marked lamps of a known panel follow and are noted as carried. A Disabled
loop, one with a transaction in hand and one with no configured address send nothing. Frames that are no answer are
counted while the loop is Enabled (log entry 16), Poll and Lamps frames never. -/
def Obligations.PollsAndStrayFrames : Prop :=
  ∀ (l : Nat) (s : State), l < 4 →
    let lp := s.loop l
    let conf (a : Nat) : Prop := a < 16 ∧ (s.panel (16 * l + a)).presence ≠ .unconfigured
    let first (a : Nat) : Prop := conf a ∧ ∀ b, conf b → a ≤ b
    let above (p a : Nat) : Prop := conf a ∧ p < a ∧ ∀ b, conf b → p < b → a ≤ b
    let nextOne (a : Nat) : Prop := match lp.position with
      | none => first a
      | some p => above p a ∨ ((∀ b, conf b → b ≤ p) ∧ first a)
    (∀ a, lp.enabled = true → lp.inHand = false → nextOne a → ∃ t, exec (.poll l) s = .next t
      ∧ t.loop l = { lp with position := some a, polls := satAdd max16 lp.polls 1, inHand := true }
      ∧ (let p := s.panel (16 * l + a)
         let keys := (List.range 24).filter fun k => (p.presence == .joining || p.presence == .present
            || p.presence == .silent) && decide (k < p.keyCount) && (tget p.lamps k).marked
         Output.poll l a p.lastSeq (keys != [])
             ((List.range 4).map fun g => (tget s.call.gens g).phaseOn) ∈ t.sent
           ∧ (keys ≠ [] → Output.lamps l a (keys.map fun k => (k, (tget p.lamps k).lamp)) ∈ t.sent)
           ∧ Inv.panelSettings (t.panel (16 * l + a)) = Inv.panelSettings p
           ∧ ∀ k, k < 24 → tget (t.panel (16 * l + a)).lamps k
               = { tget p.lamps k with carried := keys.contains k })
      ∧ (∀ st, st < 64 → st ≠ 16 * l + a → t.panel st = s.panel st)
      ∧ (∀ x, x < 4 → x ≠ l → t.loop x = s.loop x)
      ∧ OnlyReports { s with loops := t.loops, panels := t.panels } t ∧ t.ev = s.ev)
    ∧ (lp.enabled = false ∨ lp.inHand = true ∨ (∀ a, ¬conf a) → exec (.poll l) s = .next s)
    ∧ (lp.enabled = true → ∃ t, exec (.badFrame l) s = .next t
        ∧ OnlyReports { s with loops := tset s.loops l { lp with bad := satAdd max16 lp.bad 1 } } t ∧ t.ev = s.ev)
    ∧ (lp.enabled = true → ∃ t, exec (.strayReply l) s = .next t
        ∧ OnlyReports { s with loops := tset s.loops l { lp with stray := satAdd max16 lp.stray 1 } } t ∧ t.ev = s.ev)
    ∧ (lp.enabled = false → exec (.badFrame l) s = .next s ∧ exec (.strayReply l) s = .next s)
    ∧ exec (.pollOrLampsReceived l) s = .next s

/-- Answers of the polled panel. A Hello is answered: Joining, sequence 7, no misses, every lamp below the key count
marked; from Present or Silent the station's keys are released first. An Idle reply or Report from a known panel makes
it Present and delivers the lamps carried; a Report with a new sequence hands its key changes on, a duplicate does not.
A presence change raises the loop's event. A missed poll counts; the third in a row makes Present Silent, the eighth
makes Silent or Joining Absent with the keys released. -/
def Obligations.PanelAnswers : Prop :=
  ∀ (l a : Nat) (s : State), l < 4 → a < 16 → s.reports = [] → (s.loop l).enabled = true →
    (s.loop l).inHand = true → (s.loop l).position = some a →
    let st := 16 * l + a
    let p := s.panel st
    let known : Prop := p.presence = .joining ∨ p.presence = .present ∨ p.presence = .silent
    let ended (t : State) : Prop := t.loop l = { s.loop l with inHand := false }
    let change (new : Presence) (why : Nat) : List Byte :=
      u8 a ++ u8 p.presence.ctorIdx ++ u8 new.ctorIdx ++ u8 why
    let released (t : State) : Prop := ∀ k, k < 24 → (t.key st k).pressed = false
    (∀ kind count, 1 ≤ count → count ≤ 24 → known ∨ p.presence = .absent →
        ∃ t, exec (.hello l kind count) s = .next t ∧ ended t
          ∧ (t.panel st).presence = .joining ∧ (t.panel st).lastSeq = some 7 ∧ (t.panel st).missed = 0
          ∧ (t.panel st).reported = some (kind, count) ∧ (t.panel st).keyCount = p.keyCount
          ∧ (∀ k, k < 24 → k < p.keyCount → (tget (t.panel st).lamps k).marked = true)
          ∧ (p.presence = .present ∨ p.presence = .silent → released t ∧ tget t.ev.details (3 + l) = change .joining 5)
          ∧ (p.presence = .absent → Raised (3 + l) (change .joining 1) s t)
          ∧ (p.presence = .joining → t.ev = s.ev))
    ∧ (known → ∃ t, exec (.idleReply l) s = .next t ∧ ended t
          ∧ Inv.panelSettings (t.panel st) = Inv.panelSettings { p with presence := .present, missed := 0 }
          ∧ (∀ k, k < 24 → (tget (t.panel st).lamps k).marked
              = ((tget p.lamps k).marked && !(tget p.lamps k).carried))
          ∧ (p.presence = .present → t.ev = s.ev)
          ∧ (p.presence ≠ .present → Raised (3 + l) (change .present 2) s t)
          ∧ OnlyReports { s with loops := t.loops, panels := t.panels } t)
    ∧ (p.presence = .absent → ∃ t, exec (.idleReply l) s = .next t
          ∧ t.loop l = { s.loop l with inHand := false, missed := satAdd max16 (s.loop l).missed 1 }
          ∧ (t.panel st).presence = .absent ∧ (t.panel st).missed = min 8 (p.missed + 1) ∧ t.ev = s.ev)
    ∧ (∀ q k press, known → q < 8 →
        (p.lastSeq = some q → exec (.report l q [(k, press)]) s = exec (.idleReply l) s)
        ∧ (p.lastSeq ≠ some q → ∃ t, exec (.report l q [(k, press)]) s = .next t ∧ ended t
            ∧ (t.panel st).presence = .present ∧ (t.panel st).lastSeq = some q ∧ (t.panel st).missed = 0
            ∧ (k < p.keyCount → s.hasKey st k = true →
                (t.key st k).pressed = press ∧ (t.panel st).outOfRange = p.outOfRange)
            ∧ (p.keyCount ≤ k → (t.panel st).outOfRange = satAdd max16 p.outOfRange 1)))
    ∧ (known ∨ p.presence = .absent → ∃ t, exec (.replyTimeout l) s = .next t
        ∧ t.loop l = { s.loop l with inHand := false, missed := satAdd max16 (s.loop l).missed 1 }
        ∧ (t.panel st).missed = min 8 (p.missed + 1)
        ∧ (p.presence = .present → p.missed < 2 → (t.panel st).presence = .present ∧ t.ev = s.ev)
        ∧ (p.presence = .present → 2 ≤ p.missed →
            (t.panel st).presence = .silent ∧ Raised (3 + l) (change .silent 3) s t)
        ∧ (p.presence = .silent ∨ p.presence = .joining → p.missed < 7 →
            (t.panel st).presence = p.presence ∧ t.ev = s.ev)
        ∧ (p.presence = .silent ∨ p.presence = .joining → 7 ≤ p.missed →
            (t.panel st).presence = .absent ∧ (t.panel st).lastSeq = none ∧ released t
              ∧ tget t.ev.details (3 + l) = change .absent 4)
        ∧ (p.presence = .absent → (t.panel st).presence = .absent ∧ t.ev = s.ev))

/-- PANEL.CONFIG: its checks, the three values written, an Unconfigured record gone Absent with 8 misses. Its clear
flag: an Unconfigured record stays as it is, any other goes back to its reset values, a known panel's keys released.
LOOP.CONFIG: its checks, the rate and the run state, the numbers of configured and of Present panels; disabling ends the
transaction and takes known panels to Absent, without an accepted sequence, their keys released. (That a loop or address
out of range gives no values is the model's choice, log entry 47.) -/
def Obligations.PanelOrders : Prop :=
  ∀ (l a mic speaker count : Nat) (enable : Bool) (rate : Option Nat) (s : State), s.reports = [] →
    let st := 16 * l + a
    let p := s.panel st
    let known (q : Panel) : Prop := q.presence = .joining ∨ q.presence = .present ∨ q.presence = .silent
    let c : Instr := .panelConfig l a mic speaker count
    let none255 (v : Nat) : Option Nat := if v = 255 then none else some v
    let badPanel : Prop := (127 < mic ∧ mic ≠ 255) ∨ (127 < speaker ∧ speaker ≠ 255) ∨ count = 0 ∨ 24 < count
    let badRate : Prop := ∃ v, rate = some v ∧ v ≠ 250 ∧ v ≠ 500 ∧ v ≠ 1000 ∧ v ≠ 2000
    let released (x : Nat) (t : State) : Prop := ∀ k, k < 24 → (t.key x k).pressed = false
    let number (f : Presence → Bool) (t : State) : Nat :=
      ((List.range 16).filter fun b => f (t.panel (16 * l + b)).presence).length
    let counts (t : State) : List Byte := u8 (number (· != .unconfigured) t) ++ u8 (number (· == .present) t)
    (CarriedOut c s →
      (3 < l ∨ 15 < a → exec c s = .next (finished (bare .badValue) s s))
      ∧ (l < 4 → a < 16 → badPanel → exec c s = .next (finished (one .badValue p.presence.ctorIdx) s s))
      ∧ (l < 4 → a < 16 → ¬badPanel → ∃ t, exec c s = .next t
          ∧ (t.panel st).mic = none255 mic ∧ (t.panel st).speaker = none255 speaker ∧ (t.panel st).keyCount = count
          ∧ t.exch.lastResult = some (one .done (t.panel st).presence.ctorIdx)
          ∧ (p.presence = .unconfigured → (t.panel st).presence = .absent ∧ (t.panel st).missed = 8
              ∧ (t.panel st).lastSeq = none ∧ (t.panel st).reported = none ∧ (t.panel st).outOfRange = 0
              ∧ tget t.ev.details (3 + l) = u8 a ++ u8 0 ++ u8 1 ++ u8 0)
          ∧ (p.presence ≠ .unconfigured → (t.panel st).presence = p.presence ∧ (t.panel st).missed = p.missed
              ∧ (t.panel st).lastSeq = p.lastSeq ∧ (t.panel st).reported = p.reported
              ∧ (t.panel st).outOfRange = p.outOfRange)
          ∧ (∀ k, k < 24 → (tget (t.panel st).lamps k).lamp = (tget p.lamps k).lamp
              ∧ (p.keyCount < count → k < count → (tget (t.panel st).lamps k).marked = true)
              ∧ (count ≤ k → (tget (t.panel st).lamps k).marked = false))
          ∧ ∀ x, x < 64 → x ≠ st → t.panel x = s.panel x))
    ∧ (CarriedOut (.panelConfigClear l a) s →
      (3 < l ∨ 15 < a → exec (.panelConfigClear l a) s = .next (finished (bare .badValue) s s))
      ∧ (l < 4 → a < 16 → p.presence = .unconfigured →
          exec (.panelConfigClear l a) s = .next (finished (one .done 0) s s))
      ∧ (l < 4 → a < 16 → p.presence ≠ .unconfigured → ∃ t, exec (.panelConfigClear l a) s = .next t
          ∧ (t.panel st).presence = .unconfigured ∧ (t.panel st).mic = none ∧ (t.panel st).speaker = none
          ∧ (t.panel st).keyCount = 24 ∧ (t.panel st).lastSeq = none ∧ (t.panel st).missed = 0
          ∧ (t.panel st).reported = none ∧ (t.panel st).outOfRange = 0
          ∧ (known p → released st t)
          ∧ tget t.ev.details (3 + l) = u8 a ++ u8 p.presence.ctorIdx ++ u8 0 ++ u8 6
          ∧ t.exch.lastResult = some (one .done 0)))
    ∧ (CarriedOut (.loopConfig l enable rate) s →
      (3 < l → exec (.loopConfig l enable rate) s = .next (finished (bare .badValue) s s))
      ∧ (l < 4 → badRate → exec (.loopConfig l enable rate) s
          = .next (finished { code := .badValue, values := counts s } s s))
      ∧ (l < 4 → ¬badRate → ∃ t, exec (.loopConfig l enable rate) s = .next t
          ∧ (t.loop l).enabled = enable ∧ (t.loop l).rate = rate.getD (s.loop l).rate
          ∧ (t.loop l).polls = (s.loop l).polls ∧ (t.loop l).missed = (s.loop l).missed
          ∧ (t.loop l).bad = (s.loop l).bad ∧ (t.loop l).stray = (s.loop l).stray
          ∧ ((s.loop l).enabled = enable → (t.loop l).position = (s.loop l).position
              ∧ (t.loop l).inHand = (s.loop l).inHand ∧ t.panels = s.panels)
          ∧ ((s.loop l).enabled ≠ enable → (t.loop l).position = none ∧ (t.loop l).inHand = false)
          ∧ ((s.loop l).enabled = true → enable = false → ∀ b, b < 16 → known (s.panel (16 * l + b)) →
              (t.panel (16 * l + b)).presence = .absent ∧ (t.panel (16 * l + b)).missed = 8
                ∧ (t.panel (16 * l + b)).lastSeq = none ∧ released (16 * l + b) t)
          ∧ t.exch.lastResult = some { code := .done, values := counts t }))

/-! ### Field links -/

/-- OFFER: one that breaks R116 is refused with BadProfile before any placement; with no session of the unit it is
placed by the third rule of R119 where the first two give no link, and the session is made; with no Vacant link it is
refused with NoSlot. A Refuse raises OfferRefused. (That a link event gives its reservation as 1 or 0 is the model's
choice, log entry 15.) -/
def Obligations.OffersTaken : Prop :=
  ∀ (p : Port) (a : Nat) (m : OfferMsg) (s : State), s.reports = [] →
    let fresh : Prop := ∀ k, k < 24 → (s.link k).session ≠ .vacant → (s.link k).session ≠ .closing →
      (s.link k).unit ≠ some m.unit
    let refused (why : RefuseReason) : Prop := ∃ t, exec (.offer p a m) s = .next t
      ∧ Output.linkMsg p a (.refuse m.unit m.number why) ∈ t.sent
      ∧ Raised 50 (u32 m.unit.toNat ++ u8 m.number ++ u8 p.ctorIdx ++ u8 why.ctorIdx ++ u8 255) s t
      ∧ { t with ev := s.ev, sent := s.sent, writeFaults := s.writeFaults } = s
    (m.blocks.length < m.nBlocks → readOffer m = none)
    ∧ ((∀ b, b ∈ m.blocks.take m.nBlocks → b.version = 1 → ∀ cs ds, b.body ≠ .formats cs ds) → readOffer m = none)
    ∧ (readOffer m = none → refused .badProfile)
    ∧ (∀ f prof, readOffer m = some (f, prof) → fresh →
      ((∀ k, k < 24 → (s.link k).session ≠ .vacant) → refused .noSlot)
      ∧ (∀ n codec frame, n < 24 →
          (∀ k, k < 24 → (s.link k).session = .vacant →
            (∀ x, (s.link k).reserved = some x → x.1 ≠ m.unit)
              ∧ ((s.link k).reserved = none → (s.link k).allowed ≠ some m.unit)) →
          (s.link n).session = .vacant → (s.link n).reserved = none → (s.link n).allowed = none →
          (s.link n).duty ≠ .held →
          (∀ k, k < n → ¬((s.link k).session = .vacant ∧ (s.link k).reserved = none ∧ (s.link k).allowed = none
            ∧ (s.link k).duty ≠ .held)) →
          chooseFormat (s.link n) f = some (codec, frame) →
          ∃ t, exec (.offer p a m) s = .next t
            ∧ Output.linkMsg p a (.accept m.unit m.number n codec frame) ∈ t.sent
            ∧ Raised (23 + n) (u8 0 ++ u8 1 ++ u8 0 ++ u32 m.unit.toNat ++ u8 0) s t
            ∧ OnlyReports { s with
                links := tset s.links n { s.link n with
                  session := .negotiating, unit := some m.unit, offer := some m.number
                  format := some (codec, frame), offered := some prof
                  effective := if prof.duty = false ∧ ((s.link n).duty = .wakeRest ∨ (s.link n).duty = .wakeStay)
                    then .always else (s.link n).duty
                  pathMain := if p = .main then some a else none
                  pathAlt := if p = .alternate then some a else none
                  keyStates := build 4 fun _ => false, lastRest := none, keySeq := none, latestPort := p
                  returnSeq := 0, counters := LinkCounters.zero
                  timers := { LinkTimers.stopped with negotiation := some (s.now + 2000) } }
                jits := tset s.jits n { tget s.jits n with
                  frames := [], duration := frame, selected := none, candidate := none, lastRemoved := none
                  playout := .off, instant := none, last := .silent, gap := 0, correction := 0
                  cause := some .concealing, lastReal := none, playing := [], primed := false }
                mix.returnBuf := tset s.mix.returnBuf n [] } t))

/-- What an Offer is read as, the format chosen, and where it is placed. A block that is not within the message, a first
Delay block with an unknown unit and more than four keys make it BadProfile; otherwise the first version 1 block of each
kind counts (R116). The codec is the first of the link's list that is offered, the frame the shortest offered one that is
long enough (R117). An Offer of a unit that holds a session is a copy, answered again in Negotiating and counted as a stray
message elsewhere, or a restart in the same link (R118). Any other goes to the link reserved for the unit, else to the
link that allows the unit alone, else to the third rule of `OffersTaken`; it is refused with Held, NoCommonFormat, Reserved
or NoSlot (R119). (The model's choices: a link event gives its reservation as 1 or 0, log entry 15; a copied Offer
outside Negotiating is counted in the record of the link whose session it copies, log entry 16; blocks beyond the count of
the Offer's header are not read, log entry 36; a restart whose format fails raises the old state to Vacant with Restarted,
log entry 47.) -/
def Obligations.OfferPlacement : Prop :=
  ∀ (p : Port) (a : Nat) (m : OfferMsg) (s : State), s.reports = [] →
    let bs := m.blocks.take m.nBlocks
    let v1 : List BlockBody := (bs.filter fun b => b.version == 1).map (·.body)
    let delay := v1.find? fun b => match b with | .delay _ _ _ => true | _ => false
    let keys := v1.find? fun b => match b with | .keys _ => true | _ => false
    let duty := v1.find? fun b => match b with | .duty _ => true | _ => false
    let formats := v1.find? fun b => match b with | .formats _ _ => true | _ => false
    let unitOk : Prop := ∀ c u x, delay = some (.delay c u x) → u = 1 ∨ u = 8 ∨ u = 64
    let keysOk : Prop := ∀ x, keys = some (.keys x) → x ≤ 4
    let holds (n : Nat) : Prop := ((s.link n).session ≠ .vacant ∧ (s.link n).session ≠ .closing)
      ∧ (s.link n).unit = some m.unit
    let vacant (n : Nat) : Prop := n < 24 ∧ (s.link n).session = .vacant
    let mine (n : Nat) : Prop := vacant n ∧ (s.link n).reserved.map (·.1) = some m.unit
    let allowed (n : Nat) : Prop := vacant n ∧ (s.link n).reserved = none ∧ (s.link n).allowed = some m.unit
    let anyone (n : Nat) : Prop := vacant n ∧ (s.link n).reserved = none ∧ (s.link n).allowed = none
      ∧ (s.link n).duty ≠ .held
    let first (rule : Nat → Prop) (n : Nat) : Prop := rule n ∧ ∀ k, k < n → ¬rule k
    let refused (why : RefuseReason) (link : Nat) : Prop := ∃ t, exec (.offer p a m) s = .next t
      ∧ Output.linkMsg p a (.refuse m.unit m.number why) ∈ t.sent
      ∧ Raised 50 (u32 m.unit.toNat ++ u8 m.number ++ u8 p.ctorIdx ++ u8 why.ctorIdx ++ u8 link) s t
      ∧ { t with ev := s.ev, sent := s.sent, writeFaults := s.writeFaults } = s
    let made (n old why : Nat) (codec : Codec) (frame : Nat) (t : State) : Prop := exec (.offer p a m) s = .next t
      ∧ Output.linkMsg p a (.accept m.unit m.number n codec frame) ∈ t.sent
      ∧ (t.link n).session = .negotiating ∧ (t.link n).unit = some m.unit ∧ (t.link n).offer = some m.number
      ∧ (t.link n).format = some (codec, frame) ∧ (t.link n).reserved = none ∧ (t.link n).path p = some a
      ∧ (t.link n).timers = { LinkTimers.stopped with negotiation := some (s.now + 2000) }
      ∧ tget t.ev.details (23 + n) = u8 old ++ u8 1 ++ u8 why ++ u32 m.unit.toNat ++ u8 0 ∧ Inv.SameSettings s t
    ((∃ b, b ∈ bs ∧ b.framing ≠ .within) ∨ ¬unitOk ∨ ¬keysOk ∨ formats = none ∨ m.blocks.length < m.nBlocks →
      readOffer m = none)
    ∧ (∀ cs ds, m.nBlocks ≤ m.blocks.length → (∀ b, b ∈ bs → b.framing = .within) → unitOk → keysOk →
        formats = some (.formats cs ds) →
        readOffer m = some ((cs.filterMap id, ds.filter fun d => d == 2 || d == 4 || d == 8),
          { delay := match delay with | some (.delay c u x) => some ((c + 1) * u, 2 * (x + 1) * ((c + 1) * u)) | _ => none
            keys := match keys with | some (.keys x) => x | _ => 0
            duty := match duty with | some (.duty x) => x | _ => false }))
    ∧ (∀ (l : Link) (cs : List Codec) (ds : List Nat),
        (∀ before c after d, l.codecs = before ++ c :: after → c ∈ cs → (∀ x, x ∈ before → x ∉ cs) →
          d ∈ ds → d = 2 ∨ d = 4 ∨ d = 8 → l.minFrame ≤ d →
          (∀ x, x ∈ ds → x = 2 ∨ x = 4 ∨ x = 8 → l.minFrame ≤ x → d ≤ x) → chooseFormat l (cs, ds) = some (c, d))
        ∧ ((∀ c, c ∈ l.codecs → c ∉ cs) ∨ (∀ d, d ∈ ds → d = 2 ∨ d = 4 ∨ d = 8 → d < l.minFrame) →
            chooseFormat l (cs, ds) = none))
    ∧ (∀ f prof, readOffer m = some (f, prof) →
      (∀ n, n < 24 → first holds n →
        let l := s.link n
        let here : Link := match p with
          | .main => { l with pathMain := some a, latestPort := .main }
          | .alternate => { l with pathAlt := some a, latestPort := .alternate }
        let up (c : PortCounters) : PortCounters := { c with stray := satAdd max32 c.stray 1 }
        (∀ codec frame, l.offer = some m.number → l.session = .negotiating → l.format = some (codec, frame) →
            ∃ t, exec (.offer p a m) s = .next t ∧ Output.linkMsg p a (.accept m.unit m.number n codec frame) ∈ t.sent
              ∧ OnlyReports { s with links := tset s.links n here } t ∧ t.ev = s.ev)
        ∧ (l.offer = some m.number → l.session ≠ .negotiating → ∃ t, exec (.offer p a m) s = .next t
              ∧ OnlyReports { s with links := tset s.links n { l with counters := match p with
                  | .main => { l.counters with mainPort := up l.counters.mainPort }
                  | .alternate => { l.counters with altPort := up l.counters.altPort } } } t ∧ t.ev = s.ev)
        ∧ (∀ codec frame, l.offer ≠ some m.number → chooseFormat l f = some (codec, frame) →
            ∃ t, made n l.session.eventCode 12 codec frame t ∧ (tget t.jits n).frames = []
              ∧ ∀ k, k < 4 → (t.key (64 + n) k).pressed = false)
        ∧ (l.offer ≠ some m.number → chooseFormat l f = none → ∃ t, exec (.offer p a m) s = .next t
            ∧ (t.link n).session = .vacant ∧ (t.link n).unit = none ∧ (t.link n).timers = LinkTimers.stopped
            ∧ (t.link n).reserved = l.reserved ∧ Output.linkMsg p a (.refuse m.unit m.number .noCommonFormat) ∈ t.sent
            ∧ tget t.ev.details (23 + n) = u8 l.session.eventCode ++ u8 0 ++ u8 12 ++ u32 m.unit.toNat
                ++ uFlag l.reserved.isSome
            ∧ tget t.ev.details 50 = u32 m.unit.toNat ++ u8 m.number ++ u8 p.ctorIdx
                ++ u8 RefuseReason.noCommonFormat.ctorIdx ++ u8 n))
      ∧ ((∀ n, n < 24 → ¬holds n) →
        (∀ n, first mine n ∨ ((∀ k, ¬mine k) ∧ first allowed n) →
          ((s.link n).duty = .held → refused .held n)
          ∧ ((s.link n).duty ≠ .held → chooseFormat (s.link n) f = none → refused .noCommonFormat n)
          ∧ (∀ codec frame, (s.link n).duty ≠ .held → chooseFormat (s.link n) f = some (codec, frame) →
              ∃ t, made n 0 0 codec frame t ∧ ∀ k, k < 24 → k ≠ n → t.link k = s.link k))
        ∧ (∀ n, (∀ k, ¬mine k ∧ ¬allowed k) → first anyone n → chooseFormat (s.link n) f = none →
            refused .noCommonFormat n)
        ∧ ((∀ k, ¬mine k ∧ ¬allowed k ∧ ¬anyone k) →
            let kept : Prop := ∃ k u, vacant k ∧ (s.link k).duty ≠ .held ∧ (s.link k).reserved = some u ∧ u.1 ≠ m.unit
              ∧ ((s.link k).allowed = none ∨ (s.link k).allowed = some m.unit)
            (kept → refused .reserved 255) ∧ (¬kept → refused .noSlot 255))))

/-- Messages of a session: one that finds no session of its unit, or a state that does not take it, is counted as a
stray message and nothing else changes (its counter with no such link: log entry 16). The first Audio takes a link Live,
and under Paused or WakeRest on to Resting with Rest sent; under WakeRest what activity there is takes it on from there by
R132, said in full where no report stands (as between commands, log entry 34) and no channel is Armed, since the start of a
cue could end that activity again. Audio in Waking takes the link Live; in Resting it does so under WakeRest and WakeStay,
without Wake, and under Paused its payload is dropped and counted, its keys are taken, and Rest is sent again where the last
is 1 s old. A Keepalive records the path and hands on the keys that differ, in Resting and Waking it restarts the silence
timer, and a key newly pressed wakes a Resting link under WakeRest or WakeStay. A CloseAck ends a Closing session (R114,
R115, R123, R124, R126 to R128). (That a link event gives its reservation as 1 or 0 is the model's choice, log entry 15.) -/
def Obligations.LinkMessages : Prop :=
  ∀ (e : Envelope) (q quality : Nat) (ks : KeyStates) (pl : List Byte) (s : State),
    let n := e.link
    let l := s.link n
    let held : Prop := n < 24 ∧ l.unit = some e.unit
    let up (c : PortCounters) : PortCounters := { c with stray := satAdd max32 c.stray 1 }
    let stray (t : State) : Prop := t.ev = s.ev
      ∧ (n < 24 → OnlyReports { s with links := tset s.links n { l with counters := match e.port with
          | .main => { l.counters with mainPort := up l.counters.mainPort }
          | .alternate => { l.counters with altPort := up l.counters.altPort } } } t)
      ∧ (24 ≤ n → t = match e.port with
          | .main => { s with strayMain := satAdd max32 s.strayMain 1 }
          | .alternate => { s with strayAlt := satAdd max32 s.strayAlt 1 })
    let path (t : State) : Prop := (t.link n).path e.port = some e.source ∧ (t.link n).latestPort = e.port
    let j := tget s.jits n
    let older (x y : Nat) : Prop := 1 ≤ (y + 65536 - x) % 65536 ∧ (y + 65536 - x) % 65536 ≤ 32767
    let newer : Prop := l.keySeq = none ∨ ∃ z, l.keySeq = some z ∧ older z q
    let keysTaken (t : State) : Prop :=
      (∀ k, k < 4 → tget (t.link n).keyStates k = if k < l.keyCount then tget ks k else tget l.keyStates k)
        ∧ ∀ k, k < 4 → k < l.keyCount → tget ks k ≠ tget l.keyStates k → s.hasKey (64 + n) k = true →
            (t.key (64 + n) k).pressed = tget ks k
    let change (old new why : Nat) : List Byte :=
      u8 old ++ u8 new ++ u8 why ++ u32 e.unit.toNat ++ uFlag l.reserved.isSome
    let sentTo (t : State) (m : LinkMsg) : Prop := ∀ p a, (t.link n).path p = some a → Output.linkMsg p a m ∈ t.sent
    let rests (t : State) : Prop := (t.link n).session = .resting
      ∧ (t.link n).timers = { LinkTimers.stopped with silence := some (s.now + 3000), keepalive := some (s.now + 1000) }
      ∧ (tget t.jits n).playout = .off ∧ (tget t.jits n).frames = []
      ∧ (tget t.mat.sources (128 + n)).cause = some .notLive ∧ tget t.ev.details (23 + n) = change 2 4 7
    (¬held ∨ l.session = .closing → (∃ t, exec (.audio e q quality ks pl) s = .next t ∧ stray t)
        ∧ ∃ t, exec (.keepalive e ks) s = .next t ∧ stray t)
    ∧ (¬held ∨ l.session ≠ .closing → ∃ t, exec (.closeAck e) s = .next t ∧ stray t)
    ∧ (∃ t, exec (.strayMessage e.port n) s = .next t ∧ stray t)
    ∧ (held → l.session = .negotiating → l.effective = .always ∨ l.effective = .wakeStay →
        (tget s.jits n).playout = .off → ∃ t, exec (.audio e q quality ks pl) s = .next t
          ∧ (t.link n).session = .live ∧ (t.link n).timers = LinkTimers.stopped ∧ path t
          ∧ (tget t.jits n).playout = .priming ∧ (tget t.jits n).instant = some (s.now + (tget s.jits n).duration)
          ∧ (tget t.mat.sources (128 + n)).cause = (tget t.jits n).cause
          ∧ tget t.ev.details (23 + n) = u8 1 ++ u8 2 ++ u8 1 ++ u32 e.unit.toNat ++ uFlag l.reserved.isSome
          ∧ t.exch = s.exch ∧ Inv.SameSettings s t)
    ∧ (held → l.session = .live ∨ l.session = .fading ∨ l.session = .negotiating →
        ∃ t, exec (.keepalive e ks) s = .next t
          ∧ (t.link n).session = l.session ∧ path t
          ∧ (∀ k, k < 4 → tget (t.link n).keyStates k
              = if k < l.keyCount then tget ks k else tget l.keyStates k)
          ∧ (∀ k, k < 4 → k < l.keyCount → tget ks k ≠ tget l.keyStates k → s.hasKey (64 + n) k = true →
              (t.key (64 + n) k).pressed = tget ks k)
          ∧ t.exch = s.exch ∧ Inv.SameSettings s t)
    ∧ (held → l.session = .resting ∨ l.session = .waking → ∃ t, exec (.keepalive e ks) s = .next t
          ∧ path t ∧ keysTaken t ∧ t.exch = s.exch ∧ Inv.SameSettings s t
          ∧ (l.session = .waking ∨ (l.effective ≠ .wakeRest ∧ l.effective ≠ .wakeStay) →
              (t.link n).session = l.session ∧ (t.link n).timers = { l.timers with silence := some (s.now + 3000) })
          ∧ (∀ k, l.session = .resting → l.effective = .wakeRest ∨ l.effective = .wakeStay → l.fromLink = false →
              (∀ i, i < 4 → tget l.keyStates i = false) →
              k < 4 → k < l.keyCount → tget ks k = true → s.hasKey (64 + n) k = true →
              (t.link n).session = .live ∧ tget t.ev.details (23 + n) = change 4 2 8
                ∧ (l.takesDuty = true → sentTo t (.wake e.unit n))))
    ∧ (held → l.session = .waking ∨ (l.session = .resting ∧ (l.effective = .wakeRest ∨ l.effective = .wakeStay)) →
        j.playout = .off → ∃ t, exec (.audio e q quality ks pl) s = .next t
          ∧ (t.link n).session = .live ∧ path t ∧ (newer → keysTaken t ∧ (t.link n).keySeq = some q)
          ∧ (t.link n).timers = { LinkTimers.stopped with linger := (t.link n).timers.linger }
          ∧ (l.effective ≠ .wakeRest → (t.link n).timers.linger = none)
          ∧ (tget t.jits n).playout = .priming ∧ (tget t.jits n).instant = some (s.now + j.duration)
          ∧ (tget t.mat.sources (128 + n)).cause = (tget t.jits n).cause
          ∧ tget t.ev.details (23 + n) = change (if l.session = .waking then 5 else 4) 2 8
          ∧ (∀ p a u, Output.linkMsg p a (.wake u n) ∈ t.sent → Output.linkMsg p a (.wake u n) ∈ s.sent)
          ∧ (∀ codec frame, l.format = some (codec, frame) → j.frames = [] → 0 < j.duration → quality < 4 →
              (∀ p, j.selected = some p → p < 4) → (∀ k, k < 4 → 1 ≤ (tget j.profiles k).maximum) →
              (∀ z, j.lastRemoved = some z → z ≠ q ∧ ¬older q z) →
              pl.length = (match codec with | .linear24 => 144 * frame | .linear16 => 96 * frame | .compactLD => 8 * frame) →
              (tget t.jits n).frames = [{ seq := q, quality := quality, port := e.port, payload := pl }])
          ∧ t.exch = s.exch ∧ Inv.SameSettings s t)
    ∧ (held → l.session = .resting → l.effective = .paused → ∃ t, exec (.audio e q quality ks pl) s = .next t
          ∧ (t.link n).session = .resting ∧ path t ∧ (newer → keysTaken t ∧ (t.link n).keySeq = some q)
          ∧ (t.link n).timers = { l.timers with silence := some (s.now + 3000) }
          ∧ (t.link n).counters = { l.counters with paused := satAdd max32 l.counters.paused 1 }
          ∧ tget t.jits n = j ∧ tget t.ev.details (23 + n) = tget s.ev.details (23 + n)
          ∧ (∀ v, l.lastRest = some v →
              (v + 1000 ≤ s.now → l.takesDuty = true → sentTo t (.rest e.unit n) ∧ (t.link n).lastRest = some s.now)
              ∧ (s.now < v + 1000 ∨ l.takesDuty = false → (t.link n).lastRest = some v
                  ∧ ∀ p a u, Output.linkMsg p a (.rest u n) ∈ t.sent → Output.linkMsg p a (.rest u n) ∈ s.sent))
          ∧ t.exch = s.exch ∧ Inv.SameSettings s t)
    ∧ (held → l.session = .negotiating → l.effective = .paused ∨ l.effective = .wakeRest → j.playout = .off →
        ∃ t, exec (.audio e q quality ks pl) s = .next t
          ∧ path t ∧ (newer → keysTaken t ∧ (t.link n).keySeq = some q)
          ∧ (l.takesDuty = true → sentTo t (.rest e.unit n) ∧ (t.link n).lastRest = some s.now)
          ∧ (l.effective = .paused → rests t)
          ∧ (l.effective = .wakeRest →
              (t.link n).session = .resting ∨ (t.link n).session = .live ∨ (t.link n).session = .waking)
          ∧ (l.effective = .wakeRest → s.reports = [] → NoneArmed s →
              ((t.link n).fromLink = false → (t.link n).toward = false → rests t)
              ∧ ((t.link n).fromLink = true →
                  (t.link n).session = .live ∧ tget t.ev.details (23 + n) = change 4 2 8
                    ∧ (l.takesDuty = true → sentTo t (.wake e.unit n)))
              ∧ ((t.link n).fromLink = false → (t.link n).toward = true →
                  (t.link n).session = .waking ∧ tget t.ev.details (23 + n) = change 4 5 15
                    ∧ (l.takesDuty = true → sentTo t (.wake e.unit n))))
          ∧ t.exch = s.exch ∧ Inv.SameSettings s t)
    ∧ (held → l.session = .closing → ∃ t, exec (.closeAck e) s = .next t
          ∧ (t.link n).session = .vacant ∧ (t.link n).unit = none ∧ (t.link n).timers = LinkTimers.stopped
          ∧ (t.link n).reserved = l.reserved ∧ (t.link n).counters = l.counters
          ∧ (∀ k, k < 4 → (t.key (64 + n) k).pressed = false)
          ∧ tget t.ev.details (23 + n) = u8 6 ++ u8 0 ++ u8 10 ++ u32 e.unit.toNat ++ uFlag l.reserved.isSome
          ∧ t.exch = s.exch ∧ Inv.SameSettings s t)

/-- The timers of a link, which act only when they run and have run out (log entry 3): negotiation, recovery, silence
and close end the session, with the reservation Table 6-7 gives; linger rests the link; a failed wake goes back to
Resting and wakes again while there is activity toward it; the keepalive is sent once a second; a reservation goes. (That
a link event gives its reservation as 1 or 0 is the model's choice, log entry 15.) -/
def Obligations.LinkTimerExpiries : Prop :=
  ∀ (n : Nat) (s : State), n < 24 →
    let l := s.link n
    let due (x : Option Nat) : Prop := ∃ v, x = some v ∧ v ≤ s.now
    let kept (t : State) : Prop := t.exch = s.exch ∧ Inv.SameSettings s t
    let rejoin : Option (Word32 × Nat) :=
      if 0 < l.rejoin then some (l.unit.getD 0, s.now + 1000 * l.rejoin) else l.reserved
    let event (old new why : Nat) (res : Bool) : List Byte :=
      u8 old ++ u8 new ++ u8 why ++ u32 (l.unit.getD 0).toNat ++ uFlag res
    let ended (why : Nat) (res : Option (Word32 × Nat)) (t : State) : Prop :=
      (t.link n).session = .vacant ∧ (t.link n).reserved = res ∧ (t.link n).unit = none ∧ (t.link n).offer = none
        ∧ (t.link n).format = none ∧ (t.link n).offered = none ∧ (t.link n).pathMain = none
        ∧ (t.link n).pathAlt = none ∧ (t.link n).timers = LinkTimers.stopped
        ∧ (∀ k, k < 4 → tget (t.link n).keyStates k = false ∧ (t.key (64 + n) k).pressed = false)
        ∧ (tget t.jits n).frames = [] ∧ (tget t.jits n).playout = .off
        ∧ tget t.ev.details (23 + n) = event l.session.eventCode 0 why res.isSome ∧ kept t
    (l.session = .negotiating → due l.timers.negotiation →
        ∃ t, exec (.negotiationTimerExpiry n) s = .next t ∧ ended 2 l.reserved t)
    ∧ (l.session = .fading → due l.timers.recovery →
        ∃ t, exec (.recoveryTimerExpiry n) s = .next t ∧ ended 5 rejoin t)
    ∧ (l.session = .resting ∨ l.session = .waking → due l.timers.silence →
        ∃ t, exec (.silenceTimerExpiry n) s = .next t ∧ ended 6 rejoin t)
    ∧ (l.session = .closing → due l.timers.close →
        ∃ t, exec (.closeTimerExpiry n) s = .next t ∧ ended 11 l.reserved t)
    ∧ (l.session = .live → l.effective = .wakeRest → l.toward = false → l.fromLink = false → due l.timers.linger →
        ∃ t, exec (.lingerTimerExpiry n) s = .next t ∧ (t.link n).session = .resting
          ∧ (t.link n).timers = { LinkTimers.stopped with
              silence := some (s.now + 3000), keepalive := some (s.now + 1000) }
          ∧ (tget t.jits n).frames = [] ∧ (tget t.jits n).playout = .off
          ∧ (tget t.mat.sources (128 + n)).cause = some .notLive
          ∧ (l.takesDuty = true → ∀ p a, l.path p = some a → Output.linkMsg p a (.rest (l.unit.getD 0) n) ∈ t.sent)
          ∧ tget t.ev.details (23 + n) = event 2 4 7 l.reserved.isSome ∧ kept t)
    ∧ (l.session = .waking → l.effective = .wakeRest ∨ l.effective = .wakeStay → l.fromLink = false →
        due l.timers.wake → ∃ t, exec (.wakeTimerExpiry n) s = .next t
          ∧ (t.link n).timers.silence = l.timers.silence
          ∧ (l.toward = false → (t.link n).session = .resting
              ∧ (t.link n).timers.keepalive = some (s.now + 1000)
              ∧ tget t.ev.details (23 + n) = event 5 4 9 l.reserved.isSome)
          ∧ (l.toward = true → (t.link n).session = .waking ∧ (t.link n).timers.wake = some (s.now + 2000)
              ∧ (l.takesDuty = true → ∀ p a, l.path p = some a →
                  Output.linkMsg p a (.wake (l.unit.getD 0) n) ∈ t.sent)
              ∧ tget t.ev.details (23 + n) = event 4 5 15 l.reserved.isSome)
          ∧ kept t)
    ∧ (∀ x, l.session = .resting → l.timers.keepalive = some x → x ≤ s.now →
        ∃ t, exec (.keepaliveTimerExpiry n) s = .next t
          ∧ (∀ p a, l.path p = some a →
              Output.linkMsg p a (.keepalive (l.unit.getD 0) n (talliesOf s n)) ∈ t.sent)
          ∧ OnlyReports { s with links := tset s.links n { l with
              timers := { l.timers with keepalive := some (x + 1000) } } } t ∧ t.ev = s.ev)
    ∧ (∀ u x, l.reserved = some (u, x) → x ≤ s.now → ∃ t, exec (.reservationTimerExpiry n) s = .next t
          ∧ OnlyReports { s with links := tset s.links n { l with reserved := none } } t ∧ t.ev = s.ev)
    ∧ (NotDue l.timers.negotiation s.now → exec (.negotiationTimerExpiry n) s = .next s)
    ∧ (NotDue l.timers.recovery s.now → exec (.recoveryTimerExpiry n) s = .next s)
    ∧ (NotDue l.timers.silence s.now → exec (.silenceTimerExpiry n) s = .next s)
    ∧ (NotDue l.timers.close s.now → exec (.closeTimerExpiry n) s = .next s)
    ∧ (NotDue l.timers.linger s.now → exec (.lingerTimerExpiry n) s = .next s)
    ∧ (NotDue l.timers.wake s.now → exec (.wakeTimerExpiry n) s = .next s)
    ∧ (NotDue l.timers.keepalive s.now → exec (.keepaliveTimerExpiry n) s = .next s)
    ∧ (NotDue (l.reserved.map (·.2)) s.now → exec (.reservationTimerExpiry n) s = .next s)

/-- Orders on a link: LINK.CONFIG writes the present fields together; LINK.DUTY writes the mode and the effective mode,
Always where a unit without Duty is given WakeRest or WakeStay (R117), and acts on the session by Table 6-10; LINK.CLOSE
closes a session and is WrongState on a Vacant link; LINK.PROFILES writes a profile, and that of the profile selected in a
session takes the frames above its maximum depth as late and gives the playout cause at once; LINK.RESERVE.CLEAR clears the
reservation; values out of range are BadValue. (The model's choices: a link above 23 gives no values, log entry 47; the
session state as a result value is coded by Table 6-4, and a reservation in a link event is 1 or 0, log entry
15; an allowed unit above 32 bits is taken by its low 32 bits, log entry 53; of two sequences 32768 apart the old last
removed one stays, log entry 58.) -/
def Obligations.LinkOrders : Prop :=
  ∀ (n : Nat) (s : State),
    let l := s.link n
    let live : Prop := l.session = .negotiating ∨ l.session = .live ∨ l.session = .resting ∨ l.session = .waking
      ∨ l.session = .fading
    let link (x : Link) : State := { s with links := tset s.links n x }
    let ends (c : Instr) (r : Result) (x : Link) : Prop :=
      ∃ u, exec c s = .next (finished r u s) ∧ OnlyReports (link x) u ∧ u.ev = s.ev
    let closing (c : Instr) (why : Nat) : Prop := ∃ t, exec c s = .next t
      ∧ (t.link n).session = .closing ∧ (t.link n).timers = { LinkTimers.stopped with close := some (s.now + 500) }
      ∧ (∀ p a, l.path p = some a → Output.linkMsg p a (.close (l.unit.getD 0) n) ∈ t.sent)
      ∧ (l.session = .live → (tget t.mat.sources (128 + n)).cause = some .notLive ∧ (tget t.jits n).frames = [])
      ∧ tget t.ev.details (23 + n) = u8 l.session.eventCode ++ u8 6 ++ u8 why ++ u32 (l.unit.getD 0).toNat
          ++ uFlag l.reserved.isSome
      ∧ t.exch.lastResult = some (one .done 6)
    (∀ allowed codecs mf du lo rc rj li,
      let c : Instr := .linkConfig n allowed codecs mf du lo rc rj li
      let ok : Prop := (∀ x, codecs = some x → (codecListOf x).isSome = true)
        ∧ (∀ v, mf = some v → v = 2 ∨ v = 4 ∨ v = 8) ∧ (∀ v, du = some v → v ≤ 1)
        ∧ (∀ v, lo = some v → 40 ≤ v ∧ v ≤ 2000) ∧ (∀ v, rc = some v → v ≤ 10000 ∧ v % 100 = 0)
        ∧ (∀ v, rj = some v → v ≤ 300) ∧ (∀ v, li = some v → 1 ≤ v ∧ v ≤ 60)
      CarriedOut c s →
        (23 < n → exec c s = .next (finished (bare .badValue) s s))
        ∧ (n < 24 → ¬ok → exec c s = .next (finished (one .badValue l.session.ctorIdx) s s))
        ∧ (n < 24 → ok → ends c (one .done l.session.ctorIdx) { l with
            allowed := match allowed with | none => l.allowed | some v => allowedOf v
            codecs := (codecs.bind codecListOf).getD l.codecs, minFrame := mf.getD l.minFrame
            dual := match du with | none => l.dual | some v => v == 1
            loss := lo.getD l.loss, recovery := rc.getD l.recovery, rejoin := rj.getD l.rejoin
            linger := li.getD l.linger }))
    ∧ (∀ mode d, dutyOf mode = some d → CarriedOut (.linkDuty n mode) s → n < 24 →
        let f : Duty := if (d = .wakeRest ∨ d = .wakeStay) ∧ l.offered.isSome = true ∧ l.takesDuty = false then .always else d
        let woken (old new why code : Nat) : Prop := ∃ t, exec (.linkDuty n mode) s = .next t
          ∧ (t.link n).duty = d ∧ (t.link n).effective = f ∧ (t.link n).session.ctorIdx = code
          ∧ (code = 4 → (t.link n).timers
              = { LinkTimers.stopped with wake := some (s.now + 2000), silence := l.timers.silence })
          ∧ (l.takesDuty = true → ∀ p a, l.path p = some a → Output.linkMsg p a (.wake (l.unit.getD 0) n) ∈ t.sent)
          ∧ tget t.ev.details (23 + n) = u8 old ++ u8 new ++ u8 why ++ u32 (l.unit.getD 0).toNat
              ++ uFlag l.reserved.isSome
          ∧ t.exch.lastResult = some (one .done code)
        (d = l.duty → exec (.linkDuty n mode) s = .next (finished (one .done l.session.ctorIdx) s s))
        ∧ (d ≠ l.duty → l.session = .vacant ∨ l.session = .closing → ends (.linkDuty n mode)
            (one .done l.session.ctorIdx) { l with duty := d, effective := f })
        ∧ (d ≠ l.duty → d = .held → live → closing (.linkDuty n mode) 13)
        ∧ (d ≠ l.duty → f = .always ∨ f = .wakeStay → l.session = .live → ends (.linkDuty n mode) (one .done 2)
            { l with duty := d, effective := f, timers := { l.timers with linger := none } })
        ∧ (d ≠ l.duty → f = .wakeRest → l.session = .live → ends (.linkDuty n mode) (one .done 2)
            { l with duty := d, effective := f, timers := { l.timers with
                linger := if l.toward = false ∧ l.fromLink = false then some (s.now + 1000 * l.linger) else none } })
        ∧ (d ≠ l.duty → f = .always → l.session = .resting → woken 4 5 13 4)
        ∧ (d ≠ l.duty → f = .wakeRest ∨ f = .wakeStay → l.session = .resting →
            (l.fromLink = true → woken 4 2 8 2)
            ∧ (l.fromLink = false → l.toward = true → woken 4 5 13 4)
            ∧ (l.fromLink = false → l.toward = false → ends (.linkDuty n mode) (one .done 3)
                { l with duty := d, effective := f }))
        ∧ (d ≠ l.duty → (f ≠ .held ∧ f ≠ .paused ∧ l.session = .waking) ∨ (f = .paused ∧ l.session = .resting)
            ∨ (f ≠ .held ∧ (l.session = .negotiating ∨ l.session = .fading)) → ends (.linkDuty n mode)
            (one .done l.session.ctorIdx) { l with duty := d, effective := f })
        ∧ (d ≠ l.duty → d = .paused → l.session = .live ∨ l.session = .waking →
            ∃ t, exec (.linkDuty n mode) s = .next t ∧ (t.link n).session = .resting ∧ (t.link n).duty = .paused
              ∧ (l.session = .waking → (t.link n).timers.silence = l.timers.silence)
              ∧ (l.session = .live → (t.link n).timers.silence = some (s.now + 3000))
              ∧ t.exch.lastResult = some (one .done 3)))
    ∧ (∀ mode, CarriedOut (.linkDuty n mode) s →
        (23 < n → exec (.linkDuty n mode) s = .next (finished (bare .badValue) s s))
        ∧ (n < 24 → 4 < mode →
            exec (.linkDuty n mode) s = .next (finished (one .badValue l.session.ctorIdx) s s)))
    ∧ (CarriedOut (.linkClose n) s →
        (23 < n → exec (.linkClose n) s = .next (finished (bare .badValue) s s))
        ∧ (n < 24 → l.session = .vacant → exec (.linkClose n) s = .next (finished (one .wrongState 0) s s))
        ∧ (n < 24 → l.session = .closing → exec (.linkClose n) s = .next (finished (one .done 6) s s))
        ∧ (n < 24 → live → closing (.linkClose n) 14))
    ∧ (∀ p tg mi ma co us,
      let c : Instr := .linkProfiles n p tg mi ma co us
      let ok : Prop := p ≤ 3 ∧ tg % 2 = 0 ∧ mi % 2 = 0 ∧ ma % 2 = 0 ∧ 1 ≤ tg ∧ tg ≤ 256 ∧ ma ≤ 256 ∧ mi ≤ tg ∧ tg ≤ ma
        ∧ co ≤ 1 ∧ us ≤ 1
      let j := tget s.jits n
      let shown : List Byte := uOpt 1 j.selected ++ u16 (j.frames.length * j.duration)
      let prof : Profile := { target := tg, minimum := mi, maximum := ma
                              concealment := if co = 0 then .repeatFade else .silence, usable := us == 1 }
      CarriedOut c s →
        (23 < n → exec c s = .next (finished (bare .badValue) s s))
        ∧ (n < 24 → ¬ok → exec c s = .next (finished { code := .badValue, values := shown } s s))
        ∧ (n < 24 → ok → j.selected ≠ some p ∨ (l.session = .vacant ∧ j.frames = []) →
            exec c s = .next (finished { code := .done, values := shown }
              { s with jits := tset s.jits n { j with profiles := tset j.profiles p prof } } s))
        ∧ (n < 24 → ok → j.selected = some p → l.session ≠ .vacant →
            let most := (ma + j.duration - 1) / j.duration
            let gone := j.frames.take (j.frames.length - most)
            let left := j.frames.drop (j.frames.length - most)
            let newest (o : Option Nat) (x : Frame) : Option Nat := some (match o with
              | none => x.seq
              | some z => if 1 ≤ (x.seq + 65536 - z) % 65536 ∧ (x.seq + 65536 - z) % 65536 ≤ 32767 then x.seq else z)
            let port (pt : Port) (c : LinkCounters) : PortCounters := match pt with | .main => c.mainPort | .alternate => c.altPort
            let cause : Option Cause := if us = 0 then some .profileUnusable
              else if j.cause = some .profileUnusable then (if j.last = .real then none else some .concealing) else j.cause
            ∃ t, exec c s = .next t
              ∧ tget t.jits n = { j with
                  profiles := tset j.profiles p prof, frames := left, lastRemoved := gone.foldl newest j.lastRemoved
                  cause := cause }
              ∧ (l.session = .live → cause ≠ j.cause → (tget t.mat.sources (128 + n)).cause = cause)
              ∧ (l.session ≠ .live ∨ cause = j.cause → t.mat.sources = s.mat.sources)
              ∧ (∀ pt, (port pt l.counters).late ≤ max32 → (port pt (t.link n).counters).late
                  = min max32 ((port pt l.counters).late + (gone.filter fun x => decide (x.port = pt)).length))
              ∧ (t.link n).session = l.session
              ∧ t.exch.lastResult = some { code := .done, values := uOpt 1 (some p) ++ u16 (left.length * j.duration) }))
    ∧ (CarriedOut (.linkReserveClear n) s →
        (23 < n → exec (.linkReserveClear n) s = .next (finished (bare .badValue) s s))
        ∧ (n < 24 → ends (.linkReserveClear n) { code := .done, values := uFlag l.reserved.isSome }
            { l with reserved := none }))

/-- An Audio message of a Live or Fading session. Its payload is counted; one of a wrong length is a stray message, one
with the last removed or a held sequence a duplicate, one older than the last removed late; any other is kept at its place.
The kept frame's quality code selects the first profile, clears the candidate, starts or goes on with one, and with the
third in a row switches; then the oldest frames above the selected profile's maximum depth are removed as late (R138 to
R140, R143). Its key states are taken only with a newer sequence (R115). (A frame's place among sequences so far apart that
they have no order, and the last removed sequence there, is log entry 58.) -/
def Obligations.AudioArrives : Prop :=
  ∀ (e : Envelope) (q quality frame : Nat) (codec : Codec) (ks : KeyStates) (pl : List Byte) (s : State),
    let n := e.link
    let l := s.link n
    let j := tget s.jits n
    n < 24 → l.unit = some e.unit → l.session = .live ∨ l.session = .fading → l.format = some (codec, frame) →
    quality < 4 →
    let older (x y : Nat) : Prop := 1 ≤ (y + 65536 - x) % 65536 ∧ (y + 65536 - x) % 65536 ≤ 32767
    let bytes : Nat := match codec with | .linear24 => 144 * frame | .linear16 => 96 * frame | .compactLD => 8 * frame
    let f : Frame := { seq := q, quality := quality, port := e.port, payload := pl }
    let port (p : Port) (c : LinkCounters) : PortCounters := match p with | .main => c.mainPort | .alternate => c.altPort
    let got := satAdd max32 (port e.port l.counters).received 1
    let same (t : State) (c : PortCounters) : Prop := tget t.jits n = j ∧ (t.link n).counters = match e.port with
      | .main => { l.counters with mainPort := c }
      | .alternate => { l.counters with altPort := c }
    let held : Prop := j.lastRemoved = some q ∨ ∃ x, x ∈ j.frames ∧ x.seq = q
    let late : Prop := ∃ z, j.lastRemoved = some z ∧ older q z
    let run : Nat := match j.candidate with | some (c, k) => if c = quality then k + 1 else 1 | none => 1
    let change : Bool := match j.selected with | none => true | some p => p != quality && decide (3 ≤ run)
    let sel : Nat := if change then quality else j.selected.getD quality
    let most := ((tget j.profiles sel).maximum + j.duration - 1) / j.duration
    let newest (o : Option Nat) (x : Frame) : Option Nat := some (match o with
      | none => x.seq
      | some z => if 1 ≤ (x.seq + 65536 - z) % 65536 ∧ (x.seq + 65536 - z) % 65536 ≤ 32767 then x.seq else z)
    ∃ t, exec (.audio e q quality ks pl) s = .next t ∧ Inv.SameSettings s t ∧ t.exch = s.exch
      ∧ (t.link n).session = l.session ∧ (t.link n).path e.port = some e.source ∧ (t.link n).latestPort = e.port
      ∧ (pl.length ≠ bytes → same t { port e.port l.counters with
          received := got, stray := satAdd max32 (port e.port l.counters).stray 1 })
      ∧ (pl.length = bytes → held → same t { port e.port l.counters with
          received := got, duplicates := satAdd max32 (port e.port l.counters).duplicates 1 })
      ∧ (pl.length = bytes → ¬held → late → same t { port e.port l.counters with
          received := got, late := satAdd max32 (port e.port l.counters).late 1 })
      ∧ (pl.length = bytes → ¬held → ¬late → ∃ a b, j.frames = a ++ b ∧ (∀ x, x ∈ a → older x.seq q)
          ∧ (∀ x, b.head? = some x → ¬older x.seq q)
          ∧ (let all := a ++ f :: b
             let gone := all.take (all.length - most)
             (tget t.jits n).frames = all.drop (all.length - most)
             ∧ (tget t.jits n).lastRemoved = gone.foldl newest j.lastRemoved
             ∧ (tget t.jits n).selected = some sel
             ∧ (tget t.jits n).candidate = (match j.selected with
                 | none => j.candidate
                 | some p => if p = quality ∨ change = true then none else some (quality, run))
             ∧ (t.link n).counters.switches
                 = (if change = true ∧ j.selected ≠ none then satAdd max32 l.counters.switches 1 else l.counters.switches)
             ∧ (port e.port (t.link n).counters).received = got
             ∧ (∀ p, (port p l.counters).late ≤ max32 → (port p (t.link n).counters).late
                 = min max32 ((port p l.counters).late + (gone.filter fun x => decide (x.port = p)).length))
             ∧ ((tget t.jits n).playout = j.playout ∧ (tget t.jits n).instant = j.instant
                 ∧ (tget t.jits n).gap = j.gap ∧ (tget t.jits n).last = j.last)
             ∧ (change = true → (tget j.profiles sel).usable = false →
                 (tget t.jits n).cause = some .profileUnusable
                   ∧ (l.session = .live → j.cause ≠ some .profileUnusable →
                       (tget t.mat.sources (128 + n)).cause = some .profileUnusable))
             ∧ (change = false → (tget t.jits n).cause = j.cause)))
      ∧ (l.keySeq = none ∨ (∃ z, l.keySeq = some z ∧ older z q) → (t.link n).keySeq = some q
          ∧ (∀ k, k < 4 → tget (t.link n).keyStates k = if k < l.keyCount then tget ks k else tget l.keyStates k)
          ∧ ∀ k, k < 4 → k < l.keyCount → tget ks k ≠ tget l.keyStates k → s.hasKey (64 + n) k = true →
              (t.key (64 + n) k).pressed = tget ks k)
      ∧ (∀ z, l.keySeq = some z → ¬older z q → s.reports = [] → (t.link n).keySeq = some z
          ∧ (t.link n).keyStates = l.keyStates ∧ t.arb = s.arb)

/-- The rows of Table 7-4 in a Live session whose gap stays below its loss threshold. Priming waits in silence, its gap
time unchanged, until the depth reaches the target or one target depth has passed; without a profile the gap time rises.
Refilling waits, the gap time rising, until the depth reaches the target. A frame that plays with the profile usable is
real; with it not usable it is silent and the gap time rises. Playing goes Refilling where the last instant was Concealed
and the depth is below the minimum. Above the target the correction count rises, and the 32nd frame drops the oldest held
one as late. An empty buffer conceals: the last real frame once under RepeatFade, its gain moving evenly to silence across it (the rounding: log entry 17), else
silence (R142 to R145). (What a payload's samples are: log entry 18; no gap begins in Priming without a profile: log entry
30.) -/
def Obligations.PlayoutStates : Prop :=
  ∀ (n x : Nat) (codec : Codec) (frame : Nat) (s : State), n < 24 → s.reports = [] →
    let l := s.link n
    let j := tget s.jits n
    let d := j.duration
    let gap := satAdd max16 j.gap d
    j.instant = some x → x ≤ s.now → l.format = some (codec, frame) → l.session = .live → gap < l.loss → j.gap < l.loss →
    let starts : Bool := j.last == .real || j.primed
    let counters (gaps late : Bool) (p : Port) (ms : Nat) : LinkCounters :=
      let c := { l.counters with
        gaps := if gaps then satAdd max32 l.counters.gaps 1 else l.counters.gaps
        concealed := satAdd max32 l.counters.concealed ms }
      match late, p with
      | false, _ => c
      | true, .main => { c with mainPort.late := satAdd max32 c.mainPort.late 1 }
      | true, .alternate => { c with altPort.late := satAdd max32 c.altPort.late 1 }
    let leaves (c : LinkCounters) (new : Jitter) : Prop := ∃ t, exec (.playoutInstant n) s = .next t
      ∧ tget t.jits n = { new with instant := some (x + d) } ∧ t.link n = { l with counters := c }
      ∧ (j.cause ≠ new.cause → (tget t.mat.sources (128 + n)).cause = new.cause)
      ∧ OnlyReports { s with
          jits := tset s.jits n (tget t.jits n), links := tset s.links n (t.link n), mat.sources := t.mat.sources } t
      ∧ (∀ i, i ≠ 128 + n → tget t.mat.sources i = tget s.mat.sources i) ∧ t.ev = s.ev
    let unheard (usable : Bool) : Option Cause := if usable then some .concealing else some .profileUnusable
    (j.selected = none → j.playout = .priming →
      leaves (counters false false .main d) { j with last := .silent, gap := gap, cause := some .concealing, playing := []
                                                     primed := true })
    ∧ (∀ p, j.selected = some p → p < 4 → 0 < d → l.counters.concealed ≤ max32 →
        let prof := tget j.profiles p
        let target := (prof.target + d - 1) / d
        let minimum := (prof.minimum + d - 1) / d
        let thin : Prop := j.last = .concealed ∧ j.frames.length < minimum
        let ready : Prop := (j.playout = .priming ∧ (target ≤ j.frames.length ∨ j.began + target * d ≤ x))
          ∨ (j.playout = .refilling ∧ target ≤ j.frames.length) ∨ j.playout = .playing
        (j.playout = .priming → j.frames.length < target → x < j.began + target * d →
          leaves l.counters { j with last := .silent, cause := unheard prof.usable, playing := [], primed := true })
        ∧ ((j.playout = .refilling ∧ j.frames.length < target) ∨ (ready ∧ thin ∧ j.frames ≠ []) →
          leaves (counters starts false .main d) { j with
            last := .silent, gap := gap, cause := unheard prof.usable, playing := [], playout := .refilling
            primed := false })
        ∧ (∀ f rest, ready → ¬thin → j.frames = f :: rest →
          let played : Jitter := if prof.usable then
              { j with
                last := .real, gap := 0, cause := none, lastReal := some f.payload, playout := .playing, primed := false
                playing := (List.range (48 * d)).map (Config.payloadSample codec f.payload) }
            else { j with
                last := .silent, gap := gap, cause := some .profileUnusable, playing := [], playout := .playing
                primed := false }
          let gaps := !prof.usable && starts
          let ms := if prof.usable then 0 else d
          (rest.length ≤ target → leaves (counters gaps false .main ms)
            { played with frames := rest, lastRemoved := some f.seq, correction := 0 })
          ∧ (target < rest.length → j.correction < 31 → leaves (counters gaps false .main ms)
            { played with frames := rest, lastRemoved := some f.seq, correction := j.correction + 1 })
          ∧ (∀ g more, target < rest.length → j.correction = 31 → rest = g :: more →
            leaves (counters gaps true g.port ms)
              { played with frames := more, lastRemoved := some g.seq, correction := 0 }))
        ∧ (ready → j.frames = [] →
          (prof.concealment = .silence ∨ j.lastReal = none → leaves (counters starts false .main d) { j with
            last := .concealed, gap := gap, cause := unheard prof.usable, playing := [], playout := .playing
            primed := false, lastReal := none })
          ∧ (∀ pl, prof.concealment = .repeatFade → j.lastReal = some pl → ∃ fading : List Int, fading.length = 48 * d
            ∧ (∀ k, k < 48 * d →
                (48 * d * fading.getD k 0 - Config.payloadSample codec pl k * ((48 * d - 1 - k : Nat) : Int)).natAbs < 48 * d)
            ∧ leaves (counters starts false .main d) { j with
                last := .concealed, gap := gap, playing := fading, playout := .playing, primed := false
                lastReal := none })))

/-- A playout instant comes one frame duration after the one before. In Playing with a usable profile and a held frame
it plays the oldest, which becomes the last removed, ends the gap and lifts the silence cause, and takes a Fading link
Live; with none it conceals, the gap grows, and a gap that reaches the loss threshold takes a Live link Fading. Return
audio is one message a frame in Live and Waking, on the ports it goes out on and no other: its payload carries the next
frame of the return's output (silence where the output is not yet there). (The model's choices: what a payload is, log
entry 18; an instant that is not due is no event, log entry 3; each RETURN_AUDIO is one message, log entry 37; a link
event gives its reservation as 1 or 0, log entry 15.) -/
def Obligations.PlayoutAndReturn : Prop :=
  ∀ (n x : Nat) (codec : Codec) (frame : Nat) (s : State), n < 24 →
    let l := s.link n
    let j := tget s.jits n
    (j.instant = some x → x ≤ s.now → l.format = some (codec, frame) → s.reports = [] → 0 < l.loss →
      (∀ f rest p, j.frames = f :: rest → j.playout = .playing → j.last = .real → j.selected = some p →
          (tget j.profiles p).usable = true →
          rest.length ≤ effFrames (tget j.profiles p).target j.duration →
          ∃ t, exec (.playoutInstant n) s = .next t
            ∧ (tget t.jits n).frames = rest ∧ (tget t.jits n).lastRemoved = some f.seq
            ∧ (tget t.jits n).instant = some (x + j.duration) ∧ (tget t.jits n).gap = 0
            ∧ (tget t.jits n).last = .real ∧ (tget t.jits n).cause = none ∧ (tget t.jits n).correction = 0
            ∧ (l.session = .live → (t.link n).session = .live)
            ∧ (l.session = .live → j.cause ≠ none → (tget t.mat.sources (128 + n)).cause = none)
            ∧ (l.session = .fading → l.effective ≠ .paused → (t.link n).session = .live
                ∧ (t.link n).timers.recovery = none ∧ (tget t.mat.sources (128 + n)).cause = none
                ∧ tget t.ev.details (23 + n) = u8 3 ++ u8 2 ++ u8 4 ++ u32 (l.unit.getD 0).toNat
                    ++ uFlag l.reserved.isSome))
      ∧ (∀ p, j.frames = [] → j.playout = .playing → j.selected = some p → l.session = .live →
          let gap := satAdd max16 j.gap j.duration
          (gap < l.loss → ∃ t, exec (.playoutInstant n) s = .next t
            ∧ (tget t.jits n).gap = gap ∧ (tget t.jits n).last = .concealed
            ∧ (tget t.jits n).instant = some (x + j.duration) ∧ (t.link n).session = .live
            ∧ (t.link n).counters.concealed = satAdd max32 l.counters.concealed j.duration
            ∧ (j.last = .real → (t.link n).counters.gaps = satAdd max32 l.counters.gaps 1))
          ∧ (l.loss ≤ gap → 0 < l.recovery → ∃ t, exec (.playoutInstant n) s = .next t
            ∧ (t.link n).session = .fading
            ∧ (t.link n).timers = { LinkTimers.stopped with recovery := some (s.now + l.recovery) }
            ∧ (tget t.mat.sources (128 + n)).cause = some .notLive
            ∧ tget t.ev.details (23 + n) = u8 2 ++ u8 3 ++ u8 3 ++ u32 (l.unit.getD 0).toNat
                ++ uFlag l.reserved.isSome)))
    ∧ (NotDue j.instant s.now → exec (.playoutInstant n) s = .next s)
    ∧ (l.format = some (codec, frame) → l.session = .live ∨ l.session = .waking →
        let pl := Config.payloadOf codec ((List.range (48 * frame)).map fun i => (tget s.mix.returnBuf n).getD i 0)
        let msg : LinkMsg := .audio (l.unit.getD 0) n l.returnSeq (talliesOf s n) pl
        ∃ t, exec (.returnAudio n) s = .next t
          ∧ (∀ p a, l.path p = some a → l.dual = true ∨ p = l.latestPort → Output.linkMsg p a msg ∈ t.sent)
          ∧ (∃ sent, t.sent = sent ++ s.sent ∧ ∀ p a x, Output.linkMsg p a x ∈ sent →
              x = msg ∧ l.path p = some a ∧ (l.dual = true ∨ p = l.latestPort))
          ∧ OnlyReports { s with
              links := tset s.links n { l with returnSeq := (l.returnSeq + 1) % 65536 }
              mix.returnBuf := tset s.mix.returnBuf n ((tget s.mix.returnBuf n).drop (48 * frame)) } t
          ∧ t.ev = s.ev)
    ∧ (l.session ≠ .live → l.session ≠ .waking → exec (.returnAudio n) s = .next s)

/-! ### Stream unit -/

/-- Orders on a channel: STREAM.CONFIG with its checks; STREAM.APPEND with the checks of Table 8-4, arming an Idle
channel, starting it under Immediate, and returning a Starved one to Running; STREAM.START; STREAM.CUT; STREAM.STOP.
(Where a start could set off others through its cue, the statement is about a channel without cue binding, and what
STREAM.STOP does to a cue is left open. Four clauses are the model's choice: a channel above 15 gives no values, or none
and FFH for STREAM.APPEND, log entry 47; a trigger Immediate or RecallEnd takes any argument byte, log entry 51; STREAM.STOP
leaves the lost samples, log entry 54; the samples moved are held at their highest value, log entry 46.) -/
def Obligations.StreamOrders : Prop :=
  ∀ (c : Nat) (s : State), s.reports = [] →
    let r := s.chan c
    let chan (x : Channel) : State := { s with chans := tset s.chans c x }
    let ends (i : Instr) (res : Result) (x : Channel) : Prop :=
      ∃ u, exec i s = .next (finished res u s) ∧ OnlyReports (chan x) u ∧ u.ev = s.ev
    let refused (i : Instr) (code : Code) : Prop := exec i s = .next (finished (one code r.state.ctorIdx) s s)
    (∀ trigger cue mirror,
      let i : Instr := .streamConfig c trigger cue mirror
      CarriedOut i s →
        (15 < c → exec i s = .next (finished (bare .badValue) s s))
        ∧ (c < 16 → (∃ k a, trigger = some (k, a) ∧ triggerOf k a = none) → refused i .badValue)
        ∧ (∀ tr, c < 16 → (match trigger with | none => some r.trigger | some (k, a) => triggerOf k a) = some tr →
            ((∃ d k, cue = some (d, k) ∧ ¬(d = 255 ∧ k = 255) ∧ (151 < d ∨ 7 < k)) → refused i .badValue)
            ∧ (cue ≠ none → 8 ≤ c → refused i .badValue)
            ∧ (mirror ≠ none → c < 8 → refused i .badValue)
            ∧ (cue = none → mirror = none → ends i (one .done r.state.ctorIdx) { r with trigger := tr })
            ∧ (∀ d k, cue = some (d, k) → (d < 152 ∧ k < 8) ∨ (d = 255 ∧ k = 255) → c < 8 → mirror = none →
                (r.state = .running → refused i .wrongState)
                ∧ (r.state ≠ .running → ends i (one .done r.state.ctorIdx)
                    { r with trigger := tr, cue := if d = 255 then none else some (d, k) }))
            ∧ (∀ m, mirror = some m → 8 ≤ c → cue = none →
                (151 < m → m ≠ 255 → refused i .badValue)
                ∧ (m < 152 ∨ m = 255 → ∃ u, exec i s = .next (finished (one .done r.state.ctorIdx) u s)
                    ∧ OnlyReports { chan { r with trigger := tr } with
                        mat.dests := tset s.mat.dests (144 + c) { s.dest (144 + c) with
                          mirror := if m = 255 then none else some m } } u))))
    ∧ (∀ addr read,
      let i : Instr := .streamAppend c addr read
      let no (code : Code) : Prop := exec i s
        = .next (finished { code := code, values := List.replicate 2 255 ++ u8 r.state.ctorIdx } s s)
      let good (d : DescRead) : Prop := d.hostState = 1 ∧ 48 ≤ d.length ∧ d.length ≤ 1048576 ∧ d.length % 48 = 0
        ∧ d.buffer % 4 = 0 ∧ (8 ≤ c → bit d.flags 0 = false)
      (CarriedOut i s → 15 < c → exec i s = .next (finished { code := .badValue, values := List.replicate 3 255 } s s))
      ∧ (CarriedOut i s → c < 16 →
        (8 ≤ r.chain.length → no .noRoom)
        ∧ (r.chain.length < 8 → (∃ d, d ∈ r.chain ∧ d.address = addr) → no .badValue)
        ∧ (r.chain.length < 8 → (∀ d, d ∈ r.chain → d.address ≠ addr) →
            (read = none → no .hostFault)
            ∧ (∀ d, read = some d → ¬good d → no .badValue)
            ∧ (∀ d, read = some d → good d → r.cue = none →
                let st : ChanState := if r.state = .idle then (if r.trigger = .immediate then .running else .armed)
                  else if r.state = .starved then .running else r.state
                let desc : Desc := Desc.mk addr d.buffer d.length (bit d.flags 0) (bit d.flags 1) r.nextIndex
                ends i { code := .done, values := u16 r.nextIndex ++ u8 st.ctorIdx }
                  { r with state := st, nextIndex := (r.nextIndex + 1) % 256, chain := r.chain ++ [desc] }))))
    ∧ (∀ i, i = .streamStart c ∨ i = .streamCut c ∨ i = .streamStop c → CarriedOut i s → 15 < c →
        exec i s = .next (finished (bare .badValue) s s))
    ∧ (CarriedOut (.streamStart c) s → c < 16 →
        (r.state = .idle → refused (.streamStart c) .wrongState)
        ∧ (r.state = .running ∨ r.state = .starved → exec (.streamStart c) s
            = .next (finished (one .done r.state.ctorIdx) s s))
        ∧ (r.state = .armed → r.cue = none →
            ends (.streamStart c) (one .done 2) { r with state := .running }))
    ∧ (CarriedOut (.streamCut c) s → c < 16 →
        (r.state = .idle ∨ r.state = .starved → refused (.streamCut c) .wrongState)
        ∧ (∀ d rest, r.state = .armed → r.chain = d :: rest → d.last = false → ∃ t, exec (.streamCut c) s = .next t
            ∧ (t.chan c).chain = rest ∧ (t.chan c).state = (if rest = [] then .idle else .armed)
            ∧ t.exch.lastResult = some (one .done (t.chan c).state.ctorIdx)
            ∧ (s.writeFaults = [] → s.exch.part = .running →
                Output.write (d.address + 0x0E) (u8 1) ∈ t.sent ∧ Output.write (d.address + 0x0F) (u8 1) ∈ t.sent
                  ∧ Output.write (d.address + 0x10) (u32 0) ∈ t.sent)
            ∧ ∀ x, x < 16 → x ≠ c → (t.chan x).chain = (s.chan x).chain)
        ∧ (∀ d rest, r.state = .armed → r.chain = d :: rest → d.last = true → ∃ t, exec (.streamCut c) s = .next t
            ∧ (t.chan c).chain = [] ∧ (t.chan c).state = .idle ∧ t.exch.lastResult = some (one .done 0)
            ∧ (s.writeFaults = [] → s.exch.part = .running → ∀ x why, (x = d ∧ why = 1) ∨ (x ∈ rest ∧ why = 2) →
                Output.write (x.address + 0x0E) (u8 1) ∈ t.sent ∧ Output.write (x.address + 0x0F) (u8 why) ∈ t.sent
                  ∧ Output.write (x.address + 0x10) (u32 0) ∈ t.sent)
            ∧ ∀ x, x < 16 → x ≠ c → (t.chan x).chain = (s.chan x).chain)
        ∧ (∀ d rest, r.state = .running → c < 8 ∨ r.staging = [] → r.chain = d :: rest →
            ∃ t, exec (.streamCut c) s = .next t
              ∧ (t.chan c).chain = rest
              ∧ (t.chan c).state = (if rest = [] then (if d.last then .idle else .starved) else .running)
              ∧ t.exch.lastResult = some (one .done (t.chan c).state.ctorIdx)
              ∧ (s.writeFaults = [] → s.exch.part = .running →
                  Output.write (d.address + 0x0E) (u8 1) ∈ t.sent ∧ Output.write (d.address + 0x0F) (u8 1) ∈ t.sent
                    ∧ Output.write (d.address + 0x10) (u32 (min r.moved max32)) ∈ t.sent)))
    ∧ (CarriedOut (.streamStop c) s → c < 16 → Inv.ChanOk r → ∃ t, exec (.streamStop c) s = .next t
        ∧ (t.chan c).chain = [] ∧ (t.chan c).state = .idle ∧ (t.chan c).nextIndex = r.nextIndex
        ∧ (t.chan c).lost = r.lost ∧ (t.chan c).underrun = r.underrun
        ∧ t.exch.lastResult = some (one .done r.chain.length)
        ∧ (s.writeFaults = [] → s.exch.part = .running → ∀ d, d ∈ r.chain →
            Output.write (d.address + 0x0E) (u8 1) ∈ t.sent ∧ Output.write (d.address + 0x0F) (u8 2) ∈ t.sent)
        ∧ Inv.SameSettings s t)

/-- A read of a playback buffer brings the next block into staging, as the 24-bit samples of its words; one that fails
ends the head with HostFault, the next descriptor the head even behind one with Last, and its blocks left unplayed are
counted as underrun (their number: log entry 21). A write of the oldest staged block of a capture channel leaves its
words in the buffer, and the write of a descriptor's last block returns it Complete; one that fails ends the head with
HostFault and its blocks are lost. A mix period (R152, R153): a Running playback channel gives the mixer the block that is due, or silence
counted as underrun where it is not in staging, and moves on by 48; at the end of its buffer a Loop starts again and
another descriptor is returned Complete, the next one the head, the rest returned Stopped behind Last, the channel Starved
where none is left. A Running capture channel stages its destination's output, or with 4 blocks waiting loses it, has the
head's blocks written and returns it Overrun. A Starved channel counts 48 samples. (Also the model's choice: Yes 0 and No
1 in the Return, log entry 15; the progress of a capture channel by its staged blocks, and their writes in the step of an
overrun, log entry 20; the state in the event of a return that is not the last of its step, log entry 22; samples moved
held at their highest value, log entry 46; a read or a write that ends on an Idle channel is no event, log entry 3. The
cue place, which other channels' moves change too, is left open.) -/
def Obligations.StreamBlocks : Prop :=
  ∀ (c : Nat) (s : State), s.reports = [] → (s.chan c).lost ≤ max32 →
    let r := s.chan c
    let chan (x : Channel) : State := { s with chans := tset s.chans c x }
    (∀ d rest ws, c < 8 → r.state = .running → r.chain = d :: rest → r.staging.length < 4 → r.readAt < d.length →
        r.moved ≤ r.readAt → ∃ t, exec (.playbackReadDone c (some ws)) s = .next t
          ∧ OnlyReports (chan { r with
              readAt := r.readAt + 48
              staging := r.staging ++ [{ at_ := r.readAt, samples := ws.map fun w => (w.extractLsb' 8 24).toInt }] })
              t ∧ t.ev = s.ev)
    ∧ (∀ d e rest, c < 8 → r.state = .running → r.chain = d :: e :: rest → r.staging.length < 4 →
        r.readAt < d.length → ∃ t, exec (.playbackReadDone c none) s = .next t
          ∧ (t.chan c).state = .running ∧ (t.chan c).chain = e :: rest ∧ (t.chan c).staging = []
          ∧ (t.chan c).progress = 0
          ∧ (t.chan c).underrun
            = satAdd max32 r.underrun (48 * (r.staging.length + if r.moved ≤ r.readAt then 1 else 0))
          ∧ (s.writeFaults = [] → Raised (7 + c)
              (u8 c ++ u8 d.index ++ u8 5 ++ u32 (min r.moved max32) ++ u8 (if s.exch.part = .autonomous then 1 else 0)
                ++ u8 2) s t))
    ∧ (∀ d rest b bs, 8 ≤ c → c < 16 → r.state = .running → r.chain = d :: rest → r.staging = b :: bs →
        r.moved + 48 < d.length → ∃ t, exec (.captureWriteDone c true) s = .next t
          ∧ OnlyReports (chan { r with
              moved := r.moved + 48, staging := bs, progress := min d.length (r.moved + 48 + 48 * bs.length) }) t
          ∧ t.ev = s.ev ∧ Output.write (d.buffer + 4 * r.moved) (blockBytes b) ∈ t.sent)
    ∧ (∀ d b, 8 ≤ c → c < 16 → r.state = .running → r.chain = [d] → r.staging = [b] → d.last = false →
        r.cue = none → r.moved + 48 = d.length → ∃ t, exec (.captureWriteDone c true) s = .next t
          ∧ (t.chan c).state = .starved ∧ (t.chan c).chain = [] ∧ (t.chan c).lost = r.lost
          ∧ (s.writeFaults = [] → Raised (7 + c)
              (u8 c ++ u8 d.index ++ u8 0 ++ u32 (min d.length max32) ++ u8 (if s.exch.part = .autonomous then 1 else 0)
                ++ u8 3) s t))
    ∧ (∀ d b, 8 ≤ c → c < 16 → r.state = .running → r.chain = [d] → r.staging = [b] → r.moved + 48 ≤ d.length →
        d.last = false → r.cue = none → ∃ t, exec (.captureWriteDone c false) s = .next t
          ∧ (t.chan c).state = .starved ∧ (t.chan c).staging = []
          ∧ (t.chan c).lost = satAdd max32 r.lost 48)
    ∧ (r.state = .idle → (∀ b, exec (.playbackReadDone c b) s = .next s)
        ∧ ∀ ok, exec (.captureWriteDone c ok) s = .next s)
    ∧ (∀ ins, ∃ t, exec (.mixPeriod ins) s = .next t ∧
        let is (x : Channel) : Prop := t.chan c = { x with cuePlace := (t.chan c).cuePlace }
        let said (d : Desc) (reason : EndReason) (moved : Nat) : List Byte := u8 c ++ u8 d.index ++ u8 reason.ctorIdx
          ++ u32 (min moved max32) ++ u8 (if s.exch.part = .autonomous then 1 else 0) ++ u8 (t.chan c).state.ctorIdx
        let heard (ys : List Int) : Prop := ∀ d, d < 160 → (s.dest d).kind = .plain → (s.dest d).slots = [] →
          (s.mat.pool.filter fun e => e.dest == d && decide (0 < e.heard)).map (fun e => (e.source, e.heard))
            = [(152 + c, 216)] →
          tget s.mix.plans d
            = { terms := [{ path := .crosspoint, source := 152 + c, gain := some 0 }], level := some 0 } →
          (s.dest d).level = 216 → tget s.mat.sources (152 + c) = { trim := 216, mute := false, cause := none } →
          tget s.mix.sourceGain (152 + c) = some 0 → tget t.mix.finished d = ys
        (r.state = .idle → c < 16 → is r)
        ∧ (r.state = .starved → c < 8 → is { r with underrun := satAdd max32 r.underrun 48 }
            ∧ heard (List.replicate 48 0))
        ∧ (r.state = .starved → 8 ≤ c → c < 16 → is { r with lost := satAdd max32 r.lost 48 })
        ∧ (∀ d rest, c < 8 → r.state = .running → r.chain = d :: rest →
            let due := r.staging.find? fun b => b.at_ == r.moved
            let on : Channel := { r with
              moved := r.moved + 48, staging := r.staging.filter fun b => decide (r.moved + 48 ≤ b.at_)
              underrun := if due = none then satAdd max32 r.underrun 48 else r.underrun }
            (due = none → heard (List.replicate 48 0))
            ∧ (∀ b, due = some b → b.samples.length = 48 → (∀ x, x ∈ b.samples → -8388608 ≤ x ∧ x ≤ 8388607) →
                heard b.samples)
            ∧ (r.progress + 48 < d.length → is { on with progress := r.progress + 48 })
            ∧ (d.length ≤ r.progress + 48 → d.loop = true → is { on with progress := 0 })
            ∧ (d.length ≤ r.progress + 48 → d.loop = false →
                is { on with
                  state := if d.last then .idle else if rest = [] then .starved else .running
                  chain := if d.last then [] else rest, moved := 0, readAt := 0, progress := 0, staging := [] }
                ∧ (d.last = false ∨ rest = [] → s.writeFaults = [] →
                    Took (7 + c) (said d .complete (r.moved + 48)) s t)
                ∧ (∀ e, d.last = true → rest.getLast? = some e → s.writeFaults = [] →
                    tget t.ev.details (7 + c) = said e .stopped 0)
                ∧ (s.writeFaults = [] → s.exch.part = .running → WroteReturn d (r.moved + 48) .complete t
                    ∧ (d.last = true → ∀ e, e ∈ rest → WroteReturn e 0 .stopped t))))
        ∧ (∀ d rest, 8 ≤ c → c < 16 → r.state = .running → r.chain = d :: rest →
            let n := r.staging.length
            let k := min n ((d.length - r.moved) / 48)
            (n < 4 → is { r with
              staging := r.staging ++ [{ at_ := 0, samples := tget t.mix.finished (144 + c) }]
              progress := min d.length (r.moved + 48 * (n + 1)) })
            ∧ (4 ≤ n → s.writeFaults = [] → s.exch.part ≠ .autonomous →
                (∀ e more, rest = e :: more → is { r with
                  chain := rest, moved := 0, readAt := 0, staging := r.staging.drop k
                  progress := min e.length (48 * (n - k)), lost := satAdd max32 r.lost 48 })
                ∧ (rest = [] → is { r with
                  state := if d.last then .idle else .starved, chain := [], moved := 0, readAt := 0, staging := []
                  progress := 0, lost := satAdd max32 (satAdd max32 r.lost 48) (48 * (n - k)) })
                ∧ Took (7 + c) (said d .overrun (r.moved + 48 * k)) s t
                ∧ WroteReturn d (r.moved + 48 * k) .overrun t
                ∧ ∀ j b, j < k → r.staging[j]? = some b →
                    Output.write (d.buffer + 4 * (r.moved + 48 * j)) (blockBytes b) ∈ t.sent)))

/-! ### Recall engine -/

/-- SCENE.RECALL and FALLBACK.STORE: an address off 8 bytes is BadValue, an engine not Idle Busy; otherwise the work
is taken with clear counts, the engine is Loading, and the order's slot stays In flight with no result yet.
SCENE.ABORT by the engine's state; the abort of a Store in Loading keeps the store and raises no event of the engine.
FALLBACK.CLEAR empties the store, Busy during a Store. (Three points are the model's choice: a refused SCENE.RECALL or
FALLBACK.STORE gives no values, log entry 47; a work that ends before its header is read reports the scene number it
found, log entry 55; and the slot of the ended work finishes before that of SCENE.ABORT, log entry 72. That a Store too takes clear counts is log entry 25.) -/
def Obligations.RecallOrders : Prop :=
  ∀ (a : Nat) (s : State),
    let r := s.engine
    let begun (w : Work) (t : State) : Prop :=
      t.engine.state = .loading ∧ t.engine.work = some w ∧ t.engine.slot = s.exch.inHand.map (·.slot)
        ∧ t.engine.applied = 0 ∧ t.engine.lockedCount = 0 ∧ t.engine.noRoomCount = 0 ∧ t.engine.invalid = 0
        ∧ t.engine.abortRequest = false ∧ t.engine.store = r.store ∧ t.engine.allCall = r.allCall
        ∧ t.engine.emergency = r.emergency ∧ t.exch = { s.exch with inHand := none }
        ∧ OnlyReports { s with engine := t.engine, exch := t.exch } t ∧ t.ev = s.ev
    let long (c : Instr) (w : Work) : Prop := CarriedOut c s →
      (a % 8 ≠ 0 → exec c s = .next (finished (bare .badValue) s s))
        ∧ (a % 8 = 0 → r.state ≠ .idle → exec c s = .next (finished (bare .busy) s s))
        ∧ (a % 8 = 0 → r.state = .idle → ∃ t, exec c s = .next t ∧ begun w t)
    long (.sceneRecall a) .hostRecall ∧ long (.fallbackStore a) .store
    ∧ (CarriedOut .sceneAbort s → s.reports = [] →
      (r.state = .idle → exec .sceneAbort s = .next (finished (one .wrongState 0) s s))
      ∧ (r.state = .clearing ∨ r.state = .applying → ∃ u,
          exec .sceneAbort s = .next (finished (one .done r.state.ctorIdx) u s)
            ∧ OnlyReports { s with engine := { r with abortRequest := true } } u ∧ u.ev = s.ev)
      ∧ (r.state = .loading ∨ r.state = .suspended → r.work ≠ some .store → s.exch.part ≠ .autonomous → NoneArmed s →
          ∃ t, exec .sceneAbort s = .next t ∧ t.engine.state = .idle
            ∧ tget t.ev.details 1 = uOpt 1 (r.work.map (·.ctorIdx)) ++ u8 2 ++ u16 r.scene ++ u8 12
                ++ u16 r.applied ++ u16 r.lockedCount ++ u16 r.noRoomCount ++ u16 r.invalid
            ∧ t.exch.lastResult = some (one .done r.state.ctorIdx))
      ∧ (r.state = .loading → r.work = some .store →
          ∃ t, exec .sceneAbort s = .next t ∧ t.engine.state = .idle ∧ t.engine.store = r.store
            ∧ tget t.ev.details 1 = tget s.ev.details 1 ∧ t.exch.lastResult = some (one .done 1)))
    ∧ (CarriedOut .fallbackClear s →
      let held : List Byte := u16 (match r.store with | none => 0 | some (_, es) => es.length)
      (r.state ≠ .idle → r.work = some .store →
        exec .fallbackClear s = .next (finished { code := .busy, values := held } s s))
      ∧ (r.state = .idle ∨ r.work ≠ some .store → ∃ u,
          exec .fallbackClear s = .next (finished { code := .done, values := held } u s)
            ∧ OnlyReports { s with engine := { r with store := none } } u ∧ u.ev = s.ev))

/-- The engine's steps. A failed read ends the work with HostFault; a header out of range ends it with BadValue, and a
good one is kept; the last entry with a matching sum goes on to Clearing or Applying, Suspended where a cause is
present, or fills the store. A Clearing step removes the holdings of one destination, not of a locked one, an entry
with a talk or listen count staying with its counts and heard at its key level (R164), and after 159 goes Applying; an Applying step hands over one entry and counts its answer (kinds 2 to 6: `SceneEntries`), and the
last one ends the recall. (The model's choice: the header is one read of 16 bytes, log entry 42; a failed read of it
reports the scene number of the work before, log entry 55.) -/
def Obligations.RecallSteps : Prop :=
  ∀ (s : State), s.reports = [] → s.exch.part ≠ .autonomous → NoneArmed s →
    let r := s.engine
    let quiet : Prop := r.abortRequest = false ∧ ((r.allCall = false ∧ r.emergency = false) ∨ 0 < r.protectedN)
    let ended (code : Code) (t : State) : Prop := t.engine.state = .idle
      ∧ tget t.ev.details 1 = uOpt 1 (r.work.map (·.ctorIdx)) ++ u8 2 ++ u16 t.engine.scene ++ u8 code.ctorIdx
          ++ u16 t.engine.applied ++ u16 t.engine.lockedCount ++ u16 t.engine.noRoomCount ++ u16 t.engine.invalid
    (r.state = .loading → r.work ≠ some .store →
      ∃ t, exec (.sceneReadDone none) s = .next t ∧ ended .hostFault t ∧ t.mat = s.mat)
    ∧ (∀ b, r.state = .loading → r.header = none → b.length = 16 →
        let count := leNat ((b.drop 4).take 2)
        let mode := leNat ((b.drop 2).take 1)
        let top := if r.work = some .store then 512 else 4096
        (1 ≤ count → count ≤ top → mode ≤ 1 → ∃ t, exec (.sceneReadDone (some b)) s = .next t
          ∧ OnlyReports { s with engine := t.engine } t ∧ t.ev = s.ev ∧ t.engine.state = .loading
          ∧ t.engine.scene = leNat (b.take 2) ∧ t.engine.entryCount = count
          ∧ t.engine.header = some (leNat ((b.drop 6).take 2))
          ∧ (r.work ≠ some .store → t.engine.merge = (mode == 1)))
        ∧ (count = 0 ∨ top < count ∨ 1 < mode → r.work ≠ some .store →
            ∃ t, exec (.sceneReadDone (some b)) s = .next t ∧ ended .badValue t ∧ t.mat = s.mat))
    ∧ (∀ b (e : SceneEntry) (sum : Nat), r.state = .loading → r.header = some sum → r.entryCount = r.buffer.length + 1 →
        b.length = 8 → e = BitVec.ofNat 64 (leNat b) →
        let total := (sceneSum (r.buffer ++ [e])).toNat
        (sum = total → r.work ≠ some .store → ∃ t, exec (.sceneReadDone (some b)) s = .next t
          ∧ t.engine.buffer = r.buffer ++ [e]
          ∧ (r.allCall = false → r.emergency = false →
              t.engine.state = if r.merge then .applying else .clearing)
          ∧ (r.allCall = true ∨ r.emergency = true → t.engine.state = .suspended
              ∧ t.engine.resume = if r.merge then .applying else .clearing))
        ∧ (sum = total → r.work = some .store → ∃ t, exec (.sceneReadDone (some b)) s = .next t
            ∧ t.engine.state = .idle ∧ t.engine.store = some (r.scene, r.buffer ++ [e]) ∧ t.mat = s.mat)
        ∧ (sum ≠ total → r.work = some .hostRecall →
            ∃ t, exec (.sceneReadDone (some b)) s = .next t ∧ ended .checksum t ∧ t.engine.store = r.store))
    ∧ (r.state = .clearing → quiet → r.nextDest < 160 → ∃ t, exec .clearingStep s = .next t
        ∧ t.engine.nextDest = r.nextDest + 1 ∧ t.engine.protectedN = r.protectedN - 1
        ∧ t.engine.state = (if r.nextDest = 159 then .applying else .clearing)
        ∧ OnlyReports { s with engine := t.engine, mat.pool := t.mat.pool } t ∧ t.ev = s.ev
        ∧ ((s.dest r.nextDest).lock ≠ .free → t.mat.pool = s.mat.pool)
        ∧ ((s.dest r.nextDest).lock = .free →
            (∀ e, e ∈ t.mat.pool → e.dest = r.nextDest → e.route = false ∧ e.scene = false ∧ e.heard = e.keyLevel)
              ∧ t.mat.pool.filter (fun e => e.dest == r.nextDest)
                  = (s.mat.pool.filter fun e => e.dest == r.nextDest && decide (0 < e.talk ∨ 0 < e.listen)).map
                      (fun e => { e with route := false, scene := false, routeLevel := 0 })
              ∧ t.mat.pool.filter (fun e => e.dest != r.nextDest) = (s.mat.pool.filter fun e =>
                  e.dest != r.nextDest && e.alive)))
    ∧ (∀ e, r.state = .applying → quiet → r.buffer[r.nextEntry]? = some e → r.nextEntry + 1 < r.entryCount →
        ∃ t, exec .applyingStep s = .next t
          ∧ t.engine.nextEntry = r.nextEntry + 1
          ∧ t.engine.applied + t.engine.lockedCount + t.engine.noRoomCount + t.engine.invalid
              = r.applied + r.lockedCount + r.noRoomCount + r.invalid + 1
          ∧ ((e.extractLsb' 0 8).toNat = 1 → ∀ d src lvl, (e.extractLsb' 8 8).toNat = d →
              (e.extractLsb' 16 8).toNat = src → (e.extractLsb' 24 8).toNat = lvl →
              ((claimAdd .scene d src lvl s).1 = .done → t.engine.applied = r.applied + 1
                ∧ t.mat = (claimAdd .scene d src lvl s).2.mat)
              ∧ ((claimAdd .scene d src lvl s).1 = .locked → t.engine.lockedCount = r.lockedCount + 1 ∧ t.mat = s.mat)
              ∧ ((claimAdd .scene d src lvl s).1 = .noRoom → t.engine.noRoomCount = r.noRoomCount + 1 ∧ t.mat = s.mat))
          ∧ ((e.extractLsb' 0 8).toNat = 0 ∨ 6 < (e.extractLsb' 0 8).toNat →
              t.engine.invalid = r.invalid + 1 ∧ t.mat = s.mat))
    ∧ (∀ e, r.state = .applying → quiet → r.buffer[r.nextEntry]? = some e → r.nextEntry + 1 = r.entryCount →
        ∃ t, exec .applyingStep s = .next t ∧ t.engine.nextEntry = r.nextEntry + 1
          ∧ ended (if t.engine.lockedCount = 0 ∧ t.engine.noRoomCount = 0 ∧ t.engine.invalid = 0
              then .done else .partDone) t)
    ∧ (r.state = .clearing ∨ r.state = .applying →
        (r.abortRequest = true → ∃ t,
          exec (if r.state = .clearing then .clearingStep else .applyingStep) s = .next t ∧ ended .aborted t)
        ∧ (r.abortRequest = false → r.allCall = true ∨ r.emergency = true → r.protectedN = 0 → ∃ t,
            exec (if r.state = .clearing then .clearingStep else .applyingStep) s = .next t
              ∧ t.engine.state = .suspended ∧ t.engine.resume = r.state ∧ t.mat = s.mat))

/-- The entries of a scene but Route (Table 9-1, Table 10-7). A Fold, Minus, Member or Key entry does to the part what its
order does (FOLD.CONFIG with all six fields, FOLD.MINUS add on the record bound to the destination, LINE.MEMBER,
KEY.ASSIGN) and counts that order's answer; an entry refused leaves no part of itself behind (R165). Where the order would
be taken and the entry would end a talk, a wait or a place it is Busy, invalid and skipped whole: a Fold entry that changes
the depth of a record with entries, a Member entry that takes the Talk right from a station whose key talks or waits on the
line, a Key entry for a key in use (R166). A Minus entry with no record bound is invalid. A Lock entry sets Held on a Free
destination and is locked on another (R170); above 159 it is invalid (log entry 60). (That a Member entry which its line's
slot has no room for is NoRoom, and not Busy, where it would end a talk as well is the model's choice, log entry 65.) -/
def Obligations.SceneEntries : Prop :=
  ∀ (e : SceneEntry) (s : State), s.reports = [] → s.exch.part ≠ .autonomous → NoneArmed s →
    let r := s.engine
    let b (i : Nat) : Nat := (e.extractLsb' (8 * i) 8).toNat
    let other : State := { s with exch.inHand := none }
    r.state = .applying → r.abortRequest = false → (r.allCall = false ∧ r.emergency = false) ∨ 0 < r.protectedN →
    r.buffer[r.nextEntry]? = some e → r.nextEntry + 1 < r.entryCount →
    let counted (code : Code) (t : State) : Prop := exec .applyingStep s = .next t
      ∧ t.engine.applied = r.applied + (if code = .done then 1 else 0)
      ∧ t.engine.lockedCount = r.lockedCount + (if code = .locked then 1 else 0)
      ∧ t.engine.noRoomCount = r.noRoomCount + (if code = .noRoom then 1 else 0)
      ∧ t.engine.invalid = r.invalid + (if code = .done ∨ code = .locked ∨ code = .noRoom then 0 else 1)
      ∧ t.engine.nextEntry = r.nextEntry + 1 ∧ t.engine.protectedN = r.protectedN - 1 ∧ t.engine.state = .applying
      ∧ t.exch = s.exch
    let skipped (code : Code) : Prop := ∃ t, counted code t ∧ OnlyReports { s with engine := t.engine } t ∧ t.ev = s.ev
    let taken (i : Instr) (spared : Prop) : Prop := ∃ u x, exec i other = .next u ∧ u.exch.lastResult = some x
      ∧ (x.code ≠ .done → skipped x.code)
      ∧ (x.code = .done → spared → skipped .busy)
      ∧ (x.code = .done → ¬spared → ∃ t, counted .done t
          ∧ OnlyReports { u with engine := t.engine, exch := t.exch } t)
    (b 0 = 2 → taken (.foldConfig (b 1) (some (b 2)) (some (b 3)) (some (b 4 % 4)) (some (b 4 / 16 % 8)) (some (b 5))
        (some (b 6 + 256 * b 7)))
      (let f := tget s.fold.recs (b 1)
       f.depth ≠ b 4 / 16 % 8 ∧ (f.ints ≠ [] ∨ f.pends ≠ [])))
    ∧ (b 0 = 3 → (recordOf s (b 1) = none → skipped .wrongState)
        ∧ ∀ k, recordOf s (b 1) = some k → taken (.foldMinusAdd k (b 2)) False)
    ∧ (b 0 = 4 → taken (.lineMember (b 1) (b 2) (b 3))
        ((∃ m, memberOf (s.line (b 1)) (b 2) = some m ∧ m.talk = true) ∧ (b 3 = 0 ∨ b 3 = 2)
          ∧ ∃ k d, k < stationKeys (b 2) ∧ (s.key (b 2) k).held = some (.line (b 1) d)))
    ∧ (b 0 = 5 → taken (.keyAssign (b 1) (b 2) (b 3) (b 4) (b 5) (b 6) (b 7))
        ((s.key (b 1) (b 2)).state ≠ .idle ∨ (s.key (b 1) (b 2)).listening = true))
    ∧ (b 0 = 6 → (159 < b 1 → skipped .badValue)
        ∧ (b 1 < 160 → (s.dest (b 1)).lock ≠ .free → skipped .locked)
        ∧ (b 1 < 160 → (s.dest (b 1)).lock = .free → ∃ t, counted .done t
            ∧ OnlyReports { s with
                engine := t.engine, mat.dests := tset s.mat.dests (b 1) { s.dest (b 1) with lock := .held } } t
            ∧ t.ev = s.ev))
end

