-- ==== Sys2Proof/Laws/State.lean ====
section
/-!
SUPPORT. What each named update of the state leaves in each field, and reading a table after a write.
-/
set_option Elab.async false

namespace Sys2Proof.Laws

open Machine

/-! ### Tables -/

theorem tget_build {α : Type} [Inhabited α] (n : Nat) (f : Nat → α) (i : Nat) (h : i < n) :
    tget (build n f) i = f i := by
  simp [tget, build, h]

theorem tget_tset_same {α : Type} {n : Nat} [Inhabited α] (v : Vector α n) (i : Nat) (x : α) (h : i < n) :
    tget (tset v i x) i = x := by
  simp [tget, tset, h]

theorem tget_tset_ne {α : Type} {n : Nat} [Inhabited α] (v : Vector α n) (i j : Nat) (x : α) (h : i ≠ j) :
    tget (tset v i x) j = tget v j := by
  by_cases hi : i < n <;> by_cases hj : j < n <;> simp [tget, tset, hi, hj, h]

theorem tget_tset {α : Type} {n : Nat} [Inhabited α] (v : Vector α n) (i j : Nat) (x : α) :
    tget (tset v i x) j = if i = j ∧ i < n then x else tget v j := by
  by_cases h : i = j
  · subst h
    by_cases hn : i < n
    · simp [tget_tset_same v i x hn, hn]
    · simp [tset, hn]
  · simp [tget_tset_ne v i j x h, h]

/-! ### One lemma per update and field -/

@[simp] theorem emit_pending (o : Output) (s : State) : (emit o s).pending = s.pending := rfl
@[simp] theorem emit_now (o : Output) (s : State) : (emit o s).now = s.now := rfl
@[simp] theorem emit_exch (o : Output) (s : State) : (emit o s).exch = s.exch := rfl
@[simp] theorem emit_ev (o : Output) (s : State) : (emit o s).ev = s.ev := rfl
@[simp] theorem emit_mat (o : Output) (s : State) : (emit o s).mat = s.mat := rfl
@[simp] theorem emit_mix (o : Output) (s : State) : (emit o s).mix = s.mix := rfl
@[simp] theorem emit_fold (o : Output) (s : State) : (emit o s).fold = s.fold := rfl
@[simp] theorem emit_arb (o : Output) (s : State) : (emit o s).arb = s.arb := rfl
@[simp] theorem emit_call (o : Output) (s : State) : (emit o s).call = s.call := rfl
@[simp] theorem emit_loops (o : Output) (s : State) : (emit o s).loops = s.loops := rfl
@[simp] theorem emit_panels (o : Output) (s : State) : (emit o s).panels = s.panels := rfl
@[simp] theorem emit_links (o : Output) (s : State) : (emit o s).links = s.links := rfl
@[simp] theorem emit_jits (o : Output) (s : State) : (emit o s).jits = s.jits := rfl
@[simp] theorem emit_chans (o : Output) (s : State) : (emit o s).chans = s.chans := rfl
@[simp] theorem emit_recall (o : Output) (s : State) : (emit o s).engine = s.engine := rfl
@[simp] theorem emit_strayMain (o : Output) (s : State) : (emit o s).strayMain = s.strayMain := rfl
@[simp] theorem emit_strayAlt (o : Output) (s : State) : (emit o s).strayAlt = s.strayAlt := rfl
@[simp] theorem emit_mirror (o : Output) (s : State) : (emit o s).mirror = s.mirror := rfl
@[simp] theorem emit_reports (o : Output) (s : State) : (emit o s).reports = s.reports := rfl
@[simp] theorem emit_sent (o : Output) (s : State) : (emit o s).sent = o :: s.sent := rfl
@[simp] theorem emit_writeFaults (o : Output) (s : State) : (emit o s).writeFaults = s.writeFaults := rfl

@[simp] theorem withPool_pending (p : List PoolEntry) (s : State) : (s.withPool p).pending = s.pending := rfl
@[simp] theorem withPool_now (p : List PoolEntry) (s : State) : (s.withPool p).now = s.now := rfl
@[simp] theorem withPool_exch (p : List PoolEntry) (s : State) : (s.withPool p).exch = s.exch := rfl
@[simp] theorem withPool_ev (p : List PoolEntry) (s : State) : (s.withPool p).ev = s.ev := rfl
@[simp] theorem withPool_mat (p : List PoolEntry) (s : State) : (s.withPool p).mat = { s.mat with pool := p } := rfl
@[simp] theorem withPool_mix (p : List PoolEntry) (s : State) : (s.withPool p).mix = s.mix := rfl
@[simp] theorem withPool_fold (p : List PoolEntry) (s : State) : (s.withPool p).fold = s.fold := rfl
@[simp] theorem withPool_arb (p : List PoolEntry) (s : State) : (s.withPool p).arb = s.arb := rfl
@[simp] theorem withPool_call (p : List PoolEntry) (s : State) : (s.withPool p).call = s.call := rfl
@[simp] theorem withPool_loops (p : List PoolEntry) (s : State) : (s.withPool p).loops = s.loops := rfl
@[simp] theorem withPool_panels (p : List PoolEntry) (s : State) : (s.withPool p).panels = s.panels := rfl
@[simp] theorem withPool_links (p : List PoolEntry) (s : State) : (s.withPool p).links = s.links := rfl
@[simp] theorem withPool_jits (p : List PoolEntry) (s : State) : (s.withPool p).jits = s.jits := rfl
@[simp] theorem withPool_chans (p : List PoolEntry) (s : State) : (s.withPool p).chans = s.chans := rfl
@[simp] theorem withPool_recall (p : List PoolEntry) (s : State) : (s.withPool p).engine = s.engine := rfl
@[simp] theorem withPool_strayMain (p : List PoolEntry) (s : State) : (s.withPool p).strayMain = s.strayMain := rfl
@[simp] theorem withPool_strayAlt (p : List PoolEntry) (s : State) : (s.withPool p).strayAlt = s.strayAlt := rfl
@[simp] theorem withPool_mirror (p : List PoolEntry) (s : State) : (s.withPool p).mirror = s.mirror := rfl
@[simp] theorem withPool_reports (p : List PoolEntry) (s : State) : (s.withPool p).reports = s.reports := rfl
@[simp] theorem withPool_sent (p : List PoolEntry) (s : State) : (s.withPool p).sent = s.sent := rfl
@[simp] theorem withPool_writeFaults (p : List PoolEntry) (s : State) : (s.withPool p).writeFaults = s.writeFaults := rfl

@[simp] theorem withDest_pending (d : Nat) (r : DestRec) (s : State) : (s.withDest d r).pending = s.pending := rfl
@[simp] theorem withDest_now (d : Nat) (r : DestRec) (s : State) : (s.withDest d r).now = s.now := rfl
@[simp] theorem withDest_exch (d : Nat) (r : DestRec) (s : State) : (s.withDest d r).exch = s.exch := rfl
@[simp] theorem withDest_ev (d : Nat) (r : DestRec) (s : State) : (s.withDest d r).ev = s.ev := rfl
@[simp] theorem withDest_mat (d : Nat) (r : DestRec) (s : State) : (s.withDest d r).mat = { s.mat with dests := tset s.mat.dests d r } := rfl
@[simp] theorem withDest_mix (d : Nat) (r : DestRec) (s : State) : (s.withDest d r).mix = s.mix := rfl
@[simp] theorem withDest_fold (d : Nat) (r : DestRec) (s : State) : (s.withDest d r).fold = s.fold := rfl
@[simp] theorem withDest_arb (d : Nat) (r : DestRec) (s : State) : (s.withDest d r).arb = s.arb := rfl
@[simp] theorem withDest_call (d : Nat) (r : DestRec) (s : State) : (s.withDest d r).call = s.call := rfl
@[simp] theorem withDest_loops (d : Nat) (r : DestRec) (s : State) : (s.withDest d r).loops = s.loops := rfl
@[simp] theorem withDest_panels (d : Nat) (r : DestRec) (s : State) : (s.withDest d r).panels = s.panels := rfl
@[simp] theorem withDest_links (d : Nat) (r : DestRec) (s : State) : (s.withDest d r).links = s.links := rfl
@[simp] theorem withDest_jits (d : Nat) (r : DestRec) (s : State) : (s.withDest d r).jits = s.jits := rfl
@[simp] theorem withDest_chans (d : Nat) (r : DestRec) (s : State) : (s.withDest d r).chans = s.chans := rfl
@[simp] theorem withDest_recall (d : Nat) (r : DestRec) (s : State) : (s.withDest d r).engine = s.engine := rfl
@[simp] theorem withDest_strayMain (d : Nat) (r : DestRec) (s : State) : (s.withDest d r).strayMain = s.strayMain := rfl
@[simp] theorem withDest_strayAlt (d : Nat) (r : DestRec) (s : State) : (s.withDest d r).strayAlt = s.strayAlt := rfl
@[simp] theorem withDest_mirror (d : Nat) (r : DestRec) (s : State) : (s.withDest d r).mirror = s.mirror := rfl
@[simp] theorem withDest_reports (d : Nat) (r : DestRec) (s : State) : (s.withDest d r).reports = s.reports := rfl
@[simp] theorem withDest_sent (d : Nat) (r : DestRec) (s : State) : (s.withDest d r).sent = s.sent := rfl
@[simp] theorem withDest_writeFaults (d : Nat) (r : DestRec) (s : State) : (s.withDest d r).writeFaults = s.writeFaults := rfl

@[simp] theorem claimCause_pending (n : Nat) (c : Option Cause) (s : State) : (claimCause n c s).pending = s.pending := rfl
@[simp] theorem claimCause_now (n : Nat) (c : Option Cause) (s : State) : (claimCause n c s).now = s.now := rfl
@[simp] theorem claimCause_exch (n : Nat) (c : Option Cause) (s : State) : (claimCause n c s).exch = s.exch := rfl
@[simp] theorem claimCause_ev (n : Nat) (c : Option Cause) (s : State) : (claimCause n c s).ev = s.ev := rfl
@[simp] theorem claimCause_mat (n : Nat) (c : Option Cause) (s : State) : (claimCause n c s).mat = { s.mat with sources := if n < 24 then tmod s.mat.sources (128 + n) fun r => { r with cause := c } else s.mat.sources } := rfl
@[simp] theorem claimCause_mix (n : Nat) (c : Option Cause) (s : State) : (claimCause n c s).mix = s.mix := rfl
@[simp] theorem claimCause_fold (n : Nat) (c : Option Cause) (s : State) : (claimCause n c s).fold = s.fold := rfl
@[simp] theorem claimCause_arb (n : Nat) (c : Option Cause) (s : State) : (claimCause n c s).arb = s.arb := rfl
@[simp] theorem claimCause_call (n : Nat) (c : Option Cause) (s : State) : (claimCause n c s).call = s.call := rfl
@[simp] theorem claimCause_loops (n : Nat) (c : Option Cause) (s : State) : (claimCause n c s).loops = s.loops := rfl
@[simp] theorem claimCause_panels (n : Nat) (c : Option Cause) (s : State) : (claimCause n c s).panels = s.panels := rfl
@[simp] theorem claimCause_links (n : Nat) (c : Option Cause) (s : State) : (claimCause n c s).links = s.links := rfl
@[simp] theorem claimCause_jits (n : Nat) (c : Option Cause) (s : State) : (claimCause n c s).jits = s.jits := rfl
@[simp] theorem claimCause_chans (n : Nat) (c : Option Cause) (s : State) : (claimCause n c s).chans = s.chans := rfl
@[simp] theorem claimCause_recall (n : Nat) (c : Option Cause) (s : State) : (claimCause n c s).engine = s.engine := rfl
@[simp] theorem claimCause_strayMain (n : Nat) (c : Option Cause) (s : State) : (claimCause n c s).strayMain = s.strayMain := rfl
@[simp] theorem claimCause_strayAlt (n : Nat) (c : Option Cause) (s : State) : (claimCause n c s).strayAlt = s.strayAlt := rfl
@[simp] theorem claimCause_mirror (n : Nat) (c : Option Cause) (s : State) : (claimCause n c s).mirror = s.mirror := rfl
@[simp] theorem claimCause_reports (n : Nat) (c : Option Cause) (s : State) : (claimCause n c s).reports = s.reports := rfl
@[simp] theorem claimCause_sent (n : Nat) (c : Option Cause) (s : State) : (claimCause n c s).sent = s.sent := rfl
@[simp] theorem claimCause_writeFaults (n : Nat) (c : Option Cause) (s : State) : (claimCause n c s).writeFaults = s.writeFaults := rfl

@[simp] theorem putBus_pending (b : Nat) (l : List Member) (s : State) : (putBus b l s).pending = s.pending := rfl
@[simp] theorem putBus_now (b : Nat) (l : List Member) (s : State) : (putBus b l s).now = s.now := rfl
@[simp] theorem putBus_exch (b : Nat) (l : List Member) (s : State) : (putBus b l s).exch = s.exch := rfl
@[simp] theorem putBus_ev (b : Nat) (l : List Member) (s : State) : (putBus b l s).ev = s.ev := rfl
@[simp] theorem putBus_mat (b : Nat) (l : List Member) (s : State) : (putBus b l s).mat = s.mat := rfl
@[simp] theorem putBus_mix (b : Nat) (l : List Member) (s : State) : (putBus b l s).mix = { s.mix with buses := tset s.mix.buses b l } := rfl
@[simp] theorem putBus_fold (b : Nat) (l : List Member) (s : State) : (putBus b l s).fold = s.fold := rfl
@[simp] theorem putBus_arb (b : Nat) (l : List Member) (s : State) : (putBus b l s).arb = s.arb := rfl
@[simp] theorem putBus_call (b : Nat) (l : List Member) (s : State) : (putBus b l s).call = s.call := rfl
@[simp] theorem putBus_loops (b : Nat) (l : List Member) (s : State) : (putBus b l s).loops = s.loops := rfl
@[simp] theorem putBus_panels (b : Nat) (l : List Member) (s : State) : (putBus b l s).panels = s.panels := rfl
@[simp] theorem putBus_links (b : Nat) (l : List Member) (s : State) : (putBus b l s).links = s.links := rfl
@[simp] theorem putBus_jits (b : Nat) (l : List Member) (s : State) : (putBus b l s).jits = s.jits := rfl
@[simp] theorem putBus_chans (b : Nat) (l : List Member) (s : State) : (putBus b l s).chans = s.chans := rfl
@[simp] theorem putBus_recall (b : Nat) (l : List Member) (s : State) : (putBus b l s).engine = s.engine := rfl
@[simp] theorem putBus_strayMain (b : Nat) (l : List Member) (s : State) : (putBus b l s).strayMain = s.strayMain := rfl
@[simp] theorem putBus_strayAlt (b : Nat) (l : List Member) (s : State) : (putBus b l s).strayAlt = s.strayAlt := rfl
@[simp] theorem putBus_mirror (b : Nat) (l : List Member) (s : State) : (putBus b l s).mirror = s.mirror := rfl
@[simp] theorem putBus_reports (b : Nat) (l : List Member) (s : State) : (putBus b l s).reports = s.reports := rfl
@[simp] theorem putBus_sent (b : Nat) (l : List Member) (s : State) : (putBus b l s).sent = s.sent := rfl
@[simp] theorem putBus_writeFaults (b : Nat) (l : List Member) (s : State) : (putBus b l s).writeFaults = s.writeFaults := rfl

@[simp] theorem putRec_pending (r : Nat) (x : FoldRec) (s : State) : (putRec r x s).pending = s.pending := rfl
@[simp] theorem putRec_now (r : Nat) (x : FoldRec) (s : State) : (putRec r x s).now = s.now := rfl
@[simp] theorem putRec_exch (r : Nat) (x : FoldRec) (s : State) : (putRec r x s).exch = s.exch := rfl
@[simp] theorem putRec_ev (r : Nat) (x : FoldRec) (s : State) : (putRec r x s).ev = s.ev := rfl
@[simp] theorem putRec_mat (r : Nat) (x : FoldRec) (s : State) : (putRec r x s).mat = s.mat := rfl
@[simp] theorem putRec_mix (r : Nat) (x : FoldRec) (s : State) : (putRec r x s).mix = s.mix := rfl
@[simp] theorem putRec_fold (r : Nat) (x : FoldRec) (s : State) : (putRec r x s).fold = { s.fold with recs := tset s.fold.recs r x } := rfl
@[simp] theorem putRec_arb (r : Nat) (x : FoldRec) (s : State) : (putRec r x s).arb = s.arb := rfl
@[simp] theorem putRec_call (r : Nat) (x : FoldRec) (s : State) : (putRec r x s).call = s.call := rfl
@[simp] theorem putRec_loops (r : Nat) (x : FoldRec) (s : State) : (putRec r x s).loops = s.loops := rfl
@[simp] theorem putRec_panels (r : Nat) (x : FoldRec) (s : State) : (putRec r x s).panels = s.panels := rfl
@[simp] theorem putRec_links (r : Nat) (x : FoldRec) (s : State) : (putRec r x s).links = s.links := rfl
@[simp] theorem putRec_jits (r : Nat) (x : FoldRec) (s : State) : (putRec r x s).jits = s.jits := rfl
@[simp] theorem putRec_chans (r : Nat) (x : FoldRec) (s : State) : (putRec r x s).chans = s.chans := rfl
@[simp] theorem putRec_recall (r : Nat) (x : FoldRec) (s : State) : (putRec r x s).engine = s.engine := rfl
@[simp] theorem putRec_strayMain (r : Nat) (x : FoldRec) (s : State) : (putRec r x s).strayMain = s.strayMain := rfl
@[simp] theorem putRec_strayAlt (r : Nat) (x : FoldRec) (s : State) : (putRec r x s).strayAlt = s.strayAlt := rfl
@[simp] theorem putRec_mirror (r : Nat) (x : FoldRec) (s : State) : (putRec r x s).mirror = s.mirror := rfl
@[simp] theorem putRec_reports (r : Nat) (x : FoldRec) (s : State) : (putRec r x s).reports = s.reports := rfl
@[simp] theorem putRec_sent (r : Nat) (x : FoldRec) (s : State) : (putRec r x s).sent = s.sent := rfl
@[simp] theorem putRec_writeFaults (r : Nat) (x : FoldRec) (s : State) : (putRec r x s).writeFaults = s.writeFaults := rfl

@[simp] theorem putLine_pending (l : Nat) (x : Line) (s : State) : (putLine l x s).pending = s.pending := rfl
@[simp] theorem putLine_now (l : Nat) (x : Line) (s : State) : (putLine l x s).now = s.now := rfl
@[simp] theorem putLine_exch (l : Nat) (x : Line) (s : State) : (putLine l x s).exch = s.exch := rfl
@[simp] theorem putLine_ev (l : Nat) (x : Line) (s : State) : (putLine l x s).ev = s.ev := rfl
@[simp] theorem putLine_mat (l : Nat) (x : Line) (s : State) : (putLine l x s).mat = s.mat := rfl
@[simp] theorem putLine_mix (l : Nat) (x : Line) (s : State) : (putLine l x s).mix = s.mix := rfl
@[simp] theorem putLine_fold (l : Nat) (x : Line) (s : State) : (putLine l x s).fold = s.fold := rfl
@[simp] theorem putLine_arb (l : Nat) (x : Line) (s : State) : (putLine l x s).arb = { s.arb with lines := tset s.arb.lines l x } := rfl
@[simp] theorem putLine_call (l : Nat) (x : Line) (s : State) : (putLine l x s).call = s.call := rfl
@[simp] theorem putLine_loops (l : Nat) (x : Line) (s : State) : (putLine l x s).loops = s.loops := rfl
@[simp] theorem putLine_panels (l : Nat) (x : Line) (s : State) : (putLine l x s).panels = s.panels := rfl
@[simp] theorem putLine_links (l : Nat) (x : Line) (s : State) : (putLine l x s).links = s.links := rfl
@[simp] theorem putLine_jits (l : Nat) (x : Line) (s : State) : (putLine l x s).jits = s.jits := rfl
@[simp] theorem putLine_chans (l : Nat) (x : Line) (s : State) : (putLine l x s).chans = s.chans := rfl
@[simp] theorem putLine_recall (l : Nat) (x : Line) (s : State) : (putLine l x s).engine = s.engine := rfl
@[simp] theorem putLine_strayMain (l : Nat) (x : Line) (s : State) : (putLine l x s).strayMain = s.strayMain := rfl
@[simp] theorem putLine_strayAlt (l : Nat) (x : Line) (s : State) : (putLine l x s).strayAlt = s.strayAlt := rfl
@[simp] theorem putLine_mirror (l : Nat) (x : Line) (s : State) : (putLine l x s).mirror = s.mirror := rfl
@[simp] theorem putLine_reports (l : Nat) (x : Line) (s : State) : (putLine l x s).reports = s.reports := rfl
@[simp] theorem putLine_sent (l : Nat) (x : Line) (s : State) : (putLine l x s).sent = s.sent := rfl
@[simp] theorem putLine_writeFaults (l : Nat) (x : Line) (s : State) : (putLine l x s).writeFaults = s.writeFaults := rfl

@[simp] theorem putTalkers_pending (d : Nat) (l : List KeyId) (s : State) : (putTalkers d l s).pending = s.pending := rfl
@[simp] theorem putTalkers_now (d : Nat) (l : List KeyId) (s : State) : (putTalkers d l s).now = s.now := rfl
@[simp] theorem putTalkers_exch (d : Nat) (l : List KeyId) (s : State) : (putTalkers d l s).exch = s.exch := rfl
@[simp] theorem putTalkers_ev (d : Nat) (l : List KeyId) (s : State) : (putTalkers d l s).ev = s.ev := rfl
@[simp] theorem putTalkers_mat (d : Nat) (l : List KeyId) (s : State) : (putTalkers d l s).mat = s.mat := rfl
@[simp] theorem putTalkers_mix (d : Nat) (l : List KeyId) (s : State) : (putTalkers d l s).mix = s.mix := rfl
@[simp] theorem putTalkers_fold (d : Nat) (l : List KeyId) (s : State) : (putTalkers d l s).fold = s.fold := rfl
@[simp] theorem putTalkers_arb (d : Nat) (l : List KeyId) (s : State) : (putTalkers d l s).arb = { s.arb with talkers := tset s.arb.talkers d l } := rfl
@[simp] theorem putTalkers_call (d : Nat) (l : List KeyId) (s : State) : (putTalkers d l s).call = s.call := rfl
@[simp] theorem putTalkers_loops (d : Nat) (l : List KeyId) (s : State) : (putTalkers d l s).loops = s.loops := rfl
@[simp] theorem putTalkers_panels (d : Nat) (l : List KeyId) (s : State) : (putTalkers d l s).panels = s.panels := rfl
@[simp] theorem putTalkers_links (d : Nat) (l : List KeyId) (s : State) : (putTalkers d l s).links = s.links := rfl
@[simp] theorem putTalkers_jits (d : Nat) (l : List KeyId) (s : State) : (putTalkers d l s).jits = s.jits := rfl
@[simp] theorem putTalkers_chans (d : Nat) (l : List KeyId) (s : State) : (putTalkers d l s).chans = s.chans := rfl
@[simp] theorem putTalkers_recall (d : Nat) (l : List KeyId) (s : State) : (putTalkers d l s).engine = s.engine := rfl
@[simp] theorem putTalkers_strayMain (d : Nat) (l : List KeyId) (s : State) : (putTalkers d l s).strayMain = s.strayMain := rfl
@[simp] theorem putTalkers_strayAlt (d : Nat) (l : List KeyId) (s : State) : (putTalkers d l s).strayAlt = s.strayAlt := rfl
@[simp] theorem putTalkers_mirror (d : Nat) (l : List KeyId) (s : State) : (putTalkers d l s).mirror = s.mirror := rfl
@[simp] theorem putTalkers_reports (d : Nat) (l : List KeyId) (s : State) : (putTalkers d l s).reports = s.reports := rfl
@[simp] theorem putTalkers_sent (d : Nat) (l : List KeyId) (s : State) : (putTalkers d l s).sent = s.sent := rfl
@[simp] theorem putTalkers_writeFaults (d : Nat) (l : List KeyId) (s : State) : (putTalkers d l s).writeFaults = s.writeFaults := rfl

@[simp] theorem putCalls_pending (t : Nat) (l : List CallEntry) (s : State) : (putCalls t l s).pending = s.pending := rfl
@[simp] theorem putCalls_now (t : Nat) (l : List CallEntry) (s : State) : (putCalls t l s).now = s.now := rfl
@[simp] theorem putCalls_exch (t : Nat) (l : List CallEntry) (s : State) : (putCalls t l s).exch = s.exch := rfl
@[simp] theorem putCalls_ev (t : Nat) (l : List CallEntry) (s : State) : (putCalls t l s).ev = s.ev := rfl
@[simp] theorem putCalls_mat (t : Nat) (l : List CallEntry) (s : State) : (putCalls t l s).mat = s.mat := rfl
@[simp] theorem putCalls_mix (t : Nat) (l : List CallEntry) (s : State) : (putCalls t l s).mix = s.mix := rfl
@[simp] theorem putCalls_fold (t : Nat) (l : List CallEntry) (s : State) : (putCalls t l s).fold = s.fold := rfl
@[simp] theorem putCalls_arb (t : Nat) (l : List CallEntry) (s : State) : (putCalls t l s).arb = s.arb := rfl
@[simp] theorem putCalls_call (t : Nat) (l : List CallEntry) (s : State) : (putCalls t l s).call = { s.call with lists := tset s.call.lists t l } := rfl
@[simp] theorem putCalls_loops (t : Nat) (l : List CallEntry) (s : State) : (putCalls t l s).loops = s.loops := rfl
@[simp] theorem putCalls_panels (t : Nat) (l : List CallEntry) (s : State) : (putCalls t l s).panels = s.panels := rfl
@[simp] theorem putCalls_links (t : Nat) (l : List CallEntry) (s : State) : (putCalls t l s).links = s.links := rfl
@[simp] theorem putCalls_jits (t : Nat) (l : List CallEntry) (s : State) : (putCalls t l s).jits = s.jits := rfl
@[simp] theorem putCalls_chans (t : Nat) (l : List CallEntry) (s : State) : (putCalls t l s).chans = s.chans := rfl
@[simp] theorem putCalls_recall (t : Nat) (l : List CallEntry) (s : State) : (putCalls t l s).engine = s.engine := rfl
@[simp] theorem putCalls_strayMain (t : Nat) (l : List CallEntry) (s : State) : (putCalls t l s).strayMain = s.strayMain := rfl
@[simp] theorem putCalls_strayAlt (t : Nat) (l : List CallEntry) (s : State) : (putCalls t l s).strayAlt = s.strayAlt := rfl
@[simp] theorem putCalls_mirror (t : Nat) (l : List CallEntry) (s : State) : (putCalls t l s).mirror = s.mirror := rfl
@[simp] theorem putCalls_reports (t : Nat) (l : List CallEntry) (s : State) : (putCalls t l s).reports = s.reports := rfl
@[simp] theorem putCalls_sent (t : Nat) (l : List CallEntry) (s : State) : (putCalls t l s).sent = s.sent := rfl
@[simp] theorem putCalls_writeFaults (t : Nat) (l : List CallEntry) (s : State) : (putCalls t l s).writeFaults = s.writeFaults := rfl

@[simp] theorem putGen_pending (g : Nat) (x : Cadence) (s : State) : (putGen g x s).pending = s.pending := rfl
@[simp] theorem putGen_now (g : Nat) (x : Cadence) (s : State) : (putGen g x s).now = s.now := rfl
@[simp] theorem putGen_exch (g : Nat) (x : Cadence) (s : State) : (putGen g x s).exch = s.exch := rfl
@[simp] theorem putGen_ev (g : Nat) (x : Cadence) (s : State) : (putGen g x s).ev = s.ev := rfl
@[simp] theorem putGen_mat (g : Nat) (x : Cadence) (s : State) : (putGen g x s).mat = s.mat := rfl
@[simp] theorem putGen_mix (g : Nat) (x : Cadence) (s : State) : (putGen g x s).mix = s.mix := rfl
@[simp] theorem putGen_fold (g : Nat) (x : Cadence) (s : State) : (putGen g x s).fold = s.fold := rfl
@[simp] theorem putGen_arb (g : Nat) (x : Cadence) (s : State) : (putGen g x s).arb = s.arb := rfl
@[simp] theorem putGen_call (g : Nat) (x : Cadence) (s : State) : (putGen g x s).call = { s.call with gens := tset s.call.gens g x } := rfl
@[simp] theorem putGen_loops (g : Nat) (x : Cadence) (s : State) : (putGen g x s).loops = s.loops := rfl
@[simp] theorem putGen_panels (g : Nat) (x : Cadence) (s : State) : (putGen g x s).panels = s.panels := rfl
@[simp] theorem putGen_links (g : Nat) (x : Cadence) (s : State) : (putGen g x s).links = s.links := rfl
@[simp] theorem putGen_jits (g : Nat) (x : Cadence) (s : State) : (putGen g x s).jits = s.jits := rfl
@[simp] theorem putGen_chans (g : Nat) (x : Cadence) (s : State) : (putGen g x s).chans = s.chans := rfl
@[simp] theorem putGen_recall (g : Nat) (x : Cadence) (s : State) : (putGen g x s).engine = s.engine := rfl
@[simp] theorem putGen_strayMain (g : Nat) (x : Cadence) (s : State) : (putGen g x s).strayMain = s.strayMain := rfl
@[simp] theorem putGen_strayAlt (g : Nat) (x : Cadence) (s : State) : (putGen g x s).strayAlt = s.strayAlt := rfl
@[simp] theorem putGen_mirror (g : Nat) (x : Cadence) (s : State) : (putGen g x s).mirror = s.mirror := rfl
@[simp] theorem putGen_reports (g : Nat) (x : Cadence) (s : State) : (putGen g x s).reports = s.reports := rfl
@[simp] theorem putGen_sent (g : Nat) (x : Cadence) (s : State) : (putGen g x s).sent = s.sent := rfl
@[simp] theorem putGen_writeFaults (g : Nat) (x : Cadence) (s : State) : (putGen g x s).writeFaults = s.writeFaults := rfl

@[simp] theorem putInput_pending (i : Nat) (x : ControlIn) (s : State) : (putInput i x s).pending = s.pending := rfl
@[simp] theorem putInput_now (i : Nat) (x : ControlIn) (s : State) : (putInput i x s).now = s.now := rfl
@[simp] theorem putInput_exch (i : Nat) (x : ControlIn) (s : State) : (putInput i x s).exch = s.exch := rfl
@[simp] theorem putInput_ev (i : Nat) (x : ControlIn) (s : State) : (putInput i x s).ev = s.ev := rfl
@[simp] theorem putInput_mat (i : Nat) (x : ControlIn) (s : State) : (putInput i x s).mat = s.mat := rfl
@[simp] theorem putInput_mix (i : Nat) (x : ControlIn) (s : State) : (putInput i x s).mix = s.mix := rfl
@[simp] theorem putInput_fold (i : Nat) (x : ControlIn) (s : State) : (putInput i x s).fold = s.fold := rfl
@[simp] theorem putInput_arb (i : Nat) (x : ControlIn) (s : State) : (putInput i x s).arb = s.arb := rfl
@[simp] theorem putInput_call (i : Nat) (x : ControlIn) (s : State) : (putInput i x s).call = { s.call with inputs := tset s.call.inputs i x } := rfl
@[simp] theorem putInput_loops (i : Nat) (x : ControlIn) (s : State) : (putInput i x s).loops = s.loops := rfl
@[simp] theorem putInput_panels (i : Nat) (x : ControlIn) (s : State) : (putInput i x s).panels = s.panels := rfl
@[simp] theorem putInput_links (i : Nat) (x : ControlIn) (s : State) : (putInput i x s).links = s.links := rfl
@[simp] theorem putInput_jits (i : Nat) (x : ControlIn) (s : State) : (putInput i x s).jits = s.jits := rfl
@[simp] theorem putInput_chans (i : Nat) (x : ControlIn) (s : State) : (putInput i x s).chans = s.chans := rfl
@[simp] theorem putInput_recall (i : Nat) (x : ControlIn) (s : State) : (putInput i x s).engine = s.engine := rfl
@[simp] theorem putInput_strayMain (i : Nat) (x : ControlIn) (s : State) : (putInput i x s).strayMain = s.strayMain := rfl
@[simp] theorem putInput_strayAlt (i : Nat) (x : ControlIn) (s : State) : (putInput i x s).strayAlt = s.strayAlt := rfl
@[simp] theorem putInput_mirror (i : Nat) (x : ControlIn) (s : State) : (putInput i x s).mirror = s.mirror := rfl
@[simp] theorem putInput_reports (i : Nat) (x : ControlIn) (s : State) : (putInput i x s).reports = s.reports := rfl
@[simp] theorem putInput_sent (i : Nat) (x : ControlIn) (s : State) : (putInput i x s).sent = s.sent := rfl
@[simp] theorem putInput_writeFaults (i : Nat) (x : ControlIn) (s : State) : (putInput i x s).writeFaults = s.writeFaults := rfl

@[simp] theorem putJit_pending (n : Nat) (j : Jitter) (s : State) : (putJit n j s).pending = s.pending := rfl
@[simp] theorem putJit_now (n : Nat) (j : Jitter) (s : State) : (putJit n j s).now = s.now := rfl
@[simp] theorem putJit_exch (n : Nat) (j : Jitter) (s : State) : (putJit n j s).exch = s.exch := rfl
@[simp] theorem putJit_ev (n : Nat) (j : Jitter) (s : State) : (putJit n j s).ev = s.ev := rfl
@[simp] theorem putJit_mat (n : Nat) (j : Jitter) (s : State) : (putJit n j s).mat = s.mat := rfl
@[simp] theorem putJit_mix (n : Nat) (j : Jitter) (s : State) : (putJit n j s).mix = s.mix := rfl
@[simp] theorem putJit_fold (n : Nat) (j : Jitter) (s : State) : (putJit n j s).fold = s.fold := rfl
@[simp] theorem putJit_arb (n : Nat) (j : Jitter) (s : State) : (putJit n j s).arb = s.arb := rfl
@[simp] theorem putJit_call (n : Nat) (j : Jitter) (s : State) : (putJit n j s).call = s.call := rfl
@[simp] theorem putJit_loops (n : Nat) (j : Jitter) (s : State) : (putJit n j s).loops = s.loops := rfl
@[simp] theorem putJit_panels (n : Nat) (j : Jitter) (s : State) : (putJit n j s).panels = s.panels := rfl
@[simp] theorem putJit_links (n : Nat) (j : Jitter) (s : State) : (putJit n j s).links = s.links := rfl
@[simp] theorem putJit_jits (n : Nat) (j : Jitter) (s : State) : (putJit n j s).jits = tset s.jits n j := rfl
@[simp] theorem putJit_chans (n : Nat) (j : Jitter) (s : State) : (putJit n j s).chans = s.chans := rfl
@[simp] theorem putJit_recall (n : Nat) (j : Jitter) (s : State) : (putJit n j s).engine = s.engine := rfl
@[simp] theorem putJit_strayMain (n : Nat) (j : Jitter) (s : State) : (putJit n j s).strayMain = s.strayMain := rfl
@[simp] theorem putJit_strayAlt (n : Nat) (j : Jitter) (s : State) : (putJit n j s).strayAlt = s.strayAlt := rfl
@[simp] theorem putJit_mirror (n : Nat) (j : Jitter) (s : State) : (putJit n j s).mirror = s.mirror := rfl
@[simp] theorem putJit_reports (n : Nat) (j : Jitter) (s : State) : (putJit n j s).reports = s.reports := rfl
@[simp] theorem putJit_sent (n : Nat) (j : Jitter) (s : State) : (putJit n j s).sent = s.sent := rfl
@[simp] theorem putJit_writeFaults (n : Nat) (j : Jitter) (s : State) : (putJit n j s).writeFaults = s.writeFaults := rfl

/-! ### A key whose request has ended -/

@[simp] theorem ended_state (e : KeyEntry) : e.ended.state = .idle := rfl
@[simp] theorem ended_held (e : KeyEntry) : e.ended.held = none := rfl
@[simp] theorem ended_latched (e : KeyEntry) : e.ended.latched = false := rfl
@[simp] theorem ended_refusal (e : KeyEntry) : e.ended.refusal = none := rfl
@[simp] theorem ended_pressed (e : KeyEntry) : e.ended.pressed = e.pressed := rfl
@[simp] theorem ended_busy (e : KeyEntry) : e.ended.busy = e.busy := rfl
@[simp] theorem ended_function (e : KeyEntry) : e.ended.function = e.function := rfl
@[simp] theorem ended_target (e : KeyEntry) : e.ended.target = e.target := rfl
@[simp] theorem ended_mode (e : KeyEntry) : e.ended.mode = e.mode := rfl
@[simp] theorem ended_cls (e : KeyEntry) : e.ended.cls = e.cls := rfl
@[simp] theorem ended_stamp (e : KeyEntry) : e.ended.stamp = e.stamp := rfl
@[simp] theorem ended_grant (e : KeyEntry) : e.ended.grant = e.grant := rfl
@[simp] theorem ended_level (e : KeyEntry) : e.ended.level = e.level := rfl

end Sys2Proof.Laws
end

