-- ==== Sys2Proof/Laws/Ops.lean ====
section
/-!
SUPPORT. Everything the shared operations of sending, writing and raising can change, and the relation `Keeps` that
says what a sequence of operations keeps.
-/
set_option Elab.async false

namespace Sys2Proof.Laws

open Machine Sys2Proof.Inv

/-! ### Shared operations -/

/-- A host write touches the record of what was sent and the failing addresses alone. -/
theorem hostWrite_changes (a : Nat) (b : List Byte) (s : State) :
    ∃ x y, (hostWrite a b s).2 = { s with sent := x, writeFaults := y } := by
  unfold hostWrite
  split
  · exact ⟨_, s.writeFaults, rfl⟩
  · exact ⟨s.sent, _, rfl⟩

theorem areaWrite_changes (a : Nat) (b : List Byte) (s : State) :
    ∃ x y, (areaWrite a b s).2 = { s with sent := x, writeFaults := y } := hostWrite_changes _ _ _

/-- A mirror write touches update counts, the record of what was sent and the failing addresses. -/
theorem writeRecord_changes (i o : Nat) (b : List Byte) (s : State) :
    ∃ m x y, writeRecord i o b s = { s with mirror := m, sent := x, writeFaults := y } := by
  unfold writeRecord
  dsimp only
  generalize h1 : areaWrite o _ _ = w1
  obtain ⟨x1, y1, e1⟩ := areaWrite_changes o (u32 (tget s.mirror i + 1).toNat)
    { s with mirror := tset s.mirror i (tget s.mirror i + 2) }
  rw [h1] at e1
  obtain ⟨ok1, s2⟩ := w1
  simp only at e1
  subst e1
  dsimp only
  split
  · generalize h2 : areaWrite (o + 4) _ _ = w2
    obtain ⟨x2, y2, e2⟩ := areaWrite_changes (o + 4) b
      { s with mirror := tset s.mirror i (tget s.mirror i + 2), sent := x1, writeFaults := y1 }
    rw [h2] at e2
    obtain ⟨ok2, s3⟩ := w2
    simp only at e2
    subst e2
    dsimp only
    split
    · obtain ⟨x3, y3, e3⟩ := areaWrite_changes o (u32 (tget s.mirror i + 2).toNat)
        { s with mirror := tset s.mirror i (tget s.mirror i + 2), sent := x2, writeFaults := y2 }
      exact ⟨_, x3, y3, e3⟩
    · exact ⟨_, x2, y2, rfl⟩
  · exact ⟨_, x1, y1, rfl⟩

theorem mirrorChange_changes (i o : Nat) (a b : List Byte) (s : State) :
    ∃ m x y, mirrorChange i o a b s = { s with mirror := m, sent := x, writeFaults := y } := by
  unfold mirrorChange
  split
  · exact writeRecord_changes ..
  · exact ⟨s.mirror, s.sent, s.writeFaults, rfl⟩

theorem putRecall_changes (r : Recall) (s : State) :
    ∃ m x y, putRecall r s = { s with engine := r, mirror := m, sent := x, writeFaults := y } := by
  obtain ⟨m, x, y, h⟩ := mirrorChange_changes 0 0x1800 (encRecall s.engine) (encRecall r) { s with engine := r }
  exact ⟨m, x, y, h⟩

theorem putLoop_changes (l : Nat) (r : Loop) (s : State) :
    ∃ m x y, putLoop l r s = { s with loops := tset s.loops l r, mirror := m, sent := x, writeFaults := y } := by
  obtain ⟨m, x, y, h⟩ := mirrorChange_changes (1 + l) (0x1840 + 32 * l) (encLoop (tget s.loops l)) (encLoop r)
    { s with loops := tset s.loops l r }
  exact ⟨m, x, y, h⟩

theorem putPanel_changes (st : Nat) (r : Panel) (s : State) :
    ∃ m x y, putPanel st r s = { s with panels := tset s.panels st r, mirror := m, sent := x, writeFaults := y } := by
  obtain ⟨m, x, y, h⟩ := mirrorChange_changes (5 + st) (0x1900 + 32 * st) (encPanel (tget s.panels st)) (encPanel r)
    { s with panels := tset s.panels st r }
  exact ⟨m, x, y, h⟩

theorem putChan_changes (c : Nat) (r : Channel) (s : State) :
    ∃ m x y, putChan c r s = { s with chans := tset s.chans c r, mirror := m, sent := x, writeFaults := y } := by
  obtain ⟨m, x, y, h⟩ := mirrorChange_changes (69 + c) (0x2100 + 32 * c) (encChan (tget s.chans c)) (encChan r)
    { s with chans := tset s.chans c r }
  exact ⟨m, x, y, h⟩

theorem putLink_changes (n : Nat) (r : Link) (s : State) :
    ∃ m x y, putLink n r s = { s with links := tset s.links n r, mirror := m, sent := x, writeFaults := y } := by
  obtain ⟨m, x, y, h⟩ := mirrorChange_changes (85 + n) (0x2300 + 128 * n) (encLink (tget s.links n)) (encLink r)
    { s with links := tset s.links n r }
  exact ⟨m, x, y, h⟩

/-- An event's words and records written: a retry mark, what was sent and the failing addresses. -/
def EvWritten (s t : State) : Prop :=
  ∃ v x y, t = { s with ev := v, sent := x, writeFaults := y } ∧ v.vectors = s.ev.vectors

theorem EvWritten.trans {s t u : State} (h : EvWritten s t) (k : EvWritten t u) : EvWritten s u := by
  obtain ⟨v, x, y, rfl, hv⟩ := h
  obtain ⟨v', x', y', rfl, hv'⟩ := k
  exact ⟨v', x', y', rfl, hv'.trans hv⟩

theorem writeDetail_changes (e : Nat) (s : State) : EvWritten s (writeDetail e s) := by
  obtain ⟨x, y, h⟩ := areaWrite_changes (0x0100 + 32 * e) (detailRecord s.ev e) s
  let w := areaWrite (0x0100 + 32 * e) (detailRecord s.ev e) s
  refine ⟨{ s.ev with unwritten := setBit s.ev.unwritten e !w.1 }, x, y, ?_, rfl⟩
  show { w.2 with ev.unwritten := setBit w.2.ev.unwritten e !w.1 } = _
  rw [show w.2 = _ from h]

theorem writeOverrun_changes (s : State) : EvWritten s (writeOverrun s) := by
  obtain ⟨x, y, h⟩ := areaWrite_changes 0x0060 (u64 s.ev.overrun.toNat) s
  let w := areaWrite 0x0060 (u64 s.ev.overrun.toNat) s
  refine ⟨{ s.ev with overrunUnwritten := !w.1 }, x, y, ?_, rfl⟩
  show { w.2 with ev.overrunUnwritten := !w.1 } = _
  rw [show w.2 = _ from h]

theorem writeRaised_changes (s : State) : EvWritten s (writeRaised s) := by
  obtain ⟨x, y, h⟩ := areaWrite_changes 0x0058 (u64 s.ev.raised.toNat) s
  let w := areaWrite 0x0058 (u64 s.ev.raised.toNat) s
  refine ⟨{ s.ev with raisedUnwritten := !w.1 }, x, y, ?_, rfl⟩
  show { w.2 with ev.raisedUnwritten := !w.1 } = _
  rw [show w.2 = _ from h]

/-- The done word's write touches its own retry mark beside what was sent. -/
theorem writeDone_changes (s : State) :
    ∃ u x y, writeDone s = { s with exch.doneUnwritten := u, sent := x, writeFaults := y } := by
  obtain ⟨x, y, h⟩ := areaWrite_changes 0x0048 (u64 s.exch.doneCopy.toNat) s
  let w := areaWrite 0x0048 (u64 s.exch.doneCopy.toNat) s
  refine ⟨!w.1, x, y, ?_⟩
  show { w.2 with exch.doneUnwritten := !w.1 } = _
  rw [show w.2 = _ from h]

theorem emits_change (l : List Nat) (s : State) :
    ∃ x, l.foldl (fun s v => emit (.interrupt v) s) s = { s with sent := x } := by
  induction l generalizing s with
  | nil => exact ⟨s.sent, rfl⟩
  | cons v l ih =>
    obtain ⟨x, h⟩ := ih (emit (.interrupt v) s)
    exact ⟨x, h⟩

/-- Judging the vectors writes them and sends messages. -/
theorem judgeVectors_changes (s : State) :
    ∃ x, judgeVectors s = { s with ev.vectors := vectorsNow s, sent := x } := by
  unfold judgeVectors
  dsimp only
  split
  · exact emits_change _ _
  · exact ⟨s.sent, rfl⟩

/-- While the part is not Running no vector is judged asserted. -/
theorem vectorsNow_stopped (s : State) (h : s.exch.part ≠ .running) (v : Nat) : tget (vectorsNow s) v = false := by
  have hr : s.running = false := by simp [State.running, h]
  unfold vectorsNow
  by_cases hv : v < 4
  · rw [tget_build _ _ _ hv, hr]; rfl
  · simp [tget, hv]

/-- A raised event touches the event unit, what was sent and the failing addresses; outside Running the vectors
stay. -/
theorem raiseEvent_changes (e : Nat) (d : List Byte) (s : State) :
    ∃ v x y, raiseEvent e d s = { s with ev := v, sent := x, writeFaults := y }
      ∧ (s.exch.part ≠ .running → v.vectors = s.ev.vectors) := by
  unfold raiseEvent
  dsimp only
  split
  · split
    · obtain ⟨v, x, y, h, hv⟩ := (writeDetail_changes e _).trans (writeOverrun_changes _)
      exact ⟨v, x, y, h, fun _ => hv⟩
    · exact ⟨_, s.sent, s.writeFaults, rfl, fun _ => rfl⟩
  · split
    · rename_i hrun
      obtain ⟨v, x, y, h, hv⟩ :=
        ((writeDetail_changes e _).trans (writeOverrun_changes _)).trans (writeRaised_changes _)
      rw [h]
      obtain ⟨x', h'⟩ := judgeVectors_changes _
      refine ⟨_, x', y, h', ?_⟩
      intro hn
      simp [State.running, hn] at hrun
    · exact ⟨_, s.sent, s.writeFaults, rfl, fun _ => rfl⟩

end Sys2Proof.Laws
end

