-- ==== Sys2Proof/Laws/Keeps.lean ====
section
/-!
SUPPORT. `Keeps P n s t`: what holds of `t` when it comes from `s` by operations of level `n` (0: what a cascade may do;
1: the same with an order's finishing; 2: what an order or an event of a block may set; 3: what the exchange unit and
the clock may do), where every party line keeps `P`; and one lemma for each way to write a record. `AllLines` is what the
lines keep in the end; another `P` says of one operation which lines it leaves.
-/
set_option Elab.async false

namespace Sys2Proof.Laws

open Machine Sys2Proof.Inv

/-- Every party line keeps its rules. -/
def AllLines (_ : Nat) (r : Line) : Prop := LineOk r

/-- Every party line but `l` keeps its rules. -/
def OtherLines (l l' : Nat) (r : Line) : Prop := l' ≠ l → LineOk r

/-- What operations of level `n` keep, where every party line keeps `P`. -/
structure Keeps (P : Nat → Line → Prop) (n : Nat) (s t : State) : Prop where
  pending : t.pending = s.pending
  now     : n ≤ 2 → t.now = s.now
  exch0   : n = 0 → t.exch = s.exch
  exch    : n ≤ 2 → exchSettings t.exch = exchSettings s.exch
  part    : n ≤ 2 → t.exch.part = s.exch.part
  regs    : RegsOk s.exch → RegsOk t.exch
  quiet   : Quiet s → Quiet t
  pool    : PoolOk s.mat.pool → PoolOk t.mat.pool
  sources : ∀ i, SourceOk i (tget s.mat.sources i) → SourceOk i (tget t.mat.sources i)
  dests   : ∀ d, DestOk d (tget s.mat.dests d) → DestOk d (tget t.mat.dests d)
  fixed   : ∀ d, (tget s.mat.dests d).lock = .fixed → (tget t.mat.dests d).lock = .fixed
  buses   : ∀ b, BusOk (tget s.mix.buses b) → BusOk (tget t.mix.buses b)
  fold    : ∀ r, FoldOk r (tget s.fold.recs r) → FoldOk r (tget t.fold.recs r)
  calls   : ∀ st, CallsOk st (tget s.call.lists st) → CallsOk st (tget t.call.lists st)
  chans   : ∀ c, ChanOk (tget s.chans c) → ChanOk (tget t.chans c)
  links   : ∀ k, LinkOk (tget s.links k) → LinkOk (tget t.links k)
  keys    : ∀ st, KeysOk st (tget s.arb.keys st) → KeysOk st (tget t.arb.keys st)
  lines   : ∀ l, P l (tget s.arb.lines l) → P l (tget t.arb.lines l)
  panels  : ∀ st, PanelOk (tget s.panels st) → PanelOk (tget t.panels st)
  jits    : ∀ k, JitOk (tget s.jits k) → JitOk (tget t.jits k)
  same    : n ≤ 1 → SameSettings s t

theorem Keeps.refl {P : Nat → Line → Prop} (n : Nat) (s : State) : Keeps P n s s := by
  constructor
  case same => intro _; constructor <;> intros <;> first | rfl | exact ⟨rfl, rfl, rfl, rfl⟩
  all_goals (intros; first | rfl | assumption)

/-- What a lower level keeps, a higher one keeps. -/
theorem Keeps.mono {P : Nat → Line → Prop} {m n : Nat} {s t : State} (h : Keeps P m s t) (hm : m ≤ n) : Keeps P n s t :=
  { h with
    now := fun k => h.now (by omega), exch0 := fun k => h.exch0 (by omega), exch := fun k => h.exch (by omega), part := fun k => h.part (by omega)
    same := fun k => h.same (by omega) }

/-- What every line but `l` keeps, and `l` by itself. -/
theorem Keeps.withLine {l n : Nat} {s t : State} (h : Keeps (OtherLines l) n s t)
    (hl : LineOk (tget s.arb.lines l) → LineOk (tget t.arb.lines l)) : Keeps AllLines n s t :=
  { h with
    lines := fun l' ho => by
      by_cases e : l' = l
      · subst e; exact hl ho
      · exact h.lines l' (fun _ => ho) e }

/-- One sequence after another. -/
theorem Keeps.trans {P : Nat → Line → Prop} {n : Nat} {s t u : State} (h : Keeps P n s t) (k : Keeps P n t u) : Keeps P n s u where
  pending := k.pending.trans h.pending
  now := fun i => (k.now i).trans (h.now i)
  exch0 := fun i => (k.exch0 i).trans (h.exch0 i)
  exch := fun i => (k.exch i).trans (h.exch i)
  part := fun i => (k.part i).trans (h.part i)
  regs := fun i => k.regs (h.regs i)
  quiet := fun i => k.quiet (h.quiet i)
  pool := fun i => k.pool (h.pool i)
  sources := fun i j => k.sources i (h.sources i j)
  dests := fun i j => k.dests i (h.dests i j)
  fixed := fun i j => k.fixed i (h.fixed i j)
  buses := fun i j => k.buses i (h.buses i j)
  fold := fun i j => k.fold i (h.fold i j)
  calls := fun i j => k.calls i (h.calls i j)
  chans := fun i j => k.chans i (h.chans i j)
  links := fun i j => k.links i (h.links i j)
  keys := fun i j => k.keys i (h.keys i j)
  lines := fun i j => k.lines i (h.lines i j)
  panels := fun i j => k.panels i (h.panels i j)
  jits := fun i j => k.jits i (h.jits i j)
  same := fun i =>
    let a := h.same i
    let b := k.same i
    { pending := b.pending.trans a.pending, now := b.now.trans a.now
      held := fun p d src => (b.held (h.pool p) d src).trans (a.held p d src)
      sources := fun j => (b.sources j).trans (a.sources j), dests := fun j => (b.dests j).trans (a.dests j)
      buses := b.buses.trans a.buses
      plans := ⟨b.plans.1.trans a.plans.1, b.plans.2.1.trans a.plans.2.1, b.plans.2.2.1.trans a.plans.2.2.1,
        b.plans.2.2.2.trans a.plans.2.2.2⟩
      fold := fun j => (b.fold j).trans (a.fold j)
      keys := fun x y => (b.keys x y).trans (a.keys x y), lines := fun j => (b.lines j).trans (a.lines j)
      smart := b.smart.trans a.smart, desk := b.desk.trans a.desk, call := b.call.trans a.call
      loops := b.loops.trans a.loops, panels := fun j => (b.panels j).trans (a.panels j)
      links := fun j => (b.links j).trans (a.links j), jits := fun j => (b.jits j).trans (a.jits j)
      chans := fun j => (b.chans j).trans (a.chans j), engine := b.engine.trans a.engine }

/-! ### Tables -/

theorem tset_holds {α : Type} {n : Nat} [Inhabited α] {v0 v : Vector α n} {i : Nat} {x : α} (P : Nat → α → Prop)
    (h : ∀ j, P j (tget v0 j) → P j (tget v j)) (hx : P i (tget v i) → P i x) (j : Nat) (hj : P j (tget v0 j)) :
    P j (tget (tset v i x) j) := by
  rw [tget_tset]
  split
  · rename_i hij
    obtain ⟨rfl, _⟩ := hij
    exact hx (h _ hj)
  · exact h j hj

theorem tset_reads {α β : Type} {n : Nat} [Inhabited α] {v0 v : Vector α n} {i : Nat} {x : α} (f : α → β)
    (h : ∀ j, f (tget v j) = f (tget v0 j)) (hx : f x = f (tget v i)) (j : Nat) :
    f (tget (tset v i x) j) = f (tget v0 j) := by
  rw [tget_tset]
  split
  · rename_i hij
    obtain ⟨rfl, _⟩ := hij
    exact hx.trans (h _)
  · exact h j

/-! ### Lists -/

theorem insertBy_perm {α : Type} (b : α → α → Bool) (x : α) (l : List α) : (insertBy b x l).Perm (x :: l) := by
  induction l with
  | nil => exact List.Perm.refl _
  | cons y ys ih =>
    unfold insertBy
    split
    · exact (List.Perm.cons y ih).trans (List.Perm.swap x y ys)
    · exact List.Perm.refl _

theorem satAdd_le (top a b : Nat) : satAdd top a b ≤ top := by
  unfold satAdd
  split
  · assumption
  · exact Nat.le_refl _

/-! ### One lemma for each way to write a record -/

variable {P : Nat → Line → Prop} {n : Nat} {s t : State}

/-- What is sent, the mirror's counts, failing addresses and queued reports. -/
theorem Keeps.io (h : Keeps P n s t) (m : Vector Word32 109) (x : List Output) (y : List Nat) :
    Keeps P n s { t with mirror := m, sent := x, writeFaults := y } :=
  { h with same := fun k => { h.same k with } }

theorem Keeps.reports (h : Keeps P n s t) (r : List Report) : Keeps P n s { t with reports := r } :=
  { h with same := fun k => { h.same k with } }

theorem Keeps.sent (h : Keeps P n s t) (o : Output) : Keeps P n s (emit o t) := h.io t.mirror (o :: t.sent) t.writeFaults

theorem Keeps.host (h : Keeps P n s t) (a : Nat) (b : List Byte) : Keeps P n s (hostWrite a b t).2 := by
  obtain ⟨x, y, e⟩ := hostWrite_changes a b t
  rw [e]
  exact h.io t.mirror x y

theorem Keeps.area (h : Keeps P n s t) (a : Nat) (b : List Byte) : Keeps P n s (areaWrite a b t).2 := h.host _ b

theorem Keeps.events (h : Keeps P n s t) (v : EventUnit) (x : List Output) (y : List Nat)
    (hv : t.exch.part ≠ .running → v.vectors = t.ev.vectors) :
    Keeps P n s { t with ev := v, sent := x, writeFaults := y } :=
  { h with
    quiet := fun q r i => by
      show tget v.vectors i = false
      rw [hv r]
      exact h.quiet q r i
    same := fun k => { h.same k with } }

theorem Keeps.raised (h : Keeps P n s t) (e : Nat) (d : List Byte) : Keeps P n s (raiseEvent e d t) := by
  obtain ⟨v, x, y, he, hv⟩ := raiseEvent_changes e d t
  rw [he]
  exact h.events v x y hv

theorem Keeps.withPool (h : Keeps P n s t) {p : List PoolEntry} (hp : PoolOk t.mat.pool → PoolOk p)
    (hh : n ≤ 1 → PoolOk t.mat.pool → ∀ d src, heldAt p d src = heldAt t.mat.pool d src) :
    Keeps P n s (t.withPool p) :=
  { h with
    pool := fun q => hp (h.pool q)
    same := fun k => { h.same k with
      held := fun q d src => (hh k (h.pool q) d src).trans ((h.same k).held q d src) } }

theorem Keeps.withDest (h : Keeps P n s t) (d : Nat) {r : DestRec}
    (ho : DestOk d (t.dest d) → DestOk d r) (hf : (t.dest d).lock = .fixed → r.lock = .fixed)
    (hs : n ≤ 1 → destSettings r = destSettings (t.dest d)) : Keeps P n s (t.withDest d r) :=
  { h with
    dests := tset_holds (fun i x => DestOk i x) h.dests ho
    fixed := tset_holds (fun _ (x : DestRec) => x.lock = .fixed) h.fixed hf
    same := fun k => { h.same k with dests := tset_reads destSettings (h.same k).dests (hs k) } }

theorem Keeps.sourceSet (h : Keeps P n s t) (i : Nat) {r : SourceRec}
    (ho : SourceOk i (tget t.mat.sources i) → SourceOk i r)
    (hs : n ≤ 1 → sourceSettings r = sourceSettings (tget t.mat.sources i)) :
    Keeps P n s { t with mat.sources := tset t.mat.sources i r } :=
  { h with
    sources := tset_holds SourceOk h.sources ho
    same := fun k => { h.same k with sources := tset_reads sourceSettings (h.same k).sources (hs k) } }

theorem Keeps.cause (h : Keeps P n s t) (k : Nat) (c : Option Cause) : Keeps P n s (claimCause k c t) := by
  unfold claimCause
  split
  · rename_i hk
    exact h.sourceSet _ (r := { tget t.mat.sources (128 + k) with cause := c })
      (fun ho => ⟨ho.1, fun _ => by omega⟩) fun _ => rfl
  · exact h

theorem Keeps.mixed (h : Keeps P n s t) (h1 : 2 ≤ n) (m : Mixer)
    (hb : ∀ b, BusOk (tget t.mix.buses b) → BusOk (tget m.buses b)) : Keeps P n s { t with mix := m } :=
  { h with
    buses := fun b q => hb b (h.buses b q)
    same := fun _ => by omega }

theorem Keeps.rec_ (h : Keeps P n s t) (r : Nat) {x : FoldRec} (ho : FoldOk r (tget t.fold.recs r) → FoldOk r x)
    (hs : n ≤ 1 → foldSettings x = foldSettings (tget t.fold.recs r)) : Keeps P n s (putRec r x t) :=
  { h with
    fold := tset_holds (fun i x => FoldOk i x) h.fold ho
    same := fun k => { h.same k with fold := tset_reads foldSettings (h.same k).fold (hs k) } }

theorem Keeps.taken (h : Keeps P n s t) (k : Nat) : Keeps P n s { t with fold.taken := k } :=
  { h with same := fun k => { h.same k with } }

theorem Keeps.arb (h : Keeps P n s t) (a : Arbiter)
    (hK : ∀ st, KeysOk st (tget t.arb.keys st) → KeysOk st (tget a.keys st))
    (hL : ∀ l, P l (t.line l) → P l (tget a.lines l))
    (hk : n ≤ 1 → ∀ st k, keySettings ((tget a.keys st).getD k default) = keySettings (t.key st k))
    (hl : n ≤ 1 → ∀ l, lineSettings (tget a.lines l) = lineSettings (t.line l))
    (hd : n ≤ 1 → a.smart = t.arb.smart ∧ a.deskMic = t.arb.deskMic) : Keeps P n s { t with arb := a } :=
  { h with
    keys := fun st q => hK st (h.keys st q)
    lines := fun l q => hL l (h.lines l q)
    same := fun k => { h.same k with
      keys := fun st i => (hk k st i).trans ((h.same k).keys st i)
      lines := fun l => (hl k l).trans ((h.same k).lines l)
      smart := (hd k).1.trans (h.same k).smart
      desk := (hd k).2.trans (h.same k).desk } }

theorem Keeps.talkers (h : Keeps P n s t) (d : Nat) (l : List KeyId) : Keeps P n s (putTalkers d l t) :=
  h.arb _ (fun _ => id) (fun _ => id) (fun _ _ _ => rfl) (fun _ _ => rfl) fun _ => ⟨rfl, rfl⟩

theorem Keeps.line (h : Keeps P n s t) (l : Nat) {r : Line} (ho : P l (t.line l) → P l r)
    (hs : n ≤ 1 → lineSettings r = lineSettings (t.line l) := by exact fun _ => rfl) : Keeps P n s (putLine l r t) :=
  h.arb _ (fun _ => id) (fun i q => tset_holds P (fun _ => id) ho i q) (fun _ _ _ => rfl)
    (fun k => tset_reads lineSettings (fun _ => rfl) (hs k)) fun _ => ⟨rfl, rfl⟩

theorem Keeps.called (h : Keeps P n s t) (k : Nat) {l : List CallEntry}
    (ho : CallsOk k (tget t.call.lists k) → CallsOk k l) : Keeps P n s (putCalls k l t) :=
  { h with
    calls := tset_holds (fun i x => CallsOk i x) h.calls ho
    same := fun k => { h.same k with } }

theorem Keeps.callSet (h : Keeps P n s t) (h1 : 2 ≤ n) (c : CallUnit) (hl : c.lists = t.call.lists) :
    Keeps P n s { t with call := c } :=
  { h with
    calls := fun st q => by
      show CallsOk st (tget c.lists st)
      rw [hl]
      exact h.calls st q
    same := fun _ => by omega }

theorem Keeps.loop (h : Keeps P n s t) (h1 : 2 ≤ n) (l : Nat) (r : Loop) : Keeps P n s (putLoop l r t) := by
  obtain ⟨m, x, y, e⟩ := putLoop_changes l r t
  rw [e]
  exact { h with same := fun _ => by omega }

theorem Keeps.panel (h : Keeps P n s t) (st : Nat) {p : Panel} (ho : PanelOk (tget t.panels st) → PanelOk p)
    (hs : n ≤ 1 → panelSettings p = panelSettings (tget t.panels st) := by exact fun _ => rfl) : Keeps P n s (putPanel st p t) := by
  obtain ⟨m, x, y, e⟩ := putPanel_changes st p t
  rw [e]
  exact { h with
    panels := tset_holds (fun _ x => PanelOk x) h.panels ho
    same := fun k => { h.same k with panels := tset_reads panelSettings (h.same k).panels (hs k) } }

theorem Keeps.link (h : Keeps P n s t) (k : Nat) {l : Link} (ho : LinkOk (tget t.links k) → LinkOk l)
    (hs : n ≤ 1 → linkSettings l = linkSettings (tget t.links k) := by exact fun _ => rfl) : Keeps P n s (putLink k l t) := by
  obtain ⟨m, x, y, e⟩ := putLink_changes k l t
  rw [e]
  exact { h with
    links := tset_holds (fun _ x => LinkOk x) h.links ho
    same := fun k => { h.same k with links := tset_reads linkSettings (h.same k).links (hs k) } }

theorem Keeps.jit (h : Keeps P n s t) (k : Nat) {j : Jitter} (ho : JitOk (tget t.jits k) → JitOk j)
    (hs : n ≤ 1 → j.profiles = (tget t.jits k).profiles := by exact fun _ => rfl) : Keeps P n s (putJit k j t) :=
  { h with
    jits := tset_holds (fun _ x => JitOk x) h.jits ho
    same := fun k => { h.same k with jits := tset_reads Jitter.profiles (h.same k).jits (hs k) } }

theorem Keeps.chan (h : Keeps P n s t) (c : Nat) {r : Channel} (ho : ChanOk (tget t.chans c) → ChanOk r)
    (hs : n ≤ 1 → chanSettings r = chanSettings (tget t.chans c) := by exact fun _ => rfl) : Keeps P n s (putChan c r t) := by
  obtain ⟨m, x, y, e⟩ := putChan_changes c r t
  rw [e]
  exact { h with
    chans := tset_holds (fun _ x => ChanOk x) h.chans ho
    same := fun k => { h.same k with chans := tset_reads chanSettings (h.same k).chans (hs k) } }

theorem Keeps.recalled (h : Keeps P n s t) {r : Recall}
    (hs : n ≤ 1 → recallSettings r = recallSettings t.engine := by exact fun _ => rfl) : Keeps P n s (putRecall r t) := by
  obtain ⟨m, x, y, e⟩ := putRecall_changes r t
  rw [e]
  exact { h with same := fun k => { h.same k with engine := (hs k).trans (h.same k).engine } }

theorem Keeps.recallSet (h : Keeps P n s t) (h1 : 2 ≤ n) (r : Recall) : Keeps P n s { t with engine := r } :=
  { h with same := fun _ => by omega }

theorem Keeps.stray (h : Keeps P n s t) (a b : Nat) : Keeps P n s { t with strayMain := a, strayAlt := b } :=
  { h with same := fun k => { h.same k with } }

theorem Keeps.returns (h : Keeps P n s t) (v : Vector (List Int) 24) : Keeps P n s { t with mix.returnBuf := v } :=
  { h with same := fun k => { h.same k with } }

/-- The exchange unit's fields that orders write. -/
theorem Keeps.order (h : Keeps P n s t) (h1 : 1 ≤ n) {x : Exchange} (hx : exchSettings x = exchSettings t.exch)
    (hr : RegsOk t.exch → RegsOk x) : Keeps P n s { t with exch := x } := by
  have hp : x.part = t.exch.part := by
    have e := congrArg Exchange.part hx
    exact e
  exact { h with
    exch0 := fun k => by omega
    exch := fun k => hx.trans (h.exch k)
    part := fun k => hp.trans (h.part k)
    regs := fun q => hr (h.regs q)
    quiet := fun q r => h.quiet q (by rw [← hp]; exact r)
    same := fun k => { h.same k with } }

/-- The exchange unit's whole state, with the part in the same state or Running. -/
theorem Keeps.exchange (h : Keeps P n s t) (h3 : 3 ≤ n) {x : Exchange}
    (hp : x.part = t.exch.part ∨ x.part = .running) (hr : RegsOk t.exch → RegsOk x) : Keeps P n s { t with exch := x } :=
  { h with
    exch0 := fun k => by omega
    exch := fun k => by omega
    part := fun k => by omega
    regs := fun q => hr (h.regs q)
    quiet := fun q r => by
      rcases hp with e | e
      · exact h.quiet q (by rw [← e]; exact r)
      · exact absurd e r
    same := fun k => by omega }

/-- The exchange unit's whole state with every vector dropped. -/
theorem Keeps.halted (h : Keeps P n s t) (h3 : 3 ≤ n) {x : Exchange} (hr : RegsOk t.exch → RegsOk x) :
    Keeps P n s (dropVectors { t with exch := x }) :=
  { h with
    exch0 := fun k => by omega
    exch := fun k => by omega
    part := fun k => by omega
    regs := fun q => hr (h.regs q)
    quiet := fun _ _ v => by
      show tget (build 4 fun _ => false) v = false
      by_cases hv : v < 4
      · rw [tget_build _ _ _ hv]
      · simp [tget, hv]
    same := fun k => by omega }

/-- An event unit with every vector down. -/
theorem Keeps.silenced (h : Keeps P n s t) (v : EventUnit) (hv : ∀ i, tget v.vectors i = false) :
    Keeps P n s { t with ev := v } :=
  { h with
    quiet := fun _ _ i => hv i
    same := fun k => { h.same k with } }

/-- The vectors judged again. -/
theorem Keeps.judged (h : Keeps P n s t) : Keeps P n s (judgeVectors t) := by
  obtain ⟨x, e⟩ := judgeVectors_changes t
  rw [e]
  exact { h with
    quiet := fun _ r i => vectorsNow_stopped t r i
    same := fun k => { h.same k with } }

theorem Keeps.tick (h : Keeps P n s t) (h3 : 3 ≤ n) (k : Nat) : Keeps P n s { t with now := k } :=
  { h with now := fun k => by omega, same := fun k => by omega }

/-! ### Iteration -/

theorem Keeps.foldl {α : Type} (l : List α) (f : State → α → State)
    (hf : ∀ t x, Keeps P n s t → Keeps P n s (f t x)) (h : Keeps P n s t) : Keeps P n s (l.foldl f t) := by
  induction l generalizing t with
  | nil => exact h
  | cons x l ih => exact ih (hf t x h)

theorem Keeps.forEach (k : Nat) (f : Nat → State → State) (hf : ∀ t i, Keeps P n s t → Keeps P n s (f i t))
    (h : Keeps P n s t) : Keeps P n s (forEach k f t) := Keeps.foldl _ _ hf h

end Sys2Proof.Laws
end

