-- ==== Sys2Proof/Laws/Claims.lean ====
section
/-!
SUPPORT. What each claim of the matrix controller does to the crosspoint pool, and that it keeps every block.
-/
set_option Elab.async false

namespace Sys2Proof.Laws

open Machine Sys2Proof.Inv

/-! ### Lists of pool entries -/

/-- A pool entry apart from being alive. -/
def EntryPre (e : PoolEntry) : Prop :=
  e.dest < 160 ∧ e.source < 160 ∧ e.talk ≤ 63 ∧ e.listen ≤ 63 ∧ e.routeLevel ≤ 240
    ∧ (e.holds = false → e.routeLevel = 0) ∧ (e.talk = 0 → e.listen = 0 → e.keyLevel = 0)

theorem EntryOk.pre {e : PoolEntry} (h : EntryOk e) : EntryPre e := by
  obtain ⟨a, b, _, c⟩ := h
  exact ⟨a, b, c⟩

theorem EntryPre.ok {e : PoolEntry} (h : EntryPre e) (ha : e.alive = true) : EntryOk e := by
  obtain ⟨a, b, c⟩ := h
  exact ⟨a, b, ha, c⟩

/-- A change of entries that keeps their pairs. -/
def KeepsPairs (g : PoolEntry → PoolEntry) : Prop := ∀ e, (g e).dest = e.dest ∧ (g e).source = e.source

theorem filter_alive (e : PoolEntry) :
    (some e).filter PoolEntry.alive = if e.alive = true then some e else none := rfl

theorem eq_of_pair {pool : List PoolEntry} (hn : (pool.map fun e => (e.dest, e.source)).Nodup) {a b : PoolEntry}
    (ha : a ∈ pool) (hb : b ∈ pool) (h : (a.dest, a.source) = (b.dest, b.source)) : a = b := by
  induction pool with
  | nil => cases ha
  | cons e pool ih =>
    rw [List.map_cons, List.nodup_cons] at hn
    rcases List.mem_cons.1 ha with rfl | ha' <;> rcases List.mem_cons.1 hb with rfl | hb'
    · rfl
    · exact absurd (List.mem_map_of_mem (f := fun e => (e.dest, e.source)) hb') (h ▸ hn.1)
    · have hm := List.mem_map_of_mem (f := fun e : PoolEntry => (e.dest, e.source)) ha'
      rw [h] at hm
      exact absurd hm hn.1
    · exact ih hn.2 ha' hb'

theorem isPair_of_keeps {g : PoolEntry → PoolEntry} (hg : KeepsPairs g) (d src : Nat) (e : PoolEntry) :
    (g e).isPair d src = e.isPair d src := by
  simp [PoolEntry.isPair, hg e]

theorem isPair_iff (d src : Nat) (e : PoolEntry) : e.isPair d src = true ↔ (e.dest, e.source) = (d, src) := by
  simp [PoolEntry.isPair]

theorem findEntry_none_iff (pool : List PoolEntry) (d src : Nat) :
    findEntry pool d src = none ↔ (d, src) ∉ pool.map fun e => (e.dest, e.source) := by
  simp only [findEntry, List.find?_eq_none, List.mem_map, isPair_iff, not_exists, not_and]

theorem find_mapFilter {g : PoolEntry → PoolEntry} (hg : KeepsPairs g) (pool : List PoolEntry)
    (hn : (pool.map fun e => (e.dest, e.source)).Nodup) (d src : Nat) :
    findEntry ((pool.map g).filter PoolEntry.alive) d src = ((findEntry pool d src).map g).filter PoolEntry.alive := by
  induction pool with
  | nil => rfl
  | cons e pool ih =>
    rw [List.map_cons, List.nodup_cons] at hn
    have ih := ih hn.2
    have hgp := isPair_of_keeps hg d src e
    cases hp : e.isPair d src
    · rw [hp] at hgp
      have e1 : findEntry (e :: pool) d src = findEntry pool d src := by simp [findEntry, hp]
      rw [e1, ← ih, List.map_cons, List.filter_cons]
      split
      · simp [findEntry, hgp]
      · rfl
    · rw [hp] at hgp
      have e1 : findEntry (e :: pool) d src = some e := by simp [findEntry, hp]
      rw [e1, List.map_cons, List.filter_cons]
      cases ha : (g e).alive
      · have hnone : findEntry pool d src = none := by
          rw [findEntry_none_iff]
          rw [isPair_iff] at hp
          rw [← hp]
          exact hn.1
        rw [hnone] at ih
        simp only [Option.map_some, filter_alive, ha]
        simpa using ih
      · simp [findEntry, hgp, ha, filter_alive]

theorem mapFilter_ok {g : PoolEntry → PoolEntry} (hg : KeepsPairs g) {pool : List PoolEntry} (h : PoolOk pool)
    (hpre : ∀ e ∈ pool, EntryPre (g e)) : PoolOk ((pool.map g).filter PoolEntry.alive) := by
  obtain ⟨_, hn, hl, hd⟩ := h
  have hmap : ((pool.map g).map fun e => (e.dest, e.source)) = pool.map fun e => (e.dest, e.source) := by
    simp [List.map_map, Function.comp_def, hg _]
  refine ⟨?_, ?_, ?_, ?_⟩
  · intro e he
    simp only [List.mem_filter, List.mem_map] at he
    obtain ⟨⟨a, ha, rfl⟩, hal⟩ := he
    exact (hpre a ha).ok hal
  · have hs : ((pool.map g).filter PoolEntry.alive).Sublist (pool.map g) := List.filter_sublist
    exact (hmap ▸ hn).sublist (hs.map _)
  · calc _ ≤ (pool.map g).length := List.length_filter_le ..
      _ ≤ 2048 := by simpa using hl
  · intro d
    have hs : ((pool.map g).filter PoolEntry.alive).Sublist (pool.map g) := List.filter_sublist
    have h1 : destCount ((pool.map g).filter PoolEntry.alive) d ≤ destCount (pool.map g) d :=
      (hs.filter _).length_le
    have h2 : destCount (pool.map g) d = destCount pool d := by
      simp [destCount, List.filter_map, Function.comp_def, hg _]
    have h3 := hd d
    omega

/-- The function `changeEntry` maps over a pool that holds the pair. -/
def onPair (d src : Nat) (f : PoolEntry → PoolEntry) (e : PoolEntry) : PoolEntry := if e.isPair d src then f e else e

theorem onPair_keeps {f : PoolEntry → PoolEntry} (hf : KeepsPairs f) (d src : Nat) : KeepsPairs (onPair d src f) := by
  intro e
  unfold onPair
  split
  · exact hf e
  · exact ⟨rfl, rfl⟩

theorem blank_pre {d src : Nat} (hd : d < 160) (hs : src < 160) : EntryPre (PoolEntry.blank d src) := by
  simp [EntryPre, PoolEntry.blank, hd, hs]

/-- A change of one pair's entry keeps the pool. -/
theorem changeEntry_ok {f : PoolEntry → PoolEntry} (hf : KeepsPairs f) {pool : List PoolEntry} (h : PoolOk pool)
    {d src : Nat} (hnew : findEntry pool d src = none → d < 160 ∧ src < 160 ∧ hasRoom pool d = true)
    (hblank : findEntry pool d src = none → EntryPre (f (PoolEntry.blank d src)))
    (hpre : ∀ e, findEntry pool d src = some e → EntryPre e → EntryPre (f e)) :
    PoolOk (changeEntry d src f pool) := by
  unfold changeEntry
  split
  · rename_i hnone
    obtain ⟨hd, hs, hroom⟩ := hnew hnone
    obtain ⟨he, hn, hl, hc⟩ := h
    simp only [hasRoom, Bool.and_eq_true, decide_eq_true_eq] at hroom
    have hfd := (hf (PoolEntry.blank d src)).1
    have hfs := (hf (PoolEntry.blank d src)).2
    cases ha : (f (PoolEntry.blank d src)).alive
    · simp only [List.filter_cons, ha, List.filter_nil]
      exact (List.append_nil pool).symm ▸ (⟨he, hn, hl, hc⟩ : PoolOk pool)
    · simp only [List.filter_cons, ha, List.filter_nil, if_true]
      refine ⟨?_, ?_, ?_, ?_⟩
      · intro e hm
        rcases List.mem_append.1 hm with hm | hm
        · exact he e hm
        · rw [List.mem_singleton.1 hm]
          exact (hblank hnone).ok ha
      · rw [findEntry_none_iff] at hnone
        simp only [List.map_append, List.map_cons, List.map_nil, hfd, hfs]
        rw [List.nodup_append]
        refine ⟨hn, by simp, ?_⟩
        intro a ha b hb
        rw [List.mem_singleton.1 hb]
        rintro rfl
        exact hnone ha
      · simp only [List.length_append, List.length_singleton]
        omega
      · intro x
        have hx := hc x
        have hroom2 := hroom.2
        simp only [destCount] at hx hroom2 ⊢
        simp only [List.filter_append, List.length_append, List.filter_cons, List.filter_nil, hfd]
        by_cases hxd : x = d
        · subst hxd
          split
          · simp only [List.length_singleton]; omega
          · simp only [List.length_nil]; omega
        · have : ((PoolEntry.blank d src).dest == x) = false := by
            simp [PoolEntry.blank, Ne.symm hxd]
          simp only [this]
          simpa using hx
  · rename_i e0 hsome
    refine mapFilter_ok (onPair_keeps hf d src) h ?_
    intro e hm
    unfold onPair
    split
    · rename_i hp
      have : e = e0 := by
        have h0 : e0 ∈ pool := List.mem_of_find?_eq_some hsome
        have hp0 : e0.isPair d src = true := List.find?_some hsome
        rw [isPair_iff] at hp hp0
        exact eq_of_pair h.2.1 hm h0 (hp.trans hp0.symm)
      subst this
      exact hpre _ hsome (EntryOk.pre (h.1 _ hm))
    · exact EntryOk.pre (h.1 _ hm)

/-- The entry of another pair stays. -/
theorem findEntry_changeEntry_ne {f : PoolEntry → PoolEntry} (hf : KeepsPairs f) {pool : List PoolEntry}
    (h : PoolOk pool) {d src d' src' : Nat} (hne : (d', src') ≠ (d, src)) :
    findEntry (changeEntry d src f pool) d' src' = findEntry pool d' src' := by
  unfold changeEntry
  split
  · cases ha : (f (PoolEntry.blank d src)).alive
    · simp [ha]
    · simp only [List.filter_cons, ha, List.filter_nil, if_true, findEntry, List.find?_append]
      have : (f (PoolEntry.blank d src)).isPair d' src' = false := by
        rw [isPair_of_keeps hf]
        cases hp : (PoolEntry.blank d src).isPair d' src' with
        | false => rfl
        | true =>
          rw [isPair_iff] at hp
          exact absurd hp.symm hne
      simp [this]
  · have := find_mapFilter (onPair_keeps hf d src) pool h.2.1 d' src'
    refine this.trans ?_
    cases hf' : findEntry pool d' src' with
    | none => rfl
    | some e =>
      have hm : e ∈ pool := List.mem_of_find?_eq_some hf'
      have hp : e.isPair d' src' = true := List.find?_some hf'
      have hnp : e.isPair d src = false := by
        cases hq : e.isPair d src with
        | false => rfl
        | true =>
          rw [isPair_iff] at hp hq
          exact absurd (hp.symm.trans hq) hne
      simp [onPair, hnp, (h.1 e hm).2.2.1]

/-- The entry of the changed pair: what `f` makes of it, or of a blank one, while it is alive. -/
theorem findEntry_changeEntry_same {f : PoolEntry → PoolEntry} (hf : KeepsPairs f) {pool : List PoolEntry}
    (h : PoolOk pool) {d src : Nat} :
    findEntry (changeEntry d src f pool) d src
      = (some (f ((findEntry pool d src).getD (PoolEntry.blank d src)))).filter PoolEntry.alive := by
  unfold changeEntry
  split
  · rename_i hnone
    have hb : (f (PoolEntry.blank d src)).isPair d src = true := by
      rw [isPair_of_keeps hf]; simp [PoolEntry.isPair, PoolEntry.blank]
    rw [hnone]
    cases ha : (f (PoolEntry.blank d src)).alive
    · simp only [List.filter_cons, ha, List.filter_nil, Option.getD_none]
      simpa [ha, filter_alive] using hnone
    · simp only [findEntry] at hnone
      simp [ha, findEntry, List.find?_append, hnone, hb, filter_alive]
  · rename_i e0 hsome
    have := find_mapFilter (onPair_keeps hf d src) pool h.2.1 d src
    refine this.trans ?_
    have hp : e0.isPair d src = true := List.find?_some hsome
    simp [hsome, onPair, hp]

theorem addHold_pairs (k : Holder) (l : Nat) : KeepsPairs (PoolEntry.addHold k l) := by
  intro e; cases k <;> exact ⟨rfl, rfl⟩

theorem raiseCount_pairs (b : Bool) (l : Nat) : KeepsPairs (PoolEntry.raiseCount b l) := by
  intro e; cases b <;> exact ⟨rfl, rfl⟩

theorem lowerCount_pairs (b : Bool) : KeepsPairs (PoolEntry.lowerCount b) := by
  intro e; cases b <;> exact ⟨rfl, rfl⟩

theorem addHold_pre {k : Holder} {l : Nat} (hl : l ≤ 240) {e : PoolEntry} (h : EntryPre e) :
    EntryPre (e.addHold k l) := by
  obtain ⟨h1, h2, h3, h4, h5, h6, h7⟩ := h
  cases k <;> exact ⟨h1, h2, h3, h4, hl, by simp [PoolEntry.holds, PoolEntry.addHold], h7⟩

theorem raiseCount_pre {b : Bool} {l : Nat} {e : PoolEntry} (hc : e.count b < 63) (h : EntryPre e) :
    EntryPre (e.raiseCount b l) := by
  obtain ⟨h1, h2, h3, h4, h5, h6, h7⟩ := h
  cases b <;> simp only [PoolEntry.count, if_true] at hc <;>
    refine ⟨h1, h2, ?_, ?_, h5, h6, ?_⟩ <;> simp [PoolEntry.raiseCount] at hc ⊢ <;> omega

theorem lowerCount_pre {b : Bool} {e : PoolEntry} (h : EntryPre e) : EntryPre (e.lowerCount b) := by
  obtain ⟨h1, h2, h3, h4, h5, h6, h7⟩ := h
  cases b <;> refine ⟨h1, h2, ?_, ?_, h5, h6, ?_⟩ <;> simp [PoolEntry.lowerCount] <;> omega

theorem clearHolds_pre {e : PoolEntry} (h : EntryPre e) : EntryPre e.clearHolds := by
  obtain ⟨h1, h2, h3, h4, h5, h6, h7⟩ := h
  exact ⟨h1, h2, h3, h4, by simp [PoolEntry.clearHolds], by simp [PoolEntry.clearHolds], h7⟩

theorem clear_pairs (p : PoolEntry → Bool) : KeepsPairs fun e => if p e then e.clearHolds else e := by
  intro e
  cases hp : p e <;> simp [hp, PoolEntry.clearHolds]

theorem clearEntries_ok {pool : List PoolEntry} (h : PoolOk pool) (p : PoolEntry → Bool) :
    PoolOk (clearEntries p pool) := by
  refine mapFilter_ok (clear_pairs p) h ?_
  intro e hm
  cases hp : p e
  · simpa [hp] using EntryOk.pre (h.1 e hm)
  · simpa [hp] using clearHolds_pre (EntryOk.pre (h.1 e hm))

theorem clearEntries_find {pool : List PoolEntry} (h : PoolOk pool) (p : PoolEntry → Bool) (d src : Nat) :
    findEntry (clearEntries p pool) d src
      = ((findEntry pool d src).map fun e => if p e then e.clearHolds else e).filter PoolEntry.alive :=
  find_mapFilter (clear_pairs p) pool h.2.1 d src

/-- A change of counts leaves every holding and route level. -/
theorem changeEntry_held {f : PoolEntry → PoolEntry} (hf : KeepsPairs f) {pool : List PoolEntry} (h : PoolOk pool)
    (hh : ∀ e, (f e).route = e.route ∧ (f e).scene = e.scene ∧ (f e).routeLevel = e.routeLevel) (d src d' src' : Nat) :
    heldAt (changeEntry d src f pool) d' src' = heldAt pool d' src' := by
  by_cases hne : (d', src') = (d, src)
  · obtain ⟨rfl, rfl⟩ := Prod.mk.inj hne
    unfold heldAt
    rw [findEntry_changeEntry_same hf h]
    cases hfe : findEntry pool d' src' with
    | none =>
      obtain ⟨a, b, c⟩ := hh (PoolEntry.blank d' src')
      cases ha : (f (PoolEntry.blank d' src')).alive
      · simp [ha, filter_alive]
      · simp only [Option.getD_none, filter_alive, ha, if_true, a, b, c]
        rfl
    | some e =>
      obtain ⟨a, b, c⟩ := hh e
      cases ha : (f e).alive
      · have hm : e ∈ pool := List.mem_of_find?_eq_some hfe
        have hz := (h.1 e hm).2.2.2.2.2.2.1
        have ha' := ha
        simp only [PoolEntry.alive, a, b, Bool.or_eq_false_iff] at ha'
        simp [filter_alive, ha, ha', hz, PoolEntry.holds]
      · simp [filter_alive, ha, a, b, c]
  · unfold heldAt
    rw [findEntry_changeEntry_ne hf h hne]

/-! ### Claims -/

variable {P : Nat → Line → Prop} {n : Nat} {s t : State}

theorem Keeps.claimAdd (h : Keeps P n s t) (h1 : 2 ≤ n) (k : Holder) (d src l : Nat) :
    Keeps P n s (claimAdd k d src l t).2 := by
  unfold Machine.claimAdd
  repeat' split
  all_goals first | exact h | skip
  rename_i hb _ _ hr
  simp only [Bool.or_eq_true, Bool.not_eq_true', portOk, levelOk, decide_eq_false_iff_not, not_or,
    Nat.not_lt, Nat.not_le] at hb
  have hok : d < 160 ∧ src < 160 ∧ l ≤ 240 := by omega
  refine h.withPool (fun hp => ?_) (fun _ => by omega)
  refine changeEntry_ok (addHold_pairs k l) hp ?_ ?_ ?_
  · intro hn
    refine ⟨hok.1, hok.2.1, ?_⟩
    simpa [hn] using hr
  · intro _
    exact addHold_pre hok.2.2 (blank_pre hok.1 hok.2.1)
  · intro e _ he
    exact addHold_pre hok.2.2 he

theorem Keeps.claimRemove (h : Keeps P n s t) (h1 : 2 ≤ n) (d src : Nat) : Keeps P n s (claimRemove d src t).2 := by
  unfold Machine.claimRemove
  split
  · exact h
  · exact h.withPool (fun hp => clearEntries_ok hp _) (fun _ => by omega)

theorem Keeps.claimRemoveDest (h : Keeps P n s t) (h1 : 2 ≤ n) (d : Nat) : Keeps P n s (claimRemoveDest d t).2 := by
  unfold Machine.claimRemoveDest
  split
  · exact h
  · exact h.withPool (fun hp => clearEntries_ok hp _) (fun _ => by omega)

theorem raiseCount_held (b : Bool) (l : Nat) (e : PoolEntry) :
    (e.raiseCount b l).route = e.route ∧ (e.raiseCount b l).scene = e.scene
      ∧ (e.raiseCount b l).routeLevel = e.routeLevel := by
  cases b <;> exact ⟨rfl, rfl, rfl⟩

theorem lowerCount_held (b : Bool) (e : PoolEntry) :
    (e.lowerCount b).route = e.route ∧ (e.lowerCount b).scene = e.scene
      ∧ (e.lowerCount b).routeLevel = e.routeLevel := by
  cases b <;> exact ⟨rfl, rfl, rfl⟩

theorem Keeps.claimRaise (h : Keeps P n s t) (b : Bool) (d src l : Nat) : Keeps P n s (claimRaise b d src l t).2 := by
  unfold Machine.claimRaise
  split
  · exact h
  rename_i hb
  simp only [Bool.or_eq_true, Bool.not_eq_true', portOk, decide_eq_false_iff_not, not_or] at hb
  have hok : d < 160 ∧ src < 160 := by omega
  split
  · exact h
  split
  · rename_i hn
    split
    · rename_i hr
      refine h.withPool (fun hp => ?_)
        (fun _ hp d' s' => changeEntry_held (raiseCount_pairs b l) hp (raiseCount_held b l) _ _ d' s')
      refine changeEntry_ok (raiseCount_pairs b l) hp (fun _ => ⟨hok.1, hok.2, hr⟩) ?_ ?_
      · intro _
        refine raiseCount_pre ?_ (blank_pre hok.1 hok.2)
        cases b <;> simp [PoolEntry.count, PoolEntry.blank]
      · intro e he
        rw [hn] at he
        cases he
    · exact h
  · rename_i e he
    split
    · exact h
    · rename_i hc
      refine h.withPool (fun hp => ?_)
        (fun _ hp d' s' => changeEntry_held (raiseCount_pairs b l) hp (raiseCount_held b l) _ _ d' s')
      refine changeEntry_ok (raiseCount_pairs b l) hp ?_ ?_ ?_
      · intro hn; rw [he] at hn; cases hn
      · intro hn; rw [he] at hn; cases hn
      · intro e' he' hpre
        rw [he] at he'
        cases he'
        exact raiseCount_pre (by omega) hpre

theorem Keeps.claimLower (h : Keeps P n s t) (b : Bool) (d src : Nat) : Keeps P n s (claimLower b d src t).2 := by
  unfold Machine.claimLower
  split
  · exact h
  rename_i e he
  split
  · exact h
  refine h.withPool (fun hp => ?_)
    (fun _ hp d' s' => changeEntry_held (lowerCount_pairs b) hp (lowerCount_held b) _ _ d' s')
  refine changeEntry_ok (lowerCount_pairs b) hp ?_ ?_ ?_
  · intro hn; rw [he] at hn; cases hn
  · intro hn; rw [he] at hn; cases hn
  · intro e' _ hpre
    exact lowerCount_pre hpre

theorem Keeps.claimJoin (h : Keeps P n s t) (d : Nat) {l : Nat} (hl : l < 32) : Keeps P n s (claimJoin d l t).2 := by
  unfold Machine.claimJoin
  dsimp only
  split
  · refine h.withDest d ?_ id (fun _ => rfl)
    rintro ⟨h1, h2, h3, h4, h5, h6, h7⟩
    refine ⟨h1, h2, h3, by simpa using h4, ?_, ?_, h7⟩
    · have : ((t.dest d).slots.map fun sl => if sl.line == l then { sl with holders := sl.holders + 1 } else sl).map
          (·.line) = (t.dest d).slots.map (·.line) := by
        rw [List.map_map]
        refine List.map_congr_left fun sl _ => ?_
        simp only [Function.comp]
        split <;> rfl
      rw [this]
      exact h5
    · intro sl hm
      obtain ⟨a, ha, rfl⟩ := List.mem_map.1 hm
      split
      · exact ⟨(h6 a ha).1, Nat.succ_pos _⟩
      · exact h6 a ha
  · rename_i hany
    split
    · rename_i hlen
      refine h.withDest d ?_ id (fun _ => rfl)
      rintro ⟨h1, h2, h3, h4, h5, h6, h7⟩
      refine ⟨h1, h2, h3, by simp only [List.length_append, List.length_singleton]; omega, ?_, ?_, h7⟩
      · simp only [List.map_append, List.map_cons, List.map_nil]
        rw [List.nodup_append]
        refine ⟨h5, by simp, ?_⟩
        intro a ha b hb
        rw [List.mem_singleton.1 hb]
        rintro rfl
        obtain ⟨sl, hm, he⟩ := List.mem_map.1 ha
        exact hany (List.any_eq_true.2 ⟨sl, hm, by simp [he]⟩)
      · intro sl hm
        rcases List.mem_append.1 hm with hm | hm
        · exact h6 sl hm
        · rw [List.mem_singleton.1 hm]
          exact ⟨hl, Nat.one_pos⟩
    · exact h

theorem Keeps.claimLeave (h : Keeps P n s t) (d l : Nat) : Keeps P n s (claimLeave d l t) := by
  unfold Machine.claimLeave
  refine h.withDest d ?_ id (fun _ => rfl)
  rintro ⟨h1, h2, h3, h4, h5, h6, h7⟩
  have hmap : ((t.dest d).slots.map fun sl => if sl.line == l then { sl with holders := sl.holders - 1 } else sl).map
      (·.line) = (t.dest d).slots.map (·.line) := by
    rw [List.map_map]
    refine List.map_congr_left fun sl _ => ?_
    simp only [Function.comp]
    split <;> rfl
  refine ⟨h1, h2, h3, ?_, ?_, ?_, h7⟩
  · exact Nat.le_trans (List.length_filter_le _ _) (by simpa using h4)
  · exact (hmap ▸ h5 : List.Nodup _).sublist (List.filter_sublist.map _)
  · intro sl hm
    obtain ⟨hm, hp⟩ := List.mem_filter.1 hm
    obtain ⟨a, ha, rfl⟩ := List.mem_map.1 hm
    refine ⟨?_, by simpa using hp⟩
    split
    all_goals exact (h6 a ha).1

theorem Keeps.claimBind (h : Keeps P n s t) (h1 : 2 ≤ n) (d : Nat) {k : DestKind} (hk : k = .plain ∨ k = .foldback) :
    Keeps P n s (claimBind d k t).2 := by
  unfold Machine.claimBind
  split
  · exact h
  rename_i hd
  split
  · exact h
  refine h.withDest d ?_ id (fun _ => by omega)
  rintro ⟨a1, a2, a3, a4, a5, a6, _, _, a9⟩
  exact ⟨a1, a2, a3, a4, a5, a6, fun hge => absurd hge hd, fun _ => hk, a9⟩

theorem Keeps.claimMirror (h : Keeps P n s t) (h1 : 2 ≤ n) {d : Nat} (hd : 152 ≤ d) (m : Option Nat) :
    Keeps P n s (claimMirror d m t).2 := by
  unfold Machine.claimMirror
  split
  · refine h.withDest d ?_ id (fun _ => by omega)
    rintro ⟨a1, a2, a3, a4, a5, a6, a7, a8, _⟩
    exact ⟨a1, a2, a3, a4, a5, a6, a7, a8, by simp⟩
  · split
    · exact h
    · refine h.withDest d ?_ id (fun _ => by omega)
      rintro ⟨a1, a2, a3, a4, a5, a6, a7, a8, _⟩
      refine ⟨a1, a2, a3, a4, a5, a6, a7, a8, ?_⟩
      intro m hm
      simp only [Option.some.injEq] at hm
      exact ⟨hd, by omega⟩

theorem Keeps.claimHeld (h : Keeps P n s t) (h1 : 2 ≤ n) (d : Nat) : Keeps P n s (claimHeld d t).2 := by
  unfold Machine.claimHeld
  split
  · exact h
  split
  · exact h
  rename_i hl
  refine h.withDest d id ?_ (fun _ => by omega)
  intro hf
  exact absurd (by simp [State.locked, hf] : t.locked d = true) hl

end Sys2Proof.Laws
end

