-- ==== Sys2Proof/Laws/Links.lean ====
section
/-!
SUPPORT. The recall engine's causes, the jitter buffers and the field link sessions keep every block.
-/
set_option Elab.async false

namespace Sys2Proof.Laws

open Machine Sys2Proof.Inv

variable {P : Nat → Line → Prop} {n : Nat} {s t : State}

/-! ### Recall causes -/

theorem Keeps.suspendRecall (h : Keeps P n s t) (x : EngineState) : Keeps P n s (suspendRecall x t) := by
  unfold Machine.suspendRecall
  refine Keeps.raised (Keeps.recalled h ?_) _ _
  exact fun _ => rfl

theorem Keeps.resumeRecall (h : Keeps P n s t) : Keeps P n s (resumeRecall t) := by
  unfold Machine.resumeRecall
  refine Keeps.raised (Keeps.recalled h ?_) _ _
  exact fun _ => rfl

theorem Keeps.handCauses (h : Keeps P n s t) (a b : Bool) : Keeps P n s (handCauses a b t) := by
  unfold Machine.handCauses
  dsimp only
  split
  · exact h
  · split
    · refine Keeps.resumeRecall (Keeps.recalled h ?_)
      exact fun _ => rfl
    · refine Keeps.recalled h ?_
      exact fun _ => rfl

theorem Keeps.handAllCall (h : Keeps P n s t) : Keeps P n s (handAllCall t) := h.handCauses _ _

theorem Keeps.handEmergency (h : Keeps P n s t) : Keeps P n s (handEmergency t) := h.handCauses _ _

/-! ### Jitter buffers: the profiles stay -/

theorem recause_profiles (j : Jitter) : j.recause.profiles = j.profiles := by
  unfold Jitter.recause; repeat' split
  all_goals rfl

theorem enforce_profiles (j : Jitter) : j.enforce.1.profiles = j.profiles := rfl

theorem takeQuality_profiles (q : Nat) (j : Jitter) : (j.takeQuality q).1.profiles = j.profiles := by
  unfold Jitter.takeQuality
  dsimp only
  repeat' split
  all_goals first | rfl | exact recause_profiles _

theorem keep_profiles (f : Frame) (j : Jitter) : (j.keep f).1.profiles = j.profiles :=
  takeQuality_profiles f.quality { j with frames := insertBy (fun y x => seqOlder y.seq x.seq) f j.frames }

theorem arrive_profiles (len : Nat) (f : Frame) (j : Jitter) : (j.arrive len f).1.profiles = j.profiles := by
  unfold Jitter.arrive
  split
  · rfl
  split
  · rfl
  split
  · split
    · rfl
    · exact keep_profiles f j
  · split
    · rename_i h; simp at h
    · exact keep_profiles f j

theorem beginPlayout_profiles (now : Nat) (j : Jitter) : (j.beginPlayout now).profiles = j.profiles := by
  unfold Jitter.beginPlayout
  split
  · exact recause_profiles _
  · rfl

theorem correct_profiles (k : Nat) (j : Jitter) : (j.correct k).1.profiles = j.profiles := by
  unfold Jitter.correct
  repeat' split
  all_goals rfl

theorem playOldest_profiles (c : Codec) (k : Nat) (f : Frame) (r : List Frame) (j : Jitter) :
    (j.playOldest c k f r).1.profiles = j.profiles := by
  unfold Jitter.playOldest
  dsimp only
  split <;> exact correct_profiles _ _

theorem conceal_profiles (c : Codec) (j : Jitter) : (j.conceal c).profiles = j.profiles := by
  unfold Jitter.conceal
  dsimp only
  repeat' split
  all_goals rfl

theorem playRow_profiles (c : Codec) (a b : Nat) (j : Jitter) : (j.playRow c a b).1.profiles = j.profiles := by
  unfold Jitter.playRow
  repeat' split
  all_goals first | rfl | exact conceal_profiles _ _ | exact playOldest_profiles _ _ _ _ _

theorem atInstant_profiles (c : Codec) (k : Nat) (j : Jitter) : (j.atInstant c k).1.profiles = j.profiles := by
  unfold Jitter.atInstant
  dsimp only
  repeat' split
  all_goals first | rfl | exact playRow_profiles _ _ _ _

theorem instantTaken_profiles (c : Codec) (k : Nat) (j : Jitter) : (j.instantTaken c k).1.profiles = j.profiles :=
  atInstant_profiles c k j

/-! ### Jitter buffers: their rules stay -/

theorem maxFrames_le {j : Jitter} (hp : ∀ p, p < 4 → ProfileOk (tget j.profiles p))
    (hd : j.duration = 2 ∨ j.duration = 4 ∨ j.duration = 8) : j.maxFrames ≤ 128 := by
  unfold Jitter.maxFrames Jitter.profile effFrames
  cases j.selected with
  | none => exact Nat.le_refl _
  | some p =>
    have hm : (tget j.profiles p).maximum ≤ 256 := by
      by_cases h4 : p < 4
      · exact (hp p h4).2.2.2
      · have e : tget j.profiles p = default := by simp [tget, h4]
        rw [e]
        exact Nat.zero_le _
    dsimp only [Option.map]
    rcases hd with e | e | e <;> rw [e] <;> omega

/-- A buffer with the profiles, the selection and the duration of another, and some of its frames. -/
theorem jit_fewer {j j' : Jitter} (h : JitOk j) (hp : j'.profiles = j.profiles) (hs : j'.selected = j.selected)
    (hd : j'.duration = j.duration) (hf : j'.frames.Sublist j.frames) (hg : j'.gap ≤ 65535) (hc : j'.correction ≤ 31) :
    JitOk j' where
  profiles := by rw [hp]; exact h.profiles
  duration := by rw [hd]; exact h.duration
  few := Nat.le_trans hf.length_le h.few
  depth := by
    have e : j'.maxFrames = j.maxFrames := by unfold Jitter.maxFrames Jitter.profile; rw [hp, hs, hd]
    rw [e]
    exact Nat.le_trans hf.length_le h.depth
  once := h.once.sublist (hf.map _)
  gap := hg
  correction := hc

/-- What a buffer keeps while a frame comes in, before the maximum depth is enforced. -/
structure JitPre (j : Jitter) : Prop where
  profiles   : ∀ p, p < 4 → ProfileOk (tget j.profiles p)
  duration   : j.duration = 2 ∨ j.duration = 4 ∨ j.duration = 8
  once       : (j.frames.map (·.seq)).Nodup
  gap        : j.gap ≤ 65535
  correction : j.correction ≤ 31

theorem jit_pre {j : Jitter} (h : JitOk j) : JitPre j := ⟨h.profiles, h.duration, h.once, h.gap, h.correction⟩

theorem recause_pre {j : Jitter} (h : JitPre j) : JitPre j.recause := by
  unfold Jitter.recause
  repeat' split
  all_goals exact ⟨h.profiles, h.duration, h.once, h.gap, h.correction⟩

theorem takeQuality_pre (q : Nat) {j : Jitter} (h : JitPre j) : JitPre (j.takeQuality q).1 := by
  have hr : ∀ a b, JitPre (Jitter.recause { j with selected := a, candidate := b }) := fun a b =>
    recause_pre ⟨h.profiles, h.duration, h.once, h.gap, h.correction⟩
  unfold Jitter.takeQuality
  dsimp only
  repeat' split
  all_goals first
    | exact hr _ _
    | exact ⟨h.profiles, h.duration, h.once, h.gap, h.correction⟩

theorem enforce_ok {j : Jitter} (h : JitPre j) : JitOk j.enforce.1 := by
  have hs : (j.frames.drop (j.frames.length - j.maxFrames)).Sublist j.frames := List.drop_sublist _ _
  have hl : (j.frames.drop (j.frames.length - j.maxFrames)).length ≤ j.maxFrames := by
    rw [List.length_drop]; omega
  exact { profiles := h.profiles, duration := h.duration
          few := Nat.le_trans hl (maxFrames_le h.profiles h.duration), depth := hl
          once := h.once.sublist (hs.map _), gap := h.gap, correction := h.correction }

theorem recause_ok {j : Jitter} (h : JitOk j) : JitOk j.recause := by
  unfold Jitter.recause
  repeat' split
  all_goals exact jit_fewer h rfl rfl rfl (List.Sublist.refl _) h.gap h.correction

theorem arrive_ok (len : Nat) (f : Frame) {j : Jitter} (h : JitOk j) : JitOk (j.arrive len f).1 := by
  have hk : (∀ g ∈ j.frames, g.seq ≠ f.seq) → JitOk (j.keep f).1 := by
    intro hn
    refine enforce_ok (takeQuality_pre f.quality ⟨h.profiles, h.duration, ?_, h.gap, h.correction⟩)
    have hp := (insertBy_perm (fun y x : Frame => seqOlder y.seq x.seq) f j.frames).map (·.seq)
    refine hp.nodup_iff.2 (List.nodup_cons.2 ⟨?_, h.once⟩)
    intro hm
    obtain ⟨g, hg, e⟩ := List.mem_map.1 hm
    exact hn g hg e
  unfold Jitter.arrive
  split
  · exact h
  split
  · exact h
  rename_i hnew
  have hn : ∀ g ∈ j.frames, g.seq ≠ f.seq := fun g hg e =>
    hnew (Or.inr (List.any_eq_true.2 ⟨g, hg, by simp [e]⟩))
  split
  · split
    · exact h
    · exact hk hn
  · split
    · rename_i h'; simp at h'
    · exact hk hn

theorem beginPlayout_ok (now : Nat) {j : Jitter} (h : JitOk j) : JitOk (j.beginPlayout now) := by
  unfold Jitter.beginPlayout
  split
  · exact recause_ok (jit_fewer h rfl rfl rfl (List.Sublist.refl _) h.gap h.correction)
  · exact h

theorem correct_ok (k : Nat) {j : Jitter} (h : JitOk j) : JitOk (j.correct k).1 := by
  unfold Jitter.correct
  split
  · exact jit_fewer h rfl rfl rfl (List.Sublist.refl _) h.gap (Nat.zero_le _)
  split
  · exact jit_fewer h rfl rfl rfl (List.Sublist.refl _) h.gap (by dsimp only; omega)
  split
  · exact h
  · rename_i f fs hf
    refine jit_fewer h rfl rfl rfl ?_ h.gap (Nat.zero_le _)
    rw [hf]
    exact List.sublist_cons_self f fs

theorem playOldest_ok (c : Codec) (k : Nat) (f : Frame) (r : List Frame) {j : Jitter} (h : JitOk j)
    (hr : r.Sublist j.frames) : JitOk (j.playOldest c k f r).1 := by
  unfold Jitter.playOldest
  dsimp only
  split
  · exact correct_ok _ (jit_fewer h rfl rfl rfl hr (satAdd_le _ _ _) h.correction)
  · exact correct_ok _ (jit_fewer h rfl rfl rfl hr (Nat.zero_le _) h.correction)

theorem conceal_ok (c : Codec) {j : Jitter} (h : JitOk j) : JitOk (j.conceal c) := by
  unfold Jitter.conceal
  dsimp only
  repeat' split
  all_goals exact jit_fewer h rfl rfl rfl (List.Sublist.refl _) (satAdd_le _ _ _) h.correction

theorem wait_ok (p : Playout) (b : Bool) {j : Jitter} (h : JitOk j) : JitOk (j.wait p b) :=
  jit_fewer h rfl rfl rfl (List.Sublist.refl _) (satAdd_le _ _ _) h.correction

theorem playRow_ok (c : Codec) (a b : Nat) {j : Jitter} (h : JitOk j) : JitOk (j.playRow c a b).1 := by
  unfold Jitter.playRow
  split
  · exact conceal_ok c h
  · rename_i f rest hf
    split
    · exact wait_ok _ _ h
    · refine playOldest_ok c a f rest h ?_
      rw [hf]
      exact List.sublist_cons_self f rest

theorem atInstant_ok (c : Codec) (k : Nat) {j : Jitter} (h : JitOk j) : JitOk (j.atInstant c k).1 := by
  unfold Jitter.atInstant
  dsimp only
  split
  · exact wait_ok _ _ h
  · split
    · exact h
    · split
      · exact playRow_ok _ _ _ h
      · exact jit_fewer h rfl rfl rfl (List.Sublist.refl _) h.gap h.correction
    · exact playRow_ok _ _ _ h
    · split
      · exact playRow_ok _ _ _ h
      · exact wait_ok _ _ h

theorem instantTaken_ok (c : Codec) (k : Nat) {j : Jitter} (h : JitOk j) : JitOk (j.instantTaken c k).1 :=
  jit_fewer (atInstant_ok c k h) rfl rfl rfl (List.Sublist.refl _) (atInstant_ok c k h).gap (atInstant_ok c k h).correction

theorem stopPlayout_ok {j : Jitter} (h : JitOk j) : JitOk j.stopPlayout :=
  jit_fewer h rfl rfl rfl (List.nil_sublist _) (Nat.zero_le _) (Nat.zero_le _)

theorem accept_ok {d : Nat} (hd : d = 2 ∨ d = 4 ∨ d = 8) {j : Jitter} (h : JitOk j) : JitOk (j.accept d) where
  profiles := h.profiles
  duration := hd
  few := Nat.zero_le _
  depth := Nat.zero_le _
  once := List.nodup_nil
  gap := Nat.zero_le _
  correction := Nat.zero_le _

theorem Keeps.countLink (h : Keeps P n s t) (k : Nat) (c : List Count) : Keeps P n s (countLink k c t) := by
  unfold Machine.countLink
  refine Keeps.link h k ?_ ?_
  · exact id
  · exact fun _ => rfl

theorem Keeps.setJit (h : Keeps P n s t) (k : Nat) {j : Jitter} (ho : JitOk (tget t.jits k) → JitOk j)
    (hs : n ≤ 1 → j.profiles = (tget t.jits k).profiles) : Keeps P n s (setJit k j t) := by
  unfold Machine.setJit
  split
  · exact (h.jit k ho hs).cause _ _
  · exact h.jit k ho hs

theorem Keeps.payloadArrives (h : Keeps P n s t) (k : Nat) (f : Frame) : Keeps P n s (payloadArrives k f t) := by
  unfold Machine.payloadArrives
  split
  · exact h
  · exact (h.setJit k (arrive_ok _ _) fun _ => arrive_profiles _ _ _).countLink _ _

/-! ### Messages -/

theorem sendOn_changes (k : Nat) (p : Port) (m : LinkMsg) (t : State) : ∃ x, sendOn k p m t = { t with sent := x } := by
  unfold sendOn
  split
  · exact ⟨t.sent, rfl⟩
  · exact ⟨_, rfl⟩

theorem sendAll_changes (k : Nat) (m : LinkMsg) (t : State) : ∃ x, sendAll k m t = { t with sent := x } := by
  unfold sendAll
  obtain ⟨x, e⟩ := sendOn_changes k .main m t
  rw [e]
  obtain ⟨y, e'⟩ := sendOn_changes k .alternate m { t with sent := x }
  exact ⟨y, e'⟩

theorem Keeps.sendOn (h : Keeps P n s t) (k : Nat) (p : Port) (m : LinkMsg) : Keeps P n s (sendOn k p m t) := by
  obtain ⟨x, e⟩ := sendOn_changes k p m t
  rw [e]
  exact h.io t.mirror x t.writeFaults

theorem Keeps.sendAll (h : Keeps P n s t) (k : Nat) (m : LinkMsg) : Keeps P n s (sendAll k m t) := by
  obtain ⟨x, e⟩ := sendAll_changes k m t
  rw [e]
  exact h.io t.mirror x t.writeFaults

theorem sendWake_changes (k : Nat) (t : State) : ∃ x, sendWake k t = { t with sent := x } := by
  unfold sendWake
  dsimp only
  split
  · exact sendAll_changes ..
  · exact ⟨t.sent, rfl⟩

theorem Keeps.sendWake (h : Keeps P n s t) (k : Nat) : Keeps P n s (sendWake k t) := by
  obtain ⟨x, e⟩ := sendWake_changes k t
  rw [e]
  exact h.io t.mirror x t.writeFaults

theorem Keeps.sendRest (h : Keeps P n s t) (k : Nat) : Keeps P n s (sendRest k t) := by
  unfold Machine.sendRest
  dsimp only
  split
  · obtain ⟨x, e⟩ := sendAll_changes k (.rest (tget t.links k).unitId k) t
    rw [e]
    refine Keeps.link (h.io t.mirror x t.writeFaults) k ?_ ?_
    · exact id
    · exact fun _ => rfl
  · exact h

/-! ### Session states -/

theorem Keeps.linkEvent (h : Keeps P n s t) (k : Nat) (a b : Session) (r : LinkReason) (u : Word32) :
    Keeps P n s (linkEvent k a b r u t) := h.raised _ _

theorem Keeps.sessionChange (h : Keeps P n s t) (k : Nat) {new : Session} (hn : new ≠ .vacant) (x : LinkTimers)
    (r : LinkReason) : Keeps P n s (sessionChange k new x r t) := by
  unfold Machine.sessionChange
  refine Keeps.linkEvent (Keeps.link h k ?_ ?_) _ _ _ _ _
  · exact fun _ hv => absurd hv hn
  · exact fun _ => rfl

theorem Keeps.stopJitter (h : Keeps P n s t) (k : Nat) : Keeps P n s (stopJitter k t) := by
  unfold Machine.stopJitter
  exact Keeps.jit h k stopPlayout_ok

theorem Keeps.leaveLive (h : Keeps P n s t) (k : Nat) : Keeps P n s (leaveLive k t) := by
  unfold Machine.leaveLive
  split
  · exact (h.stopJitter k).cause _ _
  · exact h

theorem Keeps.goLive (h : Keeps P n s t) (k : Nat) (r : LinkReason) : Keeps P n s (goLive k r t) := by
  unfold Machine.goLive
  refine Keeps.sessionChange (Keeps.cause (Keeps.jit h k ?_ ?_) _ _) k (by decide) _ _
  · exact beginPlayout_ok _
  · exact fun _ => beginPlayout_profiles _ _

theorem Keeps.goFading (h : Keeps P n s t) (k : Nat) : Keeps P n s (goFading k t) := by
  unfold Machine.goFading
  exact Keeps.sessionChange (Keeps.cause h _ _) k (by decide) _ _

theorem Keeps.goWaking (h : Keeps P n s t) (k : Nat) (r : LinkReason) : Keeps P n s (goWaking k r t) := by
  unfold Machine.goWaking
  exact Keeps.sessionChange (Keeps.sendWake h k) k (by decide) _ _

theorem Keeps.restingCheck (h : Keeps P n s t) (k : Nat) (r : LinkReason) : Keeps P n s (restingCheck k r t) := by
  unfold Machine.restingCheck
  dsimp only
  repeat' split
  all_goals with_reducible first
    | exact h
    | exact Keeps.goWaking h k r
    | exact Keeps.goLive (Keeps.sendWake h k) k _

theorem Keeps.goResting (h : Keeps P n s t) (k : Nat) (r : LinkReason) (b : Bool) : Keeps P n s (goResting k r b t) := by
  unfold Machine.goResting
  dsimp only
  refine Keeps.restingCheck (Keeps.sessionChange (Keeps.leaveLive ?_ k) k (by decide) _ _) k _
  split
  · exact h.sendRest k
  · exact h

theorem Keeps.enterClosing (h : Keeps P n s t) (k : Nat) (r : LinkReason) : Keeps P n s (enterClosing k r t) := by
  unfold Machine.enterClosing
  exact Keeps.sessionChange (Keeps.leaveLive (Keeps.sendAll h k _) k) k (by decide) _ _

theorem Keeps.syncLink (h : Keeps P n s t) (k : Nat) : Keeps P n s (syncLink k t) := by
  unfold Machine.syncLink
  dsimp only
  split
  · exact h
  · have h1 : Keeps P n s (putLink k
        { tget t.links k with
          toward := towardNow t k, fromLink := fromNow t k
          timers := { (tget t.links k).timers with
            linger := if (tget t.links k).session = .live ∧ (tget t.links k).effective = .wakeRest then
              lingerAfter (tget t.links k) (towardNow t k) (fromNow t k) t.now else (tget t.links k).timers.linger } } t) := by
      refine h.link k ?_ fun _ => rfl
      intro ho hv
      have hv' : (tget t.links k).session = .vacant := hv
      have hr := ho hv'
      have hc : ¬((tget t.links k).session = .live ∧ (tget t.links k).effective = .wakeRest) := by
        rw [hv']; simp
      simp only [if_neg hc]
      exact hr
    split
    · split
      · exact (h1.sendWake k).goLive k _
      · split
        · exact h1.goWaking k _
        · exact h1
    · exact h1

end Sys2Proof.Laws
end

