-- ==== Sys2Proof/Laws/FoldLists.lean ====
section
/-!
SUPPORT. What the changes of a foldback record's lists do: both lists stay in order and within their lengths, no
requester stands twice, and a pending entry waits only while the interrupt list is full.
-/
set_option Elab.async false

namespace Sys2Proof.Laws

open Machine Sys2Proof.Inv

/-! ### Insertion -/

theorem before_asymm {x y : FoldEntry} (h : y.before x = true) : x.before y = false := by
  simp only [FoldEntry.before, Bool.or_eq_true, Bool.and_eq_true, decide_eq_true_eq, beq_iff_eq,
    Bool.or_eq_false_iff, Bool.and_eq_false_iff, decide_eq_false_iff_not, beq_eq_false_iff_ne] at h ⊢
  omega

theorem before_negTrans {x y z : FoldEntry} (h : y.before x = false) (k : z.before y = false) :
    z.before x = false := by
  simp only [FoldEntry.before, Bool.or_eq_false_iff, Bool.and_eq_false_iff, decide_eq_false_iff_not,
    beq_eq_false_iff_ne] at h k ⊢
  omega

theorem insert_perm (x : FoldEntry) (l : List FoldEntry) : (x.insert l).Perm (x :: l) := insertBy_perm _ x l

theorem insert_length (x : FoldEntry) (l : List FoldEntry) : (x.insert l).length = l.length + 1 :=
  (insert_perm x l).length_eq

theorem insert_inOrder (x : FoldEntry) {l : List FoldEntry} (h : InOrder l) : InOrder (x.insert l) := by
  induction l with
  | nil => exact List.pairwise_singleton _ _
  | cons y ys ih =>
    have ⟨hy, hys⟩ := List.pairwise_cons.1 h
    show InOrder (insertBy FoldEntry.before x (y :: ys))
    unfold insertBy
    split
    · rename_i hb
      refine List.pairwise_cons.2 ⟨?_, ih hys⟩
      intro w hw
      rcases List.mem_cons.1 ((insertBy_perm _ x ys).mem_iff.1 hw) with rfl | hw
      · exact before_asymm hb
      · exact hy w hw
    · rename_i hb
      have hb : y.before x = false := by simpa using hb
      refine List.pairwise_cons.2 ⟨?_, h⟩
      intro w hw
      rcases List.mem_cons.1 hw with rfl | hw
      · exact hb
      · exact before_negTrans hb (hy w hw)

theorem inOrder_sub {l l' : List FoldEntry} (h : InOrder l) (hs : l'.Sublist l) : InOrder l' := h.sublist hs

/-! ### Lists of a record -/

/-- The two lists in order, with no requester twice. -/
def ListsPre (ints pends : List FoldEntry) : Prop :=
  InOrder ints ∧ InOrder pends ∧ ((ints ++ pends).map (·.requester)).Nodup

/-- The whole of what R37 and R41 ask of the two lists. -/
def ListsOk (depth : Nat) (ints pends : List FoldEntry) : Prop :=
  ListsPre ints pends ∧ ints.length ≤ depth ∧ pends.length ≤ 8 ∧ (pends ≠ [] → ints.length = depth)

theorem nodup_perm {a b : List FoldEntry} (p : a.Perm b) (h : (b.map (·.requester)).Nodup) :
    (a.map (·.requester)).Nodup := (p.map _).nodup_iff.2 h

theorem moveIn_lists (fuel : Nat) (r : FoldRec) (h : ListsPre r.ints r.pends) (hl : r.ints.length ≤ r.depth) :
    ∃ a b, (r.moveIn fuel).1 = { r with ints := a, pends := b } ∧ ListsPre a b ∧ a.length ≤ r.depth
      ∧ b.length ≤ r.pends.length ∧ (r.pends.length ≤ fuel → b ≠ [] → a.length = r.depth) := by
  induction fuel generalizing r with
  | zero =>
    refine ⟨r.ints, r.pends, rfl, h, hl, Nat.le_refl _, ?_⟩
    intro hz hb
    exact absurd (List.length_eq_zero_iff.1 (Nat.le_zero.1 hz)) hb
  | succ fuel ih =>
    cases hp : r.pends with
    | nil =>
      refine ⟨r.ints, r.pends, ?_, h, hl, Nat.le_of_eq (by simp [hp]), fun _ hb => absurd hp hb⟩
      have e : r.moveIn (fuel + 1) = (r, []) := by simp [FoldRec.moveIn, hp]
      rw [e]
    | cons e rest =>
      by_cases hlt : r.ints.length < r.depth
      · have hr : (r.moveIn (fuel + 1)).1
            = (FoldRec.moveIn fuel { r with ints := e.insert r.ints, pends := rest }).1 := by
          simp [FoldRec.moveIn, hp, hlt]
        obtain ⟨h1, h2, h3⟩ := h
        rw [hp] at h2 h3
        obtain ⟨a, b, e1, e2, e3, e4, e5⟩ := ih { r with ints := e.insert r.ints, pends := rest }
          ⟨insert_inOrder e h1, (List.pairwise_cons.1 h2).2,
            nodup_perm ((List.Perm.append_right rest (insert_perm e r.ints)).trans
              (List.perm_middle.symm)) h3⟩
          (by simp only [insert_length]; omega)
        refine ⟨a, b, hr.trans e1, e2, e3, ?_, ?_⟩
        · simp only [List.length_cons] at e4 ⊢
          omega
        · intro hf
          simp only [List.length_cons] at hf
          exact e5 (by show rest.length ≤ fuel; omega)
      · refine ⟨r.ints, r.pends, ?_, h, hl, Nat.le_of_eq (by simp [hp]), fun _ _ => by omega⟩
        have e : r.moveIn (fuel + 1) = (r, []) := by simp [FoldRec.moveIn, hp, hlt]
        rw [e]

theorem trim_lists (fuel : Nat) (r : FoldRec) :
    ∃ b, (r.trim fuel).1 = { r with pends := b } ∧ b.Sublist r.pends
      ∧ (r.pends.length ≤ fuel + 8 → b.length ≤ 8) := by
  induction fuel generalizing r with
  | zero => exact ⟨r.pends, rfl, List.Sublist.refl _, fun h => by omega⟩
  | succ fuel ih =>
    by_cases h8 : 8 < r.pends.length
    · cases hg : r.pends.getLast? with
      | none =>
        rw [List.getLast?_eq_none_iff] at hg
        rw [hg] at h8
        exact absurd h8 (by simp)
      | some e =>
        obtain ⟨b, e1, e2, e3⟩ := ih { r with pends := r.pends.dropLast }
        refine ⟨b, ?_, e2.trans (List.dropLast_sublist _), ?_⟩
        · simp only [FoldRec.trim, if_pos h8, hg]
          exact e1
        · intro hf
          refine e3 ?_
          simp only [List.length_dropLast]
          omega
    · refine ⟨r.pends, ?_, List.Sublist.refl _, fun _ => by omega⟩
      simp [FoldRec.trim, h8]

theorem last_perm {l : List FoldEntry} {x : FoldEntry} (h : l.getLast? = some x) : l = l.dropLast ++ [x] := by
  obtain ⟨ys, rfl⟩ := List.getLast?_eq_some_iff.1 h
  simp

theorem moveOut_lists (fuel : Nat) (r : FoldRec) (h : ListsPre r.ints r.pends) :
    ∃ a b, (r.moveOut fuel).1 = { r with ints := a, pends := b } ∧ ListsPre a b
      ∧ (r.ints.length ≤ fuel → a.length ≤ r.depth) := by
  induction fuel generalizing r with
  | zero => exact ⟨r.ints, r.pends, rfl, h, fun hz => by omega⟩
  | succ fuel ih =>
    by_cases hlt : r.depth < r.ints.length
    · cases hg : r.ints.getLast? with
      | none =>
        rw [List.getLast?_eq_none_iff] at hg
        rw [hg] at hlt
        exact absurd hlt (by simp)
      | some e =>
        obtain ⟨h1, h2, h3⟩ := h
        have hl := last_perm hg
        have hperm : (r.ints.dropLast ++ e.insert r.pends).Perm (r.ints ++ r.pends) := by
          have p1 : (r.ints.dropLast ++ e.insert r.pends).Perm (r.ints.dropLast ++ e :: r.pends) :=
            List.Perm.append_left _ (insert_perm e r.pends)
          have p2 : r.ints.dropLast ++ e :: r.pends = r.ints ++ r.pends := by
            conv => rhs; rw [hl]
            simp
          exact p2 ▸ p1
        obtain ⟨a, b, e1, e2, e3⟩ := ih { r with ints := r.ints.dropLast, pends := e.insert r.pends }
          ⟨inOrder_sub h1 (List.dropLast_sublist _), insert_inOrder e h2, nodup_perm hperm h3⟩
        refine ⟨a, b, ?_, e2, ?_⟩
        · simp only [FoldRec.moveOut, if_pos hlt, hg]
          exact e1
        · intro hf
          refine e3 ?_
          simp only [List.length_dropLast]
          omega
    · refine ⟨r.ints, r.pends, ?_, h, fun _ => by omega⟩
      simp [FoldRec.moveOut, hlt]

theorem listsPre_sub {a b b' : List FoldEntry} (h : ListsPre a b) (hs : b'.Sublist b) : ListsPre a b' :=
  ⟨h.1, inOrder_sub h.2.1 hs, h.2.2.sublist ((List.Sublist.append_left hs a).map _)⟩

theorem setDepth_lists (k : Nat) (r : FoldRec) (h : ListsPre r.ints r.pends) :
    ∃ a b, (r.setDepth k).1 = { r with depth := k, ints := a, pends := b } ∧ ListsOk k a b := by
  obtain ⟨a1, b1, e1, p1, l1⟩ := moveOut_lists r.ints.length { r with depth := k } h
  have l1 := l1 (Nat.le_refl _)
  obtain ⟨b2, e2, s2, l2⟩ := trim_lists b1.length { r with depth := k, ints := a1, pends := b1 }
  have l2 := l2 (Nat.le_add_right _ _)
  obtain ⟨a3, b3, e3, p3, l3, m3, f3⟩ := moveIn_lists b2.length { r with depth := k, ints := a1, pends := b2 }
    (listsPre_sub p1 s2) l1
  refine ⟨a3, b3, ?_, p3, l3, Nat.le_trans m3 l2, f3 (Nat.le_refl _)⟩
  show (FoldRec.moveIn (FoldRec.trim (FoldRec.moveOut r.ints.length { r with depth := k }).1.pends.length
      (FoldRec.moveOut r.ints.length { r with depth := k }).1).1.pends.length
    (FoldRec.trim (FoldRec.moveOut r.ints.length { r with depth := k }).1.pends.length
      (FoldRec.moveOut r.ints.length { r with depth := k }).1).1).1 = _
  rw [e1]
  show (FoldRec.moveIn (FoldRec.trim b1.length { r with depth := k, ints := a1, pends := b1 }).1.pends.length
    (FoldRec.trim b1.length { r with depth := k, ints := a1, pends := b1 }).1).1 = _
  rw [e2]
  exact e3

theorem place_lists (e : FoldEntry) (r : FoldRec) (h : ListsOk r.depth r.ints r.pends)
    (hn : r.standsIn e.requester = false) :
    ∃ a b, (r.place e).1 = { r with ints := a, pends := b } ∧ ListsOk r.depth a b := by
  obtain ⟨⟨h1, h2, h3⟩, h4, h5, h6⟩ := h
  have hnew : e.requester ∉ (r.ints ++ r.pends).map (·.requester) := by
    simp only [FoldRec.standsIn, Bool.or_eq_false_iff, List.any_eq_false, beq_iff_eq] at hn
    intro hm
    obtain ⟨x, hx, hxe⟩ := List.mem_map.1 hm
    rcases List.mem_append.1 hx with hx | hx
    · exact hn.1 x hx hxe
    · exact hn.2 x hx hxe
  have h3' : ((e :: (r.ints ++ r.pends)).map (·.requester)).Nodup := List.nodup_cons.2 ⟨hnew, h3⟩
  unfold FoldRec.place
  split
  · rename_i hlt
    refine ⟨e.insert r.ints, r.pends, rfl, ⟨insert_inOrder e h1, h2, ?_⟩, ?_, h5, ?_⟩
    · exact nodup_perm (List.Perm.append_right _ (insert_perm e r.ints)) h3'
    · rw [insert_length]; omega
    · intro hp
      have := h6 hp
      omega
  · rename_i hge
    split
    · exact ⟨r.ints, r.pends, rfl, ⟨h1, h2, h3⟩, h4, h5, h6⟩
    · rename_i last hlast
      split
      · have hl := last_perm hlast
        have hlen : 0 < r.ints.length := by
          cases hi : r.ints with
          | nil => rw [hi] at hlast; cases hlast
          | cons _ _ => simp
        have hperm : (e.insert r.ints.dropLast ++ last.insert r.pends).Perm (e :: (r.ints ++ r.pends)) := by
          have p1 : (e.insert r.ints.dropLast ++ last.insert r.pends).Perm
              ((e :: r.ints.dropLast) ++ (last :: r.pends)) :=
            List.Perm.append (insert_perm e _) (insert_perm last _)
          have p2 : (e :: r.ints.dropLast) ++ (last :: r.pends) = e :: (r.ints ++ r.pends) := by
            conv => rhs; rw [hl]
            simp
          exact p2 ▸ p1
        obtain ⟨b, e1, e2, e3⟩ :=
          trim_lists 1 { r with ints := e.insert r.ints.dropLast, pends := last.insert r.pends }
        have hpre : ListsPre (e.insert r.ints.dropLast) (last.insert r.pends) :=
          ⟨insert_inOrder e (inOrder_sub h1 (List.dropLast_sublist _)), insert_inOrder last h2, nodup_perm hperm h3'⟩
        refine ⟨e.insert r.ints.dropLast, b, e1, listsPre_sub hpre e2, ?_, e3 ?_, ?_⟩
        · rw [insert_length, List.length_dropLast]; omega
        · show (last.insert r.pends).length ≤ 1 + 8
          rw [insert_length]; omega
        · intro _
          rw [insert_length, List.length_dropLast]; omega
      · split
        · refine ⟨r.ints, e.insert r.pends, rfl, ⟨h1, insert_inOrder e h2, ?_⟩, h4, ?_, fun _ => by omega⟩
          · exact nodup_perm ((List.Perm.append_left _ (insert_perm e r.pends)).trans List.perm_middle) h3'
          · rw [insert_length]; omega
        · exact ⟨r.ints, r.pends, rfl, ⟨h1, h2, h3⟩, h4, h5, h6⟩

theorem remove_lists (q : Requester) (r : FoldRec) (c : FoldChange) (hc : r.remove q = some c)
    (h : ListsOk r.depth r.ints r.pends) :
    ∃ a b, c.1 = { r with ints := a, pends := b } ∧ ListsOk r.depth a b := by
  obtain ⟨⟨h1, h2, h3⟩, h4, h5, h6⟩ := h
  unfold FoldRec.remove at hc
  split at hc
  · simp only [Option.some.injEq] at hc
    subst hc
    refine ⟨r.ints, r.pends.filter (·.requester != q), rfl, listsPre_sub ⟨h1, h2, h3⟩ List.filter_sublist, h4, ?_, ?_⟩
    · exact Nat.le_trans (List.length_filter_le _ _) h5
    · intro hp
      refine h6 ?_
      intro hz
      exact hp (by simp [hz])
  · split at hc
    · simp only [Option.some.injEq] at hc
      subst hc
      obtain ⟨a, b, e1, e2, e3, e4, e5⟩ := moveIn_lists r.pends.length
        { r with ints := r.ints.filter (·.requester != q) }
        ⟨inOrder_sub h1 List.filter_sublist, h2,
          h3.sublist ((List.Sublist.append_right List.filter_sublist r.pends).map _)⟩
        (Nat.le_trans (List.length_filter_le _ _) h4)
      exact ⟨a, b, e1, e2, e3, Nat.le_trans e4 h5, e5 (Nat.le_refl _)⟩
    · cases hc

/-- The duck state follows the interrupt list (R45), nothing else changes. -/
theorem reduck_ok {now k : Nat} {old new : FoldRec} (ho : FoldOk k old)
    (hn : ∃ d a b, new = { old with depth := d, ints := a, pends := b } ∧ 1 ≤ d ∧ d ≤ 4 ∧ ListsOk d a b) :
    FoldOk k (FoldRec.reduck now old new) := by
  obtain ⟨d, a, b, rfl, hd1, hd4, ⟨⟨p1, p2, p3⟩, p4, p5, p6⟩⟩ := hn
  obtain ⟨_, _, _, _, o5, _, _, _, _, o10, o11, o12⟩ := ho
  unfold FoldRec.reduck
  dsimp only
  split
  · rename_i hc
    simp only [Bool.and_eq_true, Bool.not_eq_true', List.isEmpty_iff] at hc
    refine ⟨hd1, hd4, p4, p5, o5, p1, p2, p6, p3, ?_, ?_, o12⟩
    · have : a ≠ [] := by
        intro hz
        rw [hz] at hc
        simp at hc
      simp [this]
    · simp
  · rename_i hc
    split
    · rename_i hc2
      simp only [Bool.and_eq_true, Bool.not_eq_true', List.isEmpty_iff] at hc2
      have ha : a = [] := hc2.2
      split <;> refine ⟨hd1, hd4, p4, p5, o5, p1, p2, p6, p3, ?_, ?_, o12⟩ <;> simp [ha]
    · rename_i hc2
      refine ⟨hd1, hd4, p4, p5, o5, p1, p2, p6, p3, ?_, o11, o12⟩
      show old.duck = .ducked ↔ a ≠ []
      rw [o10]
      cases hi : old.ints <;> cases ha : a <;> simp_all

theorem reduck_settings (now : Nat) (old new : FoldRec) : foldSettings (FoldRec.reduck now old new) = foldSettings new := by
  unfold FoldRec.reduck
  repeat' split
  all_goals rfl

theorem FoldOk.lists {k : Nat} {r : FoldRec} (h : FoldOk k r) : ListsOk r.depth r.ints r.pends := by
  obtain ⟨_, _, h3, h4, _, h6, h7, h8, h9, _⟩ := h
  exact ⟨⟨h6, h7, h9⟩, h3, h4, h8⟩

end Sys2Proof.Laws
end

