-- ==== Sys2Proof/Laws/Keys.lean ====
section
/-!
SUPPORT. Keys, lamps, notices, foldback requests and call lists keep every block.
-/
set_option Elab.async false

namespace Sys2Proof.Laws

open Machine Sys2Proof.Inv

variable {P : Nat → Line → Prop} {n : Nat} {s t : State}

/-! ### Keys and lamps -/

theorem Keeps.writeLamp (h : Keeps P n s t) (st k : Nat) (x : Lamp) : Keeps P n s (writeLamp st k x t) := by
  unfold Machine.writeLamp
  exact Keeps.panel h st fun ho => ⟨ho.missed, ho.keys, ho.range, ho.ack⟩

theorem Keeps.refreshLamp (h : Keeps P n s t) (st k : Nat) : Keeps P n s (refreshLamp st k t) := by
  unfold Machine.refreshLamp
  split
  · exact h.writeLamp st k _
  · exact h

theorem Keeps.refreshLamps (h : Keeps P n s t) (st : Nat) : Keeps P n s (refreshLamps st t) := by
  unfold Machine.refreshLamps
  split
  · exact Keeps.forEach _ _ (fun _ i hi => hi.refreshLamp st i) h
  · exact h

theorem Keeps.syncStation (h : Keeps P n s t) (st : Nat) : Keeps P n s (syncStation st t) := by
  unfold Machine.syncStation
  split
  · exact h.syncLink _
  · exact h

theorem set_reads {l : List KeyEntry} {k i : Nat} {e : KeyEntry}
    (h : keySettings e = keySettings (l.getD k default)) :
    keySettings ((l.set k e).getD i default) = keySettings (l.getD i default) := by
  simp only [List.getD_eq_getElem?_getD, List.getElem?_set] at h ⊢
  split
  · rename_i hk
    subst hk
    split
    · simpa using h
    · rename_i hlt
      rw [List.getElem?_eq_none (by omega)]
  · rfl

theorem set_keys {st k : Nat} {l : List KeyEntry} {e : KeyEntry} (h : KeysOk st l)
    (ho : KeyOk st (l.getD k default) → KeyOk st e) : KeysOk st (l.set k e) := by
  refine ⟨by rw [List.length_set]; exact h.1, ?_⟩
  intro x hx
  rcases List.mem_or_eq_of_mem_set hx with hx | rfl
  · exact h.2 x hx
  · by_cases hk : k < l.length
    · refine ho (h.2 _ ?_)
      rw [List.getD_eq_getElem?_getD, List.getElem?_eq_getElem hk]
      exact List.getElem_mem hk
    · rw [List.set_eq_of_length_le (by omega)] at hx
      exact h.2 _ hx

/-- A key written keeps every block where the new entry keeps the rules of a key; by default it differs from the old
one in what those rules do not speak of, or is not Refused. -/
theorem Keeps.putKey (h : Keeps P n s t) (st k : Nat) {e : KeyEntry}
    (ho : KeyOk st (t.key st k) → KeyOk st e := by
      first
        | exact fun h => ⟨h.cls, h.level, h.target, h.call, h.refused⟩
        | exact fun h => ⟨h.cls, h.level, h.target, h.call, fun _ => rfl⟩
        | exact fun h => ⟨h.cls, h.level, h.target, h.call, fun z => KeyState.noConfusion z⟩)
    (hs : n ≤ 1 → keySettings e = keySettings (t.key st k) := by exact fun _ => rfl) :
    Keeps P n s (putKey st k e t) := by
  unfold Machine.putKey
  refine Keeps.handAllCall (Keeps.syncStation (Keeps.refreshLamp (Keeps.arb h _ ?_ ?_ ?_ ?_ ?_) st k) st)
  · exact fun i q => tset_holds KeysOk (fun _ => id) (fun q => set_keys q ho) i q
  · exact fun _ => id
  · intro hn x y
    show keySettings ((tget (tset t.arb.keys st ((tget t.arb.keys st).set k e)) x).getD y default) = _
    rw [tget_tset]
    split
    · rename_i hx
      obtain ⟨rfl, _⟩ := hx
      exact set_reads (hs hn)
    · rfl
  · exact fun _ _ => rfl
  · exact fun _ => ⟨rfl, rfl⟩

theorem Keeps.raiseRefused (h : Keeps P n s t) (st k : Nat) (c : Code) : Keeps P n s (raiseRefused st k c t) :=
  h.raised _ _

theorem Keeps.refuseKey (h : Keeps P n s t) (st k : Nat) (c : Code) : Keeps P n s (refuseKey st k c t) := by
  unfold Machine.refuseKey
  exact Keeps.raiseRefused (Keeps.putKey h st k) st k c

theorem Keeps.talkKey (h : Keeps P n s t) (st k : Nat) (x : Held) : Keeps P n s (talkKey st k x t) := by
  unfold Machine.talkKey
  exact Keeps.putKey h st k

theorem Keeps.loseKey (h : Keeps P n s t) (st k : Nat) : Keeps P n s (loseKey st k t) := by
  unfold Machine.loseKey
  exact Keeps.putKey h st k

theorem Keeps.dropKey (h : Keeps P n s t) (st k : Nat) : Keeps P n s (dropKey st k t) :=
  (h.loseKey st k).raiseRefused st k _

/-! ### Notices -/

theorem Keeps.raiseCueRefused (h : Keeps P n s t) (p d : Nat) (c : Code) : Keeps P n s (raiseCueRefused p d c t) :=
  h.raised _ _

theorem Keeps.setCuePlace (h : Keeps P n s t) (p : Nat) (c : CuePlace) : Keeps P n s (setCuePlace p c t) := by
  unfold Machine.setCuePlace
  refine Keeps.chan h p ?_
  exact id

theorem Keeps.noticeChannel (h : Keeps P n s t) (p d : Nat) (x : Notice) : Keeps P n s (noticeChannel p d x t) := by
  cases x <;> unfold Machine.noticeChannel
  · exact h.setCuePlace p _
  · exact h.setCuePlace p _
  · exact (h.setCuePlace p _).raiseCueRefused p d _
  · exact h.setCuePlace p _
  · exact h.setCuePlace p _
  · exact (h.setCuePlace p _).raiseCueRefused p d _

theorem Keeps.noticeKey (h : Keeps P n s t) (st k : Nat) (x : Notice) : Keeps P n s (noticeKey st k x t) := by
  cases x <;> unfold Machine.noticeKey
  · exact Keeps.putKey h st k
  · exact Keeps.putKey h st k
  · exact h.refuseKey st k _
  · exact Keeps.putKey h st k
  · exact Keeps.putKey h st k
  · exact h.dropKey st k

theorem Keeps.giveNotice (h : Keeps P n s t) (d : Nat) (e : FoldEntry) (x : Notice) : Keeps P n s (giveNotice d e x t) := by
  unfold Machine.giveNotice
  split
  · exact h.noticeKey _ _ x
  · exact h.noticeChannel _ d x

/-! ### Foldback requests -/

theorem Keeps.applyFold (h : Keeps P n s t) (r d : Nat) {c : FoldChange}
    (ho : FoldOk r (tget t.fold.recs r) → FoldOk r (FoldRec.reduck t.now (tget t.fold.recs r) c.1))
    (hs : n ≤ 1 → foldSettings c.1 = foldSettings (tget t.fold.recs r)) : Keeps P n s (applyFold r d c t) := by
  unfold Machine.applyFold
  dsimp only
  have h1 : Keeps P n s (putRec r (FoldRec.reduck t.now (tget t.fold.recs r) c.1) t) :=
    Keeps.rec_ h r ho fun k => (reduck_settings _ _ _).trans (hs k)
  have h2 := Keeps.foldl c.2 (fun s x => Machine.giveNotice d x.1 x.2 s) (fun _ x hx => hx.giveNotice d x.1 x.2) h1
  have h3 := Keeps.reports h2 (((c.2.foldl (fun s x => Machine.giveNotice d x.1 x.2 s)
    (putRec r (FoldRec.reduck t.now (tget t.fold.recs r) c.1) t)).reports) ++
      (c.2.filter fun n => n.2.joins).map fun _ => .grant d)
  split
  · exact h3.syncLink _
  · exact h3

theorem moveIn_settings (fuel : Nat) (r : FoldRec) : foldSettings (r.moveIn fuel).1 = foldSettings r := by
  induction fuel generalizing r with
  | zero => rfl
  | succ fuel ih =>
    unfold FoldRec.moveIn
    split
    · rfl
    · split
      · exact ih _
      · rfl

theorem trim_settings (fuel : Nat) (r : FoldRec) : foldSettings (r.trim fuel).1 = foldSettings r := by
  obtain ⟨b, e, _⟩ := trim_lists fuel r
  rw [e]
  rfl

theorem place_settings (e : FoldEntry) (r : FoldRec) : foldSettings (r.place e).1 = foldSettings r := by
  unfold FoldRec.place
  repeat' split
  all_goals first | rfl | exact trim_settings _ _

theorem remove_settings (q : Requester) (r : FoldRec) (c : FoldChange) (h : r.remove q = some c) :
    foldSettings c.1 = foldSettings r := by
  unfold FoldRec.remove at h
  split at h
  · cases h; rfl
  · split at h
    · cases h; exact moveIn_settings _ _
    · cases h

theorem Keeps.foldRequest (h : Keeps P n s t) (q : Requester) (d src cls lvl stamp : Nat) :
    Keeps P n s (foldRequest q d src cls lvl stamp t) := by
  unfold Machine.foldRequest
  dsimp only
  have h1 := Keeps.taken h (t.fold.taken + 1)
  split
  · exact h1.giveNotice d _ _
  · rename_i r _
    split
    · exact h1.giveNotice d _ _
    · rename_i hst
      split
      · exact h1.giveNotice d _ _
      · refine Keeps.applyFold h1 r d ?_ (fun _ => place_settings _ _)
        intro ho
        obtain ⟨a, b, e, hl⟩ := place_lists
          { requester := q, source := src, cls := cls, level := lvl, stamp := stamp, order := t.fold.taken }
          (tget t.fold.recs r) (FoldOk.lists ho) (by simpa using hst)
        have h4 := ho.2.1
        exact reduck_ok ho ⟨_, a, b, e, ho.1, h4, hl⟩

theorem Keeps.foldRemove (h : Keeps P n s t) (q : Requester) (d : Nat) : Keeps P n s (foldRemove q d t) := by
  unfold Machine.foldRemove
  split
  · exact h
  · rename_i r _
    split
    · exact h
    · rename_i c hc
      refine Keeps.applyFold h r d ?_ (fun _ => remove_settings _ _ _ hc)
      intro ho
      obtain ⟨a, b, e, hl⟩ := remove_lists q _ c hc (FoldOk.lists ho)
      exact reduck_ok ho ⟨_, a, b, e, ho.1, ho.2.1, hl⟩

/-! ### Call lists -/

theorem Keeps.callReports (h : Keeps P n s t) (a b : Nat) : Keeps P n s (callReports a b t) :=
  ((h.refreshLamps a).refreshLamps b).syncStation a

theorem callsOk_sub {k : Nat} {l l' : List CallEntry} (h : CallsOk k l) (hs : l'.Sublist l) : CallsOk k l' :=
  ⟨Nat.le_trans hs.length_le h.1, h.2.1.sublist (hs.map _), fun e he => h.2.2 e (hs.subset he)⟩

theorem Keeps.removeCall (h : Keeps P n s t) (a c : Nat) : Keeps P n s (removeCall a c t) := by
  unfold Machine.removeCall
  split
  · refine Keeps.callReports (Keeps.called h a ?_) a c
    exact fun ho => callsOk_sub ho List.filter_sublist
  · exact h

theorem callsOk_again {k c x : Nat} {l : List CallEntry} (h : CallsOk k l) :
    CallsOk k (l.map fun e => if e.caller = c then { e with repeats := satAdd 255 e.repeats 1, expiry := x } else e) := by
  obtain ⟨h1, h2, h3⟩ := h
  have hm : (l.map fun e => if e.caller = c then { e with repeats := satAdd 255 e.repeats 1, expiry := x } else e).map
      (·.caller) = l.map (·.caller) := by
    rw [List.map_map]
    refine List.map_congr_left fun e _ => ?_
    simp only [Function.comp]
    split <;> rfl
  refine ⟨by simpa using h1, hm ▸ h2, ?_⟩
  intro e he
  obtain ⟨a, ha, rfl⟩ := List.mem_map.1 he
  have := h3 a ha
  split
  · exact ⟨this.1, satAdd_le _ _ _⟩
  · exact this

theorem callsOk_append {k c x : Nat} {l : List CallEntry} (h : CallsOk k l) (hk : k ≠ c)
    (hn : (l.any fun e => e.caller == c) = false) (hl : l.length < 8) :
    CallsOk k (l ++ [{ caller := c, repeats := 0, expiry := x }]) := by
  obtain ⟨h1, h2, h3⟩ := h
  refine ⟨by simp only [List.length_append, List.length_singleton]; omega, ?_, ?_⟩
  · simp only [List.map_append, List.map_cons, List.map_nil]
    refine List.nodup_append.2 ⟨h2, by simp, ?_⟩
    intro a ha b hb
    rw [List.mem_singleton.1 hb]
    rintro rfl
    obtain ⟨e, he, hc⟩ := List.mem_map.1 ha
    rw [List.any_eq_false] at hn
    exact hn e he (by simp [hc])
  · intro e he
    rcases List.mem_append.1 he with he | he
    · exact h3 e he
    · rw [List.mem_singleton.1 he]
      exact ⟨fun z => hk z.symm, Nat.zero_le _⟩

theorem Keeps.takeCall (h : Keeps P n s t) (c k : Nat) : Keeps P n s (takeCall c k t).2 := by
  unfold Machine.takeCall
  dsimp only
  have h0 := Keeps.reports h (t.reports ++ [.call k])
  split
  · exact h
  · rename_i hne
    split
    · refine Keeps.called h0 k ?_
      exact fun ho => callsOk_again ho
    · rename_i hnc
      have hnc' : ((tget t.call.lists k).any fun e => e.caller == c) = false := by simpa [hasCall] using hnc
      split
      · rename_i hlen
        refine Keeps.callReports (Keeps.called h0 k ?_) k c
        exact fun ho => callsOk_append ho hne hnc' hlen
      · split
        · exact h0
        · rename_i old rest heq
          refine Keeps.callReports (Keeps.refreshLamps (Keeps.raised (Keeps.called h0 k ?_) _ _) _) k c
          intro ho
          have ho : CallsOk k (old :: rest) := heq ▸ ho
          rw [heq, List.any_cons, Bool.or_eq_false_iff] at hnc'
          refine callsOk_append (callsOk_sub ho (List.sublist_cons_self old rest)) hne hnc'.2 ?_
          have := ho.1
          simp only [List.length_cons] at this
          omega

end Sys2Proof.Laws
end

