-- ==== Sys2Proof/Laws/Grant.lean ====
section
/-!
SUPPORT. Deciding and ending requests, presses and releases keep every block.
-/
set_option Elab.async false

namespace Sys2Proof.Laws

open Machine Sys2Proof.Inv

variable {n : Nat} {s t : State}

/-! ### Party lines -/

theorem Keeps.leaveSlot {P : Nat → Line → Prop} (h : Keeps P n s t) (l : Nat) (x : Option Nat) :
    Keeps P n s (leaveSlot l x t) := by
  unfold Machine.leaveSlot
  split
  · exact h
  · exact h.claimLeave _ l

/-- What touches no line leaves each as it is. -/
theorem lines_of {u : State} (h : Keeps (fun l r => r = t.line l) 3 t u) (l : Nat) : u.line l = t.line l := h.lines l rfl

theorem line_putLine {l : Nat} (hl : l < 32) (r : Line) (t : State) : (putLine l r t).line l = r := by
  show tget (tset t.arb.lines l r) l = r
  rw [tget_tset, if_pos ⟨rfl, hl⟩]

/-- A line that keeps its rules is one of the 32. -/
theorem lineOk_lt {l : Nat} (h : LineOk (t.line l)) : l < 32 := by
  by_contra hl
  have e : t.line l = default := by
    show tget t.arb.lines l = default
    simp [tget, hl]
  rw [e] at h
  exact absurd h.limit.1 (by decide)

/-- A line with members, limit and turn of another, and lists within their lengths. -/
theorem line_lists {r r' : Line} (h : LineOk r) (hm : r'.members = r.members) (hk : r'.limit = r.limit)
    (ht : r'.turn = r.turn) (ha : r'.talkers.length ≤ r.limit) (hw : r'.waiting.length ≤ 16) : LineOk r' where
  few := by rw [hm]; exact h.few
  once := by rw [hm]; exact h.once
  rights := by rw [hm]; exact h.rights
  limit := by rw [hk]; exact h.limit
  turn := by rw [ht]; exact h.turn
  talkers := by rw [hk]; exact ha
  waiting := hw

theorem lowestOf_fold (s : State) (ks : List KeyId) (b : Option KeyId) :
    ∃ x, ks.foldl (fun best k =>
      match best with
      | none => some k
      | some b =>
        let eb := s.keyOf b
        let ek := s.keyOf k
        if eb.cls < ek.cls ∨ (eb.cls = ek.cls ∧ eb.grant ≤ ek.grant) then some k else some b) b = x
      ∧ (∀ k, x = some k → k ∈ ks ∨ b = some k) ∧ (x = none → ks = [] ∧ b = none) := by
  induction ks generalizing b with
  | nil => exact ⟨b, rfl, fun k hk => Or.inr hk, fun hx => ⟨rfl, hx⟩⟩
  | cons a ks ih =>
    rw [List.foldl_cons]
    obtain ⟨x, hx, h1, h2⟩ := ih (match b with
      | none => some a
      | some b =>
        let eb := s.keyOf b
        let ek := s.keyOf a
        if eb.cls < ek.cls ∨ (eb.cls = ek.cls ∧ eb.grant ≤ ek.grant) then some a else some b)
    refine ⟨x, hx, ?_, ?_⟩
    · intro k hk
      rcases h1 k hk with h | h
      · exact Or.inl (List.mem_cons_of_mem _ h)
      · cases b with
        | none => exact Or.inl (by cases h; exact List.mem_cons_self)
        | some b =>
          dsimp only at h
          split at h
          · exact Or.inl (by cases h; exact List.mem_cons_self)
          · exact Or.inr h
    · intro hn
      have := (h2 hn).2
      cases b with
      | none => cases this
      | some b =>
        dsimp only at this
        split at this <;> cases this

/-- The lowest of some talkers is one of them. -/
theorem lowestOf_mem {s : State} {ks : List KeyId} {k : KeyId} (h : lowestOf s ks = some k) : k ∈ ks := by
  obtain ⟨x, hx, h1, _⟩ := lowestOf_fold s ks none
  rcases h1 k (hx.symm.trans h) with h | h
  · exact h
  · cases h

/-- Only an empty list has no lowest. -/
theorem lowestOf_none {s : State} {ks : List KeyId} (h : lowestOf s ks = none) : ks = [] := by
  obtain ⟨x, hx, _, h2⟩ := lowestOf_fold s ks none
  exact (h2 (hx.symm.trans h)).1

theorem without_length {k : KeyId} {l : List Talker} (h : k ∈ l.map (·.key)) :
    (l.filter (·.key != k)).length + 1 ≤ l.length := by
  obtain ⟨x, hx, e⟩ := List.mem_map.1 h
  exact List.length_filter_lt_length_iff_exists.2 ⟨x, hx, by simp [e]⟩

theorem waitFront_length (s : State) (k : KeyId) (l : List KeyId) : (waitFront s k l).length = l.length + 1 :=
  (insertBy_perm _ k l).length_eq

theorem waitBack_length (s : State) (k : KeyId) (l : List KeyId) : (waitBack s k l).length = l.length + 1 :=
  (insertBy_perm _ k l).length_eq

theorem Keeps.joinTalkers {P : Nat → Line → Prop} (h : Keeps P n s t) (l : Nat) (k : KeyId) (x : Option Nat)
    (ho : P l (t.line l) → P l { t.line l with
      talkers := (t.line l).talkers ++ [{ key := k, timer := turnTimer (t.line l) t.now }] }) :
    Keeps P n s (joinTalkers l k x t) := by
  unfold Machine.joinTalkers
  exact Keeps.talkKey (Keeps.line h l ho) _ _ _

theorem line_joinTalkers {l : Nat} (hl : l < 32) (k : KeyId) (x : Option Nat) (t : State) :
    (joinTalkers l k x t).line l = { t.line l with
      talkers := (t.line l).talkers ++ [{ key := k, timer := turnTimer (t.line l) t.now }] } := by
  unfold joinTalkers
  exact (lines_of (Keeps.talkKey (Keeps.refl 3 _) _ _ _) l).trans (line_putLine hl _ _)

/-- A line with room takes a talker. -/
theorem line_join {r : Line} (k : Talker) (hr : r.talkers.length < r.limit) (h : LineOk r) :
    LineOk { r with talkers := r.talkers ++ [k] } :=
  line_lists h rfl rfl rfl (by simp only [List.length_append, List.length_singleton]; omega) h.waiting

theorem Keeps.takeIn (h : Keeps AllLines n s t) (l fuel : Nat) : Keeps AllLines n s (takeIn l fuel t) := by
  induction fuel generalizing t with
  | zero => exact h
  | succ fuel ih =>
    unfold Machine.takeIn
    dsimp only
    split
    · exact h
    · rename_i k rest hw
      split
      · rename_i hr
        have h1 : Keeps AllLines n s (Machine.putLine l { t.line l with waiting := rest } t) := by
          refine Keeps.line h l fun ho => line_lists ho rfl rfl rfl ho.talkers ?_
          have := ho.waiting
          rw [hw] at this
          simp only [List.length_cons] at this
          show rest.length ≤ 16
          omega
        refine ih (Keeps.joinTalkers h1 l _ _ fun ho => ?_)
        have e := line_putLine (lineOk_lt ho) { t.line l with waiting := rest } t
        rw [e] at ho ⊢
        exact line_join _ hr ho
      · exact h

theorem Keeps.takeInAll (h : Keeps AllLines n s t) (l : Nat) : Keeps AllLines n s (takeInAll l t) := h.takeIn l _

theorem Keeps.displaceTalker {P : Nat → Line → Prop} (h : Keeps P n s t) (l : Nat) (k : KeyId)
    (ho : P l (t.line l) → P l { t.line l with
      talkers := (t.line l).talkers.filter (·.key != k), waiting := waitFront t k (t.line l).waiting }) :
    Keeps P n s (displaceTalker l k t) := by
  unfold Machine.displaceTalker
  exact Keeps.putKey (Keeps.line h l ho) _ _

theorem line_displaceTalker {l : Nat} (hl : l < 32) (k : KeyId) (t : State) :
    (displaceTalker l k t).line l = { t.line l with
      talkers := (t.line l).talkers.filter (·.key != k), waiting := waitFront t k (t.line l).waiting } := by
  unfold displaceTalker
  exact (lines_of (Keeps.putKey (Keeps.refl 3 _) _ _) l).trans (line_putLine hl _ _)

theorem Keeps.trimWaiting {P : Nat → Line → Prop} (h : Keeps P n s t) (l fuel : Nat)
    (ho : ∀ (r : Line) w, w.length ≤ r.waiting.length → P l r → P l { r with waiting := w }) :
    Keeps P n s (trimWaiting l fuel t) := by
  induction fuel generalizing t with
  | zero => exact h
  | succ fuel ih =>
    unfold Machine.trimWaiting
    dsimp only
    split
    · split
      · exact h
      · refine ih (Keeps.leaveSlot (Keeps.dropKey (Keeps.line h l ?_) _ _) l _)
        exact ho _ _ (by rw [List.length_dropLast]; omega)
    · exact h

theorem line_trimWaiting {l : Nat} (hl : l < 32) (fuel : Nat) (t : State) :
    ∃ w, (trimWaiting l fuel t).line l = { t.line l with waiting := w }
      ∧ ((t.line l).waiting.length ≤ fuel + 16 → w.length ≤ 16) := by
  induction fuel generalizing t with
  | zero => exact ⟨(t.line l).waiting, rfl, fun h => by omega⟩
  | succ fuel ih =>
    unfold trimWaiting
    dsimp only
    split
    · split
      · rename_i hg
        rw [List.getLast?_eq_none_iff] at hg
        exact ⟨(t.line l).waiting, rfl, fun _ => by rw [hg]; exact Nat.zero_le _⟩
      · rename_i k _
        obtain ⟨w, e, hw⟩ := ih (leaveSlot l (slotOf (t.keyOf k))
          (dropKey k.station k.key (putLine l { t.line l with waiting := (t.line l).waiting.dropLast } t)))
        have e' : (leaveSlot l (slotOf (t.keyOf k)) (dropKey k.station k.key
            (putLine l { t.line l with waiting := (t.line l).waiting.dropLast } t))).line l
            = { t.line l with waiting := (t.line l).waiting.dropLast } :=
          ((lines_of ((Keeps.refl 3 _).leaveSlot _ _) l).trans
            (lines_of ((Keeps.refl 3 _).dropKey _ _) l)).trans (line_putLine hl _ _)
        rw [e'] at e hw
        refine ⟨w, e, fun hf => hw ?_⟩
        simp only [List.length_dropLast]
        omega
    · exact ⟨(t.line l).waiting, rfl, fun _ => by omega⟩

/-- A higher request takes a talker's place, who waits; the waiting list is trimmed. -/
theorem Keeps.displace (h : Keeps AllLines n s t) (l : Nat) (k low : KeyId) (x : Option Nat)
    (hlow : low ∈ (t.line l).talkers.map (·.key)) :
    Keeps AllLines n s (Machine.trimWaiting l 1 (Machine.joinTalkers l k x (Machine.displaceTalker l low t))) := by
  refine h.trans (Keeps.withLine (l := l) ?_ ?_)
  · exact (((Keeps.refl n t).displaceTalker l low fun _ z => absurd rfl z).joinTalkers l k x
      fun _ z => absurd rfl z).trimWaiting l 1 fun _ _ _ _ z => absurd rfl z
  · intro ho
    have hl := lineOk_lt (t := t) ho
    obtain ⟨w, e, hw⟩ := line_trimWaiting hl 1 (Machine.joinTalkers l k x (Machine.displaceTalker l low t))
    rw [line_joinTalkers hl, line_displaceTalker hl] at e hw
    show LineOk ((Machine.trimWaiting l 1 (Machine.joinTalkers l k x (Machine.displaceTalker l low t))).line l)
    rw [e]
    refine line_lists ho rfl rfl rfl ?_ (hw ?_)
    · have h1 := without_length hlow
      have h2 : (t.line l).talkers.length ≤ (t.line l).limit := ho.talkers
      simp only [List.length_append, List.length_singleton]
      exact Nat.le_trans h1 h2
    · have h2 : (t.line l).waiting.length ≤ 16 := ho.waiting
      simp only [waitFront_length]
      omega

theorem Keeps.placeLine (h : Keeps AllLines n s t) (l : Nat) (k : KeyId) (x : Option Nat) :
    Keeps AllLines n s (placeLine l k x t) := by
  unfold Machine.placeLine
  dsimp only
  split
  · rename_i hr
    exact h.joinTalkers l k x (line_join _ hr)
  · split
    · exact (h.refuseKey _ _ _).leaveSlot l x
    · rename_i low hlow
      split
      · exact h.displace l k low x (lowestOf_mem hlow)
      · split
        · rename_i hw
          have h1 : Keeps AllLines n s
              (Machine.putLine l { t.line l with waiting := waitBack t k (t.line l).waiting } t) := by
            refine Keeps.line h l fun ho => line_lists ho rfl rfl rfl ho.talkers ?_
            show (waitBack t k (t.line l).waiting).length ≤ 16
            rw [waitBack_length]
            omega
          exact Keeps.putKey h1 _ _
        · exact (h.refuseKey _ _ _).leaveSlot l x

/-- Only one of the 32 lines has members. -/
theorem mayTalk_line {l st : Nat} (h : mayTalk t l st = true) : l < 32 := by
  by_cases hl : l < 32
  · exact hl
  · rw [mayTalk, State.line, tget, dif_neg hl] at h
    cases h

theorem Keeps.requestLine (h : Keeps AllLines n s t) (k : KeyId) (b : Bool) : Keeps AllLines n s (requestLine k b t) := by
  unfold Machine.requestLine
  dsimp only
  split
  · exact h.refuseKey _ _ _
  · rename_i hm
    split
    · exact h.placeLine _ k none
    · split
      · exact (h.claimJoin _ (mayTalk_line (by simpa using hm))).placeLine _ k _
      · exact h.refuseKey _ _ _

/-! ### Ending a request -/

theorem Keeps.replyEnded (h : Keeps AllLines n s t) (st : Nat) (c : Option Nat) : Keeps AllLines n s (replyEnded st c t) := by
  unfold Machine.replyEnded
  split
  · exact h
  · exact h.removeCall st _

theorem Keeps.handOff (h : Keeps AllLines n s t) (k : KeyId) (x : Option Held) : Keeps AllLines n s (handOff k x t) := by
  unfold Machine.handOff
  split
  · exact h
  · exact ((h.claimLower false _ _).talkers _ _).replyEnded _ _
  · exact h.claimLower true _ _
  · dsimp only
    split
    · refine Keeps.leaveSlot (Keeps.takeInAll (Keeps.line h _ fun ho => ?_) _) _ _
      exact line_lists ho rfl rfl rfl (Nat.le_trans (List.length_filter_le _ _) ho.talkers) ho.waiting
    · refine Keeps.leaveSlot (Keeps.line h _ fun ho => ?_) _ _
      exact line_lists ho rfl rfl rfl ho.talkers (Nat.le_trans (List.length_filter_le _ _) ho.waiting)
  · exact (h.foldRemove _ _).replyEnded _ _

theorem Keeps.endRequest (h : Keeps AllLines n s t) (k : KeyId) : Keeps AllLines n s (endRequest k t) := by
  unfold Machine.endRequest
  exact Keeps.handOff (Keeps.putKey h _ _) k _

/-! ### Deciding a request -/

theorem Keeps.grantTalk (h : Keeps AllLines n s t) (d src : Nat) (c : Option Nat) (k : KeyId) :
    Keeps AllLines n s (grantTalk d src c k t) := by
  unfold Machine.grantTalk
  exact Keeps.reports (Keeps.talkKey (Keeps.talkers h d _) _ _ _) _

theorem Keeps.preempt (h : Keeps AllLines n s t) (k : KeyId) : Keeps AllLines n s (preempt k t) := (h.loseKey _ _).handOff k _

theorem Keeps.requestTalk (h : Keeps AllLines n s t) (d src : Nat) (c : Option Nat) (k : KeyId) :
    Keeps AllLines n s (requestTalk d src c k t) := by
  unfold Machine.requestTalk
  dsimp only
  have hr := h.claimRaise false d src (t.keyOf k).level
  split
  · split
    · exact hr.grantTalk d src c k
    · exact h.refuseKey _ _ _
  · split
    · exact h.refuseKey _ _ _
    · split
      · split
        · exact (hr.preempt _).grantTalk d src c k
        · exact h.refuseKey _ _ _
      · exact h.refuseKey _ _ _

theorem Keeps.requestInterrupt (h : Keeps AllLines n s t) (d src : Nat) (c : Option Nat) (k : KeyId) :
    Keeps AllLines n s (requestInterrupt d src c k t) := by
  unfold Machine.requestInterrupt
  exact Keeps.foldRequest (Keeps.putKey h _ _) _ _ _ _ _ _

theorem Keeps.requestToward (h : Keeps AllLines n s t) (d src : Nat) (c : Option Nat) (k : KeyId) :
    Keeps AllLines n s (requestToward d src c k t) := by
  unfold Machine.requestToward
  split
  · exact h.requestInterrupt d src c k
  · exact h.requestTalk d src c k

theorem Keeps.requestListen (h : Keeps AllLines n s t) (k : KeyId) : Keeps AllLines n s (requestListen k t) := by
  unfold Machine.requestListen
  dsimp only
  split
  · exact h.refuseKey _ _ _
  · split
    · exact Keeps.putKey (h.claimRaise true _ _ _) _ _
    · exact h.refuseKey _ _ _

theorem Keeps.requestReply (h : Keeps AllLines n s t) (k : KeyId) : Keeps AllLines n s (requestReply k t) := by
  unfold Machine.requestReply
  split
  · exact h.refuseKey _ _ _
  · split
    · exact h.refuseKey _ _ _
    · split
      · exact h.refuseKey _ _ _
      · exact h.requestToward _ _ _ k

theorem Keeps.requestMic (h : Keeps AllLines n s t) (b : Bool) (k : KeyId) : Keeps AllLines n s (requestMic b k t) := by
  unfold Machine.requestMic
  dsimp only
  split
  · exact h.refuseKey _ _ _
  · split
    · exact h.requestInterrupt _ _ _ k
    · exact h.requestToward _ _ _ k

theorem Keeps.decideRequest (h : Keeps AllLines n s t) (k : KeyId) : Keeps AllLines n s (decideRequest k t) := by
  unfold Machine.decideRequest
  split
  · exact h
  · exact h.requestMic _ k
  · exact h.requestMic _ k
  · exact h.requestLine k _
  · exact h.requestLine k _
  · exact h.requestListen k
  · exact h.takeCall _ _
  · exact h.requestReply k

theorem Keeps.startRequest (h : Keeps AllLines n s t) (k : KeyId) : Keeps AllLines n s (startRequest k t) := by
  unfold Machine.startRequest
  exact Keeps.decideRequest (Keeps.putKey h _ _) k

/-! ### Presses and releases -/

theorem Keeps.latchIfInPlace (h : Keeps AllLines n s t) (k : KeyId) : Keeps AllLines n s (latchIfInPlace k t) := by
  unfold Machine.latchIfInPlace
  split
  · exact Keeps.putKey h _ _
  · exact h

theorem Keeps.pressByMode (h : Keeps AllLines n s t) (k : KeyId) : Keeps AllLines n s (pressByMode k t) := by
  unfold Machine.pressByMode
  dsimp only
  repeat' split
  all_goals with_reducible first
    | exact h
    | exact h.startRequest k
    | exact h.endRequest k
    | exact (h.startRequest k).latchIfInPlace k

theorem Keeps.pressRefused (h : Keeps AllLines n s t) (k : KeyId) : Keeps AllLines n s (pressRefused k t) := by
  unfold Machine.pressRefused
  dsimp only
  split
  · exact Keeps.pressByMode (Keeps.putKey h _ _) k
  · exact h

theorem Keeps.pressKey (h : Keeps AllLines n s t) (k : KeyId) : Keeps AllLines n s (pressKey k t) := by
  unfold Machine.pressKey
  dsimp only
  split
  · exact h
  · split
    · exact Keeps.putKey h _ _
    · split
      · exact Keeps.pressRefused (Keeps.putKey h _ _) k
      · exact Keeps.pressByMode (Keeps.putKey h _ _) k

theorem Keeps.releaseByMode (h : Keeps AllLines n s t) (k : KeyId) : Keeps AllLines n s (releaseByMode k t) := by
  unfold Machine.releaseByMode
  dsimp only
  repeat' split
  all_goals with_reducible first
    | exact h
    | exact h.endRequest k
    | skip
  exact Keeps.putKey h _ _

theorem Keeps.releaseRefused (h : Keeps AllLines n s t) (k : KeyId) : Keeps AllLines n s (releaseRefused k t) := by
  unfold Machine.releaseRefused
  dsimp only
  split
  · exact h
  · exact Keeps.putKey h _ _

theorem Keeps.releaseKey (h : Keeps AllLines n s t) (k : KeyId) : Keeps AllLines n s (releaseKey k t) := by
  unfold Machine.releaseKey
  dsimp only
  split
  · exact h
  · split
    · exact Keeps.putKey h _ _
    · split
      · exact Keeps.releaseRefused (Keeps.putKey h _ _) k
      · exact Keeps.releaseByMode (Keeps.putKey h _ _) k

theorem Keeps.forcedEnd (h : Keeps AllLines n s t) (k : KeyId) : Keeps AllLines n s (forcedEnd k t) := by
  unfold Machine.forcedEnd
  split
  · exact h.endRequest k
  · exact h

theorem Keeps.keyEvent (h : Keeps AllLines n s t) (b : Bool) (k : KeyId) : Keeps AllLines n s (keyEvent b k t) := by
  unfold Machine.keyEvent
  split
  · exact h.pressKey k
  · exact h.releaseKey k

theorem Keeps.releaseKeys (h : Keeps AllLines n s t) (st k : Nat) : Keeps AllLines n s (releaseKeys st k t) :=
  Keeps.forEach _ _ (fun _ _ hi => (hi.releaseKey _).forcedEnd _) h

end Sys2Proof.Laws
end

