-- ==== Sys2Proof/Laws/Streams.lean ====
section
/-!
SUPPORT. The stream unit and the end of a command keep every block.
-/
set_option Elab.async false

namespace Sys2Proof.Laws

open Machine Sys2Proof.Inv

variable {n : Nat} {s t : State}

/-! ### Cues and starts -/

theorem Keeps.removeCue (h : Keeps AllLines n s t) (c : Nat) : Keeps AllLines n s (removeCue c t) := by
  unfold Machine.removeCue
  dsimp only
  split
  · exact h
  · split
    · exact h
    · exact (h.setCuePlace c _).foldRemove _ _

theorem Keeps.requestCue (h : Keeps AllLines n s t) (c : Nat) : Keeps AllLines n s (requestCue c t) := by
  unfold Machine.requestCue
  split
  · exact h
  · split
    · exact h.foldRequest _ _ _ _ _ _
    · exact h

theorem Keeps.enterRunning (h : Keeps AllLines n s t) (c : Nat)
    (hc : ChanOk (tget t.chans c) → (tget t.chans c).chain ≠ []) : Keeps AllLines n s (enterRunning c t) := by
  unfold Machine.enterRunning
  refine Keeps.requestCue (Keeps.chan h c ?_) c
  intro ho
  have hne := hc ho
  obtain ⟨h1, h2, h3, _, _⟩ := ho
  refine ⟨h1, h2, h3, ?_, fun _ => hne⟩
  intro z
  cases z

theorem Keeps.startChannel (h : Keeps AllLines n s t) (c : Nat) : Keeps AllLines n s (startChannel c t) := by
  unfold Machine.startChannel
  split
  · rename_i ha
    exact h.enterRunning c fun ho => ho.2.2.2.2 (Or.inl ha)
  · exact h

theorem Keeps.takeReport (h : Keeps AllLines n s t) (r : Report) : Keeps AllLines n s (takeReport r t) := by
  unfold Machine.takeReport
  refine Keeps.forEach _ _ (fun t i hi => ?_) h
  split
  · exact hi.startChannel i
  · exact hi

theorem Keeps.drainReports (h : Keeps AllLines n s t) (fuel : Nat) : Keeps AllLines n s (drainReports fuel t) := by
  induction fuel generalizing t with
  | zero => exact h
  | succ fuel ih =>
    unfold Machine.drainReports
    split
    · exact h
    · exact ih (Keeps.takeReport (Keeps.reports h _) _)

theorem Keeps.settle (h : Keeps AllLines n s t) : Keeps AllLines n s (settle t) := h.drainReports _

/-! ### Returning descriptors -/

theorem streamWrite_changes (a : Nat) (b : List Byte) (t : State) :
    ∃ x y, (streamWrite a b t).2 = { t with sent := x, writeFaults := y } := by
  unfold streamWrite
  split
  · exact ⟨t.sent, t.writeFaults, rfl⟩
  · exact hostWrite_changes a b t

theorem writeReturn_changes (d : Desc) (m : Nat) (r : EndReason) (t : State) :
    ∃ x y, (writeReturn d m r t).2 = { t with sent := x, writeFaults := y } := by
  unfold writeReturn
  dsimp only
  generalize h1 : streamWrite _ _ _ = w1
  obtain ⟨x1, y1, e1⟩ := streamWrite_changes (d.address + 0x10) (u32 m) t
  rw [h1] at e1
  obtain ⟨ok1, s1⟩ := w1
  simp only at e1
  subst e1
  dsimp only
  split
  · generalize h2 : streamWrite _ _ _ = w2
    obtain ⟨x2, y2, e2⟩ := streamWrite_changes (d.address + 0x0F) (u8 r.ctorIdx) { t with sent := x1, writeFaults := y1 }
    rw [h2] at e2
    obtain ⟨ok2, s2⟩ := w2
    simp only at e2
    subst e2
    dsimp only
    split
    · obtain ⟨x3, y3, e3⟩ := streamWrite_changes (d.address + 0x0E) (u8 1) { t with sent := x2, writeFaults := y2 }
      exact ⟨x3, y3, e3⟩
    · exact ⟨x2, y2, rfl⟩
  · exact ⟨x1, y1, rfl⟩

theorem Keeps.returnDesc (h : Keeps AllLines n s t) (c : Nat) (d : Desc) (m : Nat) (r : EndReason) :
    Keeps AllLines n s (returnDesc c d m r t) := by
  obtain ⟨x, y, e⟩ := writeReturn_changes d (min m max32) r t
  have h1 : Keeps AllLines n s (writeReturn d (min m max32) r t).2 := by
    rw [e]
    exact h.io t.mirror x y
  unfold Machine.returnDesc
  exact Keeps.raised h1 _ _

theorem Keeps.returnRest (h : Keeps AllLines n s t) (c : Nat) (ds : List Desc) : Keeps AllLines n s (returnRest c ds t) :=
  Keeps.foldl ds _ (fun _ d hd => hd.returnDesc c d 0 _) h

theorem reprogress_settings (c : Nat) (r : Channel) : chanSettings (Channel.reprogress c r) = chanSettings r := by
  unfold Channel.reprogress
  split <;> rfl

theorem reprogress_ok (c : Nat) {r : Channel} (h : ChanOk r) : ChanOk (Channel.reprogress c r) := by
  unfold Channel.reprogress
  split <;> exact h

theorem dropHead_settings (c : Nat) (e : EndReason) (d : Desc) (rest : List Desc) (r : Channel) :
    chanSettings (r.dropHead c e d rest) = chanSettings r := by
  unfold Channel.dropHead
  refine (reprogress_settings c _).trans ?_
  split <;> rfl

theorem dropHead_ok (c : Nat) (e : EndReason) (d : Desc) (rest : List Desc) {r : Channel} (h : ChanOk r) (hr : r.chain = d :: rest) :
    ChanOk (r.dropHead c e d rest) := by
  obtain ⟨h1, h2, h3, h4, h5⟩ := h
  rw [hr] at h1 h2
  have hs : rest.Sublist (d :: rest) := List.sublist_cons_self d rest
  have key : ∀ (left : List Block), left.length ≤ 4 → ChanOk { r with
      state := r.stateAfterHead e d rest, chain := if r.stateAfterHead e d rest = .idle then [] else rest
      moved := 0, readAt := 0, progress := 0, staging := left } := by
    intro left hl
    refine ⟨?_, ?_, hl, ?_, ?_⟩
    · dsimp only
      split
      · exact Nat.zero_le _
      · exact Nat.le_trans hs.length_le h1
    · dsimp only
      split
      · exact List.nodup_nil
      · exact h2.sublist (hs.map _)
    · intro hi
      dsimp only at hi ⊢
      rw [if_pos hi]
    · intro hi
      dsimp only at hi ⊢
      have hne : ¬ r.stateAfterHead e d rest = .idle := by
        rcases hi with hi | hi <;> rw [hi] <;> decide
      rw [if_neg hne]
      intro hz
      unfold Channel.stateAfterHead at hi
      subst hz
      revert hi
      split
      · simp
      · simp only [List.isEmpty_nil, Bool.not_true, Bool.false_eq_true, if_false]
        split <;> simp
  have hleft : (r.staging.drop r.headBlocks).length ≤ 4 := by
    rw [List.length_drop]; omega
  have hif' : ∀ (b : Prop) [Decidable b] (x : List Block), x.length ≤ 4 → (if b then [] else x).length ≤ 4 := by
    intro b _ x hx
    split
    · exact Nat.zero_le _
    · exact hx
  unfold Channel.dropHead
  refine reprogress_ok c ?_
  split
  · exact key _ (hif' _ _ hleft)
  · exact key [] (Nat.zero_le _)

theorem Keeps.endHead (h : Keeps AllLines n s t) (c : Nat) (r : EndReason) (m : Nat) : Keeps AllLines n s (endHead c r m t) := by
  unfold Machine.endHead
  dsimp only
  split
  · exact h
  · rename_i d rest heq
    have h1 : Keeps AllLines n s (Machine.putChan c ((t.chan c).dropHead c r d rest) t) :=
      Keeps.chan h c (fun ho => dropHead_ok c r d rest ho heq) fun _ => dropHead_settings c r d rest _
    have h2 := h1.returnDesc c d m r
    have key : ∀ u, Keeps AllLines n s u → Keeps AllLines n s
        (if (t.chan c).state = .running ∧ (u.chan c).state ≠ .running then Machine.removeCue c u else u) := by
      intro u hu
      split
      · exact hu.removeCue c
      · exact hu
    refine key _ ?_
    split
    · exact h2.returnRest c rest
    · exact h2

/-! ### Moving audio -/

theorem Keeps.streamWrite (h : Keeps AllLines n s t) (a : Nat) (b : List Byte) : Keeps AllLines n s (streamWrite a b t).2 := by
  obtain ⟨x, y, e⟩ := streamWrite_changes a b t
  rw [e]
  exact h.io t.mirror x y

theorem Keeps.flushBlocks (h : Keeps AllLines n s t) (bs : List Block) (b m : Nat) : Keeps AllLines n s (flushBlocks bs b m t).2 := by
  induction bs generalizing m t with
  | nil => exact h
  | cons x bs ih =>
    unfold Machine.flushBlocks
    dsimp only
    split
    · exact ih (h.streamWrite _ _) _
    · exact h.streamWrite _ _

theorem Keeps.flushHead (h : Keeps AllLines n s t) (c : Nat) (r : EndReason) : Keeps AllLines n s (flushHead c r t) := by
  unfold Machine.flushHead
  dsimp only
  split
  · exact h
  · rename_i d rest _
    have h1 := h.flushBlocks ((t.chan c).staging.take (t.chan c).headBlocks) d.buffer (t.chan c).moved
    refine Keeps.endHead ?_ c _ _
    split
    · exact h1
    · refine Keeps.chan h1 c ?_
      exact id

theorem chanOk_of {r r' : Channel} (h : ChanOk r) (hc : r'.chain = r.chain) (hs : r'.state = r.state)
    (hl : r'.staging.length ≤ 4) : ChanOk r' := by
  obtain ⟨h1, h2, h3, h4, h5⟩ := h
  refine ⟨by rw [hc]; exact h1, by rw [hc]; exact h2, hl, ?_, ?_⟩
  · rw [hs, hc]; exact h4
  · rw [hs, hc]; exact h5

theorem Keeps.playbackPeriod (h : Keeps AllLines n s t) (c : Nat) : Keeps AllLines n s (playbackPeriod c t) := by
  unfold Machine.playbackPeriod
  dsimp only
  have hcases : ∀ (r1 : Channel) (p : Nat) (l : List Block),
      (r1 = t.chan c ∨ r1 = (t.chan c).addUnderrun 48) →
      ∀ (q m : Nat), (ChanOk (tget t.chans c) → ChanOk { r1 with
        moved := m, staging := (t.chan c).staging.filter fun b => decide (p ≤ b.at_), progress := q }) := by
    intro r1 p l hr q m ho
    rcases hr with rfl | rfl <;>
      refine chanOk_of ho rfl rfl (Nat.le_trans (List.length_filter_le _ _) ho.2.2.1)
  split
  · refine Keeps.chan h c ?_
    exact id
  · rename_i d rest _ _
    have hr : (if (t.chan c).dueBlock.isSome = true then t.chan c else (t.chan c).addUnderrun 48) = t.chan c ∨
        (if (t.chan c).dueBlock.isSome = true then t.chan c else (t.chan c).addUnderrun 48)
          = (t.chan c).addUnderrun 48 := by
      split
      · exact Or.inl rfl
      · exact Or.inr rfl
    have hset : chanSettings (if (t.chan c).dueBlock.isSome = true then t.chan c else (t.chan c).addUnderrun 48)
        = chanSettings (tget t.chans c) := by
      split <;> rfl
    have hput : ∀ q, Keeps AllLines n s (Machine.putChan c { (if (t.chan c).dueBlock.isSome = true then t.chan c else
        (t.chan c).addUnderrun 48) with
        moved := (t.chan c).moved + 48
        staging := (t.chan c).staging.filter fun b => decide ((t.chan c).moved + 48 ≤ b.at_)
        progress := q } t) := by
      intro q
      exact Keeps.chan h c (hcases _ _ [] hr q _) fun _ => hset
    split
    · exact hput _
    · split
      · exact hput 0
      · exact (hput _).endHead c _ _
  · exact h

theorem Keeps.capturePeriod (h : Keeps AllLines n s t) (c : Nat) (x : List Int) : Keeps AllLines n s (capturePeriod c x t) := by
  unfold Machine.capturePeriod
  dsimp only
  split
  · refine Keeps.chan h c ?_
    exact id
  · split
    · refine Keeps.flushHead (Keeps.chan h c ?_) c _
      exact id
    · rename_i hlt
      refine Keeps.chan h c ?_ fun _ => reprogress_settings c _
      intro ho
      refine reprogress_ok c (chanOk_of ho rfl rfl ?_)
      simp only [List.length_append, List.length_singleton]
      omega
  · exact h

theorem readDue_room {r : Channel} (h : r.readDue = true) : r.staging.length < 4 := by
  unfold Channel.readDue at h
  split at h
  · simp only [Bool.and_eq_true, decide_eq_true_eq] at h
    exact h.1
  · cases h

theorem Keeps.playbackRead (h : Keeps AllLines n s t) (c : Nat) (b : Option (List Word32)) : Keeps AllLines n s (playbackRead c b t) := by
  unfold Machine.playbackRead
  dsimp only
  split
  · exact h
  · rename_i hd
    have hroom : (t.chan c).staging.length < 4 := by
      refine readDue_room ?_
      simp only [Bool.or_eq_true, Bool.not_eq_true', not_or] at hd
      simpa using hd.2
    split
    · refine Keeps.endHead (Keeps.chan h c ?_) c _ _
      exact id
    · refine Keeps.chan h c ?_
      intro ho
      refine chanOk_of ho rfl rfl ?_
      dsimp only
      split
      · simp only [List.length_append, List.length_singleton]; omega
      · omega

theorem Keeps.captureWrite (h : Keeps AllLines n s t) (c : Nat) (ok : Bool) : Keeps AllLines n s (captureWrite c ok t) := by
  unfold Machine.captureWrite
  dsimp only
  split
  · rename_i d rest b bs _ _ hst
    split
    · exact h
    · split
      · have h1 := Keeps.chan (Keeps.sent h (.write (d.buffer + 4 * (t.chan c).moved) (blockBytes b))) c
          (r := Channel.reprogress c { t.chan c with moved := (t.chan c).moved + 48, staging := bs })
          (fun ho => reprogress_ok c (chanOk_of ho rfl rfl (by
            have := ho.2.2.1
            have e : (tget t.chans c).staging = b :: bs := hst
            simp only [emit] at this
            rw [e] at this
            simp only [List.length_cons] at this
            show bs.length ≤ 4
            omega))) fun _ => reprogress_settings c _
        split
        · exact h1
        · exact h1.endHead c _ _
      · refine Keeps.endHead (Keeps.chan h c ?_) c _ _
        exact id
  · exact h

/-! ### Cut, Stop and discard -/

theorem Keeps.cutChannel (h : Keeps AllLines n s t) (c : Nat) : Keeps AllLines n s (cutChannel c t) := by
  unfold Machine.cutChannel
  dsimp only
  split
  · split
    · exact h.endHead c _ _
    · exact h.flushHead c _
  · exact h.endHead c _ _
  · exact h

theorem chanOk_idle {r : Channel} : ChanOk
    { r with state := .idle, chain := [], staging := [], progress := 0, moved := 0, readAt := 0 } :=
  ⟨Nat.zero_le _, List.nodup_nil, Nat.zero_le _, fun _ => rfl, fun z => by rcases z with z | z <;> cases z⟩

theorem Keeps.stopChannel (h : Keeps AllLines n s t) (c : Nat) : Keeps AllLines n s (stopChannel c t) := by
  unfold Machine.stopChannel
  dsimp only
  split
  · exact h
  · have h1 : Keeps AllLines n s (Machine.putChan c
        { t.chan c with state := .idle, chain := [], staging := [], progress := 0, moved := 0, readAt := 0 } t) :=
      Keeps.chan h c fun _ => chanOk_idle
    refine Keeps.removeCue ?_ c
    split
    · exact h1
    · exact (h1.returnDesc c _ _ _).returnRest c _

theorem Keeps.discardChannel (h : Keeps AllLines n s t) (c : Nat) : Keeps AllLines n s (discardChannel c t) := by
  unfold Machine.discardChannel
  exact Keeps.chan (h.removeCue c) c fun _ => chanOk_idle

theorem Keeps.discardHead (h : Keeps AllLines n s t) (c : Nat) : Keeps AllLines n s (discardHead c t) := by
  unfold Machine.discardHead
  dsimp only
  split
  · exact h
  · rename_i d rest heq
    have h1 : Keeps AllLines n s (Machine.putChan c { (t.chan c).dropHead c .cut d rest with lost := (t.chan c).lost } t) :=
      Keeps.chan h c (fun ho => dropHead_ok c .cut d rest ho heq) fun _ => dropHead_settings c .cut d rest _
    split
    · exact h1.removeCue c
    · exact h1

end Sys2Proof.Laws
end

