-- ==== Sys2Proof/Laws/Orders.lean ====
section
/-!
SUPPORT. How an order finishes, and the short orders of every owner, keep every block.
-/
set_option Elab.async false

namespace Sys2Proof.Laws

open Machine Sys2Proof.Inv

variable {n : Nat} {s t : State}

/-! ### Finishing -/

theorem Keeps.writeDone (h : Keeps AllLines n s t) (h1 : 1 ≤ n) : Keeps AllLines n s (writeDone t) := by
  obtain ⟨u, x, y, e⟩ := writeDone_changes t
  rw [e]
  refine Keeps.io (Keeps.order h h1 (x := { t.exch with doneUnwritten := u }) ?_ ?_) t.mirror x y
  · rfl
  · exact id

theorem Keeps.finishSlot (h : Keeps AllLines n s t) (h1 : 1 ≤ n) (k : Nat) (r : Result) : Keeps AllLines n s (finishSlot k r t) := by
  have h2 := h.area (0x0800 + 64 * k + 0x30) (u16 r.code.ctorIdx ++ r.values)
  unfold Machine.finishSlot
  refine Keeps.raised (Keeps.writeDone (Keeps.order h2 h1 ?_ ?_) h1) _ _
  · rfl
  · exact id

/-- An order's row keeps what its body keeps. -/
theorem Keeps.runOrder (h : Keeps AllLines n s t) (h1 : 1 ≤ n) (i : Instr) {body : State → Result × State}
    (hb : ∀ {t}, Keeps AllLines n s t → Keeps AllLines n s (body t).2) : Keeps AllLines n s (runOrder i body t) := by
  unfold Machine.runOrder
  split
  · split
    · exact h
    · refine Keeps.order (hb h) h1 ?_ ?_
      · rfl
      · exact id
  · split
    · refine Keeps.finishSlot (Keeps.order (hb h) h1 ?_ ?_) h1 _ _
      · rfl
      · exact id
    · exact h

theorem Keeps.orderExchScan (h : Keeps AllLines n s t) (h1 : 1 ≤ n) (k : Nat) : Keeps AllLines n s (orderExchScan k t).2 := by
  unfold Machine.orderExchScan
  split
  · exact h
  · rename_i hk
    refine Keeps.order h h1 ?_ ?_
    · rfl
    · rintro ⟨a, _, b⟩
      exact ⟨a, by simpa using hk, b⟩

/-! ### Matrix and buses -/

theorem Keeps.orderRouteSet (h : Keeps AllLines n s t) (h1 : 2 ≤ n) (d src l : Nat) : Keeps AllLines n s (orderRouteSet d src l t).2 :=
  h.claimAdd h1 _ d src l

theorem Keeps.orderRouteClear (h : Keeps AllLines n s t) (h1 : 2 ≤ n) (d src : Nat) : Keeps AllLines n s (orderRouteClear d src t).2 := by
  unfold Machine.orderRouteClear
  split
  · exact h
  · exact Keeps.claimRemove h h1 d src

theorem Keeps.orderRouteClearDest (h : Keeps AllLines n s t) (h1 : 2 ≤ n) (d : Nat) :
    Keeps AllLines n s (orderRouteClearDest d t).2 := by
  unfold Machine.orderRouteClearDest
  split
  · exact h
  · exact Keeps.claimRemoveDest h h1 d

theorem levelOk_getD {x : Option Nat} {y : Nat} (h : presentOk levelOk x = true) (hy : y ≤ 240) : x.getD y ≤ 240 := by
  cases x with
  | none => exact hy
  | some v => simpa [presentOk, levelOk] using h

theorem Keeps.orderSourceConfig (h : Keeps AllLines n s t) (h1 : 2 ≤ n) (src : Nat) (a b : Option Nat) :
    Keeps AllLines n s (orderSourceConfig src a b t).2 := by
  unfold Machine.orderSourceConfig
  split
  · exact h
  split
  · exact h
  rename_i hl
  split
  · exact h
  refine Keeps.sourceSet h src ?_ (fun _ => by omega)
  intro ho
  exact ⟨levelOk_getD (by simpa using hl) ho.1, ho.2⟩

theorem Keeps.orderDestConfig (h : Keeps AllLines n s t) (h1 : 2 ≤ n) (d : Nat) (a b : Option Nat) :
    Keeps AllLines n s (orderDestConfig d a b t).2 := by
  unfold Machine.orderDestConfig
  split
  · exact h
  split
  · exact h
  rename_i hl
  split
  · exact h
  rename_i hk
  split
  · exact h
  refine Keeps.withDest h d ?_ id (fun _ => by omega)
  rintro ⟨a1, a2, a3, a4⟩
  refine ⟨levelOk_getD (by simpa using hl) a1, ?_, ?_, a4⟩
  · cases b with
    | none => exact a2
    | some v =>
      simp [presentOk] at hk
      show 1 ≤ v
      omega
  · cases b with
    | none => exact a3
    | some v =>
      simp [presentOk] at hk
      show v ≤ 24
      omega

theorem Keeps.putBus (h : Keeps AllLines n s t) (h1 : 2 ≤ n) (b : Nat) {l : List Member}
    (ho : BusOk (t.bus b) → BusOk l) : Keeps AllLines n s (putBus b l t) :=
  Keeps.mixed h h1 _ fun c hc => tset_holds (fun _ x => BusOk x) (fun _ z => z) ho c hc

theorem Keeps.orderBusSet (h : Keeps AllLines n s t) (h1 : 2 ≤ n) (b src l : Nat) : Keeps AllLines n s (orderBusSet b src l t).2 := by
  unfold Machine.orderBusSet
  dsimp only
  split
  · exact h
  split
  · exact h
  rename_i hs
  split
  · exact h
  rename_i hl
  have hs : src < 160 := by simpa [portOk] using hs
  have hl : l ≤ 240 := by simpa [levelOk] using hl
  split
  · refine Keeps.putBus h h1 b ?_
    rintro ⟨b1, b2, b3⟩
    have hm : ((t.bus b).map fun m => if m.source = src then { m with level := l } else m).map (·.source)
        = (t.bus b).map (·.source) := by
      rw [List.map_map]
      refine List.map_congr_left fun m _ => ?_
      simp only [Function.comp]
      split <;> rfl
    refine ⟨by simpa using b1, hm ▸ b2, ?_⟩
    intro m hm
    obtain ⟨a, ha, rfl⟩ := List.mem_map.1 hm
    split
    · exact ⟨(b3 a ha).1, hl⟩
    · exact b3 a ha
  · rename_i hany
    split
    · exact h
    · rename_i hlen
      refine Keeps.putBus h h1 b ?_
      rintro ⟨b1, b2, b3⟩
      refine ⟨by simp only [List.length_append, List.length_singleton]; omega, ?_, ?_⟩
      · simp only [List.map_append, List.map_cons, List.map_nil]
        refine List.nodup_append.2 ⟨b2, by simp, ?_⟩
        intro a ha c hc
        rw [List.mem_singleton.1 hc]
        rintro rfl
        obtain ⟨m, hm, he⟩ := List.mem_map.1 ha
        exact hany (List.any_eq_true.2 ⟨m, hm, by simp [he]⟩)
      · intro m hm
        rcases List.mem_append.1 hm with hm | hm
        · exact b3 m hm
        · rw [List.mem_singleton.1 hm]
          exact ⟨hs, hl⟩

theorem Keeps.orderBusClear (h : Keeps AllLines n s t) (h1 : 2 ≤ n) (b : Nat) (a : Bool) (src : Nat) :
    Keeps AllLines n s (orderBusClear b a src t).2 := by
  unfold Machine.orderBusClear
  dsimp only
  split
  · exact h
  · refine Keeps.putBus h h1 b ?_
    rintro ⟨b1, b2, b3⟩
    split
    · exact ⟨Nat.zero_le _, List.nodup_nil, by simp⟩
    · exact ⟨Nat.le_trans (List.length_filter_le _ _) b1, b2.sublist (List.filter_sublist.map _),
        fun m hm => b3 m (List.mem_filter.1 hm).1⟩

theorem Keeps.orderLockSet (h : Keeps AllLines n s t) (h1 : 2 ≤ n) (d l : Nat) : Keeps AllLines n s (orderLockSet d l t).2 := by
  unfold Machine.orderLockSet
  dsimp only
  split
  · exact h
  split
  · exact h
  rename_i x _
  split
  · exact h
  split
  · exact h
  rename_i hne
  refine Keeps.withDest h d id ?_ (fun _ => by omega)
  intro hf
  cases x with
  | held => exact absurd ⟨rfl, hf⟩ hne
  | fixed => rfl
  | free =>
    rename_i hx
    unfold lockOf at hx
    split at hx <;> cases hx

theorem Keeps.orderLockClear (h : Keeps AllLines n s t) (h1 : 2 ≤ n) (d : Nat) : Keeps AllLines n s (orderLockClear d t).2 := by
  unfold Machine.orderLockClear
  dsimp only
  split
  · exact h
  split
  · exact h
  split
  · exact h
  rename_i hne
  exact Keeps.withDest h d id (fun hf => absurd hf hne) (fun _ => by omega)

/-! ### Foldback -/

theorem Keeps.orderFoldBind (h : Keeps AllLines n s t) (h1 : 2 ≤ n) (r d : Nat) : Keeps AllLines n s (orderFoldBind r d t).2 := by
  unfold Machine.orderFoldBind
  dsimp only
  split
  · exact h
  rename_i hr
  split
  · exact h
  split
  · exact h
  split
  · exact h
  split
  · refine Keeps.rec_ (Keeps.claimBind h h1 d (Or.inr rfl)) r ?_ (fun _ => by omega)
    have e : (Machine.claimBind d .foldback t).2.fold = t.fold := by
      unfold Machine.claimBind; repeat' split
      all_goals rfl
    rw [e]
    rintro ⟨a1, a2, a3, a4, a5, a6, a7, a8, a9, a10, a11, _⟩
    exact ⟨a1, a2, a3, a4, a5, a6, a7, a8, a9, a10, a11, fun hge => absurd hge hr⟩
  · exact h

theorem Keeps.orderFoldUnbind (h : Keeps AllLines n s t) (h1 : 2 ≤ n) (r : Nat) : Keeps AllLines n s (orderFoldUnbind r t).2 := by
  unfold Machine.orderFoldUnbind
  dsimp only
  split
  · exact h
  rename_i hr
  split
  · exact h
  rename_i d _
  split
  · exact h
  rename_i hemp
  split
  · refine Keeps.rec_ (Keeps.claimBind h h1 d (Or.inl rfl)) r ?_ (fun _ => by omega)
    have e : (Machine.claimBind d .plain t).2.fold = t.fold := by
      unfold Machine.claimBind; repeat' split
      all_goals rfl
    rw [e]
    rintro ⟨a1, a2, a3, a4, _, a6, a7, a8, a9, _, _, _⟩
    simp only [Bool.or_eq_true, Bool.not_eq_true', not_or, Bool.not_eq_false, List.isEmpty_iff] at hemp
    refine ⟨a1, a2, a3, a4, Nat.zero_le _, a6, a7, a8, a9, ?_, by simp, fun hge => absurd hge hr⟩
    simp only [reduceCtorEq, false_iff, Decidable.not_not]
    exact hemp.1
  · exact h

theorem withSettings_ok {r : Nat} {f : FoldRec} (a b c d e : Option Nat) (h : FoldOk r f) :
    FoldOk r (f.withSettings a b c d e) := by
  obtain ⟨a1, a2, a3, a4, a5, a6, a7, a8, a9, a10, a11, a12⟩ := h
  unfold FoldRec.withSettings
  dsimp only
  split
  · rename_i hd
    refine ⟨a1, a2, a3, a4, a5, a6, a7, a8, a9, ?_, by simp, a12⟩
    rw [hd.1] at a10
    simpa using a10
  · exact ⟨a1, a2, a3, a4, a5, a6, a7, a8, a9, a10, a11, a12⟩

theorem Keeps.configFold (h : Keeps AllLines n s t) (h1 : 2 ≤ n) (b : Bool) (r : Nat) (p q u v w x : Option Nat) :
    Keeps AllLines n s (configFold b r p q u v w x t).2 := by
  unfold Machine.configFold
  dsimp only
  split
  · exact h
  split
  · exact h
  rename_i hargs
  split
  · exact h
  split
  · exact h
  have h2 : Keeps AllLines n s (putRec r ((t.rec_ r).withSettings p q u w x) t) :=
    Keeps.rec_ h r (withSettings_ok p q u w x) (fun _ => by omega)
  split
  · exact h2
  · rename_i k hnb
    have hk : 1 ≤ k ∧ k ≤ 4 := by
      simp only [Bool.or_eq_true, Bool.not_eq_true', not_or, presentOk, Bool.not_eq_false, Bool.and_eq_true,
        decide_eq_true_eq] at hargs
      exact hargs.1.1.2
    refine Keeps.applyFold h2 r _ ?_ (fun _ => by omega)
    intro ho
    obtain ⟨a, b, e, hl⟩ := setDepth_lists k _ (FoldOk.lists ho).1
    exact reduck_ok ho ⟨k, a, b, e, hk.1, hk.2, hl⟩

theorem Keeps.orderFoldConfig (h : Keeps AllLines n s t) (h1 : 2 ≤ n) (r : Nat) (p q u v w x : Option Nat) :
    Keeps AllLines n s (orderFoldConfig r p q u v w x t).2 := h.configFold h1 false r p q u v w x

theorem Keeps.addMinus (h : Keeps AllLines n s t) (h1 : 2 ≤ n) (r src : Nat) : Keeps AllLines n s (addMinus r src t).2 := by
  unfold Machine.addMinus
  dsimp only
  split
  · exact h
  split
  · exact h
  split
  · exact h
  rename_i hlen
  split
  · exact h
  split
  · refine Keeps.rec_ h r ?_ (fun _ => by omega)
    rintro ⟨a1, a2, a3, a4, a5, a6, a7, a8, a9, a10, a11, a12⟩
    refine ⟨a1, a2, a3, a4, ?_, a6, a7, a8, a9, a10, a11, ?_⟩
    · have : (tget t.fold.recs r).minus.length < 4 := Nat.not_le.1 hlen
      simp only [List.length_append, List.length_singleton]
      show (tget t.fold.recs r).minus.length + 1 ≤ 4
      omega
    · intro x y
      exact ⟨(a12 x y).1, List.mem_append_left _ (a12 x y).2⟩
  · exact h

theorem Keeps.orderFoldMinusAdd (h : Keeps AllLines n s t) (h1 : 2 ≤ n) (r src : Nat) :
    Keeps AllLines n s (orderFoldMinusAdd r src t).2 := h.addMinus h1 r src

theorem Keeps.orderFoldMinusRemove (h : Keeps AllLines n s t) (h1 : 2 ≤ n) (r src : Nat) :
    Keeps AllLines n s (orderFoldMinusRemove r src t).2 := by
  unfold Machine.orderFoldMinusRemove
  dsimp only
  split
  · exact h
  split
  · exact h
  rename_i hne
  refine Keeps.rec_ h r ?_ (fun _ => by omega)
  rintro ⟨a1, a2, a3, a4, a5, a6, a7, a8, a9, a10, a11, a12⟩
  refine ⟨a1, a2, a3, a4, Nat.le_trans (List.length_filter_le _ _) a5, a6, a7, a8, a9, a10, a11, ?_⟩
  intro x y
  refine ⟨(a12 x y).1, List.mem_filter.2 ⟨(a12 x y).2, ?_⟩⟩
  have : ¬(104 + r = src) := fun z => hne ⟨x, z.symm⟩
  simpa using this

theorem Keeps.execHoldTimer (h : Keeps AllLines n s t) (r : Nat) (hd : (tget t.fold.recs r).duck = .holding) :
    Keeps AllLines n s (putRec r { t.rec_ r with duck := .opened, holdTimer := none } t) := by
  refine Keeps.rec_ h r ?_ (fun _ => rfl)
  rintro ⟨a1, a2, a3, a4, a5, a6, a7, a8, a9, a10, a11, a12⟩
  refine ⟨a1, a2, a3, a4, a5, a6, a7, a8, a9, ?_, by simp, a12⟩
  rw [hd] at a10
  have a11 : (tget t.fold.recs r).ints = [] := by simpa using a10
  simp [State.rec_, a11]

/-! ### Keys and lines -/

theorem keyArgs_ok {st k f x m c l : Nat} {fn : Function} {md : KeyMode} (h : keyArgs st k f x m c l = some (fn, md)) :
    targetOk fn x = true ∧ ¬(fn = .call ∧ x = st) ∧ c ≤ 7 ∧ 1 ≤ l ∧ l ≤ 240 := by
  unfold keyArgs at h
  split at h
  · split at h
    · rename_i ha
      simp only [Option.some.injEq, Prod.mk.injEq] at h
      obtain ⟨rfl, rfl⟩ := h
      exact ha.2.2.2
    · cases h
  · cases h

theorem Keeps.assignKey (h : Keeps AllLines n s t) (h1 : 2 ≤ n) (b : Bool) (st k f x m c l : Nat) :
    Keeps AllLines n s (assignKey b st k f x m c l t).2.2 := by
  unfold Machine.assignKey
  dsimp only
  split
  · exact h
  · rename_i heq
    split
    · exact h
    · obtain ⟨a1, a2, a3, a4⟩ := keyArgs_ok heq
      exact Keeps.putKey (h.forcedEnd _) st k
        (fun _ => ⟨a3, a4, a1, fun z w => a2 ⟨z, w⟩, fun z => KeyState.noConfusion z⟩) (fun _ => by omega)

theorem Keeps.orderKeyAssign (h : Keeps AllLines n s t) (h1 : 2 ≤ n) (st k f x m c l : Nat) :
    Keeps AllLines n s (orderKeyAssign st k f x m c l t).2 := by
  unfold Machine.orderKeyAssign
  exact Keeps.assignKey h h1 false st k f x m c l

theorem Keeps.orderKeyClear (h : Keeps AllLines n s t) (h1 : 2 ≤ n) (st k : Nat) : Keeps AllLines n s (orderKeyClear st k t).2 := by
  unfold Machine.orderKeyClear
  dsimp only
  split
  · exact h
  · exact Keeps.putKey (h.forcedEnd _) st k
      (fun ho => ⟨ho.cls, ho.level, rfl, fun z => Function.noConfusion z, fun _ => rfl⟩) (fun _ => by omega)

theorem Keeps.deskEvent (h : Keeps AllLines n s t) (b : Bool) (k : Nat) : Keeps AllLines n s (deskEvent b k t).2 := by
  unfold Machine.deskEvent
  dsimp only
  split
  · exact h
  · split
    · exact h
    · exact h.keyEvent b _

theorem Keeps.shrinkTalkers {l : Nat} (h : Keeps (OtherLines l) n s t) (fuel : Nat) :
    Keeps (OtherLines l) n s (shrinkTalkers l fuel t) := by
  induction fuel generalizing t with
  | zero => exact h
  | succ fuel ih =>
    unfold Machine.shrinkTalkers
    dsimp only
    split
    · split
      · exact h
      · exact ih (h.displaceTalker l _ fun _ z => absurd rfl z)
    · exact h

theorem line_shrinkTalkers {l : Nat} (hl : l < 32) (fuel : Nat) (t : State) :
    ∃ ts w, (shrinkTalkers l fuel t).line l = { t.line l with talkers := ts, waiting := w }
      ∧ ((t.line l).talkers.length ≤ fuel → ts.length ≤ (t.line l).limit) := by
  induction fuel generalizing t with
  | zero => exact ⟨(t.line l).talkers, (t.line l).waiting, rfl, fun h => by omega⟩
  | succ fuel ih =>
    unfold shrinkTalkers
    dsimp only
    split
    · rename_i hlt
      split
      · rename_i hn
        have hz := congrArg List.length (lowestOf_none hn)
        simp only [List.length_map, List.length_nil] at hz
        exact ⟨(t.line l).talkers, (t.line l).waiting, rfl, fun _ => by omega⟩
      · rename_i k hk
        obtain ⟨ts, w, e, hts⟩ := ih (displaceTalker l k t)
        rw [line_displaceTalker hl] at e hts
        refine ⟨ts, w, e, fun hf => hts ?_⟩
        have := without_length (lowestOf_mem hk)
        dsimp only
        omega
    · exact ⟨(t.line l).talkers, (t.line l).waiting, rfl, fun _ => by omega⟩

/-- A line whose settings keep its rules keeps them once its limit has been met. -/
theorem Keeps.applyLimit {l : Nat} (h : Keeps (OtherLines l) n s t)
    (ho : LineOk (tget s.arb.lines l) → LineOk { t.line l with talkers := [], waiting := [] } ∧ l < 32) :
    Keeps AllLines n s (applyLimit l t) := by
  unfold Machine.applyLimit
  refine Keeps.takeInAll (Keeps.withLine (l := l)
    ((h.shrinkTalkers _).trimWaiting l _ fun _ _ _ _ z => absurd rfl z) fun q => ?_) l
  obtain ⟨hr, hl⟩ := ho q
  obtain ⟨ts, w, e, hts⟩ := line_shrinkTalkers hl (t.line l).talkers.length t
  obtain ⟨w', e', hw⟩ := line_trimWaiting hl
    ((Machine.shrinkTalkers l (t.line l).talkers.length t).line l).waiting.length
    (Machine.shrinkTalkers l (t.line l).talkers.length t)
  refine (show LineOk (State.line _ l) from ?_)
  rw [e', e]
  exact line_lists hr rfl rfl rfl (hts (Nat.le_refl _)) (hw (by omega))

theorem retime_ok (p : Policy) (now : Nat) {r : Line} (h : LineOk r) : LineOk (r.retime p now) := by
  unfold Line.retime
  repeat' split
  · exact line_lists h rfl rfl rfl (by rw [List.length_map]; exact h.talkers) h.waiting
  · exact line_lists h rfl rfl rfl (by rw [List.length_map]; exact h.talkers) h.waiting
  · exact h

theorem Keeps.orderLineConfig (h : Keeps AllLines n s t) (h1 : 2 ≤ n) (l : Nat) (a b c : Option Nat) :
    Keeps AllLines n s (orderLineConfig l a b c t).2 := by
  unfold Machine.orderLineConfig
  dsimp only
  split
  · exact h
  · split
    · exact h
    · rename_i hl hargs
      simp only [Bool.or_eq_true, Bool.not_eq_true', not_or, Bool.not_eq_false] at hargs
      obtain ⟨⟨ha, _⟩, hc⟩ := hargs
      have hturn : LineOk (t.line l) → 1 ≤ c.getD (t.line l).turn ∧ c.getD (t.line l).turn ≤ 30 := fun ho => by
        cases c with
        | none => exact ho.turn
        | some x => simpa [presentOk] using hc
      refine Keeps.line ?_ l (fun ho => retime_ok _ _ ho) fun _ => by omega
      split
      · rename_i hsome
        have hlim : 1 ≤ a.getD (t.line l).limit ∧ a.getD (t.line l).limit ≤ 8 := by
          cases a with
          | none => cases hsome
          | some x => simpa [presentOk] using ha
        refine h.trans (Keeps.applyLimit (Keeps.line (Keeps.refl n t) l (fun _ z => absurd rfl z) fun _ => by omega) ?_)
        intro ho
        refine ⟨?_, by omega⟩
        rw [line_putLine (by omega)]
        exact { few := ho.few, once := ho.once, rights := ho.rights, limit := hlim, turn := hturn ho
                talkers := Nat.zero_le _, waiting := Nat.zero_le _ }
      · rename_i hnone
        have ea : a.getD (t.line l).limit = (t.line l).limit := by
          cases a with
          | none => rfl
          | some x => exact absurd rfl hnone
        refine Keeps.line h l (fun ho => ?_) fun _ => by omega
        rw [ea]
        exact { few := ho.few, once := ho.once, rights := ho.rights, limit := ho.limit, turn := hturn ho
                talkers := ho.talkers, waiting := ho.waiting }

theorem setMember_ok {r : Line} {st : Nat} {a b : Bool} {x : Option Nat} (h : LineOk r) (hst : st < 89)
    (hroom : memberOf r st = none → (a || b) = true → r.members.length < 32) : LineOk { r with
      members := setMember st
        (if (a || b) = true then some { station := st, talk := a, listen := b, slot := x } else none) r.members } := by
  have hm : ∀ ms : List LineMember, ms.length ≤ 32 → (ms.map (·.station)).Nodup →
      (∀ m ∈ ms, m.station < 89 ∧ (m.talk || m.listen) = true) → LineOk { r with members := ms } := fun ms p q w =>
    { few := p, once := q, rights := w, limit := h.limit, turn := h.turn, talkers := h.talkers, waiting := h.waiting }
  split
  · rename_i hab
    unfold setMember
    dsimp only
    split
    · refine hm _ (by rw [List.length_map]; exact h.few) ?_ ?_
      · have e : (r.members.map fun y => if y.station = st then
            ({ station := st, talk := a, listen := b, slot := x } : LineMember) else y).map (·.station)
            = r.members.map (·.station) := by
          rw [List.map_map]
          refine List.map_congr_left fun y _ => ?_
          simp only [Function.comp]
          split
          · rename_i e; exact e.symm
          · rfl
        rw [e]
        exact h.once
      · intro m hmem
        obtain ⟨y, hy, rfl⟩ := List.mem_map.1 hmem
        split
        · exact ⟨hst, hab⟩
        · exact h.rights y hy
    · rename_i hany
      have hnone : memberOf r st = none := by
        unfold memberOf
        rw [List.find?_eq_none]
        intro y hy hp
        exact hany (List.any_eq_true.2 ⟨y, hy, hp⟩)
      have := hroom hnone hab
      refine hm _ (by simp only [List.length_append, List.length_singleton]; omega) ?_ ?_
      · simp only [List.map_append, List.map_cons, List.map_nil]
        refine List.nodup_append.2 ⟨h.once, by simp, ?_⟩
        intro y hy z hz
        rw [List.mem_singleton.1 hz]
        rintro rfl
        obtain ⟨w, hw, e⟩ := List.mem_map.1 hy
        exact hany (List.any_eq_true.2 ⟨w, hw, by simp [e]⟩)
      · intro m hmem
        rcases List.mem_append.1 hmem with hmem | hmem
        · exact h.rights m hmem
        · rw [List.mem_singleton.1 hmem]
          exact ⟨hst, hab⟩
  · refine hm _ (Nat.le_trans (List.length_filter_le _ _) h.few) (h.once.sublist (List.filter_sublist.map _)) ?_
    exact fun m hmem => h.rights m (List.mem_filter.1 hmem).1

theorem Keeps.writeRights (h : Keeps AllLines n s t) (h1 : 2 ≤ n) (l st : Nat) (a b : Bool) (o : Option LineMember)
    (x : Option Nat) (hst : st < 89)
    (hroom : memberOf (t.line l) st = none → (a || b) = true → (t.line l).members.length < 32) :
    Keeps AllLines n s (writeRights l st a b o x t) := by
  have hs : ∀ m u, Keeps AllLines m u t →
      Keeps AllLines m u (if (listensOf o && !b) = true then Machine.leaveSlot l (slotIn o) t else t) := by
    intro m u hu
    split
    · exact hu.leaveSlot _ _
    · exact hu
  have hf : ∀ m u, Keeps AllLines m u t → Keeps AllLines m u
      (if (talksOf o && !a) = true then
        (lineKeys (if (listensOf o && !b) = true then Machine.leaveSlot l (slotIn o) t else t) l st).foldl
          (fun s k => Machine.forcedEnd { station := st, key := k } s)
          (if (listensOf o && !b) = true then Machine.leaveSlot l (slotIn o) t else t)
        else (if (listensOf o && !b) = true then Machine.leaveSlot l (slotIn o) t else t)) := by
    intro m u hu
    split
    · exact Keeps.foldl _ _ (fun _ k hk => hk.forcedEnd _) (hs m u hu)
    · exact hs m u hu
  unfold Machine.writeRights
  have same := ((hf 0 t (Keeps.refl 0 t)).same (by omega)).lines l
  have hn := hf n s h
  dsimp only
  generalize (if (talksOf o && !a) = true then _ else _ : State) = u at same hn ⊢
  have hmem : (u.line l).members = (t.line l).members := by
    have e := congrArg Line.members same
    exact e
  refine Keeps.line hn l (fun ho => setMember_ok ho hst ?_) fun _ => by omega
  unfold memberOf at hroom ⊢
  rw [hmem]
  exact hroom

theorem Keeps.joinFor {P : Nat → Line → Prop} (h : Keeps P n s t) (b : Bool) (d : Nat) {l : Nat} (hl : l < 32) :
    Keeps P n s (joinFor b d l t).2 := by
  unfold Machine.joinFor
  split
  · exact h.claimJoin _ hl
  · exact h

theorem Keeps.setRights (h : Keeps AllLines n s t) (h1 : 2 ≤ n) (b : Bool) (l st r : Nat) : Keeps AllLines n s (setRights b l st r t).2 := by
  unfold Machine.setRights
  split
  · exact h
  dsimp only
  split
  · exact h
  rename_i hrange
  split
  · exact h
  split
  · exact h
  split
  · exact h
  rename_i hfull
  split
  · exact h
  split
  · exact h
  have hj : ∀ b d, ((Machine.joinFor b d l t).2.line l) = t.line l := fun b d =>
    lines_of ((Keeps.refl 3 t).joinFor b d (by omega)) l
  refine (h.joinFor _ _ (by omega)).writeRights h1 l st _ _ _ _ (by omega) ?_
  rw [hj]
  intro hnone _
  simp only [hnone, Option.isNone_none, Bool.true_and, decide_eq_true_eq] at hfull
  omega

theorem Keeps.orderLineMember (h : Keeps AllLines n s t) (h1 : 2 ≤ n) (l st r : Nat) : Keeps AllLines n s (orderLineMember l st r t).2 := by
  unfold Machine.orderLineMember
  exact Keeps.setRights h h1 false l st r

theorem Keeps.orderDeskConfig (h : Keeps AllLines n s t) (h1 : 2 ≤ n) (src : Nat) : Keeps AllLines n s (orderDeskConfig src t).2 := by
  unfold Machine.orderDeskConfig
  split
  · exact Keeps.arb h _ (fun _ => id) (fun _ => id) (fun _ => by omega) (fun _ => by omega) (fun _ => by omega)
  · exact h

theorem Keeps.orderSysTimes (h : Keeps AllLines n s t) (h1 : 2 ≤ n) (a b : Option Nat) : Keeps AllLines n s (orderSysTimes a b t).2 := by
  unfold Machine.orderSysTimes
  split
  · exact h
  · have h2 := Keeps.arb h { t.arb with smart := a.getD t.arb.smart } (fun _ => id) (fun _ => id) (fun _ => by omega)
      (fun _ => by omega) (fun _ => by omega)
    exact Keeps.callSet h2 h1 { t.call with timeout := b.getD t.call.timeout } rfl

theorem Keeps.turnOver (h : Keeps AllLines n s t) (l : Nat) {a b : KeyId} (ha : a ∈ (t.line l).talkers.map (·.key))
    (hb : b ∈ (t.line l).waiting) : Keeps AllLines n s (turnOver l a b t) := by
  have h1 : Keeps (OtherLines l) n t (Machine.putLine l { t.line l with
      talkers := (t.line l).talkers.filter (·.key != a)
      waiting := waitBack t a ((t.line l).waiting.filter (· != b)) } t) :=
    Keeps.line (Keeps.refl n t) l fun _ z => absurd rfl z
  refine h.trans (Keeps.withLine (l := l) (Keeps.joinTalkers (Keeps.putKey h1 _ _) l b _ fun _ z => absurd rfl z)
    fun ho => ?_)
  have hl := lineOk_lt (t := t) ho
  have ht := without_length ha
  have hw : ((t.line l).waiting.filter (· != b)).length + 1 ≤ (t.line l).waiting.length :=
    List.length_filter_lt_length_iff_exists.2 ⟨b, hb, by simp⟩
  refine (show LineOk (State.line _ l) from ?_)
  unfold Machine.turnOver
  dsimp only
  rw [line_joinTalkers hl, lines_of (Keeps.putKey (Keeps.refl 3 _) _ _) l, line_putLine hl]
  have h2 : (t.line l).talkers.length ≤ (t.line l).limit := ho.talkers
  have h3 : (t.line l).waiting.length ≤ 16 := ho.waiting
  refine line_lists (r := t.line l) ho rfl rfl rfl ?_ ?_
  · simp only [List.length_append, List.length_singleton]
    omega
  · dsimp only
    rw [waitBack_length]
    omega

theorem Keeps.restartTurn (h : Keeps AllLines n s t) (l : Nat) (k : KeyId) : Keeps AllLines n s (restartTurn l k t) := by
  unfold Machine.restartTurn
  refine Keeps.line h l fun ho => line_lists ho rfl rfl rfl ?_ ho.waiting
  rw [List.length_map]
  exact ho.talkers

theorem Keeps.turnExpired (h : Keeps AllLines n s t) (l : Nat) (k : KeyId) : Keeps AllLines n s (turnExpired l k t) := by
  unfold Machine.turnExpired
  dsimp only
  split
  · rename_i hnext hold
    exact (h.turnOver l (List.mem_of_find?_eq_some hold) (List.mem_of_find?_eq_some hnext)).restartTurn l k
  · exact h.restartTurn l k

/-! ### Calls, cadences and control lines -/

theorem Keeps.orderCallSend (h : Keeps AllLines n s t) (k : Nat) : Keeps AllLines n s (orderCallSend k t).2 := by
  unfold Machine.orderCallSend
  split
  · exact h
  · exact h.takeCall 88 k

theorem Keeps.orderCallClear (h : Keeps AllLines n s t) (st : Nat) (b : Bool) (c : Nat) :
    Keeps AllLines n s (orderCallClear st b c t).2 := by
  unfold Machine.orderCallClear
  dsimp only
  split
  · exact h
  · exact Keeps.foldl _ _ (fun _ c hc => hc.removeCall st c) h

theorem Keeps.orderCadenceSet (h : Keeps AllLines n s t) (h1 : 2 ≤ n) (g : Nat) (b : Bool) (x y : Nat) :
    Keeps AllLines n s (orderCadenceSet g b x y t).2 := by
  unfold Machine.orderCadenceSet
  dsimp only
  repeat' split
  all_goals with_reducible first
    | exact h
    | skip
  all_goals exact Keeps.callSet h h1 _ rfl

theorem Keeps.putInput (h : Keeps AllLines n s t) (h1 : 2 ≤ n) (i : Nat) (c : ControlIn) : Keeps AllLines n s (putInput i c t) :=
  Keeps.callSet h h1 _ rfl

theorem Keeps.inputEdge (h : Keeps AllLines n s t) (h1 : 2 ≤ n) (i : Nat) (b : Bool) : Keeps AllLines n s (inputEdge i b t) := by
  unfold Machine.inputEdge
  dsimp only
  split
  · exact h
  · exact h.keyEvent b _
  · split
    · exact h.cutChannel _
    · exact h
  · split
    · exact h.startChannel _
    · exact h
  · refine Keeps.handEmergency ?_
    split
    · exact h
    · split
      · exact h.putInput h1 i _
      · exact h
  · split
    · exact h.raised _ _
    · exact h

theorem Keeps.inputChange (h : Keeps AllLines n s t) (h1 : 2 ≤ n) (i : Nat) (b : Bool) : Keeps AllLines n s (inputChange i b t) := by
  unfold Machine.inputChange
  dsimp only
  split
  · exact h
  · split
    · exact Keeps.reports (Keeps.inputEdge (Keeps.putInput h h1 i _) h1 i _) _
    · exact Keeps.inputEdge (Keeps.putInput h h1 i _) h1 i _

theorem Keeps.unbindInput (h : Keeps AllLines n s t) (h1 : 2 ≤ n) (i : Nat) : Keeps AllLines n s (unbindInput i t) := by
  unfold Machine.unbindInput
  dsimp only
  have h2 := h.putInput h1 i { t.input i with function := .none, latch := false }
  split
  · split
    · exact h2.keyEvent false _
    · exact h2
  · exact h2.handEmergency
  · exact h2

theorem Keeps.bindInput (h : Keeps AllLines n s t) {cut : Nat → State → State}
    (hc : ∀ c {t}, Keeps AllLines n s t → Keeps AllLines n s (cut c t)) (i : Nat) :
    Keeps AllLines n s (bindInput cut i t) := by
  unfold Machine.bindInput
  dsimp only
  split
  · split
    · exact h.keyEvent true _
    · exact h
  · split
    · exact hc _ h
    · exact h
  · split
    · exact h.startChannel _
    · exact h
  · exact h.handEmergency
  · exact h

theorem Keeps.orderCiBindBy (h : Keeps AllLines n s t) (h1 : 2 ≤ n) {cut : Nat → State → State}
    (hc : ∀ c {t}, Keeps AllLines n s t → Keeps AllLines n s (cut c t)) (i f a x y : Nat) :
    Keeps AllLines n s (orderCiBindBy cut i f a x y t).2 := by
  unfold Machine.orderCiBindBy
  split
  · exact h
  · split
    · split
      · exact Keeps.bindInput (Keeps.putInput (Keeps.unbindInput h h1 i) h1 i _) hc i
      · exact h
    · exact h

theorem Keeps.orderCiBind (h : Keeps AllLines n s t) (h1 : 2 ≤ n) (i f a x y : Nat) :
    Keeps AllLines n s (orderCiBind i f a x y t).2 :=
  h.orderCiBindBy h1 (fun c _ hu => hu.cutChannel c) i f a x y

theorem Keeps.orderCoBind (h : Keeps AllLines n s t) (h1 : 2 ≤ n) (o f a d g x : Nat) :
    Keeps AllLines n s (orderCoBind o f a d g x t).2 := by
  unfold Machine.orderCoBind
  split
  · exact h
  · split
    · exact Keeps.callSet h h1 _ rfl
    · exact h

end Sys2Proof.Laws
end

