-- ==== Sys2Proof/Laws/Blocks.lean ====
section
/-!
SUPPORT. Loops, links, streams, the recall engine and the mixer keep every block.
-/
set_option Elab.async false

namespace Sys2Proof.Laws

open Machine Sys2Proof.Inv

variable {n : Nat} {s t : State}

/-! ### Panel loops -/

theorem Keeps.sendPoll (h : Keeps AllLines n s t) (h1 : 2 ≤ n) (l a : Nat) : Keeps AllLines n s (sendPoll l a t) := by
  unfold Machine.sendPoll
  dsimp only
  have h2 := Keeps.panel (Keeps.sent (Keeps.loop h h1 l
    { t.loop l with position := some a, polls := satAdd max16 (t.loop l).polls 1, inHand := true })
    (.poll l a (t.panel (16 * l + a)).lastSeq (!(t.panel (16 * l + a)).lampKeys.isEmpty)
      (t.call.gens.toList.map (·.phaseOn)))) (16 * l + a)
    (p := (t.panel (16 * l + a)).mapLamps fun k c => { c with carried := (t.panel (16 * l + a)).lampKeys.contains k })
    (fun ho => by
      obtain ⟨m, x, y, e⟩ := putLoop_changes l
        { t.loop l with position := some a, polls := satAdd max16 (t.loop l).polls 1, inHand := true } t
      rw [e] at ho
      exact ⟨ho.missed, ho.keys, ho.range, ho.ack⟩) fun _ => by omega
  split
  · exact h2
  · exact h2.sent _

theorem Keeps.endTransaction (h : Keeps AllLines n s t) (h1 : 2 ≤ n) (l : Nat) : Keeps AllLines n s (endTransaction l t) :=
  h.loop h1 l _

theorem Keeps.setPanel (h : Keeps AllLines n s t) (h1 : 2 ≤ n) (l a : Nat) {p : Panel} (r : PresenceReason)
    (ho : PanelOk (t.panel (16 * l + a)) → PanelOk p) : Keeps AllLines n s (setPanel l a p r t) := by
  have h2 : Keeps AllLines n s (putPanel (16 * l + a) p t) := Keeps.panel h _ ho fun _ => by omega
  unfold Machine.setPanel
  dsimp only
  split
  · exact h2
  · exact h2.raised _ _

/-- The record of a panel that has been written (no record where there is none). -/
theorem panel_setPanel (l a : Nat) (p : Panel) (r : PresenceReason) (t : State) :
    (setPanel l a p r t).panel (16 * l + a) = if 16 * l + a < 64 then p else default := by
  have hp : (putPanel (16 * l + a) p t).panel (16 * l + a) = if 16 * l + a < 64 then p else default := by
    obtain ⟨m, x, y, e⟩ := putPanel_changes (16 * l + a) p t
    rw [e]
    show tget (tset t.panels (16 * l + a) p) (16 * l + a) = _
    split
    · rename_i hlt
      rw [tget_tset, if_pos ⟨rfl, hlt⟩]
    · rename_i hge
      simp [tget, hge]
  unfold setPanel
  dsimp only
  split
  · exact hp
  · obtain ⟨v, x, y, e, _⟩ := raiseEvent_changes (3 + l) (u8 a ++ u8 (t.panel (16 * l + a)).presence.ctorIdx
      ++ u8 p.presence.ctorIdx ++ u8 r.ctorIdx) (putPanel (16 * l + a) p t)
    rw [e]
    exact hp

theorem Keeps.releasePanel (h : Keeps AllLines n s t) (l a : Nat) : Keeps AllLines n s (releasePanel l a t) := h.releaseKeys _ _

theorem nextMiss_le (k : Nat) : nextMiss k ≤ 8 := by
  unfold nextMiss
  split <;> omega

theorem Keeps.missPanel (h : Keeps AllLines n s t) (h1 : 2 ≤ n) (l a : Nat) : Keeps AllLines n s (missPanel l a t) := by
  unfold Machine.missPanel
  dsimp only
  have h2 : Keeps AllLines n s (putPanel (16 * l + a)
      { t.panel (16 * l + a) with missed := nextMiss (t.panel (16 * l + a)).missed } t) :=
    Keeps.panel h _ (fun ho => ⟨nextMiss_le _, ho.keys, ho.range, ho.ack⟩) fun _ => by omega
  split
  · exact h2.setPanel h1 l a _ fun ho => ⟨ho.missed, ho.keys, ho.range, fun z => by rcases z with z | z <;> cases z⟩
  · split
    · exact (h2.releasePanel l a).setPanel h1 l a _ fun ho => ⟨ho.missed, ho.keys, ho.range, fun _ => rfl⟩
    · exact h2

theorem Keeps.missPoll (h : Keeps AllLines n s t) (h1 : 2 ≤ n) (l a : Nat) : Keeps AllLines n s (missPoll l a t) := by
  unfold Machine.missPoll
  exact Keeps.missPanel (Keeps.loop (Keeps.endTransaction h h1 l) h1 l _) h1 l a

theorem Keeps.countStray (h : Keeps AllLines n s t) (h1 : 2 ≤ n) (l : Nat) : Keeps AllLines n s (countStray l t) := by
  unfold Machine.countStray
  split
  · exact h.loop h1 l _
  · exact h

theorem Keeps.countBad (h : Keeps AllLines n s t) (h1 : 2 ≤ n) (l : Nat) : Keeps AllLines n s (countBad l t) := by
  unfold Machine.countBad
  split
  · exact h.loop h1 l _
  · exact h

theorem Keeps.answerHello (h : Keeps AllLines n s t) (h1 : 2 ≤ n) (l a k c : Nat) (r : PresenceReason) :
    Keeps AllLines n s (answerHello l a k c r t) :=
  h.setPanel h1 l a r fun ho =>
    ⟨Nat.zero_le _, ho.keys, ho.range, fun z => by rcases z with z | z <;> cases z⟩

theorem Keeps.takeHello (h : Keeps AllLines n s t) (h1 : 2 ≤ n) (l k c : Nat) : Keeps AllLines n s (takeHello l k c t) := by
  unfold Machine.takeHello
  split
  · exact h.countBad h1 l
  · split
    · exact h.countStray h1 l
    · rename_i a _
      have h2 := h.endTransaction h1 l
      dsimp only
      split
      · exact (h2.releasePanel l a).answerHello h1 l a k c _
      · exact (h2.releasePanel l a).answerHello h1 l a k c _
      · exact h2.answerHello h1 l a k c _

theorem Keeps.acceptAnswer (h : Keeps AllLines n s t) (h1 : 2 ≤ n) (l a : Nat) :
    Keeps AllLines n s (acceptAnswer l a t) :=
  h.setPanel h1 l a _ fun ho => ⟨Nat.zero_le _, ho.keys, ho.range, fun z => by rcases z with z | z <;> cases z⟩

theorem Keeps.takeChanges (h : Keeps AllLines n s t) (h1 : 2 ≤ n) (l a : Nat) (cs : List (Nat × Bool)) :
    Keeps AllLines n s (takeChanges l a cs t) := by
  induction cs generalizing t with
  | nil => exact h
  | cons x cs ih =>
    unfold Machine.takeChanges
    refine ih ?_
    split
    · exact h.keyEvent _ _
    · exact Keeps.panel h _ (fun ho => ⟨ho.missed, ho.keys, satAdd_le _ _ _, ho.ack⟩) fun _ => by omega

/-- A Report's sequence is taken of a panel that has answered. -/
theorem Keeps.takeReportSeq (h : Keeps AllLines n s t) (h1 : 2 ≤ n) (l a q : Nat) (cs : List (Nat × Bool))
    (hp : 16 * l + a < 64 → (t.panel (16 * l + a)).presence = .present) :
    Keeps AllLines n s (takeReportSeq l a q cs t) := by
  unfold Machine.takeReportSeq
  dsimp only
  split
  · exact h
  · have h2 : Keeps AllLines n s (putPanel (16 * l + a) { t.panel (16 * l + a) with lastSeq := some q } t) := by
      refine Keeps.panel h _ (fun ho => ?_) fun _ => by omega
      have ho : PanelOk (t.panel (16 * l + a)) := ho
      refine ⟨ho.missed, ho.keys, ho.range, fun z => ?_⟩
      have z : (t.panel (16 * l + a)).presence = .unconfigured ∨ (t.panel (16 * l + a)).presence = .absent := z
      by_cases hlt : 16 * l + a < 64
      · rw [hp hlt] at z
        rcases z with z | z <;> cases z
      · have e : t.panel (16 * l + a) = default := by
          show tget t.panels _ = default
          simp [tget, hlt]
        rw [e] at ho
        exact absurd ho.keys.1 (by decide)
    exact h2.takeChanges h1 l a cs

theorem Keeps.takeAnswer (h : Keeps AllLines n s t) (h1 : 2 ≤ n) (l : Nat) (r : Option (Nat × List (Nat × Bool))) :
    Keeps AllLines n s (takeAnswer l r t) := by
  unfold Machine.takeAnswer
  split
  · exact h.countStray h1 l
  · rename_i a _
    split
    · exact h.missPoll h1 l a
    · have h2 := (h.endTransaction h1 l).acceptAnswer h1 l a
      dsimp only
      split
      · exact h2
      · refine h2.takeReportSeq h1 l a _ _ fun hlt => ?_
        unfold Machine.acceptAnswer
        dsimp only
        rw [panel_setPanel, if_pos hlt]
        rfl

theorem config_panel {m p c : Nat} {r : Panel} (f : Nat → LampCell → LampCell)
    (hc : ¬(!localOk m || !localOk p || c == 0 || decide (24 < c)) = true) (ho : PanelOk r) :
    PanelOk (if r.presence = .unconfigured then
      { Panel.mapLamps f { r with mic := noneByte m, speaker := noneByte p, keyCount := c } with
        presence := .absent, missed := 8, lastSeq := none, reported := none, outOfRange := 0 }
      else Panel.mapLamps f { r with mic := noneByte m, speaker := noneByte p, keyCount := c }) := by
  simp only [Bool.or_eq_true, Bool.not_eq_true', beq_iff_eq, decide_eq_true_eq, not_or] at hc
  have hk : 1 ≤ c ∧ c ≤ 24 := by omega
  split
  · exact ⟨Nat.le_refl _, hk, Nat.zero_le _, fun _ => rfl⟩
  · exact ⟨ho.missed, hk, ho.range, ho.ack⟩

theorem Keeps.orderPanelConfig (h : Keeps AllLines n s t) (h1 : 2 ≤ n) (l a m p c : Nat) :
    Keeps AllLines n s (orderPanelConfig l a m p c t).2 := by
  unfold Machine.orderPanelConfig
  split
  · exact h
  · dsimp only
    split
    · exact h
    · rename_i hc
      exact h.setPanel h1 l a _ (config_panel _ hc)

theorem Keeps.forgetPanel (h : Keeps AllLines n s t) (h1 : 2 ≤ n) (l a : Nat) : Keeps AllLines n s (forgetPanel l a t) := h.loop h1 l _

theorem Keeps.orderPanelConfigClear (h : Keeps AllLines n s t) (h1 : 2 ≤ n) (l a : Nat) :
    Keeps AllLines n s (orderPanelConfigClear l a t).2 := by
  unfold Machine.orderPanelConfigClear
  split
  · exact h
  · dsimp only
    split
    · exact h
    · refine Keeps.forgetPanel (Keeps.setPanel ?_ h1 l a _ fun _ =>
        ⟨Nat.zero_le _, ⟨(by decide : 1 ≤ 24), Nat.le_refl 24⟩, Nat.zero_le _, fun _ => rfl⟩) h1 l a
      split
      · exact h.releasePanel l a
      · exact h

theorem Keeps.disablePanel (h : Keeps AllLines n s t) (h1 : 2 ≤ n) (l a : Nat) : Keeps AllLines n s (disablePanel l a t) := by
  unfold Machine.disablePanel
  split
  · exact (h.releasePanel l a).setPanel h1 l a _ fun ho => ⟨Nat.le_refl _, ho.keys, ho.range, fun _ => rfl⟩
  · exact h

theorem Keeps.orderLoopConfig (h : Keeps AllLines n s t) (h1 : 2 ≤ n) (l : Nat) (b : Bool) (r : Option Nat) :
    Keeps AllLines n s (orderLoopConfig l b r t).2 := by
  unfold Machine.orderLoopConfig
  split
  · exact h
  · split
    · exact h
    · dsimp only
      split
      · exact h.loop h1 l _
      · split
        · exact h.loop h1 l _
        · exact Keeps.forEach _ _ (fun _ a ha => ha.disablePanel h1 l a) (h.loop h1 l _)

/-! ### Field links -/

theorem Keeps.strayOn (h : Keeps AllLines n s t) (p : Port) (k : Nat) : Keeps AllLines n s (strayOn p k t) := by
  unfold Machine.strayOn
  split
  · exact h.countLink k _
  · split
    · exact h.stray _ t.strayAlt
    · exact h.stray t.strayMain _

/-- A message is taken only for a session, so the link is not Vacant where its record is as R129 leaves it. -/
theorem forSession_busy {e : Envelope} (hf : forSession t e = true) (ho : LinkOk (tget t.links e.link)) :
    (tget t.links e.link).session ≠ .vacant := by
  intro hv
  simp only [forSession, Bool.and_eq_true, beq_iff_eq] at hf
  have := (ho hv).1
  rw [show (t.link e.link).unit = none from this] at hf
  simp at hf

theorem setPath_session (l : Link) (p : Port) (a : Nat) : (l.setPath p a).session = l.session := by
  cases p <;> rfl

theorem setPath_settings (l : Link) (p : Port) (a : Nat) : linkSettings (l.setPath p a) = linkSettings l := by
  cases p <;> rfl

theorem Keeps.takeEnvelope (h : Keeps AllLines n s t) {e : Envelope} (hf : forSession t e = true) :
    Keeps AllLines n s (takeEnvelope e t) := by
  unfold Machine.takeEnvelope
  refine Keeps.link h e.link ?_ (fun _ => setPath_settings _ _ _)
  intro ho hv
  exact absurd ((setPath_session _ _ _).symm.trans hv) (forSession_busy hf ho)

theorem Keeps.takeKeys (h : Keeps AllLines n s t) (k : Nat) (x : KeyStates) : Keeps AllLines n s (takeKeys k x t) := by
  unfold Machine.takeKeys
  refine Keeps.foldl _ _ (fun _ i hi => hi.keyEvent _ _) (Keeps.link h k ?_)
  exact id

theorem Keeps.takeAudioKeys (h : Keeps AllLines n s t) (k q : Nat) (x : KeyStates) : Keeps AllLines n s (takeAudioKeys k q x t) := by
  unfold Machine.takeAudioKeys
  dsimp only
  split
  · refine Keeps.takeKeys (Keeps.link h k ?_) k x
    exact id
  · exact h

theorem Keeps.takeAudio (h : Keeps AllLines n s t) (k q : Nat) (x : KeyStates) (f : Frame)
    : Keeps AllLines n s (takeAudio k q x f t) := by
  unfold Machine.takeAudio
  dsimp only
  split
  · rename_i hn
    have h2 : Keeps AllLines n s (Machine.goLive k .firstAudio (Machine.takeAudioKeys k q x (Machine.payloadArrives k f
        (Machine.putLink k { t.link k with timers := { (t.link k).timers with negotiation := none } } t)))) := by
      refine Keeps.goLive (Keeps.takeAudioKeys (Keeps.payloadArrives (Keeps.link h k ?_) k f) k q x) k _
      intro _ hv
      rw [show (t.link k).session = .vacant from hv] at hn
      cases hn
    split
    · exact h2.goResting k _ _
    · exact h2
  · exact (h.payloadArrives k f).takeAudioKeys k q x
  · exact (h.payloadArrives k f).takeAudioKeys k q x
  · rename_i hn
    refine Keeps.goLive (Keeps.takeAudioKeys (Keeps.payloadArrives (Keeps.link h k ?_) k f) k q x) k _
    intro _ hv
    rw [show (t.link k).session = .vacant from hv] at hn
    cases hn
  · split
    · exact ((h.goLive k _).payloadArrives k f).takeAudioKeys k q x
    · exact ((h.goLive k _).payloadArrives k f).takeAudioKeys k q x
    · have h2 := (h.countLink k [.paused]).takeAudioKeys k q x
      split
      · exact h2.sendRest k
      · exact h2
    · exact h.takeAudioKeys k q x
  · exact h

theorem Keeps.closeSession (h : Keeps AllLines n s t) (k : Nat) (b : Bool) : Keeps AllLines n s (closeSession k b t) := by
  unfold Machine.closeSession
  dsimp only
  have h2 := (h.releaseKeys (64 + k) 4).stopJitter k
  have h3 : Keeps AllLines n s (if ((Machine.stopJitter k (Machine.releaseKeys (64 + k) 4 t)).link k).session = .live then
      claimCause k (some .notLive) (Machine.stopJitter k (Machine.releaseKeys (64 + k) 4 t)) else
      Machine.stopJitter k (Machine.releaseKeys (64 + k) 4 t)) := by
    split
    · exact h2.cause _ _
    · exact h2
  generalize (if ((Machine.stopJitter k (Machine.releaseKeys (64 + k) 4 t)).link k).session = .live then
      claimCause k (some .notLive) (Machine.stopJitter k (Machine.releaseKeys (64 + k) 4 t)) else
      Machine.stopJitter k (Machine.releaseKeys (64 + k) 4 t)) = u at h3 ⊢
  refine Keeps.link h3 k ?_
  exact fun _ _ => ⟨rfl, rfl, rfl, rfl, rfl, rfl⟩

theorem Keeps.endSession (h : Keeps AllLines n s t) (k : Nat) (r : LinkReason) (b : Bool) : Keeps AllLines n s (endSession k r b t) :=
  (h.closeSession k b).linkEvent _ _ _ _ _

theorem Keeps.instantReport (h : Keeps AllLines n s t) (k : Nat) (b : Bool) : Keeps AllLines n s (instantReport k b t) := by
  unfold Machine.instantReport
  dsimp only
  split
  · split
    · exact (h.goLive k _).goResting k _ _
    · exact h.goLive k _
  · split
    · split
      · exact (h.goFading k).endSession k _ _
      · exact h.goFading k
    · exact h

theorem Keeps.refuseOffer (h : Keeps AllLines n s t) (p : Port) (a : Nat) (m : OfferMsg) (r : RefuseReason) (l : Option Nat) :
    Keeps AllLines n s (refuseOffer p a m r l t) := (h.sent _).raised _ _

theorem chooseFormat_duration {l : Link} {f : List Codec × List Nat} {x : Codec × Nat}
    (h : chooseFormat l f = some x) : x.2 = 2 ∨ x.2 = 4 ∨ x.2 = 8 := by
  unfold chooseFormat at h
  split at h
  · rename_i d _ hd
    cases h
    have := List.mem_of_find?_eq_some hd
    simpa using this
  · cases h

theorem Keeps.acceptOffer (h : Keeps AllLines n s t) (p : Port) (a : Nat) (m : OfferMsg) (x : OfferedProfile)
    {f : Codec × Nat} (hf : f.2 = 2 ∨ f.2 = 4 ∨ f.2 = 8) (k : Nat) (o : Session) (r : LinkReason) : Keeps AllLines n s (acceptOffer p a m x f k o r t) := by
  unfold Machine.acceptOffer
  dsimp only
  refine Keeps.linkEvent (Keeps.sent (Keeps.link (Keeps.jit (Keeps.returns h _) k (accept_ok hf)) k ?_ ?_) _) _ _ _ _ _
  · intro _ hv
    cases p <;> cases hv
  · intro _
    cases p <;> rfl

theorem Keeps.takeCopy (h : Keeps AllLines n s t) (p : Port) (a k : Nat) : Keeps AllLines n s (takeCopy p a k t) := by
  unfold Machine.takeCopy
  dsimp only
  split
  · rename_i hn _ _
    refine Keeps.sent (Keeps.link h k ?_ ?_) _
    · intro _ hv
      rw [show (t.link k).session = .vacant from (setPath_session _ _ _).symm.trans hv] at hn
      cases hn
    · exact fun _ => setPath_settings (t.link k) p a
  · exact h.strayOn p k

theorem Keeps.takeRestart (h : Keeps AllLines n s t) (p : Port) (a : Nat) (m : OfferMsg)
    (f : List Codec × List Nat) (x : OfferedProfile) (k : Nat) : Keeps AllLines n s (takeRestart p a m f x k t) := by
  unfold Machine.takeRestart
  dsimp only
  split
  · rename_i hf
    exact (h.closeSession k _).acceptOffer _ _ _ _ (chooseFormat_duration hf) _ _ _
  · exact ((h.closeSession k _).linkEvent _ _ _ _ _).refuseOffer _ _ _ _ _

theorem Keeps.placeOffer (h : Keeps AllLines n s t) (p : Port) (a : Nat) (m : OfferMsg)
    (f : List Codec × List Nat) (x : OfferedProfile) : Keeps AllLines n s (placeOffer p a m f x t) := by
  unfold Machine.placeOffer
  split
  · exact h.refuseOffer _ _ _ _ _
  · split
    · exact h.refuseOffer _ _ _ _ _
    · split
      · exact h.refuseOffer _ _ _ _ _
      · rename_i hf
        exact h.acceptOffer _ _ _ _ (chooseFormat_duration hf) _ _ _

theorem Keeps.takeOffer (h : Keeps AllLines n s t) (p : Port) (a : Nat) (m : OfferMsg) :
    Keeps AllLines n s (takeOffer p a m t) := by
  unfold Machine.takeOffer
  split
  · exact h.refuseOffer _ _ _ _ _
  · split
    · split
      · exact h.takeCopy _ _ _
      · exact h.takeRestart _ _ _ _ _ _
    · exact h.placeOffer _ _ _ _ _

/-! ### Orders of links and streams -/

theorem Keeps.orderLinkConfig (h : Keeps AllLines n s t) (h1 : 2 ≤ n) (k : Nat) (a : Option Nat) (b : Option (List Nat))
    (c d e f g i : Option Nat) : Keeps AllLines n s (orderLinkConfig k a b c d e f g i t).2 := by
  unfold Machine.orderLinkConfig
  split
  · exact h
  · split
    · exact h
    · refine Keeps.link h k ?_ fun _ => by omega
      exact fun ho hv => ho hv

theorem Keeps.dutyActs (h : Keeps AllLines n s t) (k : Nat) : Keeps AllLines n s (dutyActs k t) := by
  unfold Machine.dutyActs
  dsimp only
  split
  · exact h.enterClosing k _
  · exact h.enterClosing k _
  · exact h.enterClosing k _
  · exact h.enterClosing k _
  · exact h.enterClosing k _
  · exact h.goResting k _ _
  · exact h.goResting k _ _
  · exact h.restingCheck k _
  · exact h.restingCheck k _
  · exact h.restingCheck k _
  · rename_i hn
    refine Keeps.link h k ?_
    intro _ hv
    rw [show (t.link k).session = .vacant from hv] at hn
    cases hn
  · rename_i hn
    refine Keeps.link h k ?_
    intro _ hv
    rw [show (t.link k).session = .vacant from hv] at hn
    cases hn
  · rename_i hn
    refine Keeps.link h k ?_
    intro _ hv
    rw [show (t.link k).session = .vacant from hv] at hn
    cases hn
  · exact h

theorem Keeps.orderLinkDuty (h : Keeps AllLines n s t) (h1 : 2 ≤ n) (k m : Nat) : Keeps AllLines n s (orderLinkDuty k m t).2 := by
  unfold Machine.orderLinkDuty
  split
  · exact h
  · split
    · exact h
    · dsimp only
      split
      · exact h
      · refine Keeps.dutyActs (Keeps.link h k ?_ fun _ => by omega) k
        exact fun ho hv => ho hv

theorem Keeps.orderLinkClose (h : Keeps AllLines n s t) (k : Nat) : Keeps AllLines n s (orderLinkClose k t).2 := by
  unfold Machine.orderLinkClose
  split
  · exact h
  · split
    · exact h
    · exact h
    · exact h.enterClosing k _

theorem Keeps.orderLinkReserveClear (h : Keeps AllLines n s t) (k : Nat) : Keeps AllLines n s (orderLinkReserveClear k t).2 := by
  unfold Machine.orderLinkReserveClear
  split
  · exact h
  · refine Keeps.link h k ?_
    exact id

theorem profileArgs_ok {a b c d e : Nat} {x : Profile} (h : profileArgs a b c d e = some x) : ProfileOk x := by
  unfold profileArgs at h
  split at h
  · split at h
    · rename_i ha
      cases h
      exact ⟨ha.2.2.2.1, ha.2.2.2.2.2.2.1, ha.2.2.2.2.2.2.2, ha.2.2.2.2.2.1⟩
    · cases h
  · cases h

/-- A profile written into a buffer: what it keeps before its maximum depth is enforced. -/
theorem profile_pre {j : Jitter} (h : JitOk j) (p : Nat) {x : Profile} (hx : ProfileOk x) :
    JitPre { j with profiles := tset j.profiles p x } where
  profiles := fun q hq => by
    show ProfileOk (tget (tset j.profiles p x) q)
    rw [tget_tset]
    split
    · exact hx
    · exact h.profiles q hq
  duration := h.duration
  once := h.once
  gap := h.gap
  correction := h.correction

theorem profile_other {j : Jitter} (h : JitOk j) {p : Nat} (hp : j.selected ≠ some p) {x : Profile} (hx : ProfileOk x) :
    JitOk { j with profiles := tset j.profiles p x } :=
  { profile_pre h p hx with
    few := h.few
    depth := by
      have e : Jitter.maxFrames { j with profiles := tset j.profiles p x } = j.maxFrames := by
        unfold Jitter.maxFrames Jitter.profile
        dsimp only
        cases hs : j.selected with
        | none => rfl
        | some q =>
          have hne : p ≠ q := fun z => hp (by rw [hs, z])
          simp only [Option.map_some]
          rw [tget_tset, if_neg (fun z => hne z.1)]
      rw [e]
      exact h.depth }

theorem Keeps.orderLinkProfiles (h : Keeps AllLines n s t) (h1 : 2 ≤ n) (k p a b c d e : Nat) :
    Keeps AllLines n s (orderLinkProfiles k p a b c d e t).2 := by
  unfold Machine.orderLinkProfiles
  split
  · exact h
  · split
    · exact h
    · rename_i prof heq
      have hx : ProfileOk prof := by
        split at heq
        · exact profileArgs_ok heq
        · cases heq
      dsimp only
      split
      · exact (h.setJit k (fun ho => recause_ok (enforce_ok (profile_pre ho p hx))) fun _ => by omega).countLink k _
      · refine h.jit k (fun ho => ?_) fun _ => by omega
        split
        · exact enforce_ok (profile_pre ho p hx)
        · rename_i hne
          exact profile_other ho hne hx

theorem any_false_notMem {l : List Desc} {a : Nat} (h : (l.any fun d => d.address == a) = false) :
    a ∉ l.map (·.address) := by
  rw [List.any_eq_false] at h
  intro hm
  obtain ⟨d, hd, he⟩ := List.mem_map.1 hm
  exact h d hd (by simp [he])

theorem chanOk_append {r : Channel} {d : Desc} {k : Nat} {x : ChanState} (h : ChanOk r) (hl : r.chain.length < 8)
    (ha : d.address ∉ r.chain.map (·.address)) (hx : x ≠ .idle) :
    ChanOk { r with chain := r.chain ++ [d], nextIndex := k, state := x } := by
  obtain ⟨h1, h2, h3, _, _⟩ := h
  refine ⟨by simp only [List.length_append, List.length_singleton]; omega, ?_, h3, fun z => absurd z hx, ?_⟩
  · simp only [List.map_append, List.map_cons, List.map_nil]
    refine List.nodup_append.2 ⟨h2, by simp, ?_⟩
    intro a ham b hb
    rw [List.mem_singleton.1 hb]
    rintro rfl
    exact ha ham
  · intro _ hz
    simp at hz

theorem tget_chan_lt {c : Nat} (h : (tget t.chans c).state ≠ .idle) : c < 16 := by
  by_cases hc : c < 16
  · exact hc
  · exact absurd (by simp [tget, hc]; rfl) h

theorem putChan_chans (c : Nat) (r : Channel) (t : State) : (putChan c r t).chans = tset t.chans c r := by
  obtain ⟨m, x, y, e⟩ := putChan_changes c r t
  rw [e]

theorem Keeps.joinChain (h : Keeps AllLines n s t) (h1 : 2 ≤ n) {c : Nat} (hc : c < 16) (d : Desc)
    (hl : (t.chan c).chain.length < 8) (ha : d.address ∉ (t.chan c).chain.map (·.address)) :
    Keeps AllLines n s (joinChain c d t) := by
  have hrun : ∀ (r : Channel), r.chain ≠ [] → Keeps AllLines n s (putChan c r t) →
      Keeps AllLines n s (Machine.enterRunning c (putChan c r t)) := by
    intro r hne hk
    refine hk.enterRunning c fun _ => ?_
    rw [putChan_chans, tget_tset_same _ _ _ hc]
    exact hne
  unfold Machine.joinChain
  dsimp only
  split
  · have h2 := Keeps.chan h c (r := { t.chan c with
      chain := (t.chan c).chain ++ [d], nextIndex := ((t.chan c).nextIndex + 1) % 256, state := .armed })
      (fun ho => chanOk_append ho hl ha (by decide)) fun _ => by omega
    split
    · exact hrun _ (by simp) h2
    · exact h2
  · rename_i hs
    have hs' : (t.chan c).state ≠ .idle := by rw [hs]; decide
    have h2 := Keeps.chan h c (r := { t.chan c with
      chain := (t.chan c).chain ++ [d], nextIndex := ((t.chan c).nextIndex + 1) % 256 })
      (fun ho => chanOk_append ho hl ha hs') fun _ => by omega
    exact hrun _ (by simp) h2
  · rename_i hs _
    exact Keeps.chan h c (fun ho => chanOk_append ho hl ha hs) fun _ => by omega

theorem Keeps.orderStreamAppend (h : Keeps AllLines n s t) (h1 : 2 ≤ n) (c a : Nat) (r : Option DescRead) :
    Keeps AllLines n s (orderStreamAppend c a r t).2 := by
  unfold Machine.orderStreamAppend
  dsimp only
  split
  · exact h
  rename_i hc
  split
  · exact h
  rename_i hl
  split
  · exact h
  rename_i ha
  split
  · exact h
  split
  · exact h.joinChain h1 (by omega) _ (by omega) (any_false_notMem (by simpa using ha))
  · exact h

theorem Keeps.orderStreamStart (h : Keeps AllLines n s t) (c : Nat) : Keeps AllLines n s (orderStreamStart c t).2 := by
  unfold Machine.orderStreamStart
  split
  · exact h
  · split
    · exact h
    · exact h.startChannel c

theorem Keeps.orderStreamCutBy (h : Keeps AllLines n s t) {cut : Nat → State → State}
    (hc : ∀ c {t}, Keeps AllLines n s t → Keeps AllLines n s (cut c t)) (c : Nat) :
    Keeps AllLines n s (orderStreamCutBy cut c t).2 := by
  unfold Machine.orderStreamCutBy
  split
  · exact h
  · split
    · exact h
    · exact h
    · exact hc c h

theorem Keeps.orderStreamCut (h : Keeps AllLines n s t) (c : Nat) : Keeps AllLines n s (orderStreamCut c t).2 :=
  h.orderStreamCutBy (fun c _ hu => hu.cutChannel c) c

theorem Keeps.discardStreamStop (h : Keeps AllLines n s t) (c : Nat) : Keeps AllLines n s (discardStreamStop c t).2 := by
  unfold Machine.discardStreamStop
  split
  · exact h
  · exact h.discardChannel c

theorem Keeps.orderStreamStop (h : Keeps AllLines n s t) (c : Nat) : Keeps AllLines n s (orderStreamStop c t).2 := by
  unfold Machine.orderStreamStop
  split
  · exact h
  · exact h.stopChannel c

theorem Keeps.orderStreamConfig (h : Keeps AllLines n s t) (h1 : 2 ≤ n) (c : Nat) (a b : Option (Nat × Nat)) (m : Option Nat) :
    Keeps AllLines n s (orderStreamConfig c a b m t).2 := by
  unfold Machine.orderStreamConfig
  dsimp only
  split
  · exact h
  split
  · exact h
  split
  · rename_i hck
    cases m with
    | none =>
      dsimp only
      split
      · exact Keeps.chan h c id fun _ => by omega
      · exact h
    | some v =>
      dsimp only
      have hd : 152 ≤ 144 + c := by
        simp only [streamChecks, isPlayback, Option.isSome_some, Bool.true_and] at hck
        repeat' split at hck
        all_goals try cases hck
        all_goals
          rename_i hp _
          simp only [decide_eq_true_eq] at hp
          omega
      have h2 := h.claimMirror h1 hd (noneByte v)
      have hc : (Machine.claimMirror (144 + c) (noneByte v) t).2.chans = t.chans := by
        unfold Machine.claimMirror
        repeat' split
        all_goals rfl
      split
      · refine Keeps.chan h2 c ?_ fun _ => by omega
        rw [hc]
        exact id
      · exact h
  · exact h

/-! ### Recall engine -/

theorem Keeps.handResult (h : Keeps AllLines n s t) (h1 : 1 ≤ n) (r : Result) : Keeps AllLines n s (handResult r t) := by
  have h2 : Keeps AllLines n s { t with exch.lastResult := some r } := by
    refine Keeps.order h (by omega) ?_ ?_
    · rfl
    · exact id
  unfold Machine.handResult
  dsimp only
  split
  · split
    · exact h2.finishSlot (by omega) _ _
    · exact h2
  · exact h2

theorem Keeps.enterSteps (h : Keeps AllLines n s t) (h1 : 2 ≤ n) : Keeps AllLines n s (enterSteps t) := by
  unfold Machine.enterSteps
  dsimp only
  split
  · exact h.suspendRecall _
  · exact Keeps.recalled h fun _ => by omega

theorem Keeps.startFallback (h : Keeps AllLines n s t) (h1 : 2 ≤ n) : Keeps AllLines n s (startFallback t) := by
  unfold Machine.startFallback
  split
  · exact h
  · refine Keeps.enterSteps ?_ h1
    rename_i scene es _
    have h2 := Keeps.recallSet h h1 { t.engine.begin .fallbackRecall none with
      scene := scene, merge := false, entryCount := es.length, buffer := es }
    refine Keeps.order h2 (by omega) (x := { t.exch with fallback := .inProgress }) ?_ ?_
    · rfl
    · exact id

theorem Keeps.endStore (h : Keeps AllLines n s t) (h1 : 2 ≤ n) (c : Code) : Keeps AllLines n s (endStore c t) := by
  unfold Machine.endStore
  exact Keeps.recalled (Keeps.handResult h (by omega) _) fun _ => by omega

theorem Keeps.exchSet (h : Keeps AllLines n s t) (h1 : 1 ≤ n) (b : Bool) (f : FallbackOutcome) :
    Keeps AllLines n s { t with exch.fallbackDue := b, exch.fallback := f } := by
  refine Keeps.order h (by omega) ?_ ?_
  · rfl
  · exact id

theorem Keeps.endRecall (h : Keeps AllLines n s t) (h1 : 2 ≤ n) (c : Code) (m : List Byte) : Keeps AllLines n s (endRecall c m t) := by
  have h2 : Keeps AllLines n s (if (t.engine.work == some .hostRecall) = true then
      Machine.handResult { code := c, values := recallValues t.engine ++ m } t else t) := by
    split
    · exact h.handResult (by omega) _
    · exact h
  unfold Machine.endRecall
  dsimp only
  generalize (if (t.engine.work == some .hostRecall) = true then
      Machine.handResult { code := c, values := recallValues t.engine ++ m } t else t) = u at h2 ⊢
  have h3 : Keeps AllLines n s (putRecall { (raiseEvent 1 (endDetail c t.engine) u).engine with state := .idle }
      { raiseEvent 1 (endDetail c t.engine) u with
        reports := (raiseEvent 1 (endDetail c t.engine) u).reports ++ [.recallEnd] }) :=
    Keeps.recalled (Keeps.reports (Keeps.raised h2 _ _) _) fun _ => by omega
  split
  · split
    · split
      · exact Keeps.startFallback (h3.exchSet (by omega) false _) h1
      · exact h3
    · exact h3.exchSet (by omega) _ .ended
  · exact h3

theorem Keeps.endWork (h : Keeps AllLines n s t) (h1 : 2 ≤ n) (c : Code) (m : List Byte) : Keeps AllLines n s (endWork c m t) := by
  unfold Machine.endWork
  split
  · exact h.endStore h1 c
  · exact h.endRecall h1 c m

theorem Keeps.readHeader (h : Keeps AllLines n s t) (h1 : 2 ≤ n) (b : List Byte) : Keeps AllLines n s (readHeader b t) := by
  unfold Machine.readHeader
  dsimp only
  split
  · exact Keeps.recalled h fun _ => by omega
  · exact Keeps.endWork (Keeps.recalled h fun _ => by omega) h1 _ _

theorem Keeps.finishLoading (h : Keeps AllLines n s t) (h1 : 2 ≤ n) : Keeps AllLines n s (finishLoading t) := by
  unfold Machine.finishLoading
  dsimp only
  split
  · exact h.endWork h1 _ _
  · split
    · exact Keeps.endStore (Keeps.recallSet h h1 _) h1 _
    · exact h.enterSteps h1

theorem Keeps.readEntries (h : Keeps AllLines n s t) (h1 : 2 ≤ n) (b : List Byte) : Keeps AllLines n s (readEntries b t) := by
  unfold Machine.readEntries
  dsimp only
  split
  · exact Keeps.finishLoading (Keeps.recalled h fun _ => by omega) h1
  · exact Keeps.recalled h fun _ => by omega

theorem Keeps.sceneRead (h : Keeps AllLines n s t) (h1 : 2 ≤ n) (b : Option (List Byte)) : Keeps AllLines n s (sceneRead b t) := by
  unfold Machine.sceneRead
  split
  · exact h
  · split
    · exact h.endWork h1 _ _
    · split
      · exact h.readHeader h1 _
      · exact h
    · exact h.readEntries h1 _

theorem Keeps.boundary (h : Keeps AllLines n s t) (h1 : 2 ≤ n) : Keeps AllLines n s (boundary t).2 := by
  unfold Machine.boundary
  split
  · exact h.endRecall h1 _ _
  · split
    · exact h.suspendRecall _
    · exact h

theorem Keeps.clearingStep (h : Keeps AllLines n s t) (h1 : 2 ≤ n) : Keeps AllLines n s (clearingStep t) := by
  have hb := h.boundary h1
  unfold Machine.clearingStep
  split
  · exact h
  · split
    · rename_i u he
      rw [he] at hb
      exact hb
    · exact Keeps.recalled (Keeps.claimRemoveDest h h1 _) fun _ => by omega

theorem Keeps.sceneMinus (h : Keeps AllLines n s t) (h1 : 2 ≤ n) (d src : Nat) : Keeps AllLines n s (sceneMinus d src t).2 := by
  unfold Machine.sceneMinus
  split
  · exact h
  · exact h.addMinus h1 _ src

theorem Keeps.applyEntry (h : Keeps AllLines n s t) (h1 : 2 ≤ n) (e : SceneEntry) : Keeps AllLines n s (applyEntry e t).2 := by
  unfold Machine.applyEntry
  dsimp only
  split
  · exact h.claimAdd h1 _ _ _ _
  · exact h.configFold h1 _ _ _ _ _ _ _ _
  · exact h.sceneMinus h1 _ _
  · exact h.setRights h1 _ _ _ _
  · exact Keeps.assignKey h h1 true _ _ _ _ _ _ _
  · exact h.claimHeld h1 _
  · exact h

theorem Keeps.applyingStep (h : Keeps AllLines n s t) (h1 : 2 ≤ n) : Keeps AllLines n s (applyingStep t) := by
  have hb := h.boundary h1
  unfold Machine.applyingStep
  split
  · exact h
  · split
    · rename_i u he
      rw [he] at hb
      exact hb
    · split
      · exact h.endRecall h1 _ _
      · dsimp only
        split
        · exact Keeps.recalled (Keeps.applyEntry h h1 _) fun _ => by omega
        · exact Keeps.endRecall (Keeps.recalled (Keeps.applyEntry h h1 _) fun _ => by omega) h1 _ _

theorem Keeps.abortRecall (h : Keeps AllLines n s t) (h1 : 2 ≤ n) : Keeps AllLines n s (abortRecall t) := by
  unfold Machine.abortRecall
  split
  · exact h
  · exact h.endWork h1 _ _
  · exact h.endWork h1 _ _
  · exact Keeps.recalled h fun _ => by omega
  · exact Keeps.recalled h fun _ => by omega

theorem Keeps.dropResult (h : Keeps AllLines n s t) (h1 : 2 ≤ n) : Keeps AllLines n s (dropResult t) := h.recallSet h1 _

theorem Keeps.stopRecall (h : Keeps AllLines n s t) (h1 : 2 ≤ n) : Keeps AllLines n s (stopRecall t) := by
  unfold Machine.stopRecall
  split
  · exact h
  · exact h.endWork h1 _ _

theorem Keeps.restartRecall (h : Keeps AllLines n s t) (h1 : 2 ≤ n) : Keeps AllLines n s (restartRecall t) := by
  unfold Machine.restartRecall
  split
  · exact h
  · exact (h.dropResult h1).abortRecall h1

theorem Keeps.autonomousRecall (h : Keeps AllLines n s t) (h1 : 2 ≤ n) : Keeps AllLines n s (autonomousRecall t) := by
  unfold Machine.autonomousRecall
  split
  · exact h.startFallback h1
  · split
    · exact h.exchSet (by omega) _ .inProgress
    · dsimp only
      split
      · exact ((h.dropResult h1).abortRecall h1).startFallback h1
      · exact ((h.dropResult h1).abortRecall h1).exchSet (by omega) _ _

theorem Keeps.beginLong (h : Keeps AllLines n s t) (h1 : 2 ≤ n) (w : Work) (a : Nat) (k : Option Nat) :
    Keeps AllLines n s (beginLong w a k t).2 := by
  unfold Machine.beginLong
  split
  · exact h
  · split
    · exact h
    · exact Keeps.recalled h fun _ => by omega

theorem Keeps.runLong (h : Keeps AllLines n s t) (h1 : 2 ≤ n) (i : Instr) (w : Work) (a : Nat) : Keeps AllLines n s (runLong i w a t) := by
  unfold Machine.runLong
  split
  · have hb := h.beginLong h1 w a none
    split
    · exact h
    · split
      · refine Keeps.order h (by omega) ?_ ?_
        · rfl
        · exact id
      · rename_i u he
        rw [he] at hb
        exact hb
  · rename_i x _
    have h2 : Keeps AllLines n s { t with exch.inHand := none } := by
      refine Keeps.order h (by omega) ?_ ?_
      · rfl
      · exact id
    split
    · have hb := h2.beginLong h1 w a (some x.slot)
      split
      · rename_i c u he
        rw [he] at hb
        refine Keeps.finishSlot (Keeps.order hb (by omega) ?_ ?_) (by omega) _ _
        · rfl
        · exact id
      · rename_i u he
        rw [he] at hb
        exact hb
    · exact h

theorem Keeps.orderSceneAbort (h : Keeps AllLines n s t) (h1 : 2 ≤ n) : Keeps AllLines n s (orderSceneAbort t).2 := by
  unfold Machine.orderSceneAbort
  split
  · exact h
  · exact h.abortRecall h1

theorem Keeps.orderFallbackClear (h : Keeps AllLines n s t) (h1 : 2 ≤ n) : Keeps AllLines n s (orderFallbackClear t).2 := by
  unfold Machine.orderFallbackClear
  dsimp only
  split
  · exact h
  · exact Keeps.recalled h fun _ => by omega

end Sys2Proof.Laws
end

