-- ==== Sys2Proof/Laws/Exchange.lean ====
section
/-!
SUPPORT. The exchange unit, the mixer's period and every command keep every block.
-/
set_option Elab.async false

namespace Sys2Proof.Laws

open Machine Sys2Proof.Inv

variable {n : Nat} {s t : State}

/-! ### Event words and the mirror -/

theorem Keeps.evWritten {u : State} (h : Keeps AllLines n s t) (e : EvWritten t u) : Keeps AllLines n s u := by
  obtain ⟨v, x, y, rfl, hv⟩ := e
  exact h.events v x y fun _ => hv

theorem Keeps.writeDetail (h : Keeps AllLines n s t) (e : Nat) : Keeps AllLines n s (writeDetail e t) :=
  h.evWritten (writeDetail_changes e t)

theorem Keeps.writeOverrun (h : Keeps AllLines n s t) : Keeps AllLines n s (writeOverrun t) := h.evWritten (writeOverrun_changes t)

theorem Keeps.writeRaised (h : Keeps AllLines n s t) : Keeps AllLines n s (writeRaised t) := h.evWritten (writeRaised_changes t)

theorem Keeps.retryWrites (h : Keeps AllLines n s t) : Keeps AllLines n s (retryWrites t) := by
  unfold Machine.retryWrites
  have h1 := Keeps.forEach 53 (fun e s => if bit s.ev.unwritten e then Machine.writeDetail e s else s)
    (fun u i hu => by
      split
      · exact hu.writeDetail i
      · exact hu) h
  generalize Machine.forEach 53 _ t = u at h1 ⊢
  have h2 : Keeps AllLines n s (if u.ev.overrunUnwritten = true then Machine.writeOverrun u else u) := by
    split
    · exact h1.writeOverrun
    · exact h1
  dsimp only
  generalize (if u.ev.overrunUnwritten = true then Machine.writeOverrun u else u) = w at h2 ⊢
  split
  · exact h2.writeRaised
  · exact h2

theorem Keeps.takeSeen (h : Keeps AllLines n s t) (r : AreaRead) : Keeps AllLines n s (takeSeen r t) := by
  unfold Machine.takeSeen
  exact Keeps.judged (Keeps.retryWrites (Keeps.events h _ t.sent t.writeFaults fun _ => rfl))

theorem Keeps.rebuildEvents (h : Keeps AllLines n s t) (q : Word64) : Keeps AllLines n s (rebuildEvents q t) := by
  unfold Machine.rebuildEvents
  refine Keeps.forEach _ _ (fun _ i hi => hi.writeDetail i) (Keeps.writeOverrun (Keeps.writeRaised (Keeps.silenced h _ ?_)))
  intro i
  by_cases hi : i < 4
  · exact tget_build _ _ _ hi
  · simp [tget, hi]

theorem Keeps.record (h : Keeps AllLines n s t) (i o : Nat) (b : List Byte) : Keeps AllLines n s (writeRecord i o b t) := by
  obtain ⟨m, x, y, e⟩ := writeRecord_changes i o b t
  rw [e]
  exact h.io m x y

theorem Keeps.writeMirror (h : Keeps AllLines n s t) : Keeps AllLines n s (writeMirror t) := by
  unfold Machine.writeMirror
  exact Keeps.foldl _ _ (fun _ _ hu => hu.record _ _ _)
    (Keeps.foldl _ _ (fun _ _ hu => hu.record _ _ _)
      (Keeps.foldl _ _ (fun _ _ hu => hu.record _ _ _)
        (Keeps.foldl _ _ (fun _ _ hu => hu.record _ _ _) (h.record _ _ _))))

/-! ### Registers and timers -/

theorem Keeps.writeRegister (h : Keeps AllLines n s t) (h3 : 3 ≤ n) (r : Reg) (v : Word32) : Keeps AllLines n s (writeRegister r v t) := by
  cases r <;> unfold Machine.writeRegister
  · refine Keeps.exchange h h3 (Or.inl rfl) ?_
    rintro ⟨a, b, c, d, _, e⟩
    refine ⟨a, b, c, d, ?_, e⟩
    show (v &&& 0xFFFFF000#32) &&& 0xFFF#32 = 0
    rw [BitVec.and_assoc]
    have : (0xFFFFF000#32 &&& 0xFFF#32) = 0#32 := by decide
    rw [this]
    simp
  · refine Keeps.exchange h h3 (Or.inl rfl) ?_
    exact fun z => z
  · exact h
  · exact h

theorem Keeps.restartTimer (h : Keeps AllLines n s t) (h3 : 3 ≤ n) : Keeps AllLines n s (restartTimer t) := by
  unfold Machine.restartTimer
  exact Keeps.exchange h h3 (Or.inl rfl) fun z => z

theorem Keeps.followTimer (h : Keeps AllLines n s t) (h3 : 3 ≤ n) : Keeps AllLines n s (followTimer t) := by
  unfold Machine.followTimer
  split
  · exact h
  · exact h.restartTimer h3

theorem periodOf_range (p : Byte) : 1 ≤ periodOf p ∧ periodOf p ≤ 255 := by
  unfold periodOf
  split
  · omega
  · rename_i hp
    have := p.isLt
    have : p.toNat ≠ 0 := fun z => hp (BitVec.eq_of_toNat_eq z)
    omega

theorem Keeps.writeSettings (h : Keeps AllLines n s t) (h3 : 3 ≤ n) (m : BitVec 2) (p : Byte) :
    Keeps AllLines n s (writeSettings m p t) := by
  unfold Machine.writeSettings
  refine Keeps.restartTimer (Keeps.exchange h h3 (Or.inl rfl) ?_) h3
  rintro ⟨a, b, _, _, e⟩
  exact ⟨a, b, (periodOf_range p).1, (periodOf_range p).2, e⟩

/-! ### The order in hand -/

theorem orderBody_keeps {d : Option DescRead} {i : Instr} {body : State → Result × State}
    (e : orderBody d i = some body) (h1 : 2 ≤ n) : ∀ {t}, Keeps AllLines n s t → Keeps AllLines n s (body t).2 := by
  intro t h
  cases i <;> simp only [orderBody, Option.some.injEq, reduceCtorEq] at e <;> subst e
  · exact h
  · exact h.orderExchScan (by omega) _
  · exact h.orderRouteSet h1 _ _ _
  · exact h.orderRouteClear h1 _ _
  · exact h.orderRouteClearDest h1 _
  · exact h.orderSourceConfig h1 _ _ _
  · exact h.orderDestConfig h1 _ _ _
  · exact h.orderBusSet h1 _ _ _
  · exact h.orderBusClear h1 _ _ _
  · exact h.orderFoldBind h1 _ _
  · exact h.orderFoldUnbind h1 _
  · exact h.orderFoldConfig h1 _ _ _ _ _ _ _
  · exact h.orderFoldMinusAdd h1 _ _
  · exact h.orderFoldMinusRemove h1 _ _
  · exact h.orderKeyAssign h1 _ _ _ _ _ _ _
  · exact h.orderKeyClear h1 _ _
  · exact h.deskEvent _ _
  · exact h.deskEvent _ _
  · exact h.orderLineConfig h1 _ _ _ _
  · exact h.orderLineMember h1 _ _ _
  · exact h.orderDeskConfig h1 _
  · exact h.orderSysTimes h1 _ _
  · exact h.orderCallSend _
  · exact h.orderCallClear _ _ _
  · exact h.orderCadenceSet h1 _ _ _ _
  · exact h.orderCiBind h1 _ _ _ _ _
  · exact h.orderCoBind h1 _ _ _ _ _ _
  · exact h.orderPanelConfig h1 _ _ _ _ _
  · exact h.orderPanelConfigClear h1 _ _
  · exact h.orderLoopConfig h1 _ _ _
  · exact h.orderLinkConfig h1 _ _ _ _ _ _ _ _ _
  · exact h.orderLinkDuty h1 _ _
  · exact h.orderLinkClose _
  · exact h.orderLinkProfiles h1 _ _ _ _ _ _ _
  · exact h.orderLinkReserveClear _
  · exact h.orderStreamConfig h1 _ _ _ _
  · exact h.orderStreamAppend h1 _ _ _
  · exact h.orderStreamStart _
  · exact h.orderStreamStop _
  · exact h.orderStreamCut _
  · exact h.orderSceneAbort h1
  · exact h.orderLockSet h1 _ _
  · exact h.orderLockClear h1 _
  · exact h.orderFallbackClear h1

theorem abandonedBody_keeps {d : Option DescRead} {i : Instr} {body : State → Result × State}
    (e : abandonedBody d i = some body) (h1 : 2 ≤ n) {t : State} (h : Keeps AllLines n s t) :
    Keeps AllLines n s (body t).2 := by
  unfold abandonedBody at e
  split at e
  · cases e; exact h.orderCiBindBy h1 (fun c _ hu => hu.discardHead c) _ _ _ _ _
  · cases e; exact h.discardStreamStop _
  · cases e; exact h.orderStreamCutBy (fun c _ hu => hu.discardHead c) _
  · exact orderBody_keeps e h1 h

theorem Keeps.finishInHand (h : Keeps AllLines n s t) (h1 : 2 ≤ n) (d : Option DescRead) : Keeps AllLines n s (finishInHand d t) := by
  unfold Machine.finishInHand
  split
  · exact h
  · split
    · exact h.runLong h1 _ _ _
    · exact h.runLong h1 _ _ _
    · split
      · rename_i e
        exact Keeps.settle (Keeps.runOrder h (by omega) _ (orderBody_keeps e h1))
      · exact h

theorem Keeps.abandonInHand (h : Keeps AllLines n s t) (h1 : 2 ≤ n) (d : Option DescRead) : Keeps AllLines n s (abandonInHand d t) := by
  unfold Machine.abandonInHand
  split
  · exact h
  · have h2 : Keeps AllLines n s (Machine.dropResult { t with exch.inHand := none }) := by
      refine Keeps.dropResult (Keeps.order h (by omega) ?_ ?_) h1
      · rfl
      · exact id
    dsimp only
    split
    · exact h2.beginLong h1 _ _ _
    · exact h2.beginLong h1 _ _ _
    · split
      · rename_i e
        refine Keeps.settle (Keeps.order (abandonedBody_keeps e h1 h2) (by omega) ?_ ?_)
        · rfl
        · exact id
      · exact h2

/-! ### Start, Stop, Restart, Autonomous -/

theorem Keeps.writeHeader (h : Keeps AllLines n s t) : Keeps AllLines n s (writeHeader t) := by
  unfold Machine.writeHeader
  exact (h.area _ _).area _ _

theorem baseOf_mod (a b : Word32) : baseOf a b % 4096 = 0 := by
  unfold baseOf
  omega

theorem Keeps.readBase (h : Keeps AllLines n s t) (h3 : 3 ≤ n) : Keeps AllLines n s (readBase t) := by
  unfold Machine.readBase
  refine Keeps.exchange h h3 (Or.inl rfl) ?_
  rintro ⟨a, b, c, d, e, _⟩
  exact ⟨a, b, c, d, e, baseOf_mod _ _⟩

theorem Keeps.baseline (h : Keeps AllLines n s t) (h3 : 3 ≤ n) (p : Word64) : Keeps AllLines n s (baseline p t) := by
  unfold Machine.baseline
  refine Keeps.writeDone (Keeps.exchange h h3 (Or.inl rfl) ?_) (by omega)
  rintro ⟨_, b, c⟩
  exact ⟨by simp, b, c⟩

theorem Keeps.becomeRunning (h : Keeps AllLines n s t) (h3 : 3 ≤ n) : Keeps AllLines n s (becomeRunning t) := by
  unfold Machine.becomeRunning
  exact Keeps.followTimer (Keeps.exchange h h3 (Or.inr rfl) fun z => z) h3

theorem Keeps.startPart (h : Keeps AllLines n s t) (h3 : 3 ≤ n) (p q : Option Word64) : Keeps AllLines n s (startPart p q t) := by
  unfold Machine.startPart
  have h1 : Keeps AllLines n s (Machine.writeHeader (Machine.readBase { t with exch.started := true })) :=
    Keeps.writeHeader (Keeps.readBase (Keeps.exchange h h3 (Or.inl rfl) fun z => z) h3)
  dsimp only
  split
  · exact (((h1.baseline h3 _).rebuildEvents _).writeMirror).becomeRunning h3
  · exact (h1.baseline h3 _).followTimer h3
  · exact h1.followTimer h3

theorem Keeps.restartStopped (h : Keeps AllLines n s t) (h3 : 3 ≤ n) (p q : Option Word64) : Keeps AllLines n s (restartStopped p q t) := by
  unfold Machine.restartStopped
  dsimp only
  split
  · exact Keeps.exchange (h.startPart h3 p q) h3 (Or.inl rfl) fun z => z
  · exact h.startPart h3 p q

theorem Keeps.stopPart (h : Keeps AllLines n s t) (h3 : 3 ≤ n) (d : Option DescRead) : Keeps AllLines n s (stopPart d t) := by
  have h1 : Keeps AllLines n s { t with exch.readsDue := 0 } := Keeps.exchange h h3 (Or.inl rfl) fun z => z
  have h2 := h1.finishInHand (by omega) d
  have h4 := Keeps.forEach 16 Machine.stopChannel (fun _ i hi => hi.stopChannel i) h2
  have h5 := (h4.stopRecall (by omega)).settle
  unfold Machine.stopPart
  dsimp only
  generalize Machine.settle _ = u at h5 ⊢
  refine Keeps.followTimer (Keeps.halted h5 h3 ?_) h3
  exact fun z => z

theorem Keeps.endInFlight (h : Keeps AllLines n s t) (h1 : 2 ≤ n) (d : Option DescRead) : Keeps AllLines n s (endInFlight d t) := by
  unfold Machine.endInFlight
  exact Keeps.settle (Keeps.forEach _ _ (fun _ i hi => hi.discardChannel i)
    (Keeps.settle (Keeps.restartRecall (h.abandonInHand h1 d) h1)))

theorem Keeps.restartRunning (h : Keeps AllLines n s t) (h3 : 3 ≤ n) (q : Word64) : Keeps AllLines n s (restartRunning q t) := by
  unfold Machine.restartRunning
  have h2 := h.rebuildEvents q
  dsimp only
  generalize Machine.rebuildEvents q _ = u at h2 ⊢
  have h4 : Keeps AllLines n s (Machine.becomeRunning (Machine.writeMirror (Machine.writeHeader
      { u with exch.restarts := u.exch.restarts + 1 }))) :=
    Keeps.becomeRunning (Keeps.writeMirror (Keeps.writeHeader (Keeps.exchange h2 h3 (Or.inl rfl) fun z => z))) h3
  generalize Machine.becomeRunning _ = w at h4 ⊢
  have h5 : Keeps AllLines n s { w with exch.fallbackDue := false } := Keeps.exchange h4 h3 (Or.inl rfl) fun z => z
  split
  · exact h5.raised _ _
  · exact h5

theorem Keeps.restartPart (h : Keeps AllLines n s t) (h3 : 3 ≤ n) (p q : Option Word64) (d : Option DescRead) :
    Keeps AllLines n s (restartPart p q d t) := by
  unfold Machine.restartPart
  have h1 : Keeps AllLines n s { t with exch.started := true } := Keeps.exchange h h3 (Or.inl rfl) fun z => z
  have h2 := (h1.endInFlight (by omega) d).readBase h3
  dsimp only
  split
  · exact (h2.baseline h3 _).restartRunning h3 _
  · exact (h2.baseline h3 _).followTimer h3
  · exact h2.followTimer h3

theorem Keeps.enterAutonomous (h : Keeps AllLines n s t) (h3 : 3 ≤ n) (c : AutoCause) : Keeps AllLines n s (enterAutonomous c t) := by
  unfold Machine.enterAutonomous
  refine Keeps.settle (Keeps.autonomousRecall (Keeps.forEach _ _ (fun _ i hi => hi.discardChannel i)
    (Keeps.order (Keeps.abandonInHand (Keeps.halted h h3 ?_) (by omega) none) (by omega) ?_ ?_)) (by omega))
  · exact fun z => z
  · rfl
  · exact id

/-! ### Intake -/

theorem Keeps.takePost (h : Keeps AllLines n s t) (h3 : 3 ≤ n) (p : Option Word64) : Keeps AllLines n s (takePost p t) := by
  unfold Machine.takePost
  have h1 : Keeps AllLines n s (if t.exch.doneUnwritten = true then Machine.writeDone t else t) := by
    split
    · exact h.writeDone (by omega)
    · exact h
  dsimp only
  generalize (if t.exch.doneUnwritten = true then Machine.writeDone t else t) = u at h1 ⊢
  split
  · exact h1
  · refine Keeps.exchange h1 h3 (Or.inl rfl) ?_
    exact fun z => z

theorem Keeps.takeOrder (h : Keeps AllLines n s t) (h3 : 3 ≤ n) (b : Option (List Byte)) : Keeps AllLines n s (takeOrder b t) := by
  have hslot : ∀ k, Keeps AllLines n s (Machine.takeSlot k t) := by
    intro k
    unfold Machine.takeSlot
    refine Keeps.exchange h h3 (Or.inl rfl) ?_
    rintro ⟨_, b, c⟩
    exact ⟨Nat.mod_lt _ (by omega), b, c⟩
  have hfin : ∀ k c, Keeps AllLines n s (Machine.finishUnasked k c (Machine.takeSlot k t)) := by
    intro k c
    unfold Machine.finishUnasked
    refine Keeps.finishSlot (Keeps.order (hslot k) (by omega) ?_ ?_) (by omega) _ _
    · rfl
    · exact id
  unfold Machine.takeOrder
  split
  · dsimp only
    split
    · exact hfin _ _
    · split
      · exact hfin _ _
      · refine Keeps.order (hslot _) (by omega) ?_ ?_
        · rfl
        · exact id
  · exact h

/-! ### Mix period -/

theorem Keeps.mixPeriod (h : Keeps AllLines n s t) (h3 : 3 ≤ n) (ins : List (Nat × List Int)) :
    ∃ u, execMixPeriod ins t = .next u ∧ Keeps AllLines n s u := by
  refine ⟨_, rfl, ?_⟩
  dsimp only
  refine Keeps.settle (Keeps.tick (Keeps.forEach _ _ (fun _ c hc => hc.capturePeriod _ _)
    (Keeps.forEach _ _ (fun _ c hc => hc.playbackPeriod c) ?_)) h3 _)
  have h1 : Keeps AllLines n s { t with mix := Mixer.afterPeriod ins t } := Keeps.mixed h (by omega) _ fun _ hb => hb
  refine { h1 with jits := fun k hk => ?_, same := fun _ => by omega }
  have ho := h.jits k hk
  by_cases hlt : k < 24
  · rw [tget_build _ _ _ hlt]
    exact jit_fewer ho rfl rfl rfl (List.Sublist.refl _) ho.gap ho.correction
  · have e : tget t.jits k = default := by simp [tget, hlt]
    rw [e] at ho
    exact absurd ho.duration (by decide)

end Sys2Proof.Laws
end

