-- ==== Sys2Proof/Laws/Mix.lean ====
section
/-!
SUPPORT. What the mixer's gains do where the spec fixes it (R2, R22): silence stays silence, Off gives nothing, 0 dB
gives the sample. What a timer that has not run out is to `due`.
-/
set_option Elab.async false

namespace Sys2Proof.Laws

open Machine

/-- A timer that is stopped or runs out later is not due. -/
theorem due_eq_false {timer : Option Nat} {now : Nat} (h : ∀ x, timer = some x → now < x) : due timer now = false := by
  cases timer with
  | none => rfl
  | some x => simpa [due] using h x rfl

/-! ### Gain factors -/

/-- What `rootSearch` finds is admitted, and the next number is not, where the search starts between the two. -/
theorem rootSearch_spec {p : Nat → Bool} (anti : ∀ x y, x ≤ y → p y = true → p x = true) :
    ∀ (bits acc : Nat), p acc = true → p (acc + 2 ^ bits) = false →
      p (rootSearch p bits acc) = true ∧ p (rootSearch p bits acc + 1) = false
  | 0, acc, h, hn => ⟨h, by simpa [rootSearch] using hn⟩
  | bits + 1, acc, h, hn => by
    unfold rootSearch
    by_cases hp : p (acc + 2 ^ bits) = true
    · rw [if_pos hp]
      refine rootSearch_spec anti bits _ hp ?_
      rwa [show acc + 2 ^ bits + 2 ^ bits = acc + 2 ^ (bits + 1) by rw [Nat.pow_succ]; omega]
    · rw [if_neg hp]
      exact rootSearch_spec anti bits _ h (by simpa using hp)

/-- The factor of 0 dB is one. -/
@[simp] theorem gainFactor_unity : gainFactor (some 0) = 2 ^ 64 := rfl

/-- The factor of Off is nothing. -/
@[simp] theorem gainFactor_off : gainFactor none = 0 := rfl

/-- A factor is the 40th root of ten to the number of half decibels, down to 2⁻⁶⁴ (Table 0-7, for every level and dim
depth). -/
theorem gainFactor_bounds {h : Int} (lo : -240 ≤ h) (hi : h ≤ 24) :
    gainFactor (some h) ^ 40 * 10 ^ (-h).toNat ≤ (2 ^ 64) ^ 40 * 10 ^ h.toNat
      ∧ (2 ^ 64) ^ 40 * 10 ^ h.toNat < (gainFactor (some h) + 1) ^ 40 * 10 ^ (-h).toNat := by
  unfold gainFactor
  by_cases h0 : h = 0
  · subst h0
    simp only [if_true]
    exact ⟨by norm_num, by norm_num⟩
  · simp only [if_neg h0]
    have key := rootSearch_spec (p := fun y => decide (y ^ 40 * 10 ^ (-h).toNat ≤ (2 ^ 64) ^ 40 * 10 ^ h.toNat))
      (fun x y hxy hy => by
        simp only [decide_eq_true_eq] at hy ⊢
        exact Nat.le_trans (Nat.mul_le_mul_right _ (Nat.pow_le_pow_left hxy 40)) hy) 68 0 (by simp) (by
        simp only [decide_eq_false_iff_not, Nat.not_le, Nat.zero_add]
        calc (2 ^ 64) ^ 40 * 10 ^ h.toNat ≤ (2 ^ 64) ^ 40 * 10 ^ 24 :=
              Nat.mul_le_mul_left _ (Nat.pow_le_pow_right (by decide) (by omega))
          _ < (2 ^ 68) ^ 40 * 1 := by norm_num
          _ ≤ (2 ^ 68) ^ 40 * 10 ^ (-h).toNat := Nat.mul_le_mul_left _ (Nat.one_le_pow _ _ (by decide)))
    simpa only [decide_eq_true_eq, decide_eq_false_iff_not, Nat.not_le] using key

/-- The factor in use is the factor of the level, down to 2⁻⁶⁴. -/
theorem gainFactor_near {v : Nat} (hv : v ≤ 240) :
    (gainFactor (gainOf v) : ℝ) ≤ levelFactor v * 2 ^ 64 ∧ levelFactor v * 2 ^ 64 < gainFactor (gainOf v) + 1 := by
  unfold levelFactor gainOf
  by_cases h0 : v = 0
  · simp [h0]
  rw [if_neg h0, if_neg h0]
  have hb := gainFactor_bounds (h := (v : Int) - 216) (by omega) (by omega)
  generalize gainFactor (some ((v : Int) - 216)) = g at hb ⊢
  have root : ((10 : ℝ) ^ (((v : ℝ) - 216) / 40)) ^ 40 * 10 ^ (-((v : Int) - 216)).toNat = 10 ^ ((v : Int) - 216).toNat := by
    have e40 : ((10 : ℝ) ^ (((v : ℝ) - 216) / 40)) ^ 40 = (10 : ℝ) ^ ((v : ℝ) - 216) := by
      rw [← Real.rpow_natCast, ← Real.rpow_mul (by norm_num)]
      congr 1
      push_cast
      ring
    rw [e40, ← Real.rpow_natCast (10 : ℝ) (-((v : Int) - 216)).toNat, ← Real.rpow_natCast (10 : ℝ) ((v : Int) - 216).toNat,
      ← Real.rpow_add (by norm_num)]
    congr 1
    have : ((((v : Int) - 216).toNat : Int) : ℝ) - (((-((v : Int) - 216)).toNat : Int) : ℝ) = ((v : Int) - 216 : Int) := by
      rw [← Int.cast_sub]
      congr 1
      omega
    push_cast at this
    linarith
  have pos : (0 : ℝ) < (10 : ℝ) ^ (((v : ℝ) - 216) / 40) := Real.rpow_pos_of_pos (by norm_num) _
  generalize (10 : ℝ) ^ (((v : ℝ) - 216) / 40) = f at root pos ⊢
  have down : (0 : ℝ) < 10 ^ (-((v : Int) - 216)).toNat := by positivity
  obtain ⟨h1, h2⟩ := hb
  have h1' : (g : ℝ) ^ 40 * 10 ^ (-((v : Int) - 216)).toNat ≤ (2 ^ 64) ^ 40 * 10 ^ ((v : Int) - 216).toNat := by exact_mod_cast h1
  have h2' : ((2 : ℝ) ^ 64) ^ 40 * 10 ^ ((v : Int) - 216).toNat < ((g : ℝ) + 1) ^ 40 * 10 ^ (-((v : Int) - 216)).toNat := by
    exact_mod_cast h2
  rw [← root, ← mul_assoc, ← mul_pow] at h1' h2'
  refine ⟨?_, ?_⟩
  · refine le_of_pow_le_pow_left₀ (n := 40) (by norm_num) (by positivity) ?_
    rw [mul_comm f]
    exact le_of_mul_le_mul_right h1' down
  · refine lt_of_pow_lt_pow_left₀ 40 (by positivity) ?_
    rw [mul_comm f]
    exact lt_of_mul_lt_mul_right h2' down.le

/-- A level factor lies between nothing and four. -/
theorem levelFactor_bounds {v : Nat} (hv : v ≤ 240) : 0 ≤ levelFactor v ∧ levelFactor v ≤ 4 := by
  unfold levelFactor
  split
  · norm_num
  · refine ⟨by positivity, ?_⟩
    calc (10 : ℝ) ^ (((v : ℝ) - 216) / 40) ≤ 10 ^ ((3 : ℝ) / 5) := by
          refine Real.rpow_le_rpow_of_exponent_le (by norm_num) ?_
          have : (v : ℝ) ≤ 240 := by exact_mod_cast hv
          linarith
      _ ≤ 4 := by
          refine le_of_pow_le_pow_left₀ (n := 5) (by norm_num) (by norm_num) ?_
          rw [← Real.rpow_natCast, ← Real.rpow_mul (by norm_num)]
          norm_num

/-! ### The stages of a term -/

/-- Only a programme path shares gains (R47). -/
@[simp] theorem shared_crosspoint (old new : Vector (Gain × Gain) 48) : Path.shared old new .crosspoint = [] := rfl
@[simp] theorem shared_busSlot (old new : Vector (Gain × Gain) 48) (l : Nat) : Path.shared old new (.busSlot l) = [] := rfl
@[simp] theorem shared_interrupt (old new : Vector (Gain × Gain) 48) : Path.shared old new .interrupt = [] := rfl
@[simp] theorem shared_programme (old new : Vector (Gain × Gain) 48) (r : Nat) : Path.shared old new (.programme r)
    = [((tget old r).1, (tget new r).1), ((tget old r).2, (tget new r).2)] := rfl

/-- A term alone, before and after, moves its own gain and those of its path. -/
theorem stages_stay (shared : Path → List (Gain × Gain)) (p : Path) (src : Nat) (g h : Gain) :
    stages shared [{ path := p, source := src, gain := g }] [{ path := p, source := src, gain := h }]
      = [(src, (g, h) :: shared p)] := by simp [stages, Term.same]

/-- A term alone that appears rises from nothing; the gains of its path move (R22). -/
theorem stages_appear (shared : Path → List (Gain × Gain)) (t : Term) :
    stages shared [] [t] = [(t.source, (none, t.gain) :: shared t.path)] := rfl

/-- A term alone that goes falls to nothing; the gains of its path move (R22). -/
theorem stages_go (shared : Path → List (Gain × Gain)) (t : Term) :
    stages shared [t] [] = [(t.source, (t.gain, none) :: shared t.path)] := rfl

/-- The gains in use of the programme after a period are those of the records (R22, R47). -/
theorem tget_programmeNow (s : State) {r : Nat} (h : r < 48) :
    tget (programmeNow s) r = (gainOf (tget s.fold.recs r).level, (tget s.fold.recs r).duckGain) := by
  simp [programmeNow, tget, build, h, FoldRec.programmeGains]

/-! ### Samples under gains -/

/-- Silence stays silence under every gain. -/
theorem gainStep_zero (old new : Gain) (k : Nat) : gainStep old new k 0 = 0 := by simp [gainStep, rampSample]

/-- Silence stays silence through every stage. -/
theorem gainSteps_zero (k : Nat) (l : List (Gain × Gain)) : gainSteps k l 0 = 0 := by
  induction l with
  | nil => rfl
  | cons g rest ih =>
    obtain ⟨o, n⟩ := g
    simpa only [gainSteps, gainStep_zero] using ih

/-- A stage that is Off and stays Off gives nothing. -/
theorem gainStep_off (k : Nat) (x : Int) : gainStep none none k x = 0 := by simp [gainStep, rampSample, movingFactor]

/-- The factor of a gain that stays. -/
theorem movingFactor_const (g : Gain) {k n : Nat} (hk : k < n) : movingFactor g g k n = gainFactor g * n := by
  unfold movingFactor
  rw [← Nat.mul_add]
  congr 1
  omega

/-- A gain that stays is its factor, at every sample. -/
theorem rampSample_const (g : Gain) {k n : Nat} (hk : k < n) (x : Int) :
    rampSample g g k n x = (x * gainFactor g).tdiv (2 ^ 64) := by
  unfold rampSample
  rw [movingFactor_const g hk, Nat.cast_mul, ← Int.mul_assoc, Int.mul_comm (n : Int)]
  exact Int.mul_tdiv_mul_of_pos_left _ _ (by omega)

/-- A stage at 0 dB that stays there gives the sample. -/
theorem gainStep_unity {k : Nat} (hk : k < 48) (x : Int) : gainStep (some 0) (some 0) k x = x := by
  unfold gainStep
  rw [rampSample_const _ hk, gainFactor_unity]
  exact Int.mul_tdiv_cancel x (by norm_num)

/-- A stage that rises from Off to 0 dB gives as much of the sample as has passed of the period (R22). -/
theorem rampSample_rise (k n : Nat) (x : Int) : rampSample none (some 0) k n x = (x * (k + 1)).tdiv n := by
  unfold rampSample movingFactor
  rw [gainFactor_off, gainFactor_unity, Nat.zero_mul, Nat.zero_add]
  push_cast
  rw [show x * (18446744073709551616 * ((k : Int) + 1)) = x * (k + 1) * 18446744073709551616 by ring]
  exact Int.mul_tdiv_mul_of_pos_left _ _ (by norm_num)

/-- A silent source with no gain in use gives nothing by any path (R2). -/
theorem gainSteps_silent (k : Nat) (l : List (Gain × Gain)) (x : Int) : gainSteps k ((none, none) :: l) x = 0 := by
  rw [gainSteps, gainStep_off, gainSteps_zero]

/-- Silence has no binary places. -/
@[simp] theorem widen_zero : widen 0 = 0 := rfl

/-- A sum of samples is carried as the sum of what is carried. -/
theorem widen_add (x y : Int) : widen (x + y) = widen x + widen y := Int.add_mul x y _

/-- A whole sample stays. -/
@[simp] theorem rounded_widen (x : Int) : rounded (widen x) = x := by
  unfold rounded widen
  rw [Int.mul_emod_left, if_pos rfl, Int.mul_ediv_cancel _ (by norm_num)]

/-- Silence stays silence. -/
@[simp] theorem rounded_zero : rounded 0 = 0 := rfl

/-- Rounding moves a sample by less than one (log entry 17). -/
theorem rounded_near (v : Int) : rounded v * 2 ^ 40 - v < 2 ^ 40 ∧ v - rounded v * 2 ^ 40 < 2 ^ 40 := by
  unfold rounded
  rcases Int.lt_trichotomy v 0 with h | h | h
  · have e : v.tdiv (2 ^ 40) = -((-v) / 2 ^ 40) := by
      rw [← Int.neg_neg v, Int.neg_tdiv, Int.neg_neg, Int.tdiv_eq_ediv_of_nonneg (by omega)]
    rw [e, Int.sign_eq_neg_one_of_neg h]
    split
    · omega
    · split <;> omega
  · subst h; simp
  · rw [Int.tdiv_eq_ediv_of_nonneg (by omega), Int.sign_eq_one_of_pos h]
    split
    · omega
    · split <;> omega

/-- Truncation moves a quotient by less than one. -/
theorem tdiv_near (a : Int) {b : Int} (hb : 0 < b) : |(a.tdiv b : ℝ) - a / b| < 1 := by
  have hb' : (0 : ℝ) < b := by exact_mod_cast hb
  have e : (a : ℝ) / b = a.tdiv b + (a.tmod b : ℝ) / b := by
    have := Int.mul_tdiv_add_tmod a b
    have h' : (b : ℝ) * (a.tdiv b) + (a.tmod b) = a := by exact_mod_cast this
    field_simp
    linarith
  rw [e, sub_add_cancel_left, abs_neg, abs_div, abs_of_pos hb', div_lt_one hb']
  have h1 : |a.tmod b| < b := abs_lt.2 ⟨Int.lt_tmod_of_pos a hb, Int.tmod_lt_of_pos a hb⟩
  exact_mod_cast h1

/-- One gain that moves evenly across the period: what it makes of a carried value (R22, Table 0-7). The provers apply it
once for each gain of a path. -/
theorem gainStep_even {u v k : Nat} (hu : u ≤ 240) (hv : v ≤ 240) (hk : k < 48) (c : Int) :
    |(gainStep (gainOf u) (gainOf v) k c : ℝ) - c * (((47 - k) * levelFactor u + (k + 1) * levelFactor v) / 48)|
      < 1 + |(c : ℝ)| / 2 ^ 64 := by
  obtain ⟨a1, a2⟩ := gainFactor_near hu
  obtain ⟨b1, b2⟩ := gainFactor_near hv
  unfold gainStep rampSample movingFactor
  generalize gainFactor (gainOf u) = g at a1 a2 ⊢
  generalize gainFactor (gainOf v) = h at b1 b2 ⊢
  have hk' : (k : ℝ) + 1 ≤ 48 := by exact_mod_cast hk
  have hm : ((g * (48 - (k + 1)) + h * (k + 1) : Nat) : ℝ) = g * (47 - k) + h * (k + 1) := by
    rw [Nat.cast_add, Nat.cast_mul, Nat.cast_sub (by omega)]
    push_cast
    ring
  generalize g * (48 - (k + 1)) + h * (k + 1) = m at hm ⊢
  have h1 := tdiv_near (c * (m : Int)) (b := (48 : Nat) * 2 ^ 64) (by norm_num)
  generalize (c * (m : Int)).tdiv ((48 : Nat) * 2 ^ 64) = q at h1 ⊢
  rw [show ((c * (m : Int) : Int) : ℝ) = c * m by push_cast; ring, hm,
    show ((((48 : Nat) : Int) * 2 ^ 64 : Int) : ℝ) = 48 * 2 ^ 64 by push_cast; ring] at h1
  have key : |(c : ℝ) * (g * (47 - k) + h * (k + 1)) / (48 * 2 ^ 64)
      - c * (((47 - k) * levelFactor u + (k + 1) * levelFactor v) / 48)| ≤ |(c : ℝ)| / 2 ^ 64 := by
    have e : (c : ℝ) * (g * (47 - k) + h * (k + 1)) / (48 * 2 ^ 64)
        - c * (((47 - k) * levelFactor u + (k + 1) * levelFactor v) / 48)
        = c * (((47 - k) * (g - levelFactor u * 2 ^ 64) + (k + 1) * (h - levelFactor v * 2 ^ 64)) / 48) / 2 ^ 64 := by
      field_simp
      ring
    have hw : |((47 - (k : ℝ)) * (g - levelFactor u * 2 ^ 64) + (k + 1) * (h - levelFactor v * 2 ^ 64)) / 48| ≤ 1 := by
      rw [abs_le]
      constructor
      · rw [le_div_iff₀ (by norm_num)]
        nlinarith [a1, a2, b1, b2, hk', (Nat.cast_nonneg k : (0 : ℝ) ≤ k)]
      · rw [div_le_iff₀ (by norm_num)]
        nlinarith [a1, a2, b1, b2, hk', (Nat.cast_nonneg k : (0 : ℝ) ≤ k)]
    rw [e, abs_div, abs_mul, abs_of_pos (by norm_num : (0 : ℝ) < 2 ^ 64)]
    exact div_le_div_of_nonneg_right (mul_le_of_le_one_right (abs_nonneg _) hw) (by norm_num)
  have := abs_sub_le (q : ℝ) ((c : ℝ) * (g * (47 - k) + h * (k + 1)) / (48 * 2 ^ 64))
    (c * (((47 - k) * levelFactor u + (k + 1) * levelFactor v) / 48))
  linarith

/-- A sample under a gain that moves evenly across the period, with its binary places (R22, Table 0-7). -/
theorem gainStep_near {u v k : Nat} (hu : u ≤ 240) (hv : v ≤ 240) (hk : k < 48) {x : Int} (hx : |x| ≤ 2 ^ 23) :
    |(gainStep (gainOf u) (gainOf v) k (widen x) : ℝ)
      - 2 ^ 40 * (x * ((47 - k) * levelFactor u + (k + 1) * levelFactor v) / 48)| < 2 := by
  have h := gainStep_even hu hv hk (widen x)
  have hx' : |(x : ℝ)| ≤ 2 ^ 23 := by exact_mod_cast hx
  have hc : ((widen x : Int) : ℝ) = x * 2 ^ 40 := by unfold widen; push_cast; ring
  rw [hc, abs_mul, abs_of_pos (by norm_num : (0 : ℝ) < 2 ^ 40)] at h
  rw [show (2 : ℝ) ^ 40 * (x * ((47 - k) * levelFactor u + (k + 1) * levelFactor v) / 48)
    = x * 2 ^ 40 * (((47 - k) * levelFactor u + (k + 1) * levelFactor v) / 48) by ring]
  refine lt_of_lt_of_le h ?_
  have : |(x : ℝ)| * 2 ^ 40 / 2 ^ 64 ≤ 1 := by
    rw [div_le_one (by norm_num)]
    nlinarith
  linarith

/-- What is finished of such a sample: the even move, to within the rounding (R22, log entry 17). -/
theorem moved_near {u v k : Nat} (hu : u ≤ 240) (hv : v ≤ 240) (hk : k < 48) {x : Int} (hx : |x| ≤ 2 ^ 23) :
    |(rounded (gainStep (gainOf u) (gainOf v) k (widen x)) : ℝ)
      - x * ((47 - k) * levelFactor u + (k + 1) * levelFactor v) / 48| < 1 + 1 / 2 ^ 39 := by
  have h1 := abs_lt.1 (gainStep_near hu hv hk hx)
  have h2 := rounded_near (gainStep (gainOf u) (gainOf v) k (widen x))
  generalize gainStep (gainOf u) (gainOf v) k (widen x) = c at h1 h2 ⊢
  have h3 : (rounded c : ℝ) * 2 ^ 40 - c < 2 ^ 40 := by exact_mod_cast h2.1
  have h4 : (c : ℝ) - rounded c * 2 ^ 40 < 2 ^ 40 := by exact_mod_cast h2.2
  rw [abs_lt]
  constructor <;> nlinarith [h1.1, h1.2, h3, h4]

/-- The gain of a silent source is Off (R2). -/
theorem gain_silent {r : SourceRec} (h : r.silent = true) : r.gain = none := by simp [SourceRec.gain, h]

/-- A sample in the 24-bit range passes the limit unchanged (R22). -/
theorem clamp24_inside {x : Int} (h1 : -8388608 ≤ x) (h2 : x ≤ 8388607) : clamp24 x = x := by
  simp only [clamp24]
  rw [if_neg (by omega), if_neg (by omega)]

/-- The limit gives a sample in the 24-bit range (R22). -/
theorem clamp24_range (x : Int) : -8388608 ≤ clamp24 x ∧ clamp24 x ≤ 8388607 := by
  unfold clamp24
  split
  · omega
  · split <;> omega

end Sys2Proof.Laws
end

