-- ==== Sys2Proof/Laws/PerInstr.lean ====
section
/-!
SUPPORT. For every command, by constructor: the kind of an order fits the slot's kind field and its arguments fit the
40 bytes of the argument field (Table 10-4); a command that is no order has no slot.
-/
set_option Elab.async false

namespace Sys2Proof.Laws.Slot

open Machine

/-- Kind and arguments of an order fit the fields of its slot. -/
def Statement (i : Instr) : Prop :=
  ∀ kind tag args, orderFields i = some (kind, tag, args) → kind < 256 ∧ args.length ≤ 40

@[simp] theorem length_leBytes (n x : Nat) : (leBytes n x).length = n := by
  induction n generalizing x with
  | zero => rfl
  | succ k ih => simp [leBytes, ih]

@[simp] theorem length_u8 (x : Nat) : (u8 x).length = 1 := length_leBytes 1 x
@[simp] theorem length_u16 (x : Nat) : (u16 x).length = 2 := length_leBytes 2 x
@[simp] theorem length_u64 (x : Nat) : (u64 x).length = 8 := length_leBytes 8 x
@[simp] theorem length_uFlag (b : Bool) : (uFlag b).length = 1 := length_leBytes 1 _

@[simp] theorem length_putOpt (n : Nat) (o : Option Nat) : (putOpt n o).length = n + 1 := by
  cases o <;> simp [putOpt, length_leBytes, Nat.add_comm]

@[simp] theorem length_putOpt2 (o : Option (Nat × Nat)) : (putOpt2 o).length = 3 := by
  cases o <;> simp [putOpt2, length_leBytes]

@[simp] theorem length_putCodecs (o : Option (List Nat)) : (putCodecs o).length = 4 := by
  cases o <;> simp [putCodecs, length_leBytes]

/-- An order fits its slot when its kind and the length of its arguments do. -/
theorem fits {i : Instr} {k t : Nat} {a : List Byte} (h : orderFields i = some (k, t, a)) (hk : k < 256)
    (ha : a.length ≤ 40) : Statement i := by
  intro kind tag args h'
  rw [h] at h'
  cases h'
  exact ⟨hk, ha⟩

/-- A command that is no order has no slot. -/
theorem noSlot {i : Instr} (h : orderFields i = none) : Statement i := by
  intro kind tag args h'
  rw [h] at h'
  cases h'

theorem powerOn inputs : Statement (.powerOn inputs) := noSlot rfl
theorem resetPin inputs : Statement (.resetPin inputs) := noSlot rfl
theorem linkLoss : Statement (.linkLoss) := noSlot rfl
theorem linkActive : Statement (.linkActive) := noSlot rfl
theorem controlInputChange input high : Statement (.controlInputChange input high) := noSlot rfl
theorem xctlNone mode period : Statement (.xctlNone mode period) := noSlot rfl
theorem start mode period post seen : Statement (.start mode period post seen) := noSlot rfl
theorem stop mode period desc : Statement (.stop mode period desc) := noSlot rfl
theorem restart mode period post seen desc : Statement (.restart mode period post seen desc) := noSlot rfl
theorem attn : Statement (.attn) := noSlot rfl
theorem registerWrite reg value : Statement (.registerWrite reg value) := noSlot rfl
theorem scanExpiry : Statement (.scanExpiry) := noSlot rfl
theorem postWordRead read : Statement (.postWordRead read) := noSlot rfl
theorem orderTake slot : Statement (.orderTake slot) := noSlot rfl
theorem supervisionExpiry : Statement (.supervisionExpiry) := noSlot rfl
theorem nop tag : Statement (.nop tag) := fits rfl (by decide) (by simp)
theorem exchScan interval : Statement (.exchScan interval) := fits rfl (by decide) (by simp)
theorem routeSet dest source level : Statement (.routeSet dest source level) := fits rfl (by decide) (by simp)
theorem routeClear dest source : Statement (.routeClear dest source) := fits rfl (by decide) (by simp)
theorem routeClearDest dest : Statement (.routeClearDest dest) := fits rfl (by decide) (by simp)
theorem sourceConfig source trim mute : Statement (.sourceConfig source trim mute) := fits rfl (by decide) (by simp)
theorem destConfig dest level limit : Statement (.destConfig dest level limit) := fits rfl (by decide) (by simp)
theorem busSet bus source level : Statement (.busSet bus source level) := fits rfl (by decide) (by simp)
theorem busClear bus all source : Statement (.busClear bus all source) := fits rfl (by decide) (by simp)
theorem foldBind record dest : Statement (.foldBind record dest) := fits rfl (by decide) (by simp)
theorem foldUnbind record : Statement (.foldUnbind record) := fits rfl (by decide) (by simp)
theorem foldConfig record bus level mode depth dim hold :
    Statement (.foldConfig record bus level mode depth dim hold) := fits rfl (by decide) (by simp)
theorem foldMinusAdd record source : Statement (.foldMinusAdd record source) := fits rfl (by decide) (by simp)
theorem foldMinusRemove record source : Statement (.foldMinusRemove record source) := fits rfl (by decide) (by simp)
theorem keyAssign station key function target mode cls level :
    Statement (.keyAssign station key function target mode cls level) := fits rfl (by decide) (by simp)
theorem keyClear station key : Statement (.keyClear station key) := fits rfl (by decide) (by simp)
theorem keyPress key : Statement (.keyPress key) := fits rfl (by decide) (by simp)
theorem keyRelease key : Statement (.keyRelease key) := fits rfl (by decide) (by simp)
theorem lineConfig line limit policy turn :
    Statement (.lineConfig line limit policy turn) := fits rfl (by decide) (by simp)
theorem lineMember line station rights : Statement (.lineMember line station rights) := fits rfl (by decide) (by simp)
theorem deskConfig source : Statement (.deskConfig source) := fits rfl (by decide) (by simp)
theorem sysTimes smart timeout : Statement (.sysTimes smart timeout) := fits rfl (by decide) (by simp)
theorem callSend target : Statement (.callSend target) := fits rfl (by decide) (by simp)
theorem callClear station all caller : Statement (.callClear station all caller) := fits rfl (by decide) (by simp)
theorem cadenceSet gen run onTime offTime :
    Statement (.cadenceSet gen run onTime offTime) := fits rfl (by decide) (by simp)
theorem ciBind input function argument sensing active :
    Statement (.ciBind input function argument sensing active) := fits rfl (by decide) (by simp)
theorem coBind output function argument drive gen active :
    Statement (.coBind output function argument drive gen active) := fits rfl (by decide) (by simp)
theorem panelConfig loop address mic speaker keyCount :
    Statement (.panelConfig loop address mic speaker keyCount) := fits rfl (by decide) (by simp)
theorem panelConfigClear loop address : Statement (.panelConfigClear loop address) := fits rfl (by decide) (by simp)
theorem loopConfig loop enable rate : Statement (.loopConfig loop enable rate) := fits rfl (by decide) (by simp)
theorem linkConfig link allowed codecs minFrame dual loss recovery rejoin linger :
    Statement (.linkConfig link allowed codecs minFrame dual loss recovery rejoin linger) := fits rfl (by decide) (by simp)
theorem linkDuty link mode : Statement (.linkDuty link mode) := fits rfl (by decide) (by simp)
theorem linkClose link : Statement (.linkClose link) := fits rfl (by decide) (by simp)
theorem linkProfiles link profile target minimum maximum concealment usable :
    Statement (.linkProfiles link profile target minimum maximum concealment usable) := fits rfl (by decide) (by simp)
theorem linkReserveClear link : Statement (.linkReserveClear link) := fits rfl (by decide) (by simp)
theorem streamConfig channel trigger cue mirror :
    Statement (.streamConfig channel trigger cue mirror) := fits rfl (by decide) (by simp)
theorem streamAppend channel address read :
    Statement (.streamAppend channel address read) := fits rfl (by decide) (by simp)
theorem streamStart channel : Statement (.streamStart channel) := fits rfl (by decide) (by simp)
theorem streamStop channel : Statement (.streamStop channel) := fits rfl (by decide) (by simp)
theorem streamCut channel : Statement (.streamCut channel) := fits rfl (by decide) (by simp)
theorem sceneRecall address : Statement (.sceneRecall address) := fits rfl (by decide) (by simp)
theorem sceneAbort : Statement (.sceneAbort) := fits rfl (by decide) (by simp)
theorem lockSet dest lock : Statement (.lockSet dest lock) := fits rfl (by decide) (by simp)
theorem lockClear dest : Statement (.lockClear dest) := fits rfl (by decide) (by simp)
theorem fallbackStore address : Statement (.fallbackStore address) := fits rfl (by decide) (by simp)
theorem fallbackClear : Statement (.fallbackClear) := fits rfl (by decide) (by simp)
theorem mixPeriod inputs : Statement (.mixPeriod inputs) := noSlot rfl
theorem playbackReadDone channel block : Statement (.playbackReadDone channel block) := noSlot rfl
theorem captureWriteDone channel ok : Statement (.captureWriteDone channel ok) := noSlot rfl
theorem holdTimerExpiry record : Statement (.holdTimerExpiry record) := noSlot rfl
theorem turnTimerExpiry line station key : Statement (.turnTimerExpiry line station key) := noSlot rfl
theorem busyMarkExpiry station key : Statement (.busyMarkExpiry station key) := noSlot rfl
theorem refusalTimerExpiry station key : Statement (.refusalTimerExpiry station key) := noSlot rfl
theorem callExpiry station caller : Statement (.callExpiry station caller) := noSlot rfl
theorem cadencePhaseExpiry gen : Statement (.cadencePhaseExpiry gen) := noSlot rfl
theorem poll loop : Statement (.poll loop) := noSlot rfl
theorem hello loop kind keyCount : Statement (.hello loop kind keyCount) := noSlot rfl
theorem report loop seq changes : Statement (.report loop seq changes) := noSlot rfl
theorem idleReply loop : Statement (.idleReply loop) := noSlot rfl
theorem badFrame loop : Statement (.badFrame loop) := noSlot rfl
theorem strayReply loop : Statement (.strayReply loop) := noSlot rfl
theorem pollOrLampsReceived loop : Statement (.pollOrLampsReceived loop) := noSlot rfl
theorem replyTimeout loop : Statement (.replyTimeout loop) := noSlot rfl
theorem offer port source msg : Statement (.offer port source msg) := noSlot rfl
theorem audio env seq quality keys payload : Statement (.audio env seq quality keys payload) := noSlot rfl
theorem keepalive env keys : Statement (.keepalive env keys) := noSlot rfl
theorem closeAck env : Statement (.closeAck env) := noSlot rfl
theorem strayMessage port link : Statement (.strayMessage port link) := noSlot rfl
theorem negotiationTimerExpiry link : Statement (.negotiationTimerExpiry link) := noSlot rfl
theorem lingerTimerExpiry link : Statement (.lingerTimerExpiry link) := noSlot rfl
theorem recoveryTimerExpiry link : Statement (.recoveryTimerExpiry link) := noSlot rfl
theorem wakeTimerExpiry link : Statement (.wakeTimerExpiry link) := noSlot rfl
theorem silenceTimerExpiry link : Statement (.silenceTimerExpiry link) := noSlot rfl
theorem keepaliveTimerExpiry link : Statement (.keepaliveTimerExpiry link) := noSlot rfl
theorem closeTimerExpiry link : Statement (.closeTimerExpiry link) := noSlot rfl
theorem reservationTimerExpiry link : Statement (.reservationTimerExpiry link) := noSlot rfl
theorem returnAudio link : Statement (.returnAudio link) := noSlot rfl
theorem playoutInstant link : Statement (.playoutInstant link) := noSlot rfl
theorem sceneReadDone bytes : Statement (.sceneReadDone bytes) := noSlot rfl
theorem clearingStep : Statement (.clearingStep) := noSlot rfl
theorem applyingStep : Statement (.applyingStep) := noSlot rfl

end Sys2Proof.Laws.Slot
end

