-- ==== Sys2Proof/Laws/Step.lean ====
section
/-!
SUPPORT. What a command can do: every command but the two resets answers a next state that keeps what its level keeps.
-/
set_option Elab.async false

namespace Sys2Proof.Laws

open Machine Sys2Proof.Inv

/-- The level of a command (see `Keeps`). -/
def level : Instr → Nat
  | .holdTimerExpiry _ | .turnTimerExpiry _ _ _ | .busyMarkExpiry _ _ | .refusalTimerExpiry _ _ | .callExpiry _ _
  | .pollOrLampsReceived _ | .offer _ _ _ | .audio _ _ _ _ _ | .keepalive _ _ | .closeAck _ | .strayMessage _ _
  | .negotiationTimerExpiry _ | .lingerTimerExpiry _ | .recoveryTimerExpiry _ | .wakeTimerExpiry _
  | .silenceTimerExpiry _ | .keepaliveTimerExpiry _ | .closeTimerExpiry _ | .reservationTimerExpiry _
  | .returnAudio _ | .playoutInstant _ | .playbackReadDone _ _ | .captureWriteDone _ _ => 0
  | .nop _ | .exchScan _ | .keyPress _ | .keyRelease _ | .callSend _ | .callClear _ _ _ | .linkClose _
  | .linkReserveClear _ | .streamStart _ | .streamStop _ | .streamCut _ => 1
  | .powerOn _ | .resetPin _ | .linkLoss | .linkActive | .xctlNone _ _ | .start _ _ _ _ | .stop _ _ _
  | .restart _ _ _ _ _ | .attn | .registerWrite _ _ | .scanExpiry | .postWordRead _ | .orderTake _
  | .supervisionExpiry | .mixPeriod _ => 3
  | _ => 2

/-- Is the command a full reset? -/
def isReset : Instr → Bool
  | .powerOn _ | .resetPin _ => true
  | _ => false

variable {n : Nat} {s t : State}

/-- A state that keeps `n` of `s`, as the outcome of a command. -/
def KeptBy (n : Nat) (s : State) (o : Out) : Prop := ∃ t, o = .next t ∧ Keeps AllLines n s t

theorem kept (h : Keeps AllLines n s t) : KeptBy n s (.next t) := ⟨t, rfl, h⟩

theorem kept_if {b : Prop} [Decidable b] {u : State} (h : b → Keeps AllLines n s t) (k : Keeps AllLines n s u) :
    KeptBy n s (.next (if b then t else u)) := by
  split
  · rename_i hb
    exact kept (h hb)
  · exact kept k

theorem order_kept (i : Instr) {body : State → Result × State} (h1 : 1 ≤ n)
    (hb : ∀ {t}, Keeps AllLines n s t → Keeps AllLines n s (body t).2) : KeptBy n s (.next (runOrder i body s)) :=
  kept (Keeps.runOrder (Keeps.refl n s) h1 i hb)

theorem order_settled (i : Instr) {body : State → Result × State} (h1 : 1 ≤ n)
    (hb : ∀ {t}, Keeps AllLines n s t → Keeps AllLines n s (body t).2) : KeptBy n s (.next (settle (runOrder i body s))) :=
  kept (Keeps.settle (Keeps.runOrder (Keeps.refl n s) h1 i hb))

/-! ### The exchange unit's commands -/

theorem exchange_kept (c : Instr) (hr : isReset c = false) (hc : level c = 3) : KeptBy 3 s (exec c s) := by
  have h0 : Keeps AllLines 3 s s := Keeps.refl 3 s
  have h3 : 3 ≤ 3 := Nat.le_refl 3
  cases c
  all_goals
    first
    | exact absurd hc (Nat.ne_of_beq_eq_false rfl)
    | exact absurd hr (Bool.noConfusion : true ≠ false)
    | skip
  case linkLoss =>
    show KeptBy 3 s (execLinkLoss s)
    unfold execLinkLoss
    have h1 : Keeps AllLines 3 s { s with exch.linkActive := false } := Keeps.exchange h0 h3 (Or.inl rfl) fun z => z
    refine kept_if (fun _ => ?_) h0
    dsimp only
    split
    · exact h1.enterAutonomous h3 _
    · exact h1
  case linkActive => exact kept (Keeps.exchange h0 h3 (Or.inl rfl) fun z => z)
  case xctlNone m p => exact kept_if (fun _ => h0.writeSettings h3 m p) h0
  case start m p a b =>
    show KeptBy 3 s (execStart m p a b s)
    unfold execStart
    refine kept_if (fun _ => ?_) h0
    dsimp only
    split
    · exact (h0.writeSettings h3 m p).startPart h3 _ _
    · exact h0.writeSettings h3 m p
  case stop m p d =>
    show KeptBy 3 s (execStop m p d s)
    unfold execStop
    refine kept_if (fun _ => ?_) h0
    dsimp only
    split
    · exact (h0.writeSettings h3 m p).stopPart h3 _
    · exact h0.writeSettings h3 m p
  case restart m p a b d =>
    show KeptBy 3 s (execRestart m p a b d s)
    unfold execRestart
    refine kept_if (fun _ => ?_) h0
    dsimp only
    split
    · exact (h0.writeSettings h3 m p).restartStopped h3 _ _
    · exact (h0.writeSettings h3 m p).restartPart h3 _ _ _
  case attn =>
    show KeptBy 3 s (execAttn s)
    unfold execAttn
    refine kept_if (fun _ => ?_) h0
    have h1 := h0.restartTimer h3
    generalize Machine.restartTimer s = u at h1 ⊢
    dsimp only
    split
    · exact Keeps.exchange h1 h3 (Or.inl rfl) fun z => z
    · exact h1
  case registerWrite r v => exact kept_if (fun _ => h0.writeRegister h3 r v) h0
  case scanExpiry => exact kept_if (fun _ => Keeps.exchange h0 h3 (Or.inl rfl) fun z => z) h0
  case postWordRead r =>
    show KeptBy 3 s (execPostWordRead r s)
    unfold execPostWordRead
    refine kept_if (fun _ => ?_) h0
    have h1 : Keeps AllLines 3 s { s with exch.readsDue := s.exch.readsDue - 1 } :=
      Keeps.exchange h0 h3 (Or.inl rfl) fun z => z
    exact (h1.takePost h3 r.post).takeSeen r
  case orderTake b => exact kept_if (fun _ => h0.takeOrder h3 b) h0
  case supervisionExpiry => exact kept_if (fun _ => h0.enterAutonomous h3 _) h0
  case mixPeriod ins => exact h0.mixPeriod h3 ins

/-! ### Orders -/

theorem plainOrder_kept (c : Instr) (hc : level c = 1) : KeptBy 1 s (exec c s) := by
  have h1 : 1 ≤ 1 := Nat.le_refl 1
  cases c <;> first | exact absurd hc (Nat.ne_of_beq_eq_false rfl) | skip
  case nop => exact order_kept _ h1 fun h => h
  case exchScan => exact order_kept _ h1 fun h => h.orderExchScan h1 _
  case keyPress => exact order_settled _ h1 fun h => h.deskEvent _ _
  case keyRelease => exact order_settled _ h1 fun h => h.deskEvent _ _
  case callSend => exact order_settled _ h1 fun h => h.orderCallSend _
  case callClear => exact order_kept _ h1 fun h => h.orderCallClear _ _ _
  case linkClose => exact order_kept _ h1 fun h => h.orderLinkClose _
  case linkReserveClear => exact order_kept _ h1 fun h => h.orderLinkReserveClear _
  case streamStart => exact order_settled _ h1 fun h => h.orderStreamStart _
  case streamStop => exact order_settled _ h1 fun h => h.orderStreamStop _
  case streamCut => exact order_settled _ h1 fun h => h.orderStreamCut _

theorem settingOrder_kept (c : Instr) (hc : level c = 2) : KeptBy 2 s (exec c s) := by
  have h2 : 2 ≤ 2 := Nat.le_refl 2
  have h1 : 1 ≤ 2 := by omega
  have h0 : Keeps AllLines 2 s s := Keeps.refl 2 s
  cases c <;> first | exact absurd hc (Nat.ne_of_beq_eq_false rfl) | skip
  case controlInputChange => exact kept_if (fun _ => (h0.inputChange h2 _ _).settle) h0
  case routeSet => exact order_kept _ h1 fun h => h.orderRouteSet h2 _ _ _
  case routeClear => exact order_kept _ h1 fun h => h.orderRouteClear h2 _ _
  case routeClearDest => exact order_kept _ h1 fun h => h.orderRouteClearDest h2 _
  case sourceConfig => exact order_kept _ h1 fun h => h.orderSourceConfig h2 _ _ _
  case destConfig => exact order_kept _ h1 fun h => h.orderDestConfig h2 _ _ _
  case busSet => exact order_kept _ h1 fun h => h.orderBusSet h2 _ _ _
  case busClear => exact order_kept _ h1 fun h => h.orderBusClear h2 _ _ _
  case foldBind => exact order_kept _ h1 fun h => h.orderFoldBind h2 _ _
  case foldUnbind => exact order_kept _ h1 fun h => h.orderFoldUnbind h2 _
  case foldConfig => exact order_settled _ h1 fun h => h.orderFoldConfig h2 _ _ _ _ _ _ _
  case foldMinusAdd => exact order_kept _ h1 fun h => h.orderFoldMinusAdd h2 _ _
  case foldMinusRemove => exact order_kept _ h1 fun h => h.orderFoldMinusRemove h2 _ _
  case keyAssign => exact order_settled _ h1 fun h => h.orderKeyAssign h2 _ _ _ _ _ _ _
  case keyClear => exact order_settled _ h1 fun h => h.orderKeyClear h2 _ _
  case lineConfig => exact order_kept _ h1 fun h => h.orderLineConfig h2 _ _ _ _
  case lineMember => exact order_kept _ h1 fun h => h.orderLineMember h2 _ _ _
  case deskConfig => exact order_kept _ h1 fun h => h.orderDeskConfig h2 _
  case sysTimes => exact order_kept _ h1 fun h => h.orderSysTimes h2 _ _
  case cadenceSet => exact order_kept _ h1 fun h => h.orderCadenceSet h2 _ _ _ _
  case ciBind => exact order_settled _ h1 fun h => h.orderCiBind h2 _ _ _ _ _
  case coBind => exact order_kept _ h1 fun h => h.orderCoBind h2 _ _ _ _ _ _
  case panelConfig => exact order_kept _ h1 fun h => h.orderPanelConfig h2 _ _ _ _ _
  case panelConfigClear => exact order_settled _ h1 fun h => h.orderPanelConfigClear h2 _ _
  case loopConfig => exact order_settled _ h1 fun h => h.orderLoopConfig h2 _ _ _
  case linkConfig => exact order_kept _ h1 fun h => h.orderLinkConfig h2 _ _ _ _ _ _ _ _ _
  case linkDuty => exact order_kept _ h1 fun h => h.orderLinkDuty h2 _ _
  case linkProfiles => exact order_kept _ h1 fun h => h.orderLinkProfiles h2 _ _ _ _ _ _ _
  case streamConfig => exact order_kept _ h1 fun h => h.orderStreamConfig h2 _ _ _ _
  case streamAppend => exact order_settled _ h1 fun h => h.orderStreamAppend h2 _ _ _
  case sceneRecall => exact kept (h0.runLong h2 _ _ _)
  case sceneAbort => exact order_settled _ h1 fun h => h.orderSceneAbort h2
  case lockSet => exact order_kept _ h1 fun h => h.orderLockSet h2 _ _
  case lockClear => exact order_kept _ h1 fun h => h.orderLockClear h2 _
  case fallbackStore => exact kept (h0.runLong h2 _ _ _)
  case fallbackClear => exact order_kept _ h1 fun h => h.orderFallbackClear h2
  case cadencePhaseExpiry g => exact kept_if (fun _ => Keeps.callSet h0 h2 _ rfl) h0
  case poll l =>
    refine kept_if (fun _ => ?_) h0
    split
    · exact h0
    · exact h0.sendPoll h2 l _
  case hello => exact kept (h0.takeHello h2 _ _ _).settle
  case report => exact kept_if (fun _ => h0.countBad h2 _) (h0.takeAnswer h2 _ _).settle
  case idleReply => exact kept (h0.takeAnswer h2 _ _)
  case badFrame => exact kept (h0.countBad h2 _)
  case strayReply => exact kept (h0.countStray h2 _)
  case replyTimeout l =>
    show KeptBy 2 s (execReplyTimeout l s)
    unfold execReplyTimeout
    split
    · exact kept h0
    · exact kept (h0.missPoll h2 l _).settle
  case sceneReadDone => exact kept (h0.sceneRead h2 _).settle
  case clearingStep => exact kept (h0.clearingStep h2).settle
  case applyingStep => exact kept (h0.applyingStep h2).settle

/-! ### Events of keys, calls, links and streams -/

theorem event_kept (c : Instr) (hc : level c = 0) : KeptBy 0 s (exec c s) := by
  have h0 : Keeps AllLines 0 s s := Keeps.refl 0 s
  cases c <;> first | exact absurd hc (Nat.ne_of_beq_eq_false rfl) | skip
  case holdTimerExpiry r => exact kept_if (fun h => h0.execHoldTimer r h.1) h0
  case turnTimerExpiry => exact kept_if (fun _ => h0.turnExpired _ _) h0
  case busyMarkExpiry => exact kept_if (fun _ => Keeps.putKey h0 _ _) h0
  case refusalTimerExpiry => exact kept_if (fun _ => Keeps.putKey h0 _ _) h0
  case callExpiry st c =>
    show KeptBy 0 s (execCallExpiry st c s)
    unfold execCallExpiry
    split
    · exact kept h0
    · refine kept_if (fun _ => ?_) h0
      refine Keeps.callReports (Keeps.raised (Keeps.called h0 st ?_) _ _) st c
      exact fun ho => callsOk_sub ho List.filter_sublist
  case pollOrLampsReceived => exact kept h0
  case offer => exact kept (h0.takeOffer _ _ _).settle
  case audio e q c k p =>
    refine kept_if (fun h => ?_) (h0.strayOn _ _)
    simp only [Bool.and_eq_true] at h
    exact ((h0.takeEnvelope h.1).takeAudio _ _ _ _).settle
  case keepalive e k =>
    refine kept_if (fun h => ?_) (h0.strayOn _ _)
    simp only [Bool.and_eq_true] at h
    exact ((h0.takeEnvelope h.1).takeKeys _ _).settle
  case closeAck e => exact kept_if (fun _ => (h0.endSession _ _ _).settle) (h0.strayOn _ _)
  case strayMessage => exact kept (h0.strayOn _ _)
  case negotiationTimerExpiry => exact kept_if (fun _ => (h0.endSession _ _ _).settle) h0
  case lingerTimerExpiry => exact kept_if (fun _ => h0.goResting _ _ _) h0
  case recoveryTimerExpiry => exact kept_if (fun _ => (h0.endSession _ _ _).settle) h0
  case wakeTimerExpiry => exact kept_if (fun _ => h0.goResting _ _ _) h0
  case silenceTimerExpiry => exact kept_if (fun _ => (h0.endSession _ _ _).settle) h0
  case keepaliveTimerExpiry k =>
    refine kept_if (fun h => ?_) h0
    refine Keeps.link (h0.sendAll _ _) k ?_ ?_
    · intro _ hv
      have hs : (s.link k).session = .resting := h.1
      rw [show (s.link k).session = .vacant from hv] at hs
      cases hs
    · obtain ⟨x, e⟩ := sendAll_changes k (.keepalive (s.link k).unitId k (talliesOf s k)) s
      rw [e]
      exact fun _ => rfl
  case closeTimerExpiry => exact kept_if (fun _ => (h0.endSession _ _ _).settle) h0
  case reservationTimerExpiry k =>
    refine kept_if (fun _ => Keeps.link h0 k ?_) h0
    exact id
  case returnAudio k =>
    show KeptBy 0 s (execReturnAudio k s)
    unfold execReturnAudio
    dsimp only
    split
    · exact kept h0
    · rename_i c d hf
      have hput : ∀ u : State, Keeps AllLines 0 s u → u.links = s.links → Keeps AllLines 0 s (putLink k
          { s.link k with returnSeq := ((s.link k).returnSeq + 1) % 65536 }
          { u with mix.returnBuf := tset u.mix.returnBuf k ((tget s.mix.returnBuf k).drop (48 * d)) }) := by
        intro u hu hl
        refine Keeps.link (Keeps.returns hu _) k ?_ ?_
        · rw [show (State.links _) = s.links from hl]
          exact fun ho hv => ho hv
        · rw [show (State.links _) = s.links from hl]
          exact fun _ => rfl
      split
      · split
        · obtain ⟨x, e⟩ := sendAll_changes k (.audio (s.link k).unitId k (s.link k).returnSeq (talliesOf s k)
            (Config.payloadOf c ((List.range (48 * d)).map fun i => (tget s.mix.returnBuf k).getD i 0))) s
          rw [e]
          exact kept (hput _ (h0.io s.mirror x s.writeFaults) rfl)
        · obtain ⟨x, e⟩ := sendOn_changes k (s.link k).latestPort
            (.audio (s.link k).unitId k (s.link k).returnSeq (talliesOf s k)
              (Config.payloadOf c ((List.range (48 * d)).map fun i => (tget s.mix.returnBuf k).getD i 0))) s
          rw [e]
          exact kept (hput _ (h0.io s.mirror x s.writeFaults) rfl)
      · exact kept h0
  case playoutInstant k =>
    show KeptBy 0 s (execPlayoutInstant k s)
    unfold execPlayoutInstant
    dsimp only
    split
    · split
      · refine kept (Keeps.settle (Keeps.instantReport (Keeps.countLink (Keeps.setJit h0 k ?_ ?_) k _) k _))
        · exact instantTaken_ok _ _
        · exact fun _ => instantTaken_profiles _ _ _
      · exact kept h0
    · exact kept h0
  case playbackReadDone => exact kept (h0.playbackRead _ _).settle
  case captureWriteDone => exact kept (h0.captureWrite _ _)

/-- Every command but the two full resets answers a next state that keeps what the exchange unit keeps. -/
theorem exec_kept (c : Instr) (hr : isReset c = false) : KeptBy 3 s (exec c s) := by
  have up : ∀ {m : Nat}, m ≤ 3 → KeptBy m s (exec c s) → KeptBy 3 s (exec c s) :=
    fun hm ⟨u, hu, hk⟩ => ⟨u, hu, hk.mono hm⟩
  have hl : level c = 0 ∨ level c = 1 ∨ level c = 2 ∨ level c = 3 := by
    cases c <;> first
      | exact .inl rfl | exact .inr (.inl rfl) | exact .inr (.inr (.inl rfl)) | exact .inr (.inr (.inr rfl))
  rcases hl with h | h | h | h
  · exact up (by decide) (event_kept c h)
  · exact up (by decide) (plainOrder_kept c h)
  · exact up (by decide) (settingOrder_kept c h)
  · exact exchange_kept c hr h

end Sys2Proof.Laws
end

