-- ==== Sys2Proof/Tests/Slice0.lean ====
section
/-!
SUPPORT. Tests of this slice: each check of WellFormed refuses an ill-formed term, slots decode to the orders they
stand for, single steps on small states, and states that meet the hypotheses of each statement.
-/
namespace Sys2Proof.Tests

set_option Elab.async false

open Machine Stmt

/-! ### Well-formed commands -/

/-- A well-formed command, and the same with one ill-formed operand each. -/
def onlyFirst (good : Instr) (bad : List Instr) : Bool := good.wf && bad.all fun i => !i.wf

theorem test_wf_controlInputChange :
    onlyFirst (.controlInputChange 15 true)
      [.controlInputChange 16 true] = true := by decide +kernel
theorem test_wf_orderTake :
    onlyFirst (.orderTake none)
      [.orderTake (some []), .orderTake (some (List.replicate 63 0))] = true := by decide +kernel
theorem test_wf_nop :
    onlyFirst (.nop 4294967295)
      [.nop 4294967296] = true := by decide +kernel
theorem test_wf_exchScan :
    onlyFirst (.exchScan 255)
      [.exchScan 256] = true := by decide +kernel
theorem test_wf_routeSet :
    onlyFirst (.routeSet 255 255 255)
      [.routeSet 256 255 255, .routeSet 255 256 255, .routeSet 255 255 256] = true := by decide +kernel
theorem test_wf_routeClear :
    onlyFirst (.routeClear 255 255)
      [.routeClear 256 255, .routeClear 255 256] = true := by decide +kernel
theorem test_wf_routeClearDest :
    onlyFirst (.routeClearDest 255)
      [.routeClearDest 256] = true := by decide +kernel
theorem test_wf_busSet :
    onlyFirst (.busSet 255 255 255)
      [.busSet 256 255 255, .busSet 255 256 255, .busSet 255 255 256] = true := by decide +kernel
theorem test_wf_foldBind :
    onlyFirst (.foldBind 255 255)
      [.foldBind 256 255, .foldBind 255 256] = true := by decide +kernel
theorem test_wf_foldUnbind :
    onlyFirst (.foldUnbind 255)
      [.foldUnbind 256] = true := by decide +kernel
theorem test_wf_foldMinusAdd :
    onlyFirst (.foldMinusAdd 255 255)
      [.foldMinusAdd 256 255, .foldMinusAdd 255 256] = true := by decide +kernel
theorem test_wf_foldMinusRemove :
    onlyFirst (.foldMinusRemove 255 255)
      [.foldMinusRemove 256 255, .foldMinusRemove 255 256] = true := by decide +kernel
theorem test_wf_keyAssign :
    onlyFirst (.keyAssign 255 255 255 255 255 255 255)
      [.keyAssign 256 255 255 255 255 255 255, .keyAssign 255 256 255 255 255 255 255,
        .keyAssign 255 255 256 255 255 255 255, .keyAssign 255 255 255 256 255 255 255,
        .keyAssign 255 255 255 255 256 255 255, .keyAssign 255 255 255 255 255 256 255,
        .keyAssign 255 255 255 255 255 255 256] = true := by decide +kernel
theorem test_wf_keyClear :
    onlyFirst (.keyClear 255 255)
      [.keyClear 256 255, .keyClear 255 256] = true := by decide +kernel
theorem test_wf_keyPress :
    onlyFirst (.keyPress 255)
      [.keyPress 256] = true := by decide +kernel
theorem test_wf_keyRelease :
    onlyFirst (.keyRelease 255)
      [.keyRelease 256] = true := by decide +kernel
theorem test_wf_lineMember :
    onlyFirst (.lineMember 255 255 255)
      [.lineMember 256 255 255, .lineMember 255 256 255, .lineMember 255 255 256] = true := by decide +kernel
theorem test_wf_deskConfig :
    onlyFirst (.deskConfig 255)
      [.deskConfig 256] = true := by decide +kernel
theorem test_wf_callSend :
    onlyFirst (.callSend 255)
      [.callSend 256] = true := by decide +kernel
theorem test_wf_ciBind :
    onlyFirst (.ciBind 255 255 255 255 255)
      [.ciBind 256 255 255 255 255, .ciBind 255 256 255 255 255, .ciBind 255 255 256 255 255,
        .ciBind 255 255 255 256 255, .ciBind 255 255 255 255 256] = true := by decide +kernel
theorem test_wf_coBind :
    onlyFirst (.coBind 255 255 255 255 255 255)
      [.coBind 256 255 255 255 255 255, .coBind 255 256 255 255 255 255, .coBind 255 255 256 255 255 255,
        .coBind 255 255 255 256 255 255, .coBind 255 255 255 255 256 255, .coBind 255 255 255 255 255 256] = true := by decide +kernel
theorem test_wf_panelConfig :
    onlyFirst (.panelConfig 255 255 255 255 255)
      [.panelConfig 256 255 255 255 255, .panelConfig 255 256 255 255 255, .panelConfig 255 255 256 255 255,
        .panelConfig 255 255 255 256 255, .panelConfig 255 255 255 255 256] = true := by decide +kernel
theorem test_wf_panelConfigClear :
    onlyFirst (.panelConfigClear 255 255)
      [.panelConfigClear 256 255, .panelConfigClear 255 256] = true := by decide +kernel
theorem test_wf_linkDuty :
    onlyFirst (.linkDuty 255 255)
      [.linkDuty 256 255, .linkDuty 255 256] = true := by decide +kernel
theorem test_wf_linkClose :
    onlyFirst (.linkClose 255)
      [.linkClose 256] = true := by decide +kernel
theorem test_wf_linkReserveClear :
    onlyFirst (.linkReserveClear 255)
      [.linkReserveClear 256] = true := by decide +kernel
theorem test_wf_streamStart :
    onlyFirst (.streamStart 255)
      [.streamStart 256] = true := by decide +kernel
theorem test_wf_streamStop :
    onlyFirst (.streamStop 255)
      [.streamStop 256] = true := by decide +kernel
theorem test_wf_streamCut :
    onlyFirst (.streamCut 255)
      [.streamCut 256] = true := by decide +kernel
theorem test_wf_lockSet :
    onlyFirst (.lockSet 255 255)
      [.lockSet 256 255, .lockSet 255 256] = true := by decide +kernel
theorem test_wf_lockClear :
    onlyFirst (.lockClear 255)
      [.lockClear 256] = true := by decide +kernel
theorem test_wf_sourceConfig :
    onlyFirst (.sourceConfig 255 (some 255) (some 255))
      [.sourceConfig 256 (some 255) (some 255), .sourceConfig 255 (some 256) (some 255),
        .sourceConfig 255 (some 255) (some 256)] = true := by decide +kernel
theorem test_wf_destConfig :
    onlyFirst (.destConfig 255 (some 255) (some 255))
      [.destConfig 256 (some 255) (some 255), .destConfig 255 (some 256) (some 255),
        .destConfig 255 (some 255) (some 256)] = true := by decide +kernel
theorem test_wf_busClear :
    onlyFirst (.busClear 255 true 255)
      [.busClear 256 true 255, .busClear 255 true 256] = true := by decide +kernel
theorem test_wf_foldConfig :
    onlyFirst (.foldConfig 255 (some 255) (some 255) (some 255) (some 255) (some 255) (some 65535))
      [.foldConfig 256 (some 255) (some 255) (some 255) (some 255) (some 255) (some 65535),
        .foldConfig 255 (some 256) (some 255) (some 255) (some 255) (some 255) (some 65535),
        .foldConfig 255 (some 255) (some 256) (some 255) (some 255) (some 255) (some 65535),
        .foldConfig 255 (some 255) (some 255) (some 256) (some 255) (some 255) (some 65535),
        .foldConfig 255 (some 255) (some 255) (some 255) (some 256) (some 255) (some 65535),
        .foldConfig 255 (some 255) (some 255) (some 255) (some 255) (some 256) (some 65535),
        .foldConfig 255 (some 255) (some 255) (some 255) (some 255) (some 255) (some 65536)] = true := by decide +kernel
theorem test_wf_lineConfig :
    onlyFirst (.lineConfig 255 (some 255) (some 255) (some 255))
      [.lineConfig 256 (some 255) (some 255) (some 255), .lineConfig 255 (some 256) (some 255) (some 255),
        .lineConfig 255 (some 255) (some 256) (some 255), .lineConfig 255 (some 255) (some 255) (some 256)] = true := by decide +kernel
theorem test_wf_sysTimes :
    onlyFirst (.sysTimes (some 65535) (some 255))
      [.sysTimes (some 65536) (some 255), .sysTimes (some 65535) (some 256)] = true := by decide +kernel
theorem test_wf_callClear :
    onlyFirst (.callClear 255 false 255)
      [.callClear 256 false 255, .callClear 255 false 256] = true := by decide +kernel
theorem test_wf_cadenceSet :
    onlyFirst (.cadenceSet 255 true 65535 65535)
      [.cadenceSet 256 true 65535 65535, .cadenceSet 255 true 65536 65535, .cadenceSet 255 true 65535 65536] = true := by decide +kernel
theorem test_wf_loopConfig :
    onlyFirst (.loopConfig 255 true (some 65535))
      [.loopConfig 256 true (some 65535), .loopConfig 255 true (some 65536)] = true := by decide +kernel
theorem test_wf_linkConfig :
    onlyFirst (.linkConfig 255 (some 18446744073709551615) (some [0, 1, 254]) (some 255) (some 255) (some 65535) (some 65535) (some 65535) (some 255))
      [
        .linkConfig 256 (some 18446744073709551615) (some [0, 1, 254]) (some 255) (some 255) (some 65535) (some 65535) (some 65535) (some 255),
        .linkConfig 255 (some 18446744073709551616) (some [0, 1, 254]) (some 255) (some 255) (some 65535) (some 65535) (some 65535) (some 255),
        .linkConfig 255 (some 18446744073709551615) (some [0, 1, 2, 0]) (some 255) (some 255) (some 65535) (some 65535) (some 65535) (some 255),
        .linkConfig 255 (some 18446744073709551615) (some [255]) (some 255) (some 255) (some 65535) (some 65535) (some 65535) (some 255),
        .linkConfig 255 (some 18446744073709551615) (some [0, 1, 254]) (some 256) (some 255) (some 65535) (some 65535) (some 65535) (some 255),
        .linkConfig 255 (some 18446744073709551615) (some [0, 1, 254]) (some 255) (some 256) (some 65535) (some 65535) (some 65535) (some 255),
        .linkConfig 255 (some 18446744073709551615) (some [0, 1, 254]) (some 255) (some 255) (some 65536) (some 65535) (some 65535) (some 255),
        .linkConfig 255 (some 18446744073709551615) (some [0, 1, 254]) (some 255) (some 255) (some 65535) (some 65536) (some 65535) (some 255),
        .linkConfig 255 (some 18446744073709551615) (some [0, 1, 254]) (some 255) (some 255) (some 65535) (some 65535) (some 65536) (some 255),
        .linkConfig 255 (some 18446744073709551615) (some [0, 1, 254]) (some 255) (some 255) (some 65535) (some 65535) (some 65535) (some 256)] = true := by decide +kernel
theorem test_wf_linkProfiles :
    onlyFirst (.linkProfiles 255 255 65535 65535 65535 255 255)
      [.linkProfiles 256 255 65535 65535 65535 255 255, .linkProfiles 255 256 65535 65535 65535 255 255,
        .linkProfiles 255 255 65536 65535 65535 255 255, .linkProfiles 255 255 65535 65536 65535 255 255,
        .linkProfiles 255 255 65535 65535 65536 255 255, .linkProfiles 255 255 65535 65535 65535 256 255,
        .linkProfiles 255 255 65535 65535 65535 255 256] = true := by decide +kernel
theorem test_wf_streamConfig :
    onlyFirst (.streamConfig 255 (some (255, 255)) (some (255, 255)) (some 255))
      [.streamConfig 256 (some (255, 255)) (some (255, 255)) (some 255),
        .streamConfig 255 (some (256, 0)) (some (255, 255)) (some 255),
        .streamConfig 255 (some (0, 256)) (some (255, 255)) (some 255),
        .streamConfig 255 (some (255, 255)) (some (256, 0)) (some 255),
        .streamConfig 255 (some (255, 255)) (some (0, 256)) (some 255),
        .streamConfig 255 (some (255, 255)) (some (255, 255)) (some 256)] = true := by decide +kernel
theorem test_wf_streamAppend :
    onlyFirst (.streamAppend 255 18446744073709551615 (some { buffer := 18446744073709551615, length := 4294967295, flags := 0, hostState := 255 }))
      [
        .streamAppend 256 18446744073709551615 (some { buffer := 18446744073709551615, length := 4294967295, flags := 0, hostState := 255 }),
        .streamAppend 255 18446744073709551616 (some { buffer := 18446744073709551615, length := 4294967295, flags := 0, hostState := 255 }),
        .streamAppend 255 18446744073709551615 (some { buffer := 18446744073709551616, length := 0, flags := 0, hostState := 0 }),
        .streamAppend 255 18446744073709551615 (some { buffer := 0, length := 4294967296, flags := 0, hostState := 0 }),
        .streamAppend 255 18446744073709551615 (some { buffer := 0, length := 0, flags := 0, hostState := 256 })] = true := by decide +kernel
theorem test_wf_sceneRecall :
    onlyFirst (.sceneRecall 18446744073709551615)
      [.sceneRecall 18446744073709551616] = true := by decide +kernel
theorem test_wf_fallbackStore :
    onlyFirst (.fallbackStore 18446744073709551615)
      [.fallbackStore 18446744073709551616] = true := by decide +kernel
theorem test_wf_mixPeriod :
    onlyFirst (.mixPeriod [(127, List.replicate 48 8388607)])
      [.mixPeriod [(128, List.replicate 48 0)], .mixPeriod [(0, List.replicate 47 0)],
        .mixPeriod [(0, List.replicate 48 8388608)], .mixPeriod [(0, List.replicate 48 (-8388609))]] = true := by decide +kernel
theorem test_wf_playbackReadDone :
    onlyFirst (.playbackReadDone 7 (some (List.replicate 48 0)))
      [.playbackReadDone 8 (some (List.replicate 48 0)), .playbackReadDone 7 (some [])] = true := by decide +kernel
theorem test_wf_captureWriteDone :
    onlyFirst (.captureWriteDone 15 true)
      [.captureWriteDone 7 true, .captureWriteDone 16 true] = true := by decide +kernel
theorem test_wf_holdTimerExpiry :
    onlyFirst (.holdTimerExpiry 47)
      [.holdTimerExpiry 48] = true := by decide +kernel
theorem test_wf_turnTimerExpiry :
    onlyFirst (.turnTimerExpiry 31 88 31)
      [.turnTimerExpiry 32 88 31, .turnTimerExpiry 31 89 31, .turnTimerExpiry 31 88 32] = true := by decide +kernel
theorem test_wf_busyMarkExpiry :
    onlyFirst (.busyMarkExpiry 63 23)
      [.busyMarkExpiry 87 23, .busyMarkExpiry 63 24] = true := by decide +kernel
theorem test_wf_refusalTimerExpiry :
    onlyFirst (.refusalTimerExpiry 87 3)
      [.refusalTimerExpiry 89 3, .refusalTimerExpiry 87 4] = true := by decide +kernel
theorem test_wf_callExpiry :
    onlyFirst (.callExpiry 88 88)
      [.callExpiry 89 88, .callExpiry 88 89] = true := by decide +kernel
theorem test_wf_cadencePhaseExpiry :
    onlyFirst (.cadencePhaseExpiry 3)
      [.cadencePhaseExpiry 4] = true := by decide +kernel
theorem test_wf_poll :
    onlyFirst (.poll 3)
      [.poll 4] = true := by decide +kernel
theorem test_wf_idleReply :
    onlyFirst (.idleReply 3)
      [.idleReply 4] = true := by decide +kernel
theorem test_wf_badFrame :
    onlyFirst (.badFrame 3)
      [.badFrame 4] = true := by decide +kernel
theorem test_wf_strayReply :
    onlyFirst (.strayReply 3)
      [.strayReply 4] = true := by decide +kernel
theorem test_wf_pollOrLampsReceived :
    onlyFirst (.pollOrLampsReceived 3)
      [.pollOrLampsReceived 4] = true := by decide +kernel
theorem test_wf_replyTimeout :
    onlyFirst (.replyTimeout 3)
      [.replyTimeout 4] = true := by decide +kernel
theorem test_wf_hello :
    onlyFirst (.hello 3 255 24)
      [.hello 4 255 24, .hello 3 256 24, .hello 3 255 0, .hello 3 255 25] = true := by decide +kernel
theorem test_wf_report :
    onlyFirst (.report 3 7 (List.replicate 8 (255, true)))
      [.report 4 7 (List.replicate 8 (255, true)), .report 3 8 (List.replicate 8 (255, true)),
        .report 3 7 (List.replicate 9 (0, true)), .report 3 7 [(256, true)]] = true := by decide +kernel
theorem test_wf_offer :
    onlyFirst (.offer .main 0 { unit := 0, number := 255, nBlocks := 0, blocks := [] })
      [.offer .main 0 { unit := 0, number := 256, nBlocks := 0, blocks := [] }] = true := by decide +kernel
theorem test_wf_audio :
    onlyFirst (.audio { port := .main, source := 0, unit := 0, link := 255 } 65535 3 keysReleased [])
      [.audio { port := .main, source := 0, unit := 0, link := 256 } 65535 3 keysReleased [],
        .audio { port := .main, source := 0, unit := 0, link := 255 } 65536 3 keysReleased [],
        .audio { port := .main, source := 0, unit := 0, link := 255 } 65535 4 keysReleased [],
        .audio { port := .main, source := 0, unit := 0, link := 255 } 65535 3 keysReleased (List.replicate 65537 0)] = true := by decide +kernel
theorem test_wf_keepalive :
    onlyFirst (.keepalive { port := .main, source := 0, unit := 0, link := 255 } keysReleased)
      [.keepalive { port := .main, source := 0, unit := 0, link := 256 } keysReleased] = true := by decide +kernel
theorem test_wf_closeAck :
    onlyFirst (.closeAck { port := .main, source := 0, unit := 0, link := 255 })
      [.closeAck { port := .main, source := 0, unit := 0, link := 256 }] = true := by decide +kernel
theorem test_wf_strayMessage :
    onlyFirst (.strayMessage .alternate 255)
      [.strayMessage .alternate 256] = true := by decide +kernel
theorem test_wf_negotiationTimerExpiry :
    onlyFirst (.negotiationTimerExpiry 23)
      [.negotiationTimerExpiry 24] = true := by decide +kernel
theorem test_wf_lingerTimerExpiry :
    onlyFirst (.lingerTimerExpiry 23)
      [.lingerTimerExpiry 24] = true := by decide +kernel
theorem test_wf_recoveryTimerExpiry :
    onlyFirst (.recoveryTimerExpiry 23)
      [.recoveryTimerExpiry 24] = true := by decide +kernel
theorem test_wf_wakeTimerExpiry :
    onlyFirst (.wakeTimerExpiry 23)
      [.wakeTimerExpiry 24] = true := by decide +kernel
theorem test_wf_silenceTimerExpiry :
    onlyFirst (.silenceTimerExpiry 23)
      [.silenceTimerExpiry 24] = true := by decide +kernel
theorem test_wf_keepaliveTimerExpiry :
    onlyFirst (.keepaliveTimerExpiry 23)
      [.keepaliveTimerExpiry 24] = true := by decide +kernel
theorem test_wf_closeTimerExpiry :
    onlyFirst (.closeTimerExpiry 23)
      [.closeTimerExpiry 24] = true := by decide +kernel
theorem test_wf_reservationTimerExpiry :
    onlyFirst (.reservationTimerExpiry 23)
      [.reservationTimerExpiry 24] = true := by decide +kernel
theorem test_wf_returnAudio :
    onlyFirst (.returnAudio 23)
      [.returnAudio 24] = true := by decide +kernel
theorem test_wf_playoutInstant :
    onlyFirst (.playoutInstant 23)
      [.playoutInstant 24] = true := by decide +kernel
theorem test_wf_sceneReadDone :
    onlyFirst (.sceneReadDone (some (List.replicate 16 0)))
      [.sceneReadDone (some [0])] = true := by decide +kernel

/-- Commands without operands, or whose operands cannot be ill formed, are well formed. -/
theorem test_wf_free : ([.linkLoss, .linkActive, .attn, .scanExpiry, .supervisionExpiry, .sceneAbort, .fallbackClear,
    .clearingStep, .applyingStep, .powerOn default, .xctlNone 3 255, .registerWrite .nvstat 0xFFFFFFFF#32] : List Instr).all
    Instr.wf = true := by decide

/-! ### Order slots (Tables 10-4 and 10-5) -/

/-- A slot written out byte by byte: kind, two bytes of zero, tag, then the arguments; the rest zero. -/
def slotOf (kind tag args : List Byte) : List Byte :=
  (kind ++ [0, 0] ++ tag ++ args ++ List.replicate 64 0).take 64

theorem test_slot_nop : decodeOrder (slotOf [0x01, 0] [0x78, 0x56, 0x34, 0x12] []) = some (.nop 0x12345678) := by
  decide +kernel
theorem test_slot_routeSet : decodeOrder (slotOf [0x10, 0] [0, 0, 0, 0] [5, 159, 216])
    = some (.routeSet 5 159 216) := by decide +kernel
theorem test_slot_destConfig : decodeOrder (slotOf [0x14, 0] [0, 0, 0, 0] [9, 0, 77, 1, 24])
    = some (.destConfig 9 none (some 24)) := by decide +kernel
theorem test_slot_busClear : decodeOrder (slotOf [0x21, 0] [0, 0, 0, 0] [7, 1, 33]) = some (.busClear 7 true 33) := by
  decide +kernel
theorem test_slot_foldBind : decodeOrder (slotOf [0x22, 0] [0, 0, 0, 0] [23, 1, 127]) = some (.foldBind 23 127)
    ∧ decodeOrder (slotOf [0x22, 0] [0, 0, 0, 0] [23, 0, 127]) = some (.foldUnbind 23) := by decide +kernel
theorem test_slot_keyAssign : decodeOrder (slotOf [0x30, 0] [0, 0, 0, 0] [88, 31, 1, 159, 2, 7, 216])
    = some (.keyAssign 88 31 1 159 2 7 216) := by decide +kernel
theorem test_slot_cadenceSet : decodeOrder (slotOf [0x42, 0] [0, 0, 0, 0] [3, 1, 0xD0, 7, 20, 0])
    = some (.cadenceSet 3 true 2000 20) := by decide +kernel
theorem test_slot_loopConfig : decodeOrder (slotOf [0x51, 0] [0, 0, 0, 0] [2, 1, 1, 0xE8, 3])
    = some (.loopConfig 2 true (some 1000)) := by decide +kernel
theorem test_slot_linkConfig : decodeOrder (slotOf [0x60, 0] [0, 0, 0, 0]
      [23, 1, 255, 255, 255, 255, 255, 255, 255, 255, 1, 2, 0, 255, 1, 4, 0, 0, 1, 200, 0])
    = some (.linkConfig 23 (some 18446744073709551615) (some [2, 0]) (some 4) none (some 200) none none none) := by
  decide +kernel
theorem test_slot_streamAppend : decodeOrder (slotOf [0x71, 0] [0, 0, 0, 0] [15, 0x20, 0x10, 0, 0, 1])
    = some (.streamAppend 15 0x100001020 none) := by decide +kernel
theorem test_slot_sceneRecall : decodeOrder (slotOf [0x80, 0] [0, 0, 0, 0] [8, 0, 0, 0, 0, 0, 0, 0x80])
    = some (.sceneRecall 0x8000000000000008) := by decide +kernel
theorem test_slot_unknown : decodeOrder (slotOf [0x03, 0] [0, 0, 0, 0] []) = none
    ∧ decodeOrder (slotOf [0x10, 1] [0, 0, 0, 0] []) = none := by decide +kernel

/-! ### Small states -/

def r0 : State := State.reset
def onExch (x : Exchange) (s : State) : State := { s with exch := x }
def on : State := { r0 with exch.part := .running }
def auto : State := { r0 with exch.part := .autonomous }
def onDest (d : Nat) (r : DestRec) (s : State) : State := s.withDest d r
def onPool (l : List PoolEntry) (s : State) : State := { s with mat.pool := l }
def onRec (r : Nat) (f : FoldRec) (s : State) : State := { s with fold.recs := tset s.fold.recs r f }
def onKey (st k : Nat) (e : KeyEntry) (s : State) : State :=
  { s with arb.keys := tset s.arb.keys st ((tget s.arb.keys st).set k e) }
def onLine (l : Nat) (r : Line) (s : State) : State := { s with arb.lines := tset s.arb.lines l r }
def onCalls (st : Nat) (l : List CallEntry) (s : State) : State := { s with call.lists := tset s.call.lists st l }
def onLoop (l : Nat) (r : Loop) (s : State) : State := { s with loops := tset s.loops l r }
def onPanel (st : Nat) (p : Panel) (s : State) : State := { s with panels := tset s.panels st p }
def onLink (n : Nat) (l : Link) (s : State) : State := { s with links := tset s.links n l }
def onJit (n : Nat) (j : Jitter) (s : State) : State := { s with jits := tset s.jits n j }
def onChan (c : Nat) (r : Channel) (s : State) : State := { s with chans := tset s.chans c r }

/-- The pool entry of a route. -/
def routed (d src lvl : Nat) : PoolEntry := { PoolEntry.blank d src with route := true, routeLevel := lvl }

/-- The state a command leaves. -/
def after (c : Instr) (s : State) : State :=
  match exec c s with
  | .next t => t
  | _ => s

/-! ### Single steps -/

theorem test_powerOn : after (.powerOn Inputs.atReset) on = r0 := rfl
theorem test_resetPin : (after (.resetPin Inputs.atReset) on).exch.startCause = .resetPin := by decide +kernel
theorem test_linkLoss : (after .linkLoss on).exch.part = .autonomous ∧ (after .linkLoss r0).exch.part = .stopped := by
  decide +kernel
theorem test_start : (after (.start 1 5 (some 3) (some 0)) r0).exch.part = .running
    ∧ (after (.start 1 5 (some 3) (some 0)) r0).exch.superTimer = some 500
    ∧ (after (.start 1 5 (some 3) none) r0).exch.part = .stopped := by decide +kernel
theorem test_registerWrite :
    (after (.registerWrite .xbaseL 0x12345FFF#32) r0).exch.xbaseL = 0x12345000#32 := by decide +kernel
theorem test_postWordRead :
    let s := after (.postWordRead ⟨some 5, none, none, none, none, none⟩) (onExch { on.exch with readsDue := 1 } on)
    tget s.exch.intake 0 = .pending ∧ tget s.exch.intake 1 = .free ∧ tget s.exch.intake 2 = .pending := by
  decide +kernel
theorem test_nop : (after (.nop 7) r0).exch.lastResult = some { code := .done, values := [7, 0, 0, 0] } := by
  decide +kernel
theorem test_routeSet : (after (.routeSet 0 1 200) r0).mat.pool = [routed 0 1 200]
    ∧ (after (.routeSet 160 1 200) r0).exch.lastResult.map (·.code) = some .badValue := by decide +kernel
theorem test_routeClear : (after (.routeClear 0 1) (onPool [routed 0 1 9, routed 0 2 9] r0)).mat.pool
    = [routed 0 2 9] := by decide +kernel
theorem test_destConfig : (after (.destConfig 3 (some 240) none) r0).dest 3
    = { DestRec.reset 3 with level := 240 } := by decide +kernel
theorem test_lockSet : ((after (.lockSet 0 2) r0).dest 0).lock = .fixed := by decide +kernel
theorem test_busSet : tget (after (.busSet 7 0 0) r0).mix.buses 7 = [{ source := 0, level := 0 }] := by decide +kernel
theorem test_foldBind : ((after (.foldBind 23 127) r0).dest 127).kind = .foldback := by decide +kernel
theorem test_foldMinusAdd : (tget (after (.foldMinusAdd 24 0) r0).fold.recs 24).minus = [128, 0] := by decide +kernel
theorem test_foldConfig :
    (tget (after (.foldConfig 0 none none (some 2) (some 4) none none) r0).fold.recs 0).depth = 4 := by
  decide +kernel
theorem test_keyAssign : ((after (.keyAssign 88 31 1 159 0 7 240) r0).key 88 31).function = .talk
    ∧ (after (.keyAssign 0 24 1 0 0 0 1) r0).exch.lastResult.map (·.code) = some .badValue := by decide +kernel
theorem test_lineConfig : ((after (.lineConfig 31 (some 8) (some 1) (some 30)) r0).line 31).limit = 8 := by
  decide +kernel
theorem test_lineMember : ((after (.lineMember 0 88 1) r0).line 0).members.length = 1 := by decide +kernel
theorem test_sysTimes : (after (.sysTimes (some 1000) (some 120)) r0).arb.smart = 1000 := by decide +kernel
theorem test_callSend : tget (after (.callSend 0) r0).call.lists 0
    = [{ caller := 88, repeats := 0, expiry := 30000 }] := by decide +kernel
theorem test_cadenceSet : (tget (after (.cadenceSet 3 true 20 2000) r0).call.gens 3).expiry = some 20 := by
  decide +kernel
theorem test_ciBind : ((after (.ciBind 15 4 0 1 1) r0).engine.emergency) = true := by decide +kernel
theorem test_coBind : (tget (after (.coBind 0 3 23 1 3 1) r0).call.outputs 0).function = .linkLive 23 := by
  decide +kernel
theorem test_panelConfig : (tget (after (.panelConfig 3 15 0 127 24) r0).panels 63).presence = .absent := by
  decide +kernel
theorem test_loopConfig : (tget (after (.loopConfig 0 true (some 2000)) r0).loops 0).rate = 2000 := by decide +kernel
theorem test_poll :
    let s := after (.poll 0) (after (.loopConfig 0 true none) (after (.panelConfig 0 3 0 0 1) r0))
    (tget s.loops 0).position = some 3 ∧ s.sent.head? = some (.poll 0 3 none false [false, false, false, false]) := by
  decide +kernel
theorem test_linkDuty : (tget (after (.linkDuty 0 0) r0).links 0).effective = .always := by decide +kernel
theorem test_linkProfiles :
    (tget (tget (after (.linkProfiles 0 3 256 2 256 1 0) r0).jits 0).profiles 3).usable = false := by
  decide +kernel
theorem test_offer : (tget (after (.offer .main 9 { unit := 1, number := 1, nBlocks := 1, blocks :=
      [{ framing := .within, version := 1, body := .formats [some .linear16] [4] }] })
      (after (.linkDuty 0 0) r0)).links 0).format = some (.linear16, 4) := by decide +kernel
theorem test_streamAppend :
    let d : DescRead := { buffer := 0, length := 48, flags := 0, hostState := 1 }
    ((after (.streamAppend 0 64 (some d)) r0).chan 0).state
    = .running := by decide +kernel
theorem test_sceneRecall : (after (.sceneRecall 8) r0).engine.state = .loading
    ∧ (after (.sceneRecall 4) r0).engine.state = .idle := by decide +kernel
theorem test_mixPeriod : (after (.mixPeriod []) r0).now = 1 := by decide +kernel
theorem test_supervisionExpiry :
    (after .supervisionExpiry (onExch { on.exch with superTimer := some 0 } on)).exch.autoFrom = .running := by
  decide +kernel
theorem test_step_idle : step r0 = .next r0 := rfl

/-! ### States that meet the hypotheses of the statements -/

theorem free {i : Instr} {s : State} (h : s.exch.inHand = none)
    (hp : s.exch.part ≠ .autonomous := by decide +kernel) : CarriedOut i s := Or.inl ⟨h, hp⟩

theorem notDue_stopped (now : Nat) : NotDue none now := nofun
theorem notDue_later {x now : Nat} (h : now < x) : NotDue (some x) now := by
  intro y hy
  cases hy
  exact h

theorem poolOk {l : List PoolEntry} (h : l.length ≤ 24) (he : ∀ e ∈ l, Inv.EntryOk e)
    (hn : (l.map fun e => (e.dest, e.source)).Nodup) : Inv.PoolOk l :=
  ⟨he, hn, Nat.le_trans h (by decide), fun _ => Nat.le_trans (List.length_filter_le _ _) h⟩

/-- An order stands in the slot in hand. -/
theorem test_wit_CarriedOut : CarriedOut (.streamAppend 15 64 (some default))
    (onExch { on.exch with inHand := some { slot := 63, order := .streamAppend 15 64 none } } on) := Or.inr ⟨63, rfl⟩

def waits : State := { onPool [routed 159 0 240] r0 with pending := [.linkActive] }
theorem waits_step : step waits = .next (onPool [routed 159 0 240] r0) := rfl

theorem test_wit_StepRunsFrontCommand : waits.pending = [Instr.linkActive] := rfl
theorem test_wit_EveryCommandAnswers : r0.pending = [] := rfl
theorem test_wit_MatrixAndBusRulesKept : step waits = .next (onPool [routed 159 0 240] r0)
    ∧ Inv.PoolOk waits.mat.pool ∧ Inv.SourceOk 159 (tget waits.mat.sources 159)
    ∧ Inv.SourceOk 151 (tget waits.mat.sources 151) ∧ (tget waits.mat.sources 151).cause ≠ none
    ∧ Inv.DestOk 0 (waits.dest 0) ∧ Inv.DestOk 159 (waits.dest 159) ∧ Inv.BusOk (waits.bus 7) := by
  refine ⟨waits_step, poolOk (by decide) (by unfold Inv.EntryOk; decide) (by decide), ?_, ?_, by decide +kernel, ?_, ?_, ?_⟩
  · unfold Inv.SourceOk; decide +kernel
  · unfold Inv.SourceOk; decide +kernel
  · simp only [Inv.DestOk, show waits.dest 0 = DestRec.reset 0 from rfl]; simp [DestRec.reset, DestKind.reset]
  · simp only [Inv.DestOk, show waits.dest 159 = DestRec.reset 159 from rfl]; simp [DestRec.reset, DestKind.reset]
  · simp only [Inv.BusOk, show waits.bus 7 = [] from rfl]; decide
theorem test_wit_FoldbackRulesKept : step waits = .next (onPool [routed 159 0 240] r0)
    ∧ Inv.FoldOk 0 (waits.rec_ 0) ∧ Inv.FoldOk 47 (waits.rec_ 47) := by
  refine ⟨waits_step, ?_, ?_⟩
  · simp only [Inv.FoldOk, Inv.InOrder]; decide +kernel
  · simp only [Inv.FoldOk, Inv.InOrder]; decide +kernel
theorem test_wit_KeyLineCallAndChannelRulesKept : step waits = .next (onPool [routed 159 0 240] r0)
    ∧ Inv.KeysOk 88 (tget waits.arb.keys 88) ∧ Inv.LineOk (waits.line 31)
    ∧ Inv.CallsOk 88 (tget waits.call.lists 88) ∧ Inv.ChanOk (waits.chan 15) := by
  refine ⟨waits_step, ⟨by decide +kernel, fun e he => ?_⟩, ?_, ?_, ?_⟩
  · have hr : ∀ e ∈ tget waits.arb.keys 88, e = KeyEntry.reset := by decide +kernel
    rw [hr e he]
    exact ⟨by decide, by decide, by decide, by decide, by decide⟩
  · rw [show waits.line 31 = Line.reset from rfl]
    exact ⟨by decide, by decide, by decide, by decide, by decide, by decide, by decide⟩
  · unfold Inv.CallsOk; decide +kernel
  · unfold Inv.ChanOk; decide +kernel
theorem test_wit_LinkPanelVectorAndRegisterRulesKept : step waits = .next (onPool [routed 159 0 240] r0)
    ∧ Inv.LinkOk (waits.link 23) ∧ Inv.PanelOk (waits.panel 63) ∧ Inv.JitOk (tget waits.jits 23)
    ∧ Inv.Quiet waits ∧ Inv.RegsOk waits.exch := by
  refine ⟨waits_step, ?_, ?_, ?_, fun _ v => ?_, by unfold Inv.RegsOk; decide +kernel⟩
  · unfold Inv.LinkOk; decide +kernel
  · rw [show waits.panel 63 = Panel.reset from rfl]
    exact ⟨by decide, by decide, by decide, fun _ => rfl⟩
  · rw [show tget waits.jits 23 = Jitter.reset from rfl]
    exact ⟨by unfold Inv.ProfileOk; decide, by decide, by decide, by decide, by decide, by decide, by decide⟩
  · show tget (build 4 fun _ => false) v = false
    match v with
    | 0 | 1 | 2 | 3 => rfl
    | n + 4 => simp [tget]
theorem test_wit_FixedLockEndsByResetAlone :
    ((onDest 159 { DestRec.reset 159 with lock := .fixed } r0).dest 159).lock = .fixed
      ∧ ∀ i, Instr.attn ≠ .powerOn i ∧ Instr.attn ≠ .resetPin i :=
  ⟨rfl, fun _ => ⟨nofun, nofun⟩⟩
theorem test_wit_OrderSlotsRoundTrip : (Instr.lineMember 255 255 255).wf = true
    ∧ ∃ b, encodeOrder (.lineMember 255 255 255) = some b := ⟨by decide, _, rfl⟩

/-! Exchange unit. -/

def off : State := onExch { r0.exch with linkActive := false } r0
theorem test_wit_RegisterWrites : r0.exch.linkActive = true ∧ r0.exch.part ≠ .running
    ∧ on.exch.linkActive = true ∧ on.exch.part ≠ .stopped ∧ off.exch.linkActive = false := by decide +kernel
theorem test_wit_AreaReads : on.exch.linkActive = true ∧ on.exch.part = .running
    ∧ r0.exch.linkActive = true ∧ r0.exch.part ≠ .running
    ∧ (onExch { on.exch with scanTimer := some 0 } on).exch.scanTimer = some on.now
    ∧ NotDue on.exch.scanTimer on.now ∧ NotDue (onExch { on.exch with scanTimer := some 1 } on).exch.scanTimer on.now
    ∧ (let s := onExch { on.exch with readsDue := 1 } on
       s.exch.part = .running ∧ 0 < s.exch.readsDue) :=
  ⟨by decide +kernel, by decide +kernel, by decide +kernel, by decide +kernel, by decide +kernel, notDue_stopped _,
    notDue_later (by decide), by decide +kernel⟩
/-- Slot 0 alone is Pending, the scan pointer behind it. -/
def wrapped : State := onExch { on.exch with intake := tset on.exch.intake 0 .pending, scanPtr := 1 } on
theorem test_wit_OrderTakeFirstPending : wrapped.exch.part = .running ∧ wrapped.exch.inHand = none
    ∧ FirstPending wrapped.exch 0
    ∧ FirstPending { on.exch with intake := tset on.exch.intake 63 .pending, scanPtr := 63 } 63
    ∧ decodeOrder (slotOf [0x81, 0] [0, 0, 0, 0] []) = some .sceneAbort ∧ decodeOrder [] = none
    ∧ r0.exch.part ≠ .running ∧ (∀ j, j < 64 → tget on.exch.intake j ≠ .pending) := by
  refine ⟨by decide +kernel, by decide +kernel, ⟨63, by decide, by decide, by decide +kernel, ?_⟩,
    ⟨0, by decide, by decide, by decide +kernel, ?_⟩, by decide +kernel, by decide +kernel, by decide +kernel, ?_⟩
  all_goals decide +kernel
theorem test_wit_FinishedOrderIsReported : 63 < 64 ∧ r0.writeFaults = [] := by decide
theorem test_wit_StartMakesRunning : r0.exch.linkActive = true ∧ r0.exch.part = .stopped ∧ r0.writeFaults = [] := by
  decide +kernel
theorem test_wit_StopMakesStopped : on.exch.linkActive = true ∧ on.exch.part = .running ∧ on.exch.inHand = none
    ∧ ∀ c, c < 16 → Inv.ChanOk (on.chan c) := by
  unfold Inv.ChanOk; decide +kernel
theorem test_wit_RestartMakesRunning : auto.exch.linkActive = true ∧ auto.exch.part = .autonomous
    ∧ auto.exch.inHand = none ∧ auto.engine.state = .idle ∧ auto.reports = []
    ∧ (∀ c, c < 16 → (auto.chan c).cuePlace = .none) ∧ on.exch.part ≠ .stopped := by decide +kernel
theorem test_wit_AutonomousEntry :
    (let strict := onExch { r0.exch with mode := .strict, started := true } r0
     let full : State := { on with engine := { on.engine with store := some (9, [1]) } }
     on.exch.inHand = none ∧ on.exch.linkActive = true ∧ on.exch.part = .running ∧ on.engine.state = .idle
      ∧ on.engine.store = none ∧ full.engine.state = .idle ∧ full.engine.store = some (9, [1])
      ∧ strict.exch.part = .stopped ∧ strict.exch.mode = .strict ∧ strict.exch.started = true
      ∧ (onExch { on.exch with superTimer := some 0 } on).exch.superTimer = some on.now ∧ on.exch.part ≠ .autonomous)
    ∧ auto.exch.part = .autonomous
    ∧ (r0.exch.part = .stopped ∧ ¬(r0.exch.mode = .strict ∧ r0.exch.started = true)) ∧ NotDue r0.exch.superTimer r0.now
    ∧ NotDue (onExch { on.exch with superTimer := some 1 } on).exch.superTimer on.now :=
  ⟨by decide +kernel, by decide +kernel, by decide +kernel, notDue_stopped _, notDue_later (by decide)⟩
/-- Slot 63 in hand with an order, supervision about to expire. -/
def handed (i : Instr) : State :=
  onExch { on.exch with
    inHand := some { slot := 63, order := i }, superTimer := some 0, intake := tset on.exch.intake 63 .inFlight
    postTaken := setBit 0 63 true } on
theorem test_wit_OrderInHandEnds :
    (∀ i ∈ [Instr.nop 7, .sceneRecall 8, .fallbackStore 8, .streamStop 15, .streamCut 15, .ciBind 15 2 15 1 1],
      let s := handed i
      s.exch.linkActive = true ∧ s.exch.part = .running ∧ s.reports = [] ∧ 63 < 64
        ∧ s.exch.inHand = some { slot := 63, order := i } ∧ s.engine.state = .idle ∧ s.writeFaults = []
        ∧ s.exch.superTimer = some s.now ∧ (s.chan 15).cuePlace = .none ∧ ∀ n, n < 16 → (s.input n).function = .none)
    ∧ decodeOrder (slotOf [1, 0] [7, 0, 0, 0] []) = some (.nop 7)
    ∧ decodeOrder (slotOf [0x73, 0] [0, 0, 0, 0] [15]) = some (.streamStop 15)
    ∧ decodeOrder (slotOf [0x74, 0] [0, 0, 0, 0] [15]) = some (.streamCut 15)
    ∧ inFunctionOf 2 = some .cut ∧ (∃ body, abandonedBody none (.streamStop 15) = some body)
    ∧ decodeOrder (slotOf [0x80, 0] [0, 0, 0, 0] [8]) = some (.sceneRecall 8)
    ∧ (∀ a, Instr.nop 7 ≠ .sceneRecall a ∧ Instr.nop 7 ≠ .fallbackStore a)
    ∧ (∃ body, orderBody none (.nop 7) = some body) ∧ r0.exch.inHand = none ∧ r0.exch.part ≠ .autonomous :=
  ⟨by decide +kernel, by decide +kernel, by decide +kernel, by decide +kernel, rfl, ⟨_, rfl⟩, by decide +kernel,
    fun _ => ⟨nofun, nofun⟩, ⟨_, rfl⟩, by decide +kernel⟩
theorem test_handed : (after (.stop 0 1 none) (handed (.nop 7))).exch.lastResult = some { code := .done, values := u32 7 }
    ∧ bit (after (.stop 0 1 none) (handed (.nop 7))).exch.doneCopy 63 = true
    ∧ (tget (after .linkLoss (handed (.sourceConfig 159 (some 240) none))).mat.sources 159).trim = 240
    ∧ (after .linkLoss (handed (.sourceConfig 159 (some 240) none))).exch.inHand = none := by decide +kernel
theorem test_wit_PartSettingOrders : CarriedOut (.nop 0) r0 ∧ CarriedOut (.exchScan 65) r0 ∧ 64 < 65
    ∧ (CarriedOut (.exchScan 64) r0 ∧ 64 ≤ 64) ∧ CarriedOut (.deskConfig 160) r0 ∧ CarriedOut (.deskConfig 159) r0
    ∧ CarriedOut (.deskConfig 255) r0 ∧ CarriedOut (.sysTimes (some 1050) (some 121)) r0
    ∧ (CarriedOut (.sysTimes (some 1000) (some 5)) r0
      ∧ ¬((∃ v, some 1000 = some v ∧ (v < 100 ∨ 1000 < v ∨ v % 50 ≠ 0)) ∨ ∃ v, some 5 = some v ∧ (v < 5 ∨ 120 < v))) :=
  ⟨free rfl, free rfl, by decide, ⟨free rfl, by decide⟩, free rfl, free rfl, free rfl, free rfl, free rfl, by simp⟩
theorem test_wit_EventsAndVectors : 52 < 53 ∧ r0.exch.part ≠ .running ∧ on.exch.part = .running ∧ on.writeFaults = [] := by
  decide +kernel

/-! Matrix controller and mixer. -/

def locked : State := onDest 0 { DestRec.reset 0 with lock := .held } r0
/-- Destination 0 with 24 entries. -/
def full : State := onPool ((List.range 24).map fun k => routed 0 k 0) r0
theorem full_ok : Inv.PoolOk full.mat.pool := poolOk (by decide) (by unfold Inv.EntryOk; decide) (by decide)
theorem test_wit_RouteSetOrder : CarriedOut (.routeSet 160 160 241) r0
    ∧ (CarriedOut (.routeSet 0 0 0) locked ∧ (locked.dest 0).lock ≠ .free)
    ∧ (CarriedOut (.routeSet 128 128 0) r0 ∧ (r0.dest 128).lock = .free ∧ minusHolds r0 128 128 = true)
    ∧ (CarriedOut (.routeSet 0 24 0) full ∧ (full.dest 0).lock = .free ∧ minusHolds full 0 24 = false
      ∧ findEntry full.mat.pool 0 24 = none ∧ 24 ≤ destCount full.mat.pool 0)
    ∧ (CarriedOut (.routeSet 159 159 240) r0 ∧ Inv.PoolOk r0.mat.pool ∧ (r0.dest 159).lock = .free
      ∧ minusHolds r0 159 159 = false ∧ r0.mat.pool.length < 2048 ∧ destCount r0.mat.pool 159 < 24)
    ∧ (CarriedOut (.routeSet 0 23 0) full ∧ Inv.PoolOk full.mat.pool ∧ (full.dest 0).lock = .free
      ∧ minusHolds full 0 23 = false ∧ (findEntry full.mat.pool 0 23).isSome = true) :=
  ⟨free rfl, ⟨free rfl, by decide +kernel⟩, ⟨free rfl, by decide +kernel⟩, ⟨free rfl, by decide +kernel⟩,
    ⟨free rfl, poolOk (l := []) (by decide) (by simp) (by decide), by decide +kernel⟩, free rfl, full_ok, by decide +kernel⟩
theorem test_wit_RouteClears : Inv.PoolOk full.mat.pool ∧ CarriedOut (.routeClear 159 159) full
    ∧ CarriedOut (.routeClearDest 159) full ∧ (full.dest 159).lock = .free ∧ (locked.dest 0).lock ≠ .free
    ∧ CarriedOut (.routeClear 160 160) full ∧ CarriedOut (.routeClearDest 160) full :=
  ⟨full_ok, free rfl, free rfl, by decide +kernel, by decide +kernel, free rfl, free rfl⟩
theorem test_wit_SourceConfigWrites : CarriedOut (.sourceConfig 160 (some 241) (some 2)) r0
    ∧ CarriedOut (.sourceConfig 159 (some 240) (some 1)) r0
    ∧ ¬(159 < 159 ∨ (∃ v, some 240 = some v ∧ 240 < v) ∨ ∃ v, some 1 = some v ∧ 1 < v)
    ∧ CarriedOut (.sourceConfig 159 none none) r0 :=
  ⟨free rfl, free rfl, by simp, free rfl⟩
theorem test_wit_DestConfigWrites : CarriedOut (.destConfig 160 (some 241) (some 25)) r0
    ∧ (CarriedOut (.destConfig 0 (some 240) (some 24)) locked ∧ (locked.dest 0).lock ≠ .free)
    ∧ (CarriedOut (.destConfig 159 (some 240) (some 1)) r0 ∧ (r0.dest 159).lock = .free
      ∧ ¬(159 < 159 ∨ (∃ v, some 240 = some v ∧ 240 < v) ∨ ∃ v, some 1 = some v ∧ (v = 0 ∨ 24 < v)))
    ∧ CarriedOut (.destConfig 159 none none) r0 :=
  ⟨free rfl, ⟨free rfl, by decide +kernel⟩, ⟨free rfl, by decide +kernel, by simp⟩, free rfl⟩
def suspended : State := { r0 with engine := { r0.engine with state := .suspended } }
def fixed : State := onDest 159 { DestRec.reset 159 with lock := .fixed } r0
theorem test_wit_LockOrders : (CarriedOut (.lockSet 160 1) r0 ∧ CarriedOut (.lockSet 159 0) r0
      ∧ CarriedOut (.lockSet 159 3) r0 ∧ CarriedOut (.lockClear 160) r0)
    ∧ (CarriedOut (.lockSet 159 1) suspended ∧ CarriedOut (.lockClear 159) suspended
      ∧ suspended.engine.state = .suspended)
    ∧ (CarriedOut (.lockSet 159 1) fixed ∧ CarriedOut (.lockClear 159) fixed ∧ fixed.engine.state ≠ .suspended
      ∧ (fixed.dest 159).lock = .fixed)
    ∧ (CarriedOut (.lockSet 159 2) r0 ∧ CarriedOut (.lockClear 159) r0 ∧ r0.engine.state ≠ .suspended
      ∧ (r0.dest 159).lock ≠ .fixed) :=
  ⟨⟨free rfl, free rfl, free rfl, free rfl⟩, ⟨free rfl, free rfl, by decide +kernel⟩,
    ⟨free rfl, free rfl, by decide +kernel⟩, free rfl, free rfl, by decide +kernel⟩
def bused (n : Nat) : State :=
  { r0 with mix.buses := tset r0.mix.buses 7 ((List.range n).map fun k => { source := k, level := 0 }) }
theorem test_wit_BusOrders : CarriedOut (.busSet 8 160 241) r0 ∧ CarriedOut (.busClear 8 false 160) r0
    ∧ (CarriedOut (.busSet 7 31 240) (bused 32) ∧ ∃ m, m ∈ (bused 32).bus 7 ∧ m.source = 31)
    ∧ (CarriedOut (.busSet 7 159 0) (bused 32) ∧ (∀ m, m ∈ (bused 32).bus 7 → m.source ≠ 159)
      ∧ 32 ≤ ((bused 32).bus 7).length)
    ∧ (CarriedOut (.busSet 7 159 0) (bused 31) ∧ (∀ m, m ∈ (bused 31).bus 7 → m.source ≠ 159)
      ∧ ((bused 31).bus 7).length < 32)
    ∧ CarriedOut (.busClear 7 true 255) (bused 32) ∧ CarriedOut (.busClear 7 false 159) (bused 32) :=
  ⟨free rfl, free rfl, ⟨free rfl, by decide +kernel⟩, ⟨free rfl, by decide +kernel⟩, ⟨free rfl, by decide +kernel⟩,
    free rfl, free rfl⟩
/-- Source 127 routed at 0 dB to destination 127, heard already. -/
def heardState : State :=
  let s := onPool [routed 127 127 216] r0
  let p : Plan := { terms := [{ path := .crosspoint, source := 127, gain := some 0 }], level := some 0 }
  { s with mix.plans := tset s.mix.plans 127 p }
/-- The gains of source 127 at destination 127: before the period, and from it on. -/
def gainsAt (trim heard level : Nat × Nat) (s : State) : Prop :=
  tget s.mix.sourceGain 127 = gainOf trim.1
    ∧ tget s.mat.sources 127 = { trim := trim.2, mute := false, cause := none }
    ∧ (s.mat.pool.filter fun e => e.dest == 127 && decide (0 < e.heard)).map (fun e => (e.source, e.heard))
        = (if heard.2 = 0 then [] else [(127, heard.2)])
    ∧ tget s.mix.plans 127 =
        { terms := if heard.1 = 0 then [] else [{ path := .crosspoint, source := 127, gain := gainOf heard.1 }]
          level := gainOf level.1 }
    ∧ (s.dest 127).level = level.2
/-- The entry appears at `heard`; the trim and the output level go to the values given. -/
def moved (trim heard level : Nat) (terms : List Term) : State :=
  let s := onDest 127 { DestRec.reset 127 with level := level } (onPool (if heard = 0 then [] else [routed 127 127 heard]) r0)
  { s with
    mat.sources := tset s.mat.sources 127 { trim := trim, mute := false, cause := none }
    mix.plans := tset s.mix.plans 127 { terms := terms, level := some 0 } }
theorem test_wit_MixPeriodPasses :
    (let xs := List.replicate 48 (8388607 : Int)
     xs.length = 48 ∧ (∀ x, x ∈ xs → -8388608 ≤ x ∧ x ≤ 8388607) ∧ ([(127, xs)].find? fun p => p.1 == 127) = some (127, xs))
    ∧ ((heardState.dest 127).kind = .plain ∧ (heardState.dest 127).slots = [] ∧ gainsAt (216, 216) (216, 216) (216, 216) heardState)
    ∧ (let one : List Term := [{ path := .crosspoint, source := 127, gain := some 0 }]
       gainsAt (216, 240) (216, 216) (216, 216) (moved 240 216 216 one) ∧ gainsAt (216, 216) (0, 240) (216, 216) (moved 216 240 216 [])
        ∧ gainsAt (216, 216) (216, 0) (216, 216) (moved 216 0 216 one) ∧ gainsAt (216, 216) (216, 216) (216, 0) (moved 216 216 0 one)
        ∧ ∀ a ∈ [216, 240], ∀ b ∈ [0, 216, 240], ∀ c ∈ [0, 216],
            ((moved a b c one).dest 127).kind = .plain ∧ ((moved a b c one).dest 127).slots = []) := by
  unfold gainsAt
  decide +kernel
/-- A pool entry that appears at 0 dB rises evenly. -/
theorem test_rises : tget (after (.mixPeriod [(127, List.replicate 48 480)]) (moved 216 216 216 [])).mix.finished 127
    = (List.range 48).map fun k => 10 * ((k : Int) + 1) := by decide +kernel
/-- The factors of +12 dB and −20 dB with 16 binary places, and of −107.5 dB with 64. -/
theorem test_factors : gainFactor (gainOf 240) / 2 ^ 48 = 260903 ∧ gainFactor (gainOf 176) / 2 ^ 48 = 6553
    ∧ gainFactor (gainOf 1) = 77789274755252 := by decide +kernel

/-- A source has been silent for a period; source 0 stands in the minus set of record 24 and is panel 0's microphone. -/
def leftOut (src : Nat) : State :=
  let s := onPanel 0 { Panel.reset with mic := some 0, speaker := some 127 }
    (onRec 24 { FoldRec.reset 24 with minus := [128, 0] } r0)
  { s with
    mat.sources := tset s.mat.sources src { tget s.mat.sources src with mute := decide (src < 128 ∨ 151 < src) }
    mix.sourceGain := tset s.mix.sourceGain src none }
theorem test_wit_SourcesLeftOut :
    (0 < 160 ∧ ∀ i, i ≠ 0 → ([] : List (Nat × List Int)).find? (fun p => p.1 == i)
      = [((0 : Nat), [(1 : Int)])].find? fun p => p.1 == i)
    ∧ ((tget (leftOut 0).mat.sources 0).mute = true ∧ tget (leftOut 0).mix.sourceGain 0 = none)
    ∧ (let s := leftOut 151
       let jits := tset s.jits 23 { tget s.jits 23 with playing := [1] }
       (∀ n, n < 24 → 128 + n ≠ 151 → (tget jits n).playing = (tget s.jits n).playing)
        ∧ (tget jits 23).playing ≠ (tget s.jits 23).playing
        ∧ (tget s.mat.sources 151).cause ≠ none ∧ tget s.mix.sourceGain 151 = none)
    ∧ (let s := leftOut 159
       let r : Channel := { Channel.reset with
         state := .running, chain := [Desc.mk 0 64 96 false false 0], staging := [{ at_ := 0, samples := [1] }] }
       let chans := tset s.chans 7 r
       (∀ c, c < 8 → 152 + c ≠ 159 → (tget chans c).plays = (s.chan c).plays)
        ∧ (tget chans 7).plays ≠ (s.chan 7).plays
        ∧ (tget s.mat.sources 159).mute = true ∧ tget s.mix.sourceGain 159 = none)
    ∧ (let s := leftOut 0
       ((s.dest 128).kind = .ret ∧ (s.rec_ 24).bound = some 128
        ∧ (∀ q, q < 48 → (s.rec_ q).bound = some 128 → q = 24) ∧ 0 ∈ (s.rec_ 24).minus)
      ∧ ((s.dest 127).kind = .plain ∧ speakerOf s 0 = some 127 ∧ micOf s 0 = some 0)
      ∧ (s.mat.pool = [] ∧ (tget s.mix.plans 127).terms = [] ∧ (tget s.mix.plans 128).terms = [])) := by
  refine ⟨⟨by decide, fun i hi => ?_⟩, by decide +kernel⟩
  have h0 : (0 == i) = false := by simp [Ne.symm hi]
  simp [List.find?, h0]
/-- A state whose mixer already uses the gains of its settings at destination `d`. -/
def settledAt (d : Nat) (s : State) : State :=
  { s with mix.plans := tset s.mix.plans d (planOf s d), mix.programme := programmeNow s }
/-- The desk talks at 0 dB on line 31, which destination 127 hears. -/
def lineHeard : State :=
  settledAt 127 (onDest 127 { DestRec.reset 127 with slots := [{ line := 31, holders := 1 }] }
    (onLine 31 { Line.reset with talkers := [{ key := ⟨88, 31⟩, timer := none }] }
      { r0 with arb := { r0.arb with deskMic := some 127 } }))
/-- Return 151 with programme bus 7, source 0 in the minus set, and the interrupt entries given. -/
def returned (ints : List FoldEntry) (mode : FoldMode) (duck : Duck) : State :=
  settledAt 151 (onRec 47 { FoldRec.reset 47 with
      bus := some 7, minus := [151, 0], ints := ints, mode := mode, duck := duck }
    { r0 with mix.buses := tset r0.mix.buses 7 [{ source := 0, level := 240 }, { source := 127, level := 216 }] })
/-- Capture destination 159 mirrors destination 127. -/
def mirrored : State := settledAt 159 (onDest 159 { DestRec.reset 159 with mirror := some 127 } heardState)
def loudest : List Int := List.replicate 48 8388607
def interruptEntry : FoldEntry :=
  { requester := .key 0 0, source := 127, cls := 0, level := 216, stamp := 0, order := 0 }
/-- What the statement asks of destination `d` in every clause, but for the pool, which is empty. -/
def atZero (d : Nat) (s : State) : Prop :=
  tget s.mat.sources 127 = { trim := 216, mute := false, cause := none } ∧ tget s.mix.sourceGain 127 = some 0
    ∧ (s.dest d).level = 216 ∧ s.mat.pool = [] ∧ tget s.mix.plans d = planOf s d
theorem test_wit_MixedParts :
    (loudest.length = 48 ∧ (∀ x, x ∈ loudest → -8388608 ≤ x ∧ x ≤ 8388607)
      ∧ ([(127, loudest)].find? fun p => p.1 == 127) = some (127, loudest))
    ∧ (atZero 127 lineHeard ∧ (lineHeard.dest 127).kind = .plain
      ∧ (lineHeard.dest 127).slots = [{ line := 31, holders := 1 }]
      ∧ (lineHeard.line 31).talkers = [{ key := ⟨88, 31⟩, timer := none }] ∧ micOf lineHeard 88 = some 127
      ∧ (lineHeard.key 88 31).level = 216
      ∧ ∀ st, st < 89 → ¬(speakerOf lineHeard st = some 127 ∧ micOf lineHeard st = some 127))
    ∧ (let s := returned [] .dim .opened
       atZero 151 s ∧ (s.dest 151).kind = .ret ∧ (s.dest 151).slots = [] ∧ (s.rec_ 47).bound = some 151
        ∧ (∀ q, q < 48 → (s.rec_ q).bound = some 151 → q = 47) ∧ (s.rec_ 47).bus = some 7 ∧ (s.rec_ 47).level = 216
        ∧ (s.rec_ 47).duck = .opened ∧ (s.rec_ 47).ints = [] ∧ tget s.mix.programme 47 = (some 0, some 0)
        ∧ ((s.bus 7).filter fun m => !(s.rec_ 47).minus.contains m.source) = [{ source := 127, level := 216 }])
    ∧ (let s := returned [interruptEntry] .cut .ducked
       atZero 151 s ∧ (s.rec_ 47).mode = .cut ∧ (s.rec_ 47).duck = .ducked ∧ (s.rec_ 47).ints = [interruptEntry]
        ∧ (tget s.mix.programme 47).2 = none ∧ 127 ∉ (s.rec_ 47).minus)
    ∧ ((mirrored.dest 159).kind = .capture ∧ (mirrored.dest 159).mirror = some 127
      ∧ (mirrored.dest 127).kind ≠ .capture ∧ (mirrored.dest 159).level = 216
      ∧ (tget mirrored.mix.plans 159).level = some 0) := by
  refine ⟨by decide, ⟨?_, by decide +kernel⟩, ⟨?_, by decide +kernel⟩, ⟨?_, by decide +kernel⟩, by decide +kernel⟩
  all_goals
    unfold atZero
    decide +kernel
/-- What each of those states is heard as. -/
theorem test_mixed :
    tget (after (.mixPeriod [(127, loudest)]) lineHeard).mix.finished 127 = loudest
    ∧ tget (after (.mixPeriod [(127, loudest)]) (returned [] .dim .opened)).mix.finished 151 = loudest
    ∧ tget (after (.mixPeriod [(127, loudest)]) (returned [interruptEntry] .cut .ducked)).mix.finished 151 = loudest
    ∧ tget (after (.mixPeriod [(127, loudest)]) mirrored).mix.finished 159 = loudest := by decide +kernel

/-- Return 151 in a dim of 20 dB that begins, its programme level going from Off to 0 dB, with the terms in use and the members
given. -/
def programmeMoves (terms : List Term) (ms : List Member) (mode : FoldMode) : State :=
  let s := onRec 47 { FoldRec.reset 47 with bus := some 7, mode := mode, duck := .ducked } r0
  { s with
    mix.buses := tset s.mix.buses 7 ms, mix.plans := tset s.mix.plans 151 { terms := terms, level := some 0 }
    mix.programme := tset s.mix.programme 47 (none, some 0) }
def byProgramme (g : Gain) : Term := { path := .programme 47, source := 127, gain := g }
theorem test_wit_MixedParts_programme :
    (∀ mode ∈ [FoldMode.dim, .cut, .over],
      ∀ s ∈ [programmeMoves [] [{ source := 127, level := 240 }] mode, programmeMoves [byProgramme (some 24)] [] mode,
          programmeMoves [byProgramme none] [{ source := 127, level := 0 }] mode],
        (s.dest 151).kind = .ret ∧ (s.dest 151).slots = [] ∧ (s.rec_ 47).bound = some 151
          ∧ (∀ q, q < 48 → (s.rec_ q).bound = some 151 → q = 47) ∧ (s.rec_ 47).bus = some 7 ∧ (s.rec_ 47).ints = []
          ∧ (s.rec_ 47).dim ≤ 60 ∧ (tget s.mix.plans 151).level = some 0 ∧ (s.rec_ 47).level = 216
          ∧ tget s.mix.programme 47 = (gainOf 0, gainOf 216) ∧ (s.dest 151).level = 216 ∧ s.mat.pool = []
          ∧ tget s.mat.sources 127 = { trim := 216, mute := false, cause := none } ∧ tget s.mix.sourceGain 127 = some 0)
    ∧ gainOf 240 = some 24 ∧ gainOf 0 = none
    ∧ (let s := programmeMoves [] [{ source := 127, level := 240 }] .dim
       (tget s.mix.plans 151).terms = []
        ∧ ((s.bus 7).filter fun m => !(s.rec_ 47).minus.contains m.source) = [{ source := 127, level := 240 }])
    ∧ (let s := programmeMoves [byProgramme (some 24)] [] .dim
       (tget s.mix.plans 151).terms = [byProgramme (some 24)]
        ∧ ((s.bus 7).filter fun m => !(s.rec_ 47).minus.contains m.source) = []) := by decide +kernel
/-- A member that appears, or goes, while the programme level rises from Off is heard under both moves. -/
theorem test_programmeMoves :
    let out (s : State) : List Int := tget (after (.mixPeriod [(127, List.replicate 48 2304)]) s).mix.finished 151
    out (programmeMoves [] [{ source := 127, level := 216 }] .over)
        = (List.range 48).map (fun k => ((k : Int) + 1) * (k + 1))
      ∧ out (programmeMoves [byProgramme (some 0)] [] .over) = (List.range 48).map (fun k => (47 - (k : Int)) * (k + 1))
      ∧ out (after (.mixPeriod []) (programmeMoves [] [{ source := 127, level := 216 }] .over)) = List.replicate 48 2304 := by
  decide +kernel

/-! Foldback unit. -/

/-- An entry of a key of station 0. -/
def asks (k cls : Nat) : FoldEntry :=
  { requester := .key 0 k, source := 100 + k, cls := cls, level := 216, stamp := 0, order := k }
def boundRec : FoldRec := { FoldRec.reset 23 with bound := some 127 }
/-- Record 23 bound to destination 127. -/
def bound : State := onRec 23 boundRec (onDest 127 { DestRec.reset 127 with kind := .foldback } r0)
/-- The same destination locked. -/
def boundLocked : State := onDest 127 { DestRec.reset 127 with kind := .foldback, lock := .held } bound
/-- The record with an interrupt and with a pending entry more than its depth. -/
def asked : State :=
  onRec 23 { boundRec with depth := 1, ints := [asks 0 3], pends := [asks 1 3], duck := .ducked } bound

def minusFull : State := onRec 23 { boundRec with minus := [1, 2, 3, 4] } bound
theorem test_wit_FoldBindingAndMinus : (CarriedOut (.foldBind 24 128) r0 ∧ CarriedOut (.foldUnbind 24) r0
    ∧ (CarriedOut (.foldBind 23 127) bound ∧ (bound.rec_ 23).bound ≠ none)
    ∧ (CarriedOut (.foldBind 23 127) r0 ∧ (r0.rec_ 23).bound = none ∧ (∀ q, q < 48 → (r0.rec_ q).bound ≠ some 127)
      ∧ (r0.dest 127).lock = .free)
    ∧ (CarriedOut (.foldBind 0 0) locked ∧ (locked.rec_ 0).bound = none
      ∧ (∀ q, q < 48 → (locked.rec_ q).bound ≠ some 0) ∧ (locked.dest 0).lock ≠ .free)
    ∧ (CarriedOut (.foldUnbind 23) r0 ∧ (r0.rec_ 23).bound = none)
    ∧ (CarriedOut (.foldUnbind 23) asked ∧ (asked.rec_ 23).ints ≠ [])
    ∧ (CarriedOut (.foldUnbind 23) bound ∧ (bound.rec_ 23).bound = some 127 ∧ (bound.rec_ 23).ints = []
      ∧ (bound.rec_ 23).pends = [] ∧ (bound.dest 127).lock = .free)
    ∧ (CarriedOut (.foldUnbind 23) boundLocked ∧ (boundLocked.rec_ 23).bound = some 127
      ∧ (boundLocked.dest 127).lock ≠ .free))
    ∧ (CarriedOut (.foldMinusAdd 48 160) r0 ∧ CarriedOut (.foldMinusRemove 48 160) r0
    ∧ (CarriedOut (.foldMinusAdd 23 0) r0 ∧ CarriedOut (.foldMinusRemove 23 0) r0 ∧ (r0.rec_ 23).bound = none)
    ∧ (CarriedOut (.foldMinusAdd 23 0) boundLocked ∧ CarriedOut (.foldMinusRemove 23 0) boundLocked
      ∧ (boundLocked.rec_ 23).bound = some 127 ∧ (boundLocked.dest 127).lock ≠ .free)
    ∧ (CarriedOut (.foldMinusAdd 47 151) r0 ∧ CarriedOut (.foldMinusRemove 47 151) r0
      ∧ (r0.rec_ 47).bound = some 151 ∧ (r0.dest 151).lock = .free ∧ 151 ∈ (r0.rec_ 47).minus ∧ 151 = 104 + 47)
    ∧ (CarriedOut (.foldMinusAdd 23 0) minusFull ∧ CarriedOut (.foldMinusRemove 23 4) minusFull
      ∧ (minusFull.rec_ 23).bound = some 127 ∧ (minusFull.dest 127).lock = .free
      ∧ 0 ∉ (minusFull.rec_ 23).minus ∧ 4 ≤ (minusFull.rec_ 23).minus.length)
    ∧ (CarriedOut (.foldMinusAdd 23 100) asked ∧ (asked.rec_ 23).bound = some 127 ∧ (asked.dest 127).lock = .free
      ∧ 100 ∉ (asked.rec_ 23).minus ∧ (asked.rec_ 23).minus.length < 4
      ∧ ∃ e, e ∈ (asked.rec_ 23).ints ++ (asked.rec_ 23).pends ∧ e.source = 100)
    ∧ (let s := onPool [routed 127 159 0] bound
       CarriedOut (.foldMinusAdd 23 159) s ∧ (s.rec_ 23).bound = some 127 ∧ (s.dest 127).lock = .free
         ∧ 159 ∉ (s.rec_ 23).minus ∧ ∃ e, e ∈ s.mat.pool ∧ e.dest = 127 ∧ e.source = 159)
    ∧ (CarriedOut (.foldMinusAdd 23 159) asked ∧ 159 ∉ (asked.rec_ 23).minus
      ∧ (∀ e, e ∈ (asked.rec_ 23).ints ++ (asked.rec_ 23).pends → e.source ≠ 159)
      ∧ ∀ e, e ∈ asked.mat.pool → e.dest = 127 → e.source ≠ 159)) :=
  ⟨⟨free rfl, free rfl, ⟨free rfl, by decide +kernel⟩, ⟨free rfl, by decide +kernel⟩, ⟨free rfl, by decide +kernel⟩,
    ⟨free rfl, by decide +kernel⟩, ⟨free rfl, by decide +kernel⟩, ⟨free rfl, by decide +kernel⟩, free rfl, by decide +kernel⟩,
    ⟨free rfl, free rfl, ⟨free rfl, free rfl, by decide +kernel⟩, ⟨free rfl, free rfl, by decide +kernel⟩,
    ⟨free rfl, free rfl, by decide +kernel⟩, ⟨free rfl, free rfl, by decide +kernel⟩, ⟨free rfl, by decide +kernel⟩,
    ⟨free rfl, by decide +kernel⟩, free rfl, by decide +kernel⟩⟩

def holding : State := onRec 23 { boundRec with duck := .holding, holdTimer := some 0 } bound
theorem test_wit_FoldConfigAndHold :
    (CarriedOut (.foldConfig 48 none none none none none none) r0 ∧ r0.reports = [])
    ∧ CarriedOut (.foldConfig 47 (some 8) (some 241) (some 3) (some 5) (some 61) (some 2001)) r0
    ∧ (CarriedOut (.foldConfig 23 (some 7) none none none none none) boundLocked ∧ boundLocked.reports = []
      ∧ (boundLocked.rec_ 23).bound = some 127 ∧ (boundLocked.dest 127).lock ≠ .free)
    ∧ (CarriedOut (.foldConfig 23 (some 255) (some 240) (some 2) none (some 60) (some 0)) holding
      ∧ holding.reports = [] ∧ (∀ d, (holding.rec_ 23).bound = some d → (holding.dest d).lock = .free)
      ∧ (holding.rec_ 23).duck = .holding
      ∧ ∃ x, (holding.rec_ 23).holdTimer = some x ∧ x ≤ holding.now)
    ∧ (CarriedOut (.foldConfig 23 none none none (some 4) none none) asked ∧ asked.reports = []
      ∧ (∀ d, (asked.rec_ 23).bound = some d → (asked.dest d).lock = .free) ∧ Inv.FoldOk 23 (asked.rec_ 23)
      ∧ NoneArmed asked)
    ∧ (r0.rec_ 47).duck ≠ .holding
    ∧ NotDue (onRec 23 { boundRec with duck := .holding, holdTimer := some 1 } bound |>.rec_ 23).holdTimer bound.now := by
  refine ⟨⟨free rfl, rfl⟩, free rfl, ⟨free rfl, by decide +kernel⟩,
    ⟨free rfl, rfl, ?_, by decide +kernel, 0, by decide +kernel⟩, ⟨free rfl, rfl, ?_, ?_, ?_⟩, by decide +kernel,
    notDue_later (by decide)⟩
  · intro d h; cases (show some 127 = some d from h); rfl
  · intro d h; cases (show some 127 = some d from h); rfl
  · simp only [Inv.FoldOk, Inv.InOrder]; decide +kernel
  · unfold NoneArmed; decide +kernel

/-- A full record: interrupt list at its depth, eight pending entries. -/
def fullRec : FoldRec :=
  { boundRec with ints := [asks 0 2, asks 1 3], pends := (List.range 8).map fun k => asks (k + 2) 4 }
theorem test_wit_InterruptPlacing :
    (1 ≤ boundRec.depth ∧ boundRec.ints.length ≤ boundRec.depth ∧ boundRec.pends.length ≤ 8
      ∧ Inv.InOrder boundRec.ints ∧ Inv.InOrder boundRec.pends ∧ boundRec.ints.length < boundRec.depth)
    ∧ (1 ≤ fullRec.depth ∧ fullRec.ints.length = fullRec.depth ∧ fullRec.pends.length = 8
      ∧ Inv.InOrder fullRec.ints ∧ Inv.InOrder fullRec.pends ∧ fullRec.ints.getLast? = some (asks 1 3)
      ∧ (asks 10 2).cls < (asks 1 3).cls ∧ (asks 1 3).cls ≤ (asks 10 3).cls) := by
  simp only [Inv.InOrder]; decide +kernel

/-- Record 23, bound, with the lists given; desk key 31 stands toward it, channel 7 has a cue toward it. -/
def cued (f : FoldRec) (x : ChanState) (place : CuePlace) (e : KeyEntry) : State :=
  let s := onKey 88 31 { e with function := .interrupt, target := 127 } (onRec 23 f bound)
  onChan 7 { Channel.reset with state := x, cue := some (127, 3), cuePlace := place } { s with arb.deskMic := some 159 }
/-- Another channel's entry. -/
def cueEntry (p : Nat) : FoldEntry :=
  { requester := .channel p, source := 152 + p, cls := 3, level := 216, stamp := 0, order := 0 }
def deskEntry : FoldEntry :=
  { requester := .key 88 31, source := 159, cls := 7, level := 216, stamp := 0, order := 0 }
theorem test_wit_InterruptKeysAndCues :
    (∀ f ∈ [boundRec, { fullRec with duck := .ducked }, { boundRec with minus := [159] }, { boundRec with bound := none }],
      let s := cued f .starved .none { KeyEntry.reset with cls := 0 }
      s.reports = [] ∧ s.exch.inHand = none ∧ s.exch.part ≠ .autonomous
        ∧ (∀ x, x < 16 → (s.chan x).state ≠ .armed) ∧ s.hasKey 88 31 = true ∧ (s.key 88 31).pressed = false
        ∧ (s.key 88 31).state = .idle ∧ (s.key 88 31).held = none ∧ (s.key 88 31).mode = .momentary
        ∧ (s.key 88 31).target = 127 ∧ s.arb.deskMic = some 159 ∧ (s.key 88 31).function = .interrupt
        ∧ isFoldDest s 127 = true)
    ∧ (∀ x, x < 48 → ((cued { boundRec with bound := none } .starved .none KeyEntry.reset).rec_ x).bound ≠ some 127)
    ∧ (∀ x, x < 48 → ((cued boundRec .starved .none KeyEntry.reset).rec_ x).bound = some 127 → x = 23)
    ∧ (∀ f ∈ [boundRec, { fullRec with duck := .ducked }, { boundRec with minus := [159] },
        { boundRec with ints := [deskEntry], duck := .ducked },
        { boundRec with depth := 1, ints := [cueEntry 7], pends := [deskEntry], duck := .ducked },
        { boundRec with depth := 1, ints := [cueEntry 6], pends := [cueEntry 7], duck := .ducked }], Inv.FoldOk 23 f)
    ∧ (159 ∈ ({ boundRec with minus := [159] } : FoldRec).minus ∧ 159 ∉ fullRec.minus)
    ∧ ((∀ x, x ∈ fullRec.ints ++ fullRec.pends → x.requester ≠ .key 88 31)
      ∧ ∀ x, x ∈ fullRec.ints ++ fullRec.pends → x.requester ≠ .channel 7)
    ∧ (let s := cued boundRec .armed .none KeyEntry.reset
       CarriedOut (.streamStart 7) s ∧ s.reports = [] ∧ (∀ x, x < 16 → x ≠ 7 → (s.chan x).state ≠ .armed)
        ∧ (s.chan 7).state = .armed ∧ (s.chan 7).cue = some (127, 3))
    ∧ (let s := cued { boundRec with ints := [deskEntry], duck := .ducked } .starved .none { KeyEntry.reset with
         pressed := true, state := .talking, held := some (.foldDest 127 none) }
       CarriedOut (.keyRelease 31) s ∧ (s.key 88 31).pressed = true ∧ (s.key 88 31).state = .talking
        ∧ (s.key 88 31).held = some (.foldDest 127 none) ∧ ∃ x, x ∈ (s.rec_ 23).ints ∧ x.requester = .key 88 31)
    ∧ (let s := cued { boundRec with depth := 1, ints := [cueEntry 7], pends := [deskEntry], duck := .ducked }
         .running .interrupt { KeyEntry.reset with pressed := true, state := .pending, held := some (.foldDest 127 none) }
       CarriedOut (.keyRelease 31) s ∧ (∃ x, x ∈ (s.rec_ 23).pends ∧ x.requester = .key 88 31)
        ∧ CarriedOut (.streamStop 7) s ∧ (s.chan 7).state = .running ∧ (s.chan 7).cue = some (127, 3)
        ∧ (s.chan 7).cuePlace ≠ .none ∧ (∃ x, x ∈ (s.rec_ 23).ints ∧ x.requester = .channel 7)
        ∧ Real s deskEntry ∧ Real s (cueEntry 15))
    ∧ (let s := cued { boundRec with depth := 1, ints := [cueEntry 6], pends := [cueEntry 7], duck := .ducked }
         .running .pending KeyEntry.reset
       ∃ x, x ∈ (s.rec_ 23).pends ∧ x.requester = .channel 7) := by
  refine ⟨by decide +kernel, by decide +kernel, by decide +kernel, ?_, by decide +kernel, by decide +kernel,
    ⟨free rfl, by decide +kernel⟩, ⟨free rfl, by decide +kernel⟩,
    ⟨free rfl, by decide +kernel, free rfl, by decide +kernel, by decide +kernel, by decide +kernel, by decide +kernel,
      ?_, ?_⟩, by decide +kernel⟩
  · simp only [Inv.FoldOk, Inv.InOrder]; decide +kernel
  · show _ = true; decide +kernel
  · show 15 < 16; decide

/-! Grant arbiter. -/

def talkEntry : KeyEntry := { KeyEntry.reset with function := .talk, target := 159, cls := 0 }
/-- Desk key 31 talks to destination 159 from source 159. -/
def desk : State := { r0 with arb := { r0.arb with
  keys := tset r0.arb.keys 88 ((tget r0.arb.keys 88).set 31 talkEntry), deskMic := some 159 } }
/-- The same key Talking. -/
def talking : State := after (.keyPress 31) desk
theorem noneArmed : NoneArmed r0 := by unfold NoneArmed; decide +kernel

theorem test_wit_KeyAssignments : r0.reports = [] ∧ NoneArmed r0
    ∧ CarriedOut (.keyAssign 89 0 0 160 3 8 241) r0 ∧ CarriedOut (.keyClear 89 0) r0
    ∧ (CarriedOut (.keyAssign 88 31 7 255 2 7 240) r0 ∧ (88 ≤ 88 ∧ 31 < stationKeys 88 ∧ 1 ≤ 7 ∧ 7 ≤ 7
      ∧ (7 = 1 ∨ 7 = 4 ∨ 7 = 5 → 255 < 160) ∧ (7 = 2 ∨ 7 = 3 → 255 < 32) ∧ (7 = 6 → 255 < 89 ∧ 255 ≠ 88)
      ∧ 2 ≤ 2 ∧ 7 ≤ 7 ∧ 1 ≤ 240 ∧ 240 ≤ 240) ∧ r0.hasKey 88 31 = true)
    ∧ (CarriedOut (.keyClear 88 31) r0 ∧ r0.hasKey 88 31 = true) :=
  ⟨rfl, noneArmed, free rfl, free rfl, ⟨free rfl, by decide +kernel, by decide +kernel⟩, free rfl, by decide +kernel⟩
theorem test_wit_DeskTalkKey : CarriedOut (.keyPress 32) r0 ∧ CarriedOut (.keyRelease 32) r0
    ∧ (CarriedOut (.keyPress 31) talking ∧ talking.reports = [] ∧ (talking.key 88 31).pressed = true)
    ∧ (CarriedOut (.keyPress 31) desk ∧ desk.reports = [] ∧ NoneArmed desk ∧ Inv.PoolOk desk.mat.pool
      ∧ desk.hasKey 88 31 = true ∧ (desk.key 88 31).pressed = false ∧ (desk.key 88 31).function = .talk
      ∧ (desk.key 88 31).mode = .momentary ∧ (desk.key 88 31).state = .idle ∧ (desk.key 88 31).held = none
      ∧ (desk.key 88 31).target = 159 ∧ desk.arb.deskMic = some 159 ∧ isFoldDest desk 159 = false
      ∧ (tget desk.arb.talkers 159).length < (desk.dest 159).limit ∧ findEntry desk.mat.pool 159 159 = none
      ∧ desk.mat.pool.length < 2048 ∧ destCount desk.mat.pool 159 < 24)
    ∧ (CarriedOut (.keyRelease 31) r0 ∧ (r0.key 88 31).pressed = false)
    ∧ (CarriedOut (.keyRelease 31) talking ∧ Inv.PoolOk talking.mat.pool ∧ talking.hasKey 88 31 = true
      ∧ (talking.key 88 31).pressed = true ∧ (talking.key 88 31).function = .talk
      ∧ (talking.key 88 31).mode = .momentary ∧ (talking.key 88 31).state = .talking
      ∧ (talking.key 88 31).held = some (.talkPair 159 159 none)
      ∧ ∃ p, findEntry talking.mat.pool 159 159 = some p ∧ 0 < p.talk) := by
  have hp : talking.mat.pool = [{ PoolEntry.blank 159 159 with talk := 1, keyLevel := 216 }] := by decide +kernel
  have hn : NoneArmed desk := by unfold NoneArmed; decide +kernel
  have hi : talking.exch.inHand = none := by decide +kernel
  exact ⟨free rfl, free rfl, ⟨free hi, by decide +kernel⟩,
    ⟨free rfl, rfl, hn, poolOk (l := []) (by decide) (by simp) (by decide), by decide +kernel⟩,
    ⟨free rfl, by decide +kernel⟩, free hi,
    by rw [hp]; exact poolOk (by decide) (by unfold Inv.EntryOk; decide) (by decide),
    by decide +kernel, by decide +kernel, by decide +kernel, by decide +kernel, by decide +kernel, by decide +kernel,
    { PoolEntry.blank 159 159 with talk := 1, keyLevel := 216 }, by decide +kernel⟩

/-- Desk key 31 with the entry given. -/
def deskKey (e : KeyEntry) : State := onKey 88 31 e { r0 with arb := { r0.arb with deskMic := some 159 } }
/-- The desk key of a function, by mode. -/
def keyFor (f : Function) (m : KeyMode) (target : Nat) : KeyEntry :=
  { KeyEntry.reset with function := f, mode := m, target := target }
def deskLine (talkers : List Talker) (s : State) : State :=
  onLine 31 { Line.reset with
    members := [{ station := 88, talk := true, listen := false, slot := none }], talkers := talkers } s
theorem test_wit_DeskKeysByFunction :
    (∀ s ∈ [onKey 88 31 (keyFor .talk .latching 159) r0, deskKey (keyFor .listen .smart 159),
        deskKey (keyFor .call .momentary 87), deskLine [] (deskKey (keyFor .lineTalk .momentary 31)),
        onPool [routed 159 159 0] (deskKey (keyFor .talk .latching 159))],
      s.reports = [] ∧ NoneArmed s ∧ s.hasKey 88 31 = true ∧ s.exch.inHand = none ∧ s.exch.part ≠ .autonomous
        ∧ (s.key 88 31).pressed = false ∧ (s.key 88 31).state = .idle ∧ (s.key 88 31).held = none
        ∧ (s.key 88 31).latched = false)
    ∧ ((onKey 88 31 (keyFor .talk .latching 159) r0).arb.deskMic = none
      ∧ (tget (deskKey (keyFor .call .momentary 87)).call.lists 87) = [])
    ∧ (let s := deskLine [] (deskKey (keyFor .lineTalk .momentary 31))
       (∃ m, m ∈ (s.line 31).members ∧ m.station = 88 ∧ m.talk = true)
        ∧ (s.line 31).talkers.length < (s.line 31).limit)
    ∧ (let s := onPool [routed 159 159 0] (deskKey (keyFor .talk .latching 159))
       Inv.PoolOk s.mat.pool ∧ s.arb.deskMic = some 159 ∧ isFoldDest s 159 = false
        ∧ (tget s.arb.talkers 159).length < (s.dest 159).limit
        ∧ ∃ p, findEntry s.mat.pool 159 159 = some p ∧ p.talk < 63)
    ∧ (let s := deskKey { keyFor .talk .latching 159 with
         latched := true, state := .talking, held := some (.talkPair 159 159 none) }
       CarriedOut (.keyPress 31) s ∧ NoneArmed s ∧ (s.key 88 31).pressed = false ∧ (s.key 88 31).latched = true)
    ∧ (let s := deskKey { keyFor .talk .smart 159 with pressed := true, state := .refused }
       CarriedOut (.keyRelease 31) s ∧ NoneArmed s ∧ (s.key 88 31).pressed = true ∧ (s.key 88 31).state = .refused
        ∧ (s.key 88 31).mode ≠ .latching)
    ∧ (let s := deskKey { keyFor .talk .smart 159 with
         pressed := true, state := .talking, held := some (.talkPair 159 159 none) }
       CarriedOut (.keyRelease 31) s ∧ s.now - (s.key 88 31).stamp < s.arb.smart
        ∧ ({ s with now := 300 }).arb.smart ≤ 300 - (s.key 88 31).stamp)
    ∧ (let s := deskLine [{ key := ⟨88, 31⟩, timer := none }] (deskKey { keyFor .lineTalk .momentary 31 with
         pressed := true, state := .talking, held := some (.line 31 none) })
       CarriedOut (.keyRelease 31) s ∧ (∃ x, x ∈ (s.line 31).talkers ∧ x.key = ⟨88, 31⟩) ∧ (s.line 31).waiting = []) := by
  refine ⟨?_, by decide +kernel, by decide +kernel, ⟨?_, by decide +kernel⟩, ⟨free rfl, ?_, by decide +kernel⟩,
    ⟨free rfl, ?_, by decide +kernel⟩, ⟨free rfl, by decide +kernel⟩, free rfl, by decide +kernel⟩
  · unfold NoneArmed; decide +kernel
  · exact poolOk (l := [routed 159 159 0]) (by decide) (by unfold Inv.EntryOk; decide) (by decide)
  · unfold NoneArmed; decide +kernel
  · unfold NoneArmed; decide +kernel

/-- Panel 0, whose speaker is destination 127, called the desk last; panel 63, without a speaker, called before it. -/
def called (s : State) : State :=
  onPanel 0 { Panel.reset with speaker := some 127 } (onCalls 88
    [{ caller := 63, repeats := 0, expiry := 9 }, { caller := 0, repeats := 0, expiry := 9 }] s)
/-- Desk key 31 is an Idle Reply key. -/
def replying (s : State) : State := called (onKey 88 31 (keyFor .reply .momentary 255) { s with arb.deskMic := some 159 })
/-- Desk key 31 is a Reply key that holds the pair given. -/
def replied (h : Held) (s : State) : State :=
  called (onKey 88 31 { keyFor .reply .momentary 255 with pressed := true, state := .talking, held := some h } s)
theorem test_wit_InterruptKeysAndCues_reply :
    (let s := replying bound
     CarriedOut (.keyPress 31) s ∧ s.reports = [] ∧ (∀ x, x < 16 → (s.chan x).state ≠ .armed) ∧ s.hasKey 88 31 = true
      ∧ (s.key 88 31).pressed = false ∧ (s.key 88 31).state = .idle ∧ (s.key 88 31).held = none
      ∧ (s.key 88 31).mode = .momentary ∧ s.arb.deskMic = some 159 ∧ (s.key 88 31).function = .reply
      ∧ isFoldDest s 127 = true ∧ (s.rec_ 23).bound = some 127 ∧ s.rec_ 23 = boundRec
      ∧ ∃ x, (tget s.call.lists 88).getLast? = some x ∧ x.caller = 0 ∧ speakerOf s x.caller = some 127)
    ∧ (let s := replied (.foldDest 127 (some 0)) (onRec 23 { boundRec with ints := [deskEntry], duck := .ducked } bound)
       CarriedOut (.keyRelease 31) s ∧ (∀ x, x < 16 → (s.chan x).state ≠ .armed) ∧ (s.key 88 31).pressed = true
        ∧ (s.key 88 31).state = .talking ∧ (s.key 88 31).held = some (.foldDest 127 (some 0))
        ∧ ∃ x, x ∈ (s.rec_ 23).ints ∧ x.requester = .key 88 31) :=
  ⟨⟨free rfl, by decide +kernel⟩, free rfl, by decide +kernel⟩
/-- A Reply is granted in the record of the caller's speaker, and its end takes the caller's call. -/
theorem test_replyToFoldback :
    ((after (.keyPress 31) (replying bound)).rec_ 23).ints.map (·.requester) = [.key 88 31]
    ∧ (tget (after (.keyRelease 31) (after (.keyPress 31) (replying bound))).call.lists 88).map (·.caller) = [63] := by
  decide +kernel
theorem test_wit_KeyAssignments_talking : talking.reports = [] ∧ NoneArmed talking ∧ CarriedOut (.keyClear 88 31) talking
    ∧ CarriedOut (.keyAssign 88 31 7 255 2 7 240) talking ∧ talking.hasKey 88 31 = true
    ∧ (talking.key 88 31).held = some (.talkPair 159 159 none) ∧ (talking.key 88 31).state ≠ .idle := by
  have hi : talking.exch.inHand = none := by decide +kernel
  refine ⟨by decide +kernel, ?_, free hi, free hi, by decide +kernel⟩
  unfold NoneArmed; decide +kernel
/-- KEY.CLEAR of a Talking key. -/
theorem test_keyClear : (after (.keyClear 88 31) talking).key 88 31 = { KeyEntry.reset with target := 159, cls := 0, pressed := true }
    ∧ tget (after (.keyClear 88 31) talking).arb.talkers 159 = [] ∧ (after (.keyClear 88 31) talking).mat.pool = [] := by
  decide +kernel
def replyPair : PoolEntry := { PoolEntry.blank 127 159 with talk := 1 }
theorem test_wit_DeskKeysByFunction_reply :
    (∀ s ∈ [deskKey (keyFor .reply .latching 255), replying r0,
        onCalls 88 [{ caller := 63, repeats := 0, expiry := 9 }] (replying r0)],
      s.reports = [] ∧ (∀ c, c < 16 → (s.chan c).state ≠ .armed) ∧ s.hasKey 88 31 = true ∧ s.exch.inHand = none
        ∧ s.exch.part ≠ .autonomous ∧ (s.key 88 31).pressed = false ∧ (s.key 88 31).state = .idle
        ∧ (s.key 88 31).held = none ∧ (s.key 88 31).latched = false ∧ (s.key 88 31).function = .reply
        ∧ s.arb.deskMic = some 159)
    ∧ tget (deskKey (keyFor .reply .latching 255)).call.lists 88 = []
    ∧ speakerOf (onCalls 88 [{ caller := 63, repeats := 0, expiry := 9 }] (replying r0)) 63 = none
    ∧ (let s := replying r0
       (tget s.call.lists 88).getLast? = some { caller := 0, repeats := 0, expiry := 9 } ∧ speakerOf s 0 = some 127
        ∧ (s.key 88 31).mode = .momentary ∧ isFoldDest s 127 = false ∧ s.mat.pool = []
        ∧ (tget s.arb.talkers 127).length < (s.dest 127).limit)
    ∧ (let s := replied (.talkPair 127 159 (some 0)) (onPool [replyPair] r0)
       CarriedOut (.keyRelease 31) s ∧ NoneArmed s ∧ (s.key 88 31).pressed = true ∧ (s.key 88 31).state = .talking
        ∧ (s.key 88 31).mode = .momentary ∧ (s.key 88 31).held = some (.talkPair 127 159 (some 0))
        ∧ Inv.PoolOk s.mat.pool ∧ findEntry s.mat.pool 127 159 = some replyPair ∧ 0 < replyPair.talk) := by
  refine ⟨by decide +kernel, by decide +kernel, by decide +kernel, by decide +kernel, free rfl, ?_, by decide +kernel,
    by decide +kernel, by decide +kernel, by decide +kernel,
    poolOk (l := [replyPair]) (by decide) (by unfold Inv.EntryOk; decide) (by decide), by decide +kernel⟩
  unfold NoneArmed; decide +kernel
/-- A Reply toward a destination that is no foldback feed. -/
theorem test_reply : tget (after (.keyPress 31) (replying r0)).arb.talkers 127 = [⟨88, 31⟩]
    ∧ (tget (after (.keyPress 31) (replying r0)).call.lists 88).length = 2
    ∧ (tget (after (.keyRelease 31) (after (.keyPress 31) (replying r0))).call.lists 88).map (·.caller) = [63] := by
  decide +kernel

/-- Desk key 5, of class 3, holds the one talker's place of destination 159 from source 9, and of line 31. -/
def lowest : KeyId := ⟨88, 5⟩
def atLimit (held : Held) (e : KeyEntry) (pool : List PoolEntry) : State :=
  let s := onKey 88 5 { KeyEntry.reset with cls := 3, state := .talking, held := some held } (onKey 88 31 e (onPool pool r0))
  onDest 159 { DestRec.reset 159 with limit := 1 }
    { s with arb.deskMic := some 158, arb.talkers := tset s.arb.talkers 159 [lowest] }
def talked (src talk : Nat) : PoolEntry := { PoolEntry.blank 159 src with talk := talk }
def lineFull (limit : Nat) (cls : Nat) (waiting : List KeyId) : State :=
  onLine 31 { Line.reset with
      limit := limit, talkers := [{ key := lowest, timer := none }], waiting := waiting
      members := [{ station := 88, talk := true, listen := false, slot := none }] }
    (atLimit (.line 31 none) { keyFor .lineTalkListen .momentary 31 with cls := cls } [])
def sixteen : List KeyId := (List.range 16).map fun k => ⟨0, k⟩
/-- Panel station 63 reports key 23 toward line 31; its speaker is destination 159. -/
def reporting (slots : List Slot) (talkers : List Talker) (e : KeyEntry) : State :=
  let s := onPanel 63 { Panel.reset with presence := .joining, speaker := some 159, keyCount := 24, lastSeq := some 6 }
    (onKey 63 23 e (onDest 159 { DestRec.reset 159 with slots := slots } r0))
  onLoop 3 { Loop.reset with enabled := true, inHand := true, position := some 15 } (onLine 31 { Line.reset with
    members := [{ station := 63, talk := true, listen := true, slot := some 159 }], talkers := talkers } s)
theorem test_wit_TalkAndLinesAtLimit :
    (∀ cls ∈ [0, 3], ∀ pool ∈ [[talked 9 1], (List.range 24).map fun k => talked k 1, [talked 9 1, talked 158 63],
        [talked 9 1, talked 158 62]],
      let s := atLimit (.talkPair 159 9 none) { keyFor .talk .momentary 159 with cls := cls } pool
      s.reports = [] ∧ (∀ c, c < 16 → (s.chan c).state ≠ .armed) ∧ s.exch.inHand = none ∧ s.exch.part ≠ .autonomous
        ∧ s.hasKey 88 31 = true ∧ (s.key 88 31).pressed = false ∧ (s.key 88 31).state = .idle
        ∧ (s.key 88 31).held = none ∧ (s.key 88 31).mode = .momentary ∧ s.arb.deskMic = some 158
        ∧ isFoldDest s 159 = false ∧ (s.dest 159).limit ≤ (tget s.arb.talkers 159).length
        ∧ s.hasKey 88 5 = true ∧ lowest ≠ ⟨88, 31⟩ ∧ tget s.arb.talkers 159 = [lowest]
        ∧ (s.keyOf lowest).held = some (.talkPair 159 9 none) ∧ (s.keyOf lowest).cls = 3
        ∧ (s.key 88 31).cls = cls ∧ (findEntry s.mat.pool 159 9).map (·.talk) = some 1)
    ∧ Inv.PoolOk [talked 9 1, talked 158 62]
    ∧ (findEntry ((List.range 24).map fun k => talked k 1) 159 158 = none
      ∧ 24 ≤ destCount ((List.range 24).map fun k => talked k 1) 159)
    ∧ (∀ s ∈ [lineFull 2 3 [], lineFull 1 3 [⟨0, 0⟩], lineFull 1 3 sixteen, lineFull 1 0 [⟨0, 0⟩], lineFull 1 0 sixteen],
        s.reports = [] ∧ (∀ c, c < 16 → (s.chan c).state ≠ .armed) ∧ s.exch.inHand = none ∧ s.exch.part ≠ .autonomous
          ∧ (s.key 88 31).function = .lineTalkListen ∧ (s.key 88 31).target = 31
          ∧ (∃ m, m ∈ (s.line 31).members ∧ m.station = 88 ∧ m.talk = true)
          ∧ (s.line 31).talkers.map (·.key) = [lowest] ∧ (s.keyOf lowest).cls = 3
          ∧ (s.line 31).waiting.length ≤ 16 ∧ (⟨88, 31⟩ : KeyId) ∉ (s.line 31).waiting ∧ lowest ∉ (s.line 31).waiting)
    ∧ (let s := reporting [⟨31, 1⟩, ⟨0, 1⟩, ⟨1, 1⟩, ⟨2, 1⟩] [] (keyFor .lineTalkListen .momentary 31)
       s.reports = [] ∧ NoneArmed s ∧ (s.loop 3).enabled = true ∧ (s.loop 3).inHand = true
        ∧ (s.loop 3).position = some 15 ∧ (s.panel 63).presence = .joining ∧ (s.panel 63).lastSeq ≠ some 7
        ∧ 23 < (s.panel 63).keyCount ∧ s.hasKey 63 23 = true ∧ (s.panel 63).speaker = some 159
        ∧ (s.key 63 23).function = .lineTalkListen ∧ (s.key 63 23).state = .idle ∧ (s.key 63 23).held = none
        ∧ (∃ m, m ∈ (s.line 31).members ∧ m.station = 63 ∧ m.talk = true)
        ∧ (s.line 31).talkers.length < (s.line 31).limit ∧ ∃ y, y ∈ (s.dest 159).slots ∧ y.line = 31)
    ∧ (let s := reporting [⟨0, 1⟩, ⟨1, 1⟩, ⟨2, 1⟩, ⟨3, 1⟩] [] (keyFor .lineTalkListen .momentary 31)
       (∀ y, y ∈ (s.dest 159).slots → y.line ≠ 31) ∧ 4 ≤ (s.dest 159).slots.length)
    ∧ (let s := reporting [⟨31, 1⟩] [{ key := ⟨63, 23⟩, timer := none }] { keyFor .lineTalkListen .momentary 31 with
         pressed := true, state := .talking, held := some (.line 31 (some 159)) }
       (s.key 63 23).pressed = true ∧ (s.key 63 23).state = .talking ∧ (s.key 63 23).held = some (.line 31 (some 159))
        ∧ (∃ y, y ∈ (s.line 31).talkers ∧ y.key = ⟨63, 23⟩) ∧ (s.line 31).waiting = []) := by
  refine ⟨by decide +kernel, poolOk (by decide) (by unfold Inv.EntryOk; decide) (by decide), by decide +kernel,
    by decide +kernel, ⟨by decide +kernel, ?_, by decide +kernel⟩, by decide +kernel, by decide +kernel⟩
  unfold NoneArmed; decide +kernel

/-- Panel station 63, its speaker the destination given, reports key 23, a Listen key toward source 158. -/
def hearing (d : Nat) (e : KeyEntry) (s : State) : State :=
  let p : Panel := { Panel.reset with presence := .present, speaker := some d, keyCount := 24, lastSeq := none }
  onLoop 3 { Loop.reset with enabled := true, inHand := true, position := some 15 } (onPanel 63 p (onKey 63 23 e s))
def listens (n : Nat) : PoolEntry := { PoolEntry.blank 159 158 with listen := n }
theorem test_wit_TalkAndLinesAtLimit_listen :
    (∀ s ∈ [hearing 127 (keyFor .listen .momentary 158) (onRec 23 { boundRec with minus := [158] } bound),
        hearing 127 (keyFor .listen .momentary 158) bound, hearing 159 (keyFor .listen .momentary 158) r0,
        hearing 159 (keyFor .listen .momentary 158) (onPool [listens 62] r0),
        hearing 159 (keyFor .listen .momentary 158) (onPool [listens 63] r0),
        hearing 159 (keyFor .listen .momentary 158) (onPool ((List.range 24).map fun k => talked k 1) r0)],
      s.reports = [] ∧ (∀ c, c < 16 → (s.chan c).state ≠ .armed) ∧ (s.loop 3).enabled = true ∧ (s.loop 3).inHand = true
        ∧ (s.loop 3).position = some 15 ∧ (s.panel 63).presence = .present ∧ (s.panel 63).lastSeq ≠ some 7
        ∧ 23 < (s.panel 63).keyCount ∧ s.hasKey 63 23 = true ∧ (s.key 63 23).function = .listen
        ∧ (s.key 63 23).target = 158 ∧ (s.key 63 23).pressed = false ∧ (s.key 63 23).state = .idle
        ∧ (s.key 63 23).held = none ∧ (s.key 63 23).mode = .momentary)
    ∧ (let s := hearing 127 (keyFor .listen .momentary 158) (onRec 23 { boundRec with minus := [158] } bound)
       (s.panel 63).speaker = some 127 ∧ isFoldDest s 127 = true ∧ (s.rec_ 23).bound = some 127
        ∧ (∀ y, y < 48 → (s.rec_ y).bound = some 127 → y = 23) ∧ 158 ∈ (s.rec_ 23).minus)
    ∧ (isFoldDest (hearing 159 KeyEntry.reset r0) 159 = false
      ∧ 158 ∉ ((hearing 127 KeyEntry.reset bound).rec_ 23).minus
      ∧ findEntry [listens 62] 159 158 = some (listens 62) ∧ (listens 62).listen < 63 ∧ 63 ≤ (listens 63).listen
      ∧ findEntry ((List.range 24).map fun k => talked k 1) 159 158 = none
      ∧ 24 ≤ destCount ((List.range 24).map fun k => talked k 1) 159)
    ∧ Inv.PoolOk [listens 62] ∧ Inv.PoolOk [listens 63] ∧ Inv.PoolOk ((List.range 24).map fun k => talked k 1)
    ∧ (let s := hearing 159 { keyFor .listen .momentary 158 with pressed := true, held := some (.listenPair 159 158) }
         (onPool [listens 1] r0)
       (s.key 63 23).pressed = true ∧ (s.key 63 23).state = .idle ∧ (s.key 63 23).held = some (.listenPair 159 158)
        ∧ findEntry s.mat.pool 159 158 = some (listens 1) ∧ 0 < (listens 1).listen) :=
  ⟨by decide +kernel, by decide +kernel, by decide +kernel,
    poolOk (by decide) (by unfold Inv.EntryOk; decide) (by decide), poolOk (by decide) (by unfold Inv.EntryOk; decide) (by decide),
    poolOk (by decide) (by unfold Inv.EntryOk; decide) (by decide), by decide +kernel⟩
/-- A Listen key holds the pair of its station's speaker and gives it back. -/
theorem test_listen :
    let s := after (.report 3 7 [(23, true)]) (hearing 159 (keyFor .listen .momentary 158) r0)
    (s.key 63 23).held = some (.listenPair 159 158) ∧ (s.key 63 23).state = .idle
      ∧ s.mat.pool = [{ listens 1 with keyLevel := 216 }]
      ∧ (after (.report 3 6 [(23, false)]) { s with loops := (hearing 159 KeyEntry.reset r0).loops }).mat.pool = [] := by
  decide +kernel

/-- Panel key 23 of station 63 in the state given. -/
def lit (e : KeyEntry) : State := onKey 63 23 e (onPanel 63 { Panel.reset with keyCount := 24 } r0)
theorem test_wit_LampsAndTallies :
    (∀ e ∈ [{ KeyEntry.reset with busy := some 0, refusal := some 0 }, { KeyEntry.reset with state := .refused },
        { KeyEntry.reset with state := .talking }, { KeyEntry.reset with state := .waiting },
        { KeyEntry.reset with held := some (.listenPair 159 159) }, keyFor .reply .momentary 255,
        keyFor .call .momentary 88], ((lit e).key 63 23) = e ∧ (lit e).hasKey 63 23 = true)
    ∧ (let s := onCalls 63 [{ caller := 88, repeats := 0, expiry := 0 }] (lit (keyFor .reply .momentary 255))
       (s.key 63 23).busy = none ∧ (s.key 63 23).state = .idle ∧ (s.key 63 23).held = none
        ∧ tget s.call.lists 63 ≠ [] ∧ tget r0.call.lists 63 = [])
    ∧ (let s := onCalls 88 [{ caller := 63, repeats := 0, expiry := 0 }] (lit (keyFor .call .momentary 88))
       ∃ x, x ∈ tget s.call.lists (s.key 63 23).target ∧ x.caller = 63)
    ∧ (let s := lit { KeyEntry.reset with busy := some 0, refusal := some 0 }
       (s.key 63 23).busy = some 0 ∧ (s.key 63 23).refusal = some 0 ∧ 0 ≤ s.now)
    ∧ (CarriedOut (.keyAssign 63 23 6 88 2 7 240) r0 ∧ CarriedOut (.keyAssign 63 23 1 159 0 0 1) r0
      ∧ CarriedOut (.keyClear 63 23) r0 ∧ r0.reports = [] ∧ NoneArmed r0 ∧ r0.hasKey 63 23 = true)
    ∧ (CarriedOut (.callSend 63) r0 ∧ (∀ x, x ∈ tget r0.call.lists 63 → x.caller ≠ 88)
      ∧ (tget r0.call.lists 63).length < 8)
    ∧ (let s := onCalls 63 [{ caller := 62, repeats := 0, expiry := 0 }] r0
       CarriedOut (.callClear 63 true 255) s ∧ CarriedOut (.callClear 63 false 62) s
        ∧ (∃ x, x ∈ tget s.call.lists 63 ∧ x.caller = 62 ∧ x.expiry ≤ s.now)
        ∧ Inv.CallsOk 63 (tget s.call.lists 63)) := by
  refine ⟨by decide +kernel, by decide +kernel, by decide +kernel, by decide +kernel,
    ⟨free rfl, free rfl, free rfl, rfl, noneArmed, by decide +kernel⟩, ⟨free rfl, by decide +kernel⟩,
    free rfl, free rfl, by decide +kernel, ?_⟩
  unfold Inv.CallsOk; decide +kernel

def members (n : Nat) : List LineMember :=
  (List.range n).map fun k => { station := k, talk := true, listen := false, slot := none }
def lined (n : Nat) : State := onLine 31 { Line.reset with members := members n } r0
def slotsFull (n : Nat) : State :=
  onDest 151 { DestRec.reset 151 with slots := (List.range n).map fun k => { line := k, holders := 1 } } (lined 31)
/-- Station 0 talks and listens on line 31 with its key 23, and station 1's key waits there; the slot has `n` holders. -/
def listening (n : Nat) : State :=
  onKey 0 23 { keyFor .lineTalkListen .latching 31 with state := .talking, latched := true, held := some (.line 31 (some 127)) }
    (onKey 1 0 { keyFor .lineTalk .latching 31 with state := .waiting, held := some (.line 31 none) }
      (onDest 127 { DestRec.reset 127 with slots := [{ line := 31, holders := n }] }
        (onLine 31 { Line.reset with
          members := { station := 0, talk := true, listen := true, slot := some 127 } :: (members 2).drop 1
          talkers := [{ key := ⟨0, 23⟩, timer := none }], waiting := [⟨1, 0⟩] } r0)))
theorem test_wit_LineOrders : CarriedOut (.lineConfig 32 none none none) r0 ∧ CarriedOut (.lineMember 32 0 0) r0
    ∧ CarriedOut (.lineConfig 31 (some 9) (some 2) (some 31)) r0
    ∧ (CarriedOut (.lineConfig 31 (some 8) (some 1) (some 30)) r0
      ∧ ¬((∃ v, some 8 = some v ∧ (v = 0 ∨ 8 < v)) ∨ (∃ v, some 1 = some v ∧ 1 < v)
        ∨ ∃ v, some 30 = some v ∧ (v = 0 ∨ 30 < v)))
    ∧ CarriedOut (.lineMember 31 89 4) r0
    ∧ (CarriedOut (.lineMember 31 88 0) (lined 32) ∧ ∀ x, x ∈ ((lined 32).line 31).members → x.station ≠ 88)
    ∧ (CarriedOut (.lineMember 31 88 3) r0 ∧ speakerOf r0 88 = none)
    ∧ (CarriedOut (.lineMember 31 88 1) (lined 32) ∧ 32 ≤ ((lined 32).line 31).members.length)
    ∧ (CarriedOut (.lineMember 31 88 1) (lined 31) ∧ ((lined 31).line 31).members.length < 32
      ∧ ∀ x, x ∈ ((lined 31).line 31).members → x.station ≠ 88)
    ∧ (CarriedOut (.lineMember 31 87 2) (slotsFull 3) ∧ speakerOf (slotsFull 3) 87 = some 151
      ∧ (∀ x, x ∈ ((slotsFull 3).line 31).members → x.station ≠ 87)
      ∧ (∀ x, x ∈ ((slotsFull 3).dest 151).slots → x.line ≠ 31) ∧ ((slotsFull 3).dest 151).slots.length < 4)
    ∧ (CarriedOut (.lineMember 31 87 2) (slotsFull 4) ∧ 4 ≤ ((slotsFull 4).dest 151).slots.length
      ∧ ∀ x, x ∈ ((slotsFull 4).dest 151).slots → x.line ≠ 31)
    ∧ (CarriedOut (.lineMember 31 87 3) (lined 32) ∧ speakerOf (lined 32) 87 ≠ none)
    ∧ (CarriedOut (.lineMember 31 0 0) (lined 32)
      ∧ ((lined 32).line 31).members.find? (fun y => y.station == 0)
          = some { station := 0, talk := true, listen := false, slot := none }
      ∧ ∀ k, k < stationKeys 0 → ((lined 32).key 0 k).held = none)
    ∧ (let s := onPanel 0 { Panel.reset with speaker := some 127 } (lined 32)
       CarriedOut (.lineMember 31 0 3) s ∧ speakerOf s 0 = some 127
        ∧ s.line 31 = (lined 32).line 31 ∧ (s.dest 127).slots = [])
    ∧ (∀ n ∈ [1, 2], let s := listening n
       s.exch.inHand = none ∧ s.exch.part ≠ .autonomous
        ∧ (s.line 31).members.find? (fun y => y.station == 0) = some { station := 0, talk := true, listen := true, slot := some 127 }
        ∧ (s.dest 127).slots = [{ line := 31, holders := n }] ∧ (s.key 0 23).held = some (.line 31 (some 127)) ∧ 23 < stationKeys 0
        ∧ ((s.line 31).talkers.map (·.key) ++ (s.line 31).waiting).Nodup) :=
  ⟨free rfl, free rfl, free rfl, ⟨free rfl, by simp⟩, free rfl, ⟨free rfl, by decide +kernel⟩,
    ⟨free rfl, by decide +kernel⟩, ⟨free rfl, by decide +kernel⟩, ⟨free rfl, by decide +kernel⟩,
    ⟨free rfl, by decide +kernel⟩, ⟨free rfl, by decide +kernel⟩, ⟨free rfl, by decide +kernel⟩,
    ⟨free rfl, by decide +kernel⟩, ⟨free rfl, by decide +kernel⟩, by decide +kernel⟩
/-- Listen taken away leaves the slot; Talk taken away ends the key, which leaves the slot too, and the waiting key talks. -/
theorem test_rightsTaken :
    ((after (.lineMember 31 0 1) (listening 1)).dest 127).slots = []
    ∧ ((after (.lineMember 31 0 1) (listening 2)).dest 127).slots = [{ line := 31, holders := 1 }]
    ∧ ((after (.lineMember 31 0 1) (listening 2)).key 0 23).state = .talking
    ∧ (let t := after (.lineMember 31 0 2) (listening 2)
       (t.key 0 23).state = .idle ∧ (t.key 0 23).latched = false ∧ (t.key 1 0).state = .talking ∧ (t.line 31).waiting = []
        ∧ (t.line 31).talkers.map (·.key) = [⟨1, 0⟩] ∧ (t.dest 127).slots = [{ line := 31, holders := 1 }]
        ∧ ((t.line 31).members.map fun m => (m.station, m.talk, m.listen)) = [(0, false, true), (1, true, false)])
    ∧ ((after (.lineMember 31 0 0) (listening 2)).dest 127).slots = [] := by decide +kernel
def timed : State := onKey 88 31 { KeyEntry.reset with busy := some 0, refusal := some 0, state := .refused } r0
/-- Line 31 with one talker, whose turn has ended, and the waiting keys given. -/
def turning (w : List KeyId) : State :=
  onLine 31 { Line.reset with policy := .rotating, talkers := [{ key := ⟨88, 31⟩, timer := some 0 }], waiting := w } r0
theorem test_wit_KeyTimers :
    (timed.hasKey 88 31 = true ∧ (timed.key 88 31).busy = some 0 ∧ (timed.key 88 31).refusal = some 0 ∧ 0 ≤ timed.now)
    ∧ (NotDue (r0.key 88 31).busy r0.now
      ∧ NotDue ((onKey 88 31 { KeyEntry.reset with refusal := some 1 } r0).key 88 31).refusal r0.now)
    ∧ (({ key := ⟨88, 31⟩, timer := some 0 } : Talker) ∈ ((turning []).line 31).talkers
      ∧ ∀ w, w ∈ ((turning []).line 31).waiting → ((turning []).keyOf w).cls ≠ ((turning []).key 88 31).cls)
    ∧ (let s := turning [⟨87, 3⟩]
       ({ key := ⟨88, 31⟩, timer := some 0 } : Talker) ∈ (s.line 31).talkers
         ∧ (s.line 31).waiting.find? (fun w => (s.keyOf w).cls == (s.key 88 31).cls) = some ⟨87, 3⟩
         ∧ ((s.line 31).talkers.map (·.key)).find? (fun w => (s.keyOf w).cls == (s.key 88 31).cls) = some ⟨88, 31⟩
         ∧ s.hasKey 87 3 = true ∧ s.hasKey 88 31 = true ∧ (⟨87, 3⟩ : KeyId) ≠ ⟨88, 31⟩)
    ∧ (∀ x, x ∈ ((onLine 31 { Line.reset with talkers := [{ key := ⟨88, 31⟩, timer := some 1 }] } r0).line 31).talkers →
        x.key = ⟨88, 31⟩ → NotDue x.timer r0.now) := by
  refine ⟨by decide +kernel, ⟨notDue_stopped _, notDue_later (by decide)⟩, by decide +kernel, by decide +kernel, ?_⟩
  intro x hx _
  rw [List.mem_singleton.mp hx]
  exact notDue_later (by decide)

/-! Call unit. -/

def rung (n : Nat) : State :=
  onCalls 87 ((List.range n).map fun k => { caller := k, repeats := 255, expiry := 0 }) r0
def rungBy88 : State := onCalls 87 [{ caller := 88, repeats := 255, expiry := 0 }] r0
theorem test_wit_CallOrders :
    (∀ x, x < 89 → Inv.CallsOk x (tget (rung 8).call.lists x))
    ∧ (CarriedOut (.callSend 88) r0 ∧ r0.reports = []) ∧ CarriedOut (.callClear 89 false 89) r0
    ∧ (CarriedOut (.callSend 87) (rung 7) ∧ (∀ e, e ∈ tget (rung 7).call.lists 87 → e.caller ≠ 88)
      ∧ (tget (rung 7).call.lists 87).length < 8)
    ∧ (CarriedOut (.callSend 87) rungBy88 ∧ ∃ e, e ∈ tget rungBy88.call.lists 87 ∧ e.caller = 88)
    ∧ (CarriedOut (.callSend 87) (rung 8) ∧ (∀ e, e ∈ tget (rung 8).call.lists 87 → e.caller ≠ 88)
      ∧ (tget (rung 8).call.lists 87).length = 8)
    ∧ (CarriedOut (.callClear 88 true 255) r0 ∧ CarriedOut (.callClear 87 false 88) rungBy88)
    ∧ (∃ e, e ∈ tget (rung 8).call.lists 87 ∧ e.caller = 7 ∧ e.expiry ≤ (rung 8).now)
    ∧ (let s := onCalls 87 [{ caller := 88, repeats := 0, expiry := 1 }] r0
       ∀ e, e ∈ tget s.call.lists 87 → e.caller = 88 → NotDue (some e.expiry) s.now) := by
  refine ⟨?_, ⟨free rfl, rfl⟩, free rfl, ⟨free rfl, by decide +kernel⟩, ⟨free rfl, by decide +kernel⟩,
    ⟨free rfl, by decide +kernel⟩, ⟨free rfl, free rfl⟩, by decide +kernel, fun e he _ => ?_⟩
  · unfold Inv.CallsOk; decide +kernel
  · rw [show e = { caller := 88, repeats := 0, expiry := 1 } from List.mem_singleton.mp he]
    exact notDue_later (by decide)
def ticking : State :=
  let g : Cadence := { running := true, onTime := 20, offTime := 2000, phaseOn := true, expiry := some 0 }
  { r0 with call.gens := tset r0.call.gens 3 g }
/-- Control output 15 with the function given, under generator 3. -/
def driven (f : OutFunction) : State :=
  { ticking with call.outputs := tset ticking.call.outputs 15 { function := f, cadence := some 3, activeHigh := false } }
theorem test_wit_CadencesAndOutputs :
    (CarriedOut (.cadenceSet 4 true 20 20) r0 ∧ CarriedOut (.cadenceSet 3 true 19 2001) r0
      ∧ (CarriedOut (.cadenceSet 3 true 20 2000) r0 ∧ ¬(20 < 20 ∨ 2000 < 20 ∨ 2000 < 20 ∨ 2000 < 2000))
      ∧ CarriedOut (.cadenceSet 3 false 0 0) ticking)
    ∧ ((tget ticking.call.gens 3).running = true ∧ (tget ticking.call.gens 3).expiry = some ticking.now)
    ∧ ((tget r0.call.gens 3).running = false ∧ NotDue (some 1) ticking.now)
    ∧ (let s := onCalls 88 [{ caller := 0, repeats := 0, expiry := 0 }] (driven (.stationCalled 88))
       let o := tget s.call.outputs 15
       o.cadence = some 3 ∧ o.function ≠ .none ∧ condition s o.function = true ∧ outputLevel s 15 = false
        ∧ (tget s.call.outputs 0).cadence ≠ some 3 ∧ (tget s.call.outputs 0).function = .none)
    ∧ (isFoldDest r0 159 = false ∧ isFoldDest r0 151 = true ∧ (r0.rec_ 47).bound = some 151
      ∧ ∀ x, x < 48 → (r0.rec_ x).bound = some 151 → x = 47)
    ∧ (outFunctionOf 1 159 = some (.destTalk 159) ∧ outFunctionOf 2 88 = some (.stationCalled 88)
      ∧ outFunctionOf 3 23 = some (.linkLive 23) ∧ outFunctionOf 4 255 = some .autonomous
      ∧ outFunctionOf 0 255 = some .none)
    ∧ (CarriedOut (.coBind 15 1 159 1 3 1) r0 ∧ CarriedOut (.coBind 15 0 255 0 255 0) r0)
    ∧ (let s : State := { r0 with call.outputs := tset r0.call.outputs 15 {
         function := .stationCalled 87, cadence := none, activeHigh := false } }
       CarriedOut (.callSend 87) s ∧ s.reports = [] ∧ NoneArmed s
        ∧ (tget s.call.outputs 15).function = .stationCalled 87 ∧ (tget s.call.outputs 15).cadence = none) := by
  refine ⟨⟨free rfl, free rfl, ⟨free rfl, by decide⟩, free rfl⟩, by decide +kernel,
    ⟨by decide +kernel, notDue_later (by decide)⟩, by decide +kernel, by decide +kernel, by decide +kernel,
    ⟨free rfl, free rfl⟩, free rfl, rfl, noneArmed, by decide +kernel⟩
def inputAs (f : InFunction) (a : Nat) : State :=
  { r0 with call.inputs := tset r0.call.inputs 15 { ControlIn.reset false with function := f, argument := a } }
def armed15 : State := onChan 15 { Channel.reset with state := .armed } (inputAs .trigger 15)
theorem test_wit_ControlLines :
    (CarriedOut (.ciBind 16 6 32 2 2) r0 ∧ r0.reports = []) ∧ CarriedOut (.ciBind 15 1 32 0 0) r0
    ∧ (CarriedOut (.ciBind 15 1 31 1 1) r0 ∧ (1 ≤ 5 ∧ (1 = 1 → 31 < 32) ∧ (1 = 2 ∨ 1 = 3 → 31 < 16) ∧ 1 ≤ 1 ∧ 1 ≤ 1))
    ∧ CarriedOut (.ciBind 15 4 255 1 1) r0
    ∧ CarriedOut (.coBind 16 5 160 2 4 2) r0
    ∧ (CarriedOut (.coBind 15 3 23 1 3 1) r0 ∧ outFunctionOf 3 23 = some (.linkLive 23))
    ∧ (CarriedOut (.coBind 15 4 255 0 255 0) r0 ∧ outFunctionOf 4 255 = some .autonomous)
    ∧ (r0.input 15).pinHigh = false ∧ (r0.input 15).pinHigh ≠ true
    ∧ (((inputAs .emergency 0).input 15).pinHigh ≠ true ∧ ((inputAs .emergency 0).input 15).function = .emergency)
    ∧ (((inputAs .deskKey 31).input 15).function = .deskKey ∧ (inputAs .deskKey 31).hasKey 88 31 = true)
    ∧ ((armed15.input 15).function = .trigger ∧ (armed15.input 15).activeHigh = true
      ∧ (armed15.chan (armed15.input 15).argument).state = .armed)
    ∧ (let s := onChan 7 { Channel.reset with state := .armed, chain := [Desc.mk 0 64 96 false false 0] } (inputAs .cut 7)
       (s.input 15).function = .cut ∧ (s.chan (s.input 15).argument).state = .armed
        ∧ (s.chan 7).chain = Desc.mk 0 64 96 false false 0 :: [])
    ∧ ((inputAs .notify 0).input 15).function = .notify := by
  refine ⟨⟨free rfl, rfl⟩, free rfl, ⟨free rfl, by decide⟩, free rfl, free rfl, ⟨free rfl, rfl⟩, ⟨free rfl, rfl⟩, ?_⟩
  decide +kernel

/-- Input 15 holds desk key 31 by its level and is active. -/
def heldByInput : State :=
  let c : ControlIn := { ControlIn.reset true with function := .deskKey, argument := 31, byLevel := true }
  { talking with call.inputs := tset talking.call.inputs 15 c }
def armedChan (c : Nat) (trigger : Trigger) (s : State) : State :=
  onChan c { Channel.reset with state := .armed, chain := [Desc.mk 0 64 96 false false 0], trigger := trigger } s
theorem test_wit_ControlLines_level :
    (CarriedOut (.ciBind 15 1 31 1 1) r0 ∧ (r0.input 15).pinHigh = (1 == 0) ∧ r0.hasKey 88 31 = true)
    ∧ (CarriedOut (.ciBind 15 0 255 0 0) heldByInput ∧ CarriedOut (.ciBind 15 1 30 1 0) heldByInput
      ∧ (heldByInput.input 15).function = .deskKey ∧ (heldByInput.input 15).byLevel = true
      ∧ (heldByInput.input 15).pinHigh = (heldByInput.input 15).activeHigh ∧ heldByInput.hasKey 88 31 = true)
    ∧ (CarriedOut (.ciBind 15 3 15 1 1) (armedChan 15 .immediate r0)
      ∧ ((armedChan 15 .immediate r0).chan 15).state = .armed)
    ∧ (CarriedOut (.ciBind 15 2 7 1 1) (armedChan 7 .immediate r0)
      ∧ ((armedChan 7 .immediate r0).chan 7).chain = Desc.mk 0 64 96 false false 0 :: [])
    ∧ (CarriedOut (.ciBind 15 5 255 1 1) r0 ∧ CarriedOut (.ciBind 15 3 15 0 1) r0 ∧ inFunctionOf 5 = some .notify
      ∧ (r0.input 15).function = .none)
    ∧ (let s := armedChan 3 (.controlInput 15) r0
       (s.input 15).pinHigh = false ∧ (s.input 15).function = .none ∧ (s.chan 3).state = .armed
        ∧ (s.chan 3).trigger = .controlInput 15)
    ∧ (let c : ControlIn := { ControlIn.reset true with function := .cut, argument := 7 }
       let s : State := { r0 with call.inputs := tset r0.call.inputs 15 c }
       (s.input 15).pinHigh ≠ false ∧ (s.input 15).function = .cut ∧ (false == (s.input 15).activeHigh) = false
        ∧ s.reports = []) := by
  have hi : heldByInput.exch.inHand = none := by decide +kernel
  exact ⟨⟨free rfl, by decide +kernel⟩, ⟨free hi, free hi, by decide +kernel⟩, ⟨free rfl, by decide +kernel⟩,
    ⟨free rfl, by decide +kernel⟩, ⟨free rfl, free rfl, by decide +kernel⟩, by decide +kernel, by decide +kernel⟩
/-- A Level binding acts at once, and its end; an edge starts the channel that it triggers. -/
theorem test_levelBinding :
    ((after (.ciBind 15 1 31 1 1) r0).key 88 31).pressed = true
    ∧ ((after (.ciBind 15 0 255 0 0) heldByInput).key 88 31).state = .idle
    ∧ ((after (.ciBind 15 3 15 1 1) (armedChan 15 .immediate r0)).chan 15).state = .running
    ∧ ((after (.ciBind 15 2 7 1 1) (armedChan 7 .immediate r0)).chan 7).chain = []
    ∧ ((after (.controlInputChange 15 true) (armedChan 3 (.controlInput 15) r0)).chan 3).state = .running := by
  decide +kernel

/-! Panel loops. -/

/-- Loop 3 Enabled, with a panel at address 15 (and at 0 where asked) in the given presence. -/
def looped (p : Presence) (inHand both : Bool) : State :=
  let panel : Panel := { Panel.reset with presence := p, lastSeq := some 7, missed := 0, keyCount := 24 }
  let s := onLoop 3 { Loop.reset with enabled := true, inHand := inHand, position := some 15 } (onPanel 63 panel r0)
  if both then onPanel 48 panel s else s
def polling (p : Presence) (missed : Nat) : State :=
  onPanel 63 { Panel.reset with presence := p, lastSeq := some 7, missed := missed } (looped p true false)

theorem test_wit_PollsAndStrayFrames :
    (let s := looped .present false true
     (s.loop 3).enabled = true ∧ (s.loop 3).inHand = false ∧ (s.loop 3).position = some 15
      ∧ (s.panel (16 * 3 + 0)).presence ≠ .unconfigured ∧ ∀ b, b < 16 → (b ≤ 15 ∧ 0 ≤ b))
    ∧ (let s := onLoop 3 { Loop.reset with enabled := true, position := some 14 } (looped .absent false true)
       (s.loop 3).position = some 14 ∧ (s.panel (16 * 3 + 15)).presence ≠ .unconfigured
        ∧ ∀ b, b < 16 → 14 < b → 15 ≤ b)
    ∧ ((r0.loop 3).enabled = false ∧ ((looped .present true true).loop 3).inHand = true)
    ∧ (∀ a, ¬(a < 16 ∧ (r0.panel (16 * 3 + a)).presence ≠ .unconfigured))
    ∧ ((looped .present false false).loop 3).enabled = true := by
  have h : ∀ a, a < 16 → (r0.panel (16 * 3 + a)).presence = .unconfigured := by decide +kernel
  exact ⟨by decide +kernel, by decide +kernel, by decide +kernel, fun a ⟨ha, hn⟩ => hn (h a ha), by decide +kernel⟩
theorem test_wit_PanelAnswers :
    (∀ p ∈ [Presence.joining, .present, .silent, .absent], (polling p 7).reports = []
      ∧ ((polling p 7).loop 3).enabled = true ∧ ((polling p 7).loop 3).inHand = true
      ∧ ((polling p 7).loop 3).position = some 15 ∧ ((polling p 7).panel 63).presence = p
      ∧ ((polling p 7).panel 63).missed = 7)
    ∧ (((polling .present 1).panel 63).missed < 2 ∧ 2 ≤ ((polling .present 2).panel 63).missed)
    ∧ ((polling .silent 6).panel 63).missed < 7
    ∧ (((polling .present 0).panel 63).lastSeq = some 7 ∧ ((polling .present 0).panel 63).lastSeq ≠ some 0)
    ∧ (23 < ((polling .present 0).panel 63).keyCount ∧ (polling .present 0).hasKey 63 23 = true
      ∧ ((polling .present 0).panel 63).keyCount ≤ 24) := by decide +kernel
theorem test_wit_PanelOrders : r0.reports = []
    ∧ CarriedOut (.panelConfig 4 16 128 128 25) r0 ∧ CarriedOut (.panelConfigClear 4 16) r0
    ∧ CarriedOut (.loopConfig 4 true (some 0)) r0 ∧ CarriedOut (.panelConfig 3 15 128 254 0) r0
    ∧ (CarriedOut (.panelConfig 3 15 127 255 24) r0 ∧ (r0.panel 63).presence = .unconfigured
      ∧ ¬((127 < 127 ∧ 127 ≠ 255) ∨ (127 < 255 ∧ 255 ≠ 255) ∨ 24 = 0 ∨ 24 < 24))
    ∧ (CarriedOut (.panelConfig 3 15 0 0 1) (polling .present 0) ∧ (polling .present 0).reports = []
      ∧ ((polling .present 0).panel 63).presence ≠ .unconfigured ∧ CarriedOut (.panelConfigClear 3 15) (polling .present 0))
    ∧ CarriedOut (.panelConfigClear 3 15) r0
    ∧ (CarriedOut (.loopConfig 3 true (some 251)) r0 ∧ CarriedOut (.loopConfig 3 true (some 2000)) r0
      ∧ ¬∃ v, some 2000 = some v ∧ v ≠ 250 ∧ v ≠ 500 ∧ v ≠ 1000 ∧ v ≠ 2000)
    ∧ (CarriedOut (.loopConfig 3 false none) (polling .silent 3) ∧ ((polling .silent 3).loop 3).enabled = true
      ∧ ((polling .silent 3).panel (16 * 3 + 15)).presence = .silent) :=
  ⟨rfl, free rfl, free rfl, free rfl, free rfl, ⟨free rfl, by decide +kernel⟩,
    ⟨free rfl, by decide +kernel, by decide +kernel, free rfl⟩, free rfl, ⟨free rfl, free rfl, by simp⟩,
    free rfl, by decide +kernel⟩

/-! Field links. -/

def offered (blocks : List ProfileBlock) (n : Nat) : OfferMsg := { unit := 9, number := 255, nBlocks := n, blocks := blocks }
def formatsBlock : ProfileBlock := { framing := .within, version := 1, body := .formats [some .linear16, none] [8, 3] }
/-- Every link holds a session of another unit. -/
def busyLinks : State :=
  { r0 with links := build 24 fun _ => { Link.reset with session := .live, unit := some 5 } }
/-- Link 23 alone may take an Offer. -/
def lastFree : State := onLink 23 { Link.reset with duty := .wakeStay } r0
theorem test_wit_OffersTaken : r0.reports = [] ∧ busyLinks.reports = [] ∧ lastFree.reports = []
    ∧ (offered [formatsBlock] 2).blocks.length < (offered [formatsBlock] 2).nBlocks
    ∧ (∀ b, b ∈ (offered [] 0).blocks.take (offered [] 0).nBlocks → b.version = 1 → ∀ cs ds, b.body ≠ .formats cs ds)
    ∧ readOffer (offered [] 0) = none
    ∧ readOffer (offered [formatsBlock] 1) = some (([.linear16], [8]), { delay := none, keys := 0, duty := false })
    ∧ (∀ k, k < 24 → (busyLinks.link k).session ≠ .vacant → (busyLinks.link k).session ≠ .closing →
        (busyLinks.link k).unit ≠ some 9)
    ∧ (∀ k, k < 24 → (busyLinks.link k).session ≠ .vacant)
    ∧ (∀ k, k < 24 → (lastFree.link k).session ≠ .vacant → (lastFree.link k).session ≠ .closing →
        (lastFree.link k).unit ≠ some 9)
    ∧ (∀ k, k < 24 → (lastFree.link k).session = .vacant → (∀ x, (lastFree.link k).reserved = some x → x.1 ≠ 9)
        ∧ ((lastFree.link k).reserved = none → (lastFree.link k).allowed ≠ some 9))
    ∧ ((lastFree.link 23).session = .vacant ∧ (lastFree.link 23).reserved = none ∧ (lastFree.link 23).allowed = none
      ∧ (lastFree.link 23).duty ≠ .held)
    ∧ (∀ k, k < 23 → ¬((lastFree.link k).session = .vacant ∧ (lastFree.link k).reserved = none
        ∧ (lastFree.link k).allowed = none ∧ (lastFree.link k).duty ≠ .held))
    ∧ chooseFormat (lastFree.link 23) ([.linear16], [8]) = some (.linear16, 8) := by
  have hr : ∀ k, k < 24 → (lastFree.link k).reserved = none := by decide +kernel
  have ha : ∀ k, k < 24 → (lastFree.link k).allowed = none := by decide +kernel
  refine ⟨rfl, rfl, rfl, by decide, by simp [offered], by decide +kernel, by decide +kernel, by decide +kernel,
    by decide +kernel, by decide +kernel, fun k hk _ => ⟨?_, ?_⟩, by decide +kernel, by decide +kernel, by decide +kernel⟩
  · rw [hr k hk]; simp
  · rw [ha k hk]; simp

def block (body : BlockBody) : ProfileBlock := { framing := .within, version := 1, body := body }
/-- A Formats block, a Delay block in units of 64 ms and four keys. -/
def fullOffer : OfferMsg :=
  offered [formatsBlock, block (.delay 255 64 255), block (.keys 4), block (.duty true)] 4
/-- Links 0 to 22 hold a session, link 23 is the one given. -/
def lastLink (l : Link) : State := { r0 with links := build 24 fun n => if n = 23 then l else { Link.reset with session := .live } }
theorem test_wit_OfferPlacement :
    (readOffer (offered [formatsBlock] 2) = none ∧ readOffer (offered [formatsBlock, block (.delay 0 9 0)] 2) = none
      ∧ readOffer (offered [formatsBlock, block (.keys 5)] 2) = none ∧ readOffer (offered [block (.keys 4)] 1) = none
      ∧ readOffer (offered [{ formatsBlock with framing := .pastEnd }] 1) = none
      ∧ readOffer fullOffer = some (([.linear16], [8]), { delay := some (16384, 8388608), keys := 4, duty := true }))
    ∧ ((∀ b, b ∈ fullOffer.blocks.take 4 → b.framing = .within) ∧ 4 ≤ fullOffer.blocks.length)
    ∧ ((Link.reset).codecs = [.compactLD] ++ .linear16 :: [.linear24]
      ∧ chooseFormat { Link.reset with minFrame := 4 } ([.linear16], [2, 4, 8]) = some (.linear16, 4)
      ∧ chooseFormat { Link.reset with minFrame := 8 } ([.linear16], [2, 4]) = none)
    ∧ (∀ x ∈ [Session.negotiating, .live, .waking], ∀ o ∈ [255, 254],
        let l : Link := { Link.reset with session := x, unit := some 9, offer := some o, format := some (.linear16, 8) }
        let s := lastLink l
        s.reports = [] ∧ (s.link 23).session = x ∧ (s.link 23).unit = some 9 ∧ (s.link 23).offer = some o
          ∧ (s.link 23).format = some (.linear16, 8) ∧ (∀ k, k < 23 → (s.link k).unit ≠ some 9))
    ∧ (∀ l ∈ [{ Link.reset with duty := .always, reserved := some (9, 1) }, { Link.reset with reserved := some (9, 1) },
          { Link.reset with duty := .always, allowed := some 9 }, { Link.reset with duty := .always },
          { Link.reset with duty := .always, reserved := some (8, 1) }, { Link.reset with duty := .held }],
        let s := lastLink l
        s.link 23 = l ∧ (s.link 23).session = .vacant ∧ (∀ k, k < 23 → (s.link k).session ≠ .vacant)
          ∧ ∀ n, n < 24 → (s.link n).unit ≠ some 9)
    ∧ (chooseFormat { Link.reset with duty := .always, allowed := some 9 } ([.linear16], [8]) = some (.linear16, 8)
      ∧ chooseFormat { Link.reset with duty := .always, codecs := [.linear24] } ([.linear16], [8]) = none) := by
  decide +kernel

/-- Link 23 with a session of unit 9. -/
def linkAt (x : Session) (d : Duty) : State :=
  onLink 23 { Link.reset with
    session := x, unit := some 9, effective := d, pathMain := some 1, latestPort := .main, format := some (.linear16, 4)
    offered := some { delay := none, keys := 4, duty := true } } r0
def env : Envelope := { port := .alternate, source := 2, unit := 9, link := 23 }
/-- The link Resting under Paused, Rest sent at 0. -/
def restedAt (now : Nat) : State :=
  { onLink 23 { (linkAt .resting .paused).link 23 with lastRest := some 0 } r0 with now := now }
theorem test_wit_LinkMessages :
    (¬(env.link < 24 ∧ (r0.link env.link).unit = some env.unit) ∧ ¬({ env with link := 24 }).link < 24)
    ∧ (env.link < 24 ∧ ((linkAt .closing .held).link env.link).unit = some env.unit
      ∧ ((linkAt .closing .held).link env.link).session = .closing)
    ∧ (((linkAt .negotiating .always).link 23).unit = some env.unit
      ∧ ((linkAt .negotiating .always).link 23).session = .negotiating
      ∧ ((linkAt .negotiating .always).link 23).effective = .always
      ∧ (tget (linkAt .negotiating .always).jits 23).playout = .off)
    ∧ (((linkAt .fading .always).link 23).session = .fading ∧ ((linkAt .live .always).link 23).session = .live)
    ∧ (3 < 4 ∧ 3 < ((linkAt .live .always).link 23).keyCount ∧ (linkAt .live .always).hasKey (64 + 23) 3 = true)
    ∧ (∀ x ∈ [Session.resting, .waking, .negotiating], ∀ d ∈ [Duty.paused, .wakeRest, .wakeStay],
        let l := (linkAt x d).link 23
        let j := tget (linkAt x d).jits 23
        l.unit = some env.unit ∧ l.session = x ∧ l.effective = d ∧ l.fromLink = false ∧ l.takesDuty = true
          ∧ (∀ i, i < 4 → tget l.keyStates i = false) ∧ j.playout = .off ∧ l.keySeq = none
          ∧ l.format = some (.linear16, 4) ∧ j.frames = [] ∧ 0 < j.duration ∧ 3 < 4 ∧ j.selected = none
          ∧ (∀ k, k < 4 → 1 ≤ (tget j.profiles k).maximum) ∧ j.lastRemoved = none ∧ (List.replicate 384 (0 : Byte)).length = 96 * 4)
    ∧ (((restedAt 0).link 23).lastRest = some 0 ∧ 0 + 1000 ≤ (restedAt 1000).now ∧ (restedAt 999).now < 0 + 1000
      ∧ ((restedAt 0).link 23).session = .resting ∧ ((restedAt 0).link 23).effective = .paused)
    ∧ ((linkAt .negotiating .wakeRest).reports = [] ∧ NoneArmed (linkAt .negotiating .wakeRest)) := by
  unfold NoneArmed
  decide +kernel
/-- What those messages do: a key wakes, Audio wakes, Audio under Paused is counted and answered with Rest, the first Audio
under Paused rests. -/
theorem test_messages :
    let ks : KeyStates := build 4 fun k => k == 3
    let up (c : Instr) (s : State) : Session × Bool := (((after c s).link 23).session, ((after c s).key 87 3).pressed)
    let audio : Instr := .audio env 0 3 ks (List.replicate 384 0)
    up (.keepalive env ks) (linkAt .resting .wakeRest) = (.live, true)
    ∧ up (.keepalive env ks) (linkAt .resting .paused) = (.resting, true)
    ∧ up (.keepalive env ks) (linkAt .waking .wakeRest) = (.waking, true)
    ∧ up audio (linkAt .waking .always) = (.live, true) ∧ up audio (linkAt .resting .wakeStay) = (.live, true)
    ∧ (tget (after audio (linkAt .waking .always)).jits 23).frames.length = 1
    ∧ (tget (after audio (linkAt .resting .wakeStay)).jits 23).frames.length = 1
    ∧ up audio (restedAt 1000) = (.resting, true) ∧ ((after audio (restedAt 1000)).link 23).lastRest = some 1000
    ∧ ((after audio (restedAt 999)).link 23).counters.paused = 1
    ∧ up audio (linkAt .negotiating .paused) = (.resting, true) ∧ up audio (linkAt .negotiating .wakeRest) = (.live, true) := by
  decide +kernel
/-- Link 23 in a state whose timers have all run out. -/
def linkDue (x : Session) (d : Duty) : State :=
  let l := (linkAt x d).link 23
  onLink 23 { l with reserved := some (9, 0), timers :=
    { negotiation := some 0, linger := some 0, recovery := some 0, wake := some 0, silence := some 0
      keepalive := some 0, close := some 0 } } r0
theorem test_wit_LinkTimerExpiries :
    (∀ x ∈ [Session.negotiating, .fading, .resting, .waking, .closing, .live],
      ((linkDue x .wakeRest).link 23).session = x ∧ ((linkDue x .wakeRest).link 23).effective = .wakeRest
        ∧ ((linkDue x .wakeRest).link 23).toward = false ∧ ((linkDue x .wakeRest).link 23).fromLink = false
        ∧ ((linkDue x .wakeRest).link 23).reserved = some (9, (linkDue x .wakeRest).now)
        ∧ ((linkDue x .wakeRest).link 23).timers.negotiation = some (linkDue x .wakeRest).now
        ∧ ((linkDue x .wakeRest).link 23).timers.linger = some (linkDue x .wakeRest).now
        ∧ ((linkDue x .wakeRest).link 23).timers.recovery = some (linkDue x .wakeRest).now
        ∧ ((linkDue x .wakeRest).link 23).timers.wake = some (linkDue x .wakeRest).now
        ∧ ((linkDue x .wakeRest).link 23).timers.silence = some (linkDue x .wakeRest).now
        ∧ ((linkDue x .wakeRest).link 23).timers.keepalive = some (linkDue x .wakeRest).now
        ∧ ((linkDue x .wakeRest).link 23).timers.close = some (linkDue x .wakeRest).now)
    ∧ (NotDue (r0.link 23).timers.negotiation r0.now ∧ NotDue ((r0.link 23).reserved.map (·.2)) r0.now)
    ∧ (let l := { (linkAt .resting .wakeRest).link 23 with
         reserved := some (9, 1), timers := { LinkTimers.stopped with silence := some 1, keepalive := some 1 } }
       let s := onLink 23 l r0
       NotDue (s.link 23).timers.silence s.now ∧ NotDue (s.link 23).timers.keepalive s.now
        ∧ NotDue ((s.link 23).reserved.map (·.2)) s.now) :=
  ⟨by decide +kernel, ⟨notDue_stopped _, notDue_stopped _⟩, notDue_later (by decide), notDue_later (by decide),
    notDue_later (by decide)⟩
/-- Link 23 holds three frames of its selected profile. -/
def overfull (x : Session) : State :=
  onJit 23 { Jitter.reset with
    frames := [5, 6, 7].map fun q => { seq := q, quality := 3, port := .main, payload := [] }
    selected := some 3, playout := .playing, last := .real, cause := none, duration := 4 } (linkAt x .always)
theorem test_wit_LinkOrders : CarriedOut (.linkConfig 24 none none none none none none none none) r0
    ∧ (CarriedOut (.linkConfig 23 none (some [0, 0]) (some 3) (some 2) (some 39) (some 10001) (some 301) (some 0)) r0
      ∧ codecListOf [0, 0] = none)
    ∧ (CarriedOut (.linkConfig 23 (some 0) (some [2]) (some 8) (some 1) (some 2000) (some 10000) (some 300) (some 60)) r0
      ∧ (codecListOf [2]).isSome = true)
    ∧ (dutyOf 2 = some .held ∧ CarriedOut (.linkDuty 23 2) r0 ∧ (r0.link 23).duty = .held)
    ∧ (dutyOf 4 = some .wakeStay ∧ CarriedOut (.linkDuty 23 4) r0 ∧ (r0.link 23).session = .vacant)
    ∧ (let s := onLink 23 { (linkAt .live .always).link 23 with duty := .always } r0
       dutyOf 2 = some .held ∧ dutyOf 1 = some .paused ∧ CarriedOut (.linkDuty 23 2) s ∧ CarriedOut (.linkDuty 23 1) s
        ∧ (s.link 23).session = .live ∧ (s.link 23).duty = .always)
    ∧ (∀ x ∈ [Session.live, .resting], dutyOf 0 = some .always ∧ (linkAt x .wakeRest).exch.inHand = none
        ∧ (linkAt x .wakeRest).exch.part ≠ .autonomous ∧ ((linkAt x .wakeRest).link 23).session = x
        ∧ Duty.always ≠ ((linkAt x .wakeRest).link 23).duty)
    ∧ (CarriedOut (.linkDuty 23 5) r0 ∧ CarriedOut (.linkDuty 24 0) r0)
    ∧ (CarriedOut (.linkClose 24) r0 ∧ CarriedOut (.linkClose 23) r0 ∧ (r0.link 23).session = .vacant)
    ∧ (CarriedOut (.linkClose 23) (linkAt .closing .held) ∧ ((linkAt .closing .held).link 23).session = .closing)
    ∧ (CarriedOut (.linkClose 23) (linkAt .fading .held) ∧ ((linkAt .fading .held).link 23).session = .fading)
    ∧ (CarriedOut (.linkProfiles 24 0 0 0 0 0 0) r0 ∧ CarriedOut (.linkProfiles 23 4 258 1 258 2 2) r0)
    ∧ (CarriedOut (.linkProfiles 23 3 256 256 256 1 1) r0 ∧ (tget r0.jits 23).selected ≠ some 3)
    ∧ CarriedOut (.linkReserveClear 24) r0 ∧ CarriedOut (.linkReserveClear 23) (linkDue .live .always)
    ∧ (∀ x ∈ [Session.negotiating, .live, .resting, .waking, .fading], ∀ a ∈ [(false, false), (true, false), (true, true)],
        let s := onLink 23 { (linkAt x .always).link 23 with toward := a.1, fromLink := a.2 } r0
        dutyOf 3 = some .wakeRest ∧ dutyOf 4 = some .wakeStay ∧ s.exch.inHand = none ∧ s.exch.part ≠ .autonomous
          ∧ (s.link 23).duty ≠ .wakeRest ∧ (s.link 23).duty ≠ .wakeStay ∧ (s.link 23).session = x
          ∧ (s.link 23).toward = a.1 ∧ (s.link 23).fromLink = a.2 ∧ (s.link 23).takesDuty = true)
    ∧ (∀ x ∈ [Session.live, .fading], (overfull x).exch.inHand = none ∧ (overfull x).exch.part ≠ .autonomous
        ∧ (tget (overfull x).jits 23).selected = some 3 ∧ ((overfull x).link 23).session = x
        ∧ ((overfull x).link 23).counters.mainPort.late ≤ max32) :=
  ⟨free rfl, ⟨free rfl, by decide⟩, ⟨free rfl, by decide⟩, ⟨rfl, free rfl, by decide +kernel⟩,
    ⟨rfl, free rfl, by decide +kernel⟩, ⟨rfl, rfl, free rfl, free rfl, by decide +kernel⟩, by decide +kernel, ⟨free rfl, free rfl⟩,
    ⟨free rfl, free rfl, by decide +kernel⟩, ⟨free rfl, by decide +kernel⟩, ⟨free rfl, by decide +kernel⟩,
    ⟨free rfl, free rfl⟩, ⟨free rfl, by decide +kernel⟩, free rfl, free rfl, by decide +kernel, by decide +kernel⟩
/-- LINK.DUTY WakeRest and WakeStay on a session, and LINK.PROFILES on the selected profile. -/
theorem test_dutyAndProfile :
    let duty (m : Nat) (x : Session) (a : Bool × Bool) : Session × Option Nat :=
      let t := after (.linkDuty 23 m) (onLink 23 { (linkAt x .always).link 23 with toward := a.1, fromLink := a.2 } r0)
      ((t.link 23).session, (t.link 23).timers.linger)
    duty 3 .live (false, false) = (.live, some (1000 * Link.reset.linger)) ∧ duty 3 .live (true, false) = (.live, none)
    ∧ duty 4 .resting (true, true) = (.live, none) ∧ duty 3 .resting (true, false) = (.waking, none)
    ∧ duty 3 .resting (false, false) = (.resting, none) ∧ duty 4 .waking (false, false) = (.waking, none)
    ∧ (let t := after (.linkProfiles 23 3 4 4 4 1 0) (overfull .live)
       (tget t.jits 23).frames = [{ seq := 7, quality := 3, port := .main, payload := [] }]
        ∧ (tget t.jits 23).lastRemoved = some 6 ∧ (tget t.mat.sources 151).cause = some .profileUnusable
        ∧ (t.link 23).counters.mainPort.late = 2) := by decide +kernel
/-- Jitter buffer 23 at an instant in Playing, with the frames and the gap time given. -/
def playing (x : Session) (frames : List Frame) (gap : Nat) : State :=
  onJit 23 { Jitter.reset with
    frames := frames, selected := some 0, playout := .playing, instant := some 0, last := .real, gap := gap } (linkAt x .always)
def aFrame : Frame := { seq := 65535, quality := 0, port := .main, payload := [] }
theorem test_wit_PlayoutAndReturn :
    (∀ x ∈ [Session.live, .fading], ((tget (playing x [aFrame] 0).jits 23).instant = some (playing x [aFrame] 0).now
      ∧ ((playing x [aFrame] 0).link 23).format = some (.linear16, 4) ∧ (playing x [aFrame] 0).reports = []
      ∧ 0 < ((playing x [aFrame] 0).link 23).loss ∧ (tget (playing x [aFrame] 0).jits 23).frames = [aFrame]
      ∧ (tget (playing x [aFrame] 0).jits 23).playout = .playing ∧ (tget (playing x [aFrame] 0).jits 23).last = .real
      ∧ (tget (playing x [aFrame] 0).jits 23).selected = some 0
      ∧ (tget (tget (playing x [aFrame] 0).jits 23).profiles 0).usable = true
      ∧ ([] : List Frame).length ≤ effFrames (tget (tget (playing x [aFrame] 0).jits 23).profiles 0).target 4
      ∧ ((playing x [aFrame] 0).link 23).session = x ∧ ((playing x [aFrame] 0).link 23).effective ≠ .paused))
    ∧ ((tget (playing .live [] 195).jits 23).frames = [] ∧ satAdd max16 195 4 < ((playing .live [] 195).link 23).loss)
    ∧ ((tget (playing .live [] 196).jits 23).gap = 196 ∧ ((playing .live [] 196).link 23).loss ≤ satAdd max16 196 4
      ∧ 0 < ((playing .live [] 196).link 23).recovery)
    ∧ (NotDue (tget r0.jits 23).instant r0.now
      ∧ NotDue (tget (onJit 23 { Jitter.reset with instant := some 1 } r0).jits 23).instant r0.now)
    ∧ (((linkAt .waking .always).link 23).format = some (.linear16, 4) ∧ ((linkAt .waking .always).link 23).session = .waking)
    ∧ ((r0.link 23).session ≠ .live ∧ (r0.link 23).session ≠ .waking) :=
  ⟨by decide +kernel, by decide +kernel, by decide +kernel, ⟨notDue_stopped _, notDue_later (by decide)⟩,
    by decide +kernel, by decide +kernel⟩

/-- Jitter buffer 23 of a session in the state given, two frames held, the first profile unusable or not. -/
def arriving (x : Session) (selected : Option Nat) (candidate : Option (Nat × Nat)) : State :=
  onJit 23 { Jitter.reset with
    duration := 4, frames := [{ aFrame with seq := 65533 }, aFrame], selected := selected, candidate := candidate
    lastRemoved := some 65530 } (linkAt x .always)
theorem test_wit_AudioArrives :
    (∀ x ∈ [Session.live, .fading], ∀ sel ∈ [none, some 0], ∀ cand ∈ [none, some (3, 2)],
      let s := arriving x sel cand
      env.link < 24 ∧ (s.link env.link).unit = some env.unit ∧ (s.link env.link).session = x
        ∧ (s.link env.link).format = some (.linear16, 4) ∧ 3 < 4 ∧ (tget s.jits 23).selected = sel
        ∧ (tget s.jits 23).candidate = cand ∧ s.reports = [] ∧ (s.link 23).keySeq = none
        ∧ 3 < (s.link 23).keyCount ∧ s.hasKey (64 + 23) 3 = true)
    ∧ (let s := arriving .live (some 0) (some (3, 2))
       ((tget s.jits 23).lastRemoved = some 65530 ∧ (65530 + 65536 - 65529) % 65536 = 1)
        ∧ (∃ x, x ∈ (tget s.jits 23).frames ∧ x.seq = 65535) ∧ (∀ x, x ∈ (tget s.jits 23).frames → x.seq ≠ 65534)
        ∧ (65534 + 65536 - 65530) % 65536 ≤ 32767 ∧ (tget (tget s.jits 23).profiles 3).usable = true)
    ∧ (let s := onLink 23 { (linkAt .live .always).link 23 with keySeq := some 65535 } (arriving .live none none)
       (s.link 23).keySeq = some 65535 ∧ (0 + 65536 - 65535) % 65536 = 1 ∧ (65535 + 65536 - 65535) % 65536 = 0) := by
  decide +kernel

/-- Jitter buffer 23 at an instant of a Live session: playout state, frames held, last instant, correction. -/
def instantAt (p : Playout) (sel : Option Nat) (held : Nat) (last : LastInstant) (corr : Nat) : State :=
  onJit 23 { Jitter.reset with
    duration := 4, frames := (List.range held).map fun k => { aFrame with seq := k }, selected := sel, playout := p
    instant := some 0, last := last, correction := corr, primed := true, lastReal := some []
    profiles := tset Jitter.reset.profiles 3 { tget Jitter.reset.profiles 3 with
      target := 8, minimum := 8, usable := false, concealment := .silence } } (linkAt .live .always)
theorem test_wit_PlayoutStates :
    (∀ p ∈ [Playout.priming, .playing, .refilling], ∀ sel ∈ [none, some 0, some 3],
      let s := instantAt p sel 3 .real 31
      s.reports = [] ∧ (tget s.jits 23).instant = some 0 ∧ (s.link 23).format = some (.linear16, 4)
        ∧ (s.link 23).session = .live ∧ satAdd max16 0 4 < (s.link 23).loss ∧ (tget s.jits 23).gap < (s.link 23).loss
        ∧ (tget s.jits 23).selected = sel ∧ (tget s.jits 23).playout = p ∧ 0 < (tget s.jits 23).duration
        ∧ (s.link 23).counters.concealed ≤ max32)
    ∧ (let j := tget (instantAt .priming (some 3) 1 .silent 0).jits 23
       let prof := tget j.profiles 3
       (prof.target + j.duration - 1) / j.duration = 2 ∧ (prof.minimum + j.duration - 1) / j.duration = 2
        ∧ j.frames.length < 2 ∧ 0 < j.began + 2 * j.duration ∧ prof.usable = false
        ∧ (tget j.profiles 0).usable = true ∧ (tget j.profiles 0).concealment = .repeatFade
        ∧ prof.concealment = .silence ∧ j.lastReal = some [])
    ∧ (let j := tget (instantAt .playing (some 3) 1 .concealed 0).jits 23
       j.last = .concealed ∧ j.frames.length < 2 ∧ j.frames ≠ [])
    ∧ (∀ n ∈ [3, 4], ∀ corr ∈ [30, 31], let j := tget (instantAt .playing (some 3) n .real corr).jits 23
       ∃ f rest, j.frames = f :: rest ∧ j.correction = corr ∧ ((n = 3 ∧ rest.length ≤ 2) ∨ 2 < rest.length))
    ∧ (tget (instantAt .playing (some 0) 0 .real 0).jits 23).frames = [] := by
  refine ⟨by decide +kernel, by decide +kernel, by decide +kernel, ?_, by decide +kernel⟩
  intro n hn corr hc
  simp only [List.mem_cons, List.not_mem_nil, or_false] at hn hc
  rcases hn with rfl | rfl <;> rcases hc with rfl | rfl <;> exact ⟨_, _, rfl, by decide +kernel⟩

/-! Stream unit. -/

def desc (k : Nat) (last : Bool) : Desc :=
  { address := 32 * k, buffer := 64, length := 96, loop := false, last := last, index := k }
def chanAt (c : Nat) (r : Channel) : State := onChan c r r0
def chained (x : ChanState) (n : Nat) : Channel :=
  { Channel.reset with state := x, chain := (List.range n).map fun k => desc k false }
theorem test_wit_StreamOrders :
    (r0.reports = [] ∧ CarriedOut (.streamConfig 16 none none none) r0)
    ∧ (CarriedOut (.streamConfig 15 (some (1, 16)) none none) r0 ∧ triggerOf 1 16 = none)
    ∧ (CarriedOut (.streamConfig 0 none (some (152, 8)) none) r0 ∧ ¬(152 = 255 ∧ 8 = 255) ∧ (151 < 152 ∨ 7 < 8))
    ∧ (CarriedOut (.streamConfig 8 none (some (0, 0)) none) r0 ∧ CarriedOut (.streamConfig 7 none none (some 0)) r0)
    ∧ (CarriedOut (.streamConfig 7 none (some (151, 7)) none) (chanAt 7 (chained .running 1))
      ∧ ((chanAt 7 (chained .running 1)).chan 7).state = .running)
    ∧ (CarriedOut (.streamConfig 7 none (some (255, 255)) none) r0 ∧ (r0.chan 7).state ≠ .running)
    ∧ (CarriedOut (.streamConfig 8 none none (some 152)) r0 ∧ CarriedOut (.streamConfig 15 none none (some 151)) r0
      ∧ CarriedOut (.streamConfig 15 none none (some 255)) r0)
    ∧ (CarriedOut (.streamConfig 15 (some (3, 88)) none none) r0 ∧ triggerOf 3 88 = some (.call 88))
    ∧ (CarriedOut (.streamAppend 15 0 none) (chanAt 15 (chained .running 8))
      ∧ 8 ≤ ((chanAt 15 (chained .running 8)).chan 15).chain.length)
    ∧ (CarriedOut (.streamAppend 15 0 none) (chanAt 15 (chained .running 7))
      ∧ (∃ d, d ∈ ((chanAt 15 (chained .running 7)).chan 15).chain ∧ d.address = 0))
    ∧ (CarriedOut (.streamAppend 15 1024 (some { buffer := 4, length := 1048576 - 16, flags := 2, hostState := 1 }))
        (chanAt 15 (chained .starved 0))
      ∧ (∀ d, d ∈ ((chanAt 15 (chained .starved 0)).chan 15).chain → d.address ≠ 1024)
      ∧ (1 = 1 ∧ 48 ≤ 1048560 ∧ 1048560 ≤ 1048576 ∧ 1048560 % 48 = 0 ∧ 4 % 4 = 0 ∧ (8 ≤ 15 → bit (2#8) 0 = false))
      ∧ ((chanAt 15 (chained .starved 0)).chan 15).cue = none)
    ∧ (CarriedOut (.streamConfig 7 (some (0, 9)) (some (151, 7)) none) r0 ∧ triggerOf 0 9 = some .immediate
      ∧ CarriedOut (.streamConfig 15 (some (3, 88)) none (some 151)) r0 ∧ CarriedOut (.streamAppend 16 0 none) r0)
    ∧ (let r : Channel := { chained .armed 2 with chain := [desc 0 true, desc 1 false] }
       CarriedOut (.streamCut 7) (chanAt 7 r) ∧ ((chanAt 7 r).chan 7).state = .armed
        ∧ ((chanAt 7 r).chan 7).chain = desc 0 true :: [desc 1 false] ∧ (desc 0 true).last = true)
    ∧ (CarriedOut (.streamStart 16) r0 ∧ CarriedOut (.streamStart 15) r0 ∧ (r0.chan 15).state = .idle
      ∧ CarriedOut (.streamCut 15) r0)
    ∧ (CarriedOut (.streamStart 15) (chanAt 15 (chained .armed 1)) ∧ ((chanAt 15 (chained .armed 1)).chan 15).cue = none)
    ∧ (CarriedOut (.streamCut 0) (chanAt 0 (chained .armed 2)) ∧ (desc 0 false).last = false
      ∧ ((chanAt 0 (chained .armed 2)).chan 0).chain = desc 0 false :: [desc 1 false]
      ∧ (chanAt 0 (chained .armed 2)).writeFaults = [])
    ∧ (let r : Channel := { chained .running 2 with chain := [desc 0 true, desc 1 false] }
       CarriedOut (.streamCut 7) (chanAt 7 r) ∧ ((chanAt 7 r).chan 7).state = .running
        ∧ ((chanAt 7 r).chan 7).chain = desc 0 true :: [desc 1 false])
    ∧ (CarriedOut (.streamCut 15) (chanAt 15 (chained .running 1))
      ∧ ((chanAt 15 (chained .running 1)).chan 15).staging = []
      ∧ ((chanAt 15 (chained .running 1)).chan 15).chain = desc 0 false :: [])
    ∧ (CarriedOut (.streamStop 15) (chanAt 15 (chained .running 8))
      ∧ Inv.ChanOk ((chanAt 15 (chained .running 8)).chan 15)) := by
  refine ⟨⟨rfl, free rfl⟩, ⟨free rfl, rfl⟩, ⟨free rfl, by decide⟩, ⟨free rfl, free rfl⟩, ⟨free rfl, by decide +kernel⟩,
    ⟨free rfl, by decide +kernel⟩, ⟨free rfl, free rfl, free rfl⟩, ⟨free rfl, rfl⟩, ⟨free rfl, by decide +kernel⟩,
    ⟨free rfl, by decide +kernel⟩, ⟨free rfl, by decide +kernel⟩,
    ⟨free rfl, rfl, free rfl, free rfl⟩, ⟨free rfl, by decide +kernel⟩,
    ⟨free rfl, free rfl, by decide +kernel, free rfl⟩, ⟨free rfl, by decide +kernel⟩, ⟨free rfl, by decide +kernel⟩,
    ⟨free rfl, by decide +kernel⟩, ⟨free rfl, by decide +kernel⟩, free rfl, ?_⟩
  unfold Inv.ChanOk; decide +kernel
/-- A trigger and a cue, a trigger and a mirror are written together; a Cut of an Armed head with Last ends the chain. -/
theorem test_streamOrders :
    ((after (.streamConfig 7 (some (4, 9)) (some (151, 7)) none) r0).chan 7).cue = some (151, 7)
    ∧ ((after (.streamConfig 7 (some (4, 9)) (some (151, 7)) none) r0).chan 7).trigger = .recallEnd
    ∧ ((after (.streamConfig 15 (some (3, 88)) none (some 151)) r0).chan 15).trigger = .call 88
    ∧ ((after (.streamConfig 15 (some (3, 88)) none (some 151)) r0).dest 159).mirror = some 151
    ∧ ((after (.streamCut 7) (chanAt 7 { chained .armed 2 with chain := [desc 0 true, desc 1 false] })).chan 7).chain = [] := by
  decide +kernel
/-- An order in hand that would return descriptors returns none at a Restart and at the entry to Autonomous (R160): nothing
is written at a descriptor, and its event is not raised. -/
theorem test_abandoned : ∀ i ∈ [Instr.streamStop 15, .streamCut 15, .ciBind 15 2 15 1 1],
    let s := onChan 15 (chained .armed 2) (handed i)
    let still (t : State) : Prop := (t.chan 15).state = .idle ∧ (t.chan 15).chain = []
      ∧ tget t.ev.counts 22 = 0 ∧ ∀ a ∈ [14, 15, 16, 46, 47, 48], ∀ b ∈ [[1], [0], [2], u32 0], Output.write a b ∉ t.sent
    still (after (.restart 0 1 (some 0) (some 0) none) s) ∧ still (after .linkLoss s)
      ∧ Output.write 14 [1] ∈ (after i (onChan 15 (chained .armed 2) on)).sent := by
  dsimp only
  decide +kernel
def capturing (moved n : Nat) : Channel :=
  { chained .running 1 with moved := moved, staging := List.replicate n { at_ := 0, samples := [] } }
theorem test_wit_StreamBlocks :
    ((r0.chan 7).lost ≤ max32 ∧ r0.reports = [] ∧ (r0.chan 7).state = .idle)
    ∧ (let r := (chanAt 7 { chained .running 2 with readAt := 95 }).chan 7
       r.state = .running ∧ r.chain = desc 0 false :: [desc 1 false] ∧ r.staging.length < 4 ∧ r.readAt < 96
        ∧ r.moved ≤ r.readAt)
    ∧ (let r := (chanAt 15 (capturing 0 4)).chan 15
       r.state = .running ∧ r.chain = [desc 0 false] ∧ r.staging = ⟨0, []⟩ :: [⟨0, []⟩, ⟨0, []⟩, ⟨0, []⟩]
        ∧ r.moved + 48 < 96 ∧ r.lost ≤ max32)
    ∧ (let r := (chanAt 15 (capturing 48 1)).chan 15
       r.state = .running ∧ r.chain = [desc 0 false] ∧ r.staging = [⟨0, []⟩] ∧ r.moved + 48 = 96 ∧ r.cue = none
        ∧ (desc 0 false).last = false ∧ (chanAt 15 (capturing 48 1)).writeFaults = []) := by decide +kernel

/-- Playback channel 7 is heard at 0 dB at destination 127, alone. -/
def playedOut (r : Channel) : State :=
  let p : Plan := { terms := [{ path := .crosspoint, source := 159, gain := some 0 }], level := some 0 }
  let s := chanAt 7 r
  { onPool [routed 127 159 216] s with mix.plans := tset s.mix.plans 127 p }
/-- A Running playback channel with a block of 48 samples of 5 in staging. -/
def running7 (ds : List Desc) (moved progress at_ : Nat) : Channel :=
  { Channel.reset with state := .running, chain := ds, moved := moved, progress := progress
                       staging := [{ at_ := at_, samples := List.replicate 48 5 }] }
theorem test_wit_StreamBlocks_mixPeriod :
    (∀ r ∈ [{ Channel.reset with state := .starved }, running7 [desc 0 false] 0 0 0, running7 [desc 0 false] 0 0 48],
      let s := playedOut r
      s.reports = [] ∧ s.chan 7 = r ∧ r.lost ≤ max32 ∧ (s.dest 127).kind = .plain ∧ (s.dest 127).slots = []
        ∧ (s.mat.pool.filter fun e => e.dest == 127 && decide (0 < e.heard)).map (fun e => (e.source, e.heard))
            = [(152 + 7, 216)]
        ∧ tget s.mix.plans 127 = { terms := [{ path := .crosspoint, source := 159, gain := some 0 }], level := some 0 }
        ∧ (s.dest 127).level = 216 ∧ tget s.mat.sources 159 = { trim := 216, mute := false, cause := none }
        ∧ tget s.mix.sourceGain 159 = some 0)
    ∧ (let r := running7 [desc 0 false] 0 0 0
       (r.staging.find? fun b => b.at_ == r.moved) = some { at_ := 0, samples := List.replicate 48 5 }
        ∧ (∀ x, x ∈ List.replicate 48 (5 : Int) → -8388608 ≤ x ∧ x ≤ 8388607) ∧ r.progress + 48 < (desc 0 false).length)
    ∧ (let r := running7 [desc 0 false] 0 0 48
       (r.staging.find? fun b => b.at_ == r.moved) = none)
    ∧ ((desc 0 false).length ≤ (running7 [{ desc 0 false with loop := true }] 48 48 48).progress + 48)
    ∧ (running7 [desc 0 true, desc 1 false] 48 48 48).chain = desc 0 true :: [desc 1 false] ∧ (desc 0 true).last = true
    ∧ (running7 [desc 0 false, desc 1 false] 48 48 48).chain = desc 0 false :: [desc 1 false]
    ∧ (∀ n ∈ [0, 3, 4], let s := chanAt 15 (capturing 48 n)
        (s.chan 15).staging.length = n ∧ (s.chan 15).state = .running ∧ (s.chan 15).chain = [desc 0 false]
          ∧ s.writeFaults = [] ∧ s.exch.part ≠ .autonomous ∧ (s.chan 15).lost ≤ max32)
    ∧ (on.exch.part = .running ∧ on.writeFaults = []) := by decide +kernel
/-- A block is played, a head returned with the rest of its chain behind Last, and a full staging overruns. -/
theorem test_mixPeriodChannels :
    tget (after (.mixPeriod []) (playedOut (running7 [desc 0 false] 0 0 0))).mix.finished 127 = List.replicate 48 5
    ∧ ((after (.mixPeriod []) (playedOut (running7 [desc 0 true, desc 1 false] 48 48 48))).chan 7).state = .idle
    ∧ ((after (.mixPeriod []) (chanAt 15 { capturing 48 4 with chain := [desc 0 false, desc 1 false] })).chan 15)
        = { capturing 0 3 with chain := [desc 1 false], progress := 96, lost := 48 } := by decide +kernel

/-! Recall engine. -/

def atEngine (r : Recall) : State := { r0 with engine := r }
def working (x : EngineState) (w : Work) : State := atEngine { Recall.reset with state := x, work := some w }
theorem test_wit_RecallOrders :
    (CarriedOut (.sceneRecall 4) r0 ∧ CarriedOut (.fallbackStore 4) r0 ∧ 4 % 8 ≠ 0)
    ∧ (CarriedOut (.sceneRecall 8) (working .loading .store) ∧ (working .loading .store).engine.state ≠ .idle)
    ∧ (CarriedOut (.sceneRecall 0) r0 ∧ CarriedOut (.fallbackStore 8) r0 ∧ r0.engine.state = .idle)
    ∧ (CarriedOut .sceneAbort r0 ∧ r0.reports = [])
    ∧ (CarriedOut .sceneAbort (working .applying .fallbackRecall) ∧ (working .applying .fallbackRecall).engine.state = .applying)
    ∧ (CarriedOut .sceneAbort (working .suspended .hostRecall) ∧ (working .suspended .hostRecall).engine.state = .suspended
      ∧ (working .suspended .hostRecall).engine.work ≠ some .store
      ∧ (working .suspended .hostRecall).exch.part ≠ .autonomous ∧ NoneArmed (working .suspended .hostRecall))
    ∧ (CarriedOut .sceneAbort (working .loading .store) ∧ (working .loading .store).reports = []
      ∧ (working .loading .store).engine.state = .loading)
    ∧ (CarriedOut .fallbackClear (working .loading .store) ∧ (working .loading .store).engine.work = some .store)
    ∧ (CarriedOut .fallbackClear (working .clearing .hostRecall) ∧ (working .clearing .hostRecall).engine.work ≠ some .store) :=
  ⟨⟨free rfl, free rfl, by decide⟩, ⟨free rfl, by decide +kernel⟩, ⟨free rfl, free rfl, rfl⟩, ⟨free rfl, rfl⟩,
    ⟨free rfl, rfl⟩, ⟨free rfl, rfl, by decide +kernel, by decide +kernel, noneArmed⟩, ⟨free rfl, rfl, rfl⟩,
    ⟨free rfl, rfl⟩,
    free rfl, by decide +kernel⟩
/-- A header: scene 9, merge, the count given, checksum 1. -/
def header (n : Nat) (mode : Byte) : List Byte := [9, 0, mode, 0] ++ u16 n ++ [1, 0] ++ List.replicate 8 0
def lastRead (w : Work) (sum : Nat) (cause : Bool) : State :=
  atEngine { Recall.reset with state := .loading, work := some w, header := some sum, entryCount := 1, allCall := cause }
def step159 (x : EngineState) (n : Nat) : State :=
  atEngine { Recall.reset with
    state := x, work := some .hostRecall, nextDest := n, protectedN := 16, entryCount := 2, buffer := [1, 0] }
theorem test_wit_RecallSteps :
    (r0.reports = [] ∧ r0.exch.part ≠ .autonomous ∧ NoneArmed r0)
    ∧ ((working .loading .hostRecall).engine.state = .loading ∧ (working .loading .hostRecall).engine.header = none
      ∧ (working .loading .hostRecall).engine.work ≠ some .store)
    ∧ ((header 4096 1).length = 16 ∧ leNat (((header 4096 1).drop 4).take 2) = 4096
      ∧ leNat (((header 4096 1).drop 2).take 1) = 1)
    ∧ ((header 4097 2).length = 16 ∧ leNat (((header 4097 2).drop 4).take 2) = 4097
      ∧ leNat (((header 4097 2).drop 2).take 1) = 2)
    ∧ (let s := lastRead .hostRecall 1 false
       s.engine.state = .loading ∧ s.engine.header = some 1 ∧ s.engine.entryCount = s.engine.buffer.length + 1
        ∧ ([1, 0, 0, 0, 0, 0, 0, 0] : List Byte).length = 8 ∧ leNat ([1, 0, 0, 0, 0, 0, 0, 0] : List Byte) = 1
        ∧ (sceneSum (s.engine.buffer ++ [1])).toNat = 1)
    ∧ ((lastRead .store 1 false).engine.work = some .store ∧ (lastRead .hostRecall 2 true).engine.header ≠ some 1
      ∧ (lastRead .hostRecall 1 true).engine.allCall = true)
    ∧ (let r := (step159 .clearing 159).engine
       r.state = .clearing ∧ r.abortRequest = false ∧ 0 < r.protectedN ∧ r.nextDest = 159)
    ∧ (((step159 .clearing 159).dest 159).lock = .free ∧ (fixed.dest 159).lock ≠ .free)
    ∧ (let r := (step159 .applying 160).engine
       r.state = .applying ∧ r.buffer[r.nextEntry]? = some 1 ∧ r.nextEntry + 1 < r.entryCount
        ∧ ((1 : SceneEntry).extractLsb' 0 8).toNat = 1 ∧ ((7 : SceneEntry).extractLsb' 0 8).toNat = 7)
    ∧ (let r := { (step159 .applying 160).engine with nextEntry := 1 }
       r.buffer[r.nextEntry]? = some 0 ∧ r.nextEntry + 1 = r.entryCount ∧ ((0 : SceneEntry).extractLsb' 0 8).toNat = 0)
    ∧ (let r := { (step159 .clearing 0).engine with abortRequest := true }
       r.state = .clearing ∧ r.abortRequest = true)
    ∧ (let r := { (step159 .applying 0).engine with emergency := true, protectedN := 0 }
       r.state = .applying ∧ r.abortRequest = false ∧ r.emergency = true ∧ r.protectedN = 0) := by
  refine ⟨⟨rfl, by decide +kernel, noneArmed⟩, ?_⟩
  decide +kernel

/-- Destination 159, Free, with an entry that holds Scene and a talk count, and one with Route alone. -/
def holdings : State := onPool [{ talked 9 1 with scene := true, routeLevel := 240, keyLevel := 7 }, routed 159 158 216]
  (step159 .clearing 159)
theorem test_wit_RecallSteps_counts : holdings.engine.nextDest = 159 ∧ (holdings.dest 159).lock = .free
    ∧ ∃ e, e ∈ holdings.mat.pool ∧ e.dest = 159 ∧ e.scene = true ∧ 0 < e.talk := by decide +kernel
/-- The entry with a count stays and is heard at its key level. -/
theorem test_clearing : (after .clearingStep holdings).mat.pool = [{ talked 9 1 with keyLevel := 7 }]
    ∧ ({ talked 9 1 with keyLevel := 7 } : PoolEntry).heard = 7 := by decide +kernel

/-- The engine Applying, the entry with these bytes its next one, a cause present in a protected step. -/
def entryAt (bytes : List Byte) (s : State) : State :=
  { s with engine := { Recall.reset with
      state := .applying, work := some .hostRecall, buffer := [BitVec.ofNat 64 (leNat bytes), 0], entryCount := 2
      protectedN := 1, allCall := true } }
theorem test_wit_SceneEntries :
    (∀ bytes ∈ [[2, 47, 255, 240, 0x42, 60, 0xD0, 7], [3, 159, 159], [4, 31, 88, 0], [5, 88, 31, 1, 159, 2, 7, 240], [6, 159]],
      let s := entryAt bytes r0
      s.reports = [] ∧ s.exch.part ≠ .autonomous ∧ (∀ c, c < 16 → (s.chan c).state ≠ .armed) ∧ s.engine.state = .applying
        ∧ s.engine.abortRequest = false ∧ s.engine.allCall = true ∧ 0 < s.engine.protectedN
        ∧ s.engine.buffer[s.engine.nextEntry]? = some (BitVec.ofNat 64 (leNat bytes))
        ∧ s.engine.nextEntry + 1 < s.engine.entryCount)
    ∧ (let e : SceneEntry := BitVec.ofNat 64 (leNat ([2, 47, 255, 240, 0x42, 60, 0xD0, 7] : List Byte))
       let b (i : Nat) : Nat := (e.extractLsb' (8 * i) 8).toNat
       b 0 = 2 ∧ b 1 = 47 ∧ b 4 % 4 = 2 ∧ b 4 / 16 % 8 = 4 ∧ b 6 + 256 * b 7 = 2000)
    ∧ ((asked.rec_ 23).depth ≠ 4 ∧ (asked.rec_ 23).ints ≠ [] ∧ (bound.rec_ 23).depth ≠ 4 ∧ (bound.rec_ 23).ints = []
      ∧ (bound.rec_ 23).pends = [])
    ∧ (recordOf bound 126 = none ∧ recordOf bound 127 = some 23)
    ∧ (let s := deskLine [{ key := ⟨88, 31⟩, timer := none }] (deskKey { keyFor .lineTalk .momentary 31 with
         pressed := true, state := .talking, held := some (.line 31 none) })
       memberOf (s.line 31) 88 = some { station := 88, talk := true, listen := false, slot := none }
        ∧ 31 < stationKeys 88 ∧ (s.key 88 31).held = some (.line 31 none))
    ∧ ((talking.key 88 31).state ≠ .idle ∧ (r0.key 88 31).state = .idle ∧ (r0.key 88 31).listening = false)
    ∧ ((fixed.dest 159).lock ≠ .free ∧ (r0.dest 159).lock = .free) := by decide +kernel

end Sys2Proof.Tests
end

section
/-!
Orders of the crosspoint pool and of the destination records: ROUTE.CLEAR, ROUTE.CLEARDEST (R14, R19, R20) and
DEST.CONFIG (R8).
-/
namespace Sys2Proof.Laws

open Machine Sys2Proof.Stmt Sys2Proof.Inv

/-! ### An order that is carried out -/

/-- The row of an order that is carried out has the effect of the order's body, and finishes with its result. -/
theorem runOrder_of_carriedOut {i : Instr} {s : State} (h : CarriedOut i s) (body : State → Result × State) :
    runOrder i body s = finished (body s).1 (body s).2 s := by
  obtain ⟨hnone, hpart⟩ | ⟨k, hsome⟩ := h
  · simp [runOrder, finished, hnone, hpart]
  · simp [runOrder, finished, hsome]

theorem exec_routeClear {d src : Nat} {s : State} (h : CarriedOut (.routeClear d src) s) :
    exec (.routeClear d src) s
      = .next (finished (orderRouteClear d src s).1 (orderRouteClear d src s).2 s) :=
  congrArg Host.Outcome.next (runOrder_of_carriedOut h _)

theorem exec_routeClearDest {d : Nat} {s : State} (h : CarriedOut (.routeClearDest d) s) :
    exec (.routeClearDest d) s
      = .next (finished (orderRouteClearDest d s).1 (orderRouteClearDest d s).2 s) :=
  congrArg Host.Outcome.next (runOrder_of_carriedOut h _)

theorem exec_destConfig {d : Nat} {level limit : Option Nat} {s : State} (h : CarriedOut (.destConfig d level limit) s) :
    exec (.destConfig d level limit) s
      = .next (finished (orderDestConfig d level limit s).1 (orderDestConfig d level limit s).2 s) :=
  congrArg Host.Outcome.next (runOrder_of_carriedOut h _)

/-! ### Checks -/

theorem portOk_iff (v : Nat) : portOk v = true ↔ v < 160 := by simp [portOk]

theorem portOk_eq_false_iff (v : Nat) : portOk v = false ↔ 159 < v := by
  rw [← Bool.not_eq_true, portOk_iff]
  omega

theorem locked_iff (s : State) (d : Nat) : s.locked d = true ↔ (s.dest d).lock ≠ .free := by simp [State.locked]

theorem locked_eq_false_iff (s : State) (d : Nat) : s.locked d = false ↔ (s.dest d).lock = .free := by
  simp [State.locked]

theorem presentOk_iff (p : Nat → Bool) (x : Option Nat) : presentOk p x = true ↔ ∀ v, x = some v → p v = true := by
  cases x <;> simp [presentOk]

/-! ### Removed holdings in the pool -/

theorem findEntry_pair {pool : List PoolEntry} {d src : Nat} {e : PoolEntry} (h : findEntry pool d src = some e) :
    e.dest = d ∧ e.source = src := by
  simpa [isPair_iff] using List.find?_some h

theorem findEntry_alive {pool : List PoolEntry} (hp : PoolOk pool) {d src : Nat} {e : PoolEntry}
    (h : findEntry pool d src = some e) : e.alive = true := by
  obtain ⟨-, -, halive, -⟩ := hp.1 e (List.mem_of_find?_eq_some h)
  exact halive

/-- Without its holdings an entry is present exactly while a count is left (R12). -/
theorem clearHolds_alive_iff (e : PoolEntry) : e.clearHolds.alive = true ↔ ¬(e.talk = 0 ∧ e.listen = 0) := by
  simp [PoolEntry.alive, PoolEntry.clearHolds, Nat.pos_iff_ne_zero, imp_iff_not_or]

/-- Without its holdings an entry is heard at its key level (R13). -/
theorem clearHolds_heard (e : PoolEntry) : e.clearHolds.heard = e.keyLevel := by
  simp [PoolEntry.heard, PoolEntry.holds, PoolEntry.clearHolds]

/-- A pair whose entry is not chosen keeps it. -/
theorem clearEntries_find_unchosen {pool : List PoolEntry} (hp : PoolOk pool) {p : PoolEntry → Bool} {d src : Nat}
    (hno : ∀ e, findEntry pool d src = some e → p e = false) :
    findEntry (clearEntries p pool) d src = findEntry pool d src := by
  rw [clearEntries_find hp]
  cases hf : findEntry pool d src with
  | none => rfl
  | some e => simp [hno e hf, filter_alive, findEntry_alive hp hf]

/-- A pair whose entry is chosen keeps it only while a count is left, and then without its holdings. -/
theorem clearEntries_find_chosen {pool : List PoolEntry} (hp : PoolOk pool) {p : PoolEntry → Bool} {d src : Nat}
    {e : PoolEntry} (hf : findEntry pool d src = some e) (hyes : p e = true) :
    findEntry (clearEntries p pool) d src = if e.talk = 0 ∧ e.listen = 0 then none else some e.clearHolds := by
  rw [clearEntries_find hp, hf, Option.map_some, if_pos hyes, filter_alive]
  simp only [clearHolds_alive_iff, ite_not]

/-- The pairs left are pairs of the old pool, in its order. -/
theorem clearEntries_pairs_sublist (p : PoolEntry → Bool) (pool : List PoolEntry) :
    ((clearEntries p pool).map fun e => (e.dest, e.source)).Sublist (pool.map fun e => (e.dest, e.source)) := by
  have hsame : ((pool.map fun e => if p e then e.clearHolds else e).map fun e => (e.dest, e.source))
      = pool.map fun e => (e.dest, e.source) := by
    rw [List.map_map]
    refine List.map_congr_left fun e _ => ?_
    obtain ⟨hd, hs⟩ := clear_pairs p e
    exact Prod.ext hd hs
  exact hsame ▸ List.filter_sublist.map _

/-- What removing the holdings of pair `(d, src)` leaves of it: nothing where no count is left, else the entry without its
holdings, heard at its key level (R14). -/
def Cleared (old new : List PoolEntry) (d src : Nat) : Prop :=
  match findEntry old d src with
  | none => findEntry new d src = none
  | some e =>
    if e.talk = 0 ∧ e.listen = 0 then findEntry new d src = none
    else ∃ e', findEntry new d src = some e' ∧ e' = { e with route := false, scene := false, routeLevel := 0 }
      ∧ e'.heard = e.keyLevel

theorem clearEntries_cleared {pool : List PoolEntry} (hp : PoolOk pool) {p : PoolEntry → Bool} {d src : Nat}
    (hyes : ∀ e, findEntry pool d src = some e → p e = true) : Cleared pool (clearEntries p pool) d src := by
  unfold Cleared
  cases hf : findEntry pool d src with
  | none => simp [clearEntries_find hp, hf]
  | some e =>
    rw [clearEntries_find_chosen hp hf (hyes e hf)]
    by_cases hcount : e.talk = 0 ∧ e.listen = 0
    · simp [hcount]
    · simp only [if_neg hcount]
      exact ⟨_, rfl, rfl, clearHolds_heard e⟩

/-! ### ROUTE.CLEAR -/

theorem orderRouteClear_badValue {d src : Nat} (h : 159 < d ∨ 159 < src) (s : State) :
    orderRouteClear d src s = ({ code := .badValue, values := u8 0 ++ u8 0 ++ u16 s.mat.pool.length }, s) := by
  have hport : (!portOk d || !portOk src) = true := by simpa [portOk_eq_false_iff] using h
  rw [orderRouteClear, if_pos hport]

theorem orderRouteClear_locked {d src : Nat} {s : State} (hd : d < 160) (hs : src < 160)
    (hl : (s.dest d).lock ≠ .free) : ∃ v, orderRouteClear d src s = ({ code := .locked, values := v }, s) := by
  have hclaim : claimRemove d src s = (.locked, s) := if_pos ((locked_iff s d).2 hl)
  exact ⟨_, by simp only [orderRouteClear, (portOk_iff d).2 hd, (portOk_iff src).2 hs, hclaim]; rfl⟩

/-- On a destination that is Free the result says whether the pair was held, whether its entry went, and how many entries
are left (R19). -/
theorem orderRouteClear_free {d src : Nat} {s : State} (hd : d < 160) (hs : src < 160)
    (hl : (s.dest d).lock = .free) :
    let pool := clearEntries (PoolEntry.isPair d src) s.mat.pool
    orderRouteClear d src s
      = ({ code := .done
           values := uFlag ((findEntry s.mat.pool d src).any PoolEntry.holds)
             ++ uFlag ((findEntry s.mat.pool d src).isSome && (findEntry pool d src).isNone) ++ u16 pool.length },
          s.withPool pool) := by
  have hclaim : claimRemove d src s = (.done, s.withPool (clearEntries (PoolEntry.isPair d src) s.mat.pool)) :=
    if_neg (by simp [(locked_eq_false_iff s d).2 hl])
  simp only [orderRouteClear, (portOk_iff d).2 hd, (portOk_iff src).2 hs, hclaim]
  cases findEntry s.mat.pool d src <;> rfl

/-! ### ROUTE.CLEARDEST -/

theorem orderRouteClearDest_badValue {d : Nat} (h : 159 < d) (s : State) :
    orderRouteClearDest d s = ({ code := .badValue, values := u8 0 ++ u8 0 ++ u16 s.mat.pool.length }, s) := by
  have hport : (!portOk d) = true := by simpa [portOk_eq_false_iff] using h
  rw [orderRouteClearDest, if_pos hport]

theorem orderRouteClearDest_locked {d : Nat} {s : State} (hd : d < 160) (hl : (s.dest d).lock ≠ .free) :
    ∃ v, orderRouteClearDest d s = ({ code := .locked, values := v }, s) := by
  have hclaim : claimRemoveDest d s = (.locked, s) := if_pos ((locked_iff s d).2 hl)
  exact ⟨_, by simp only [orderRouteClearDest, (portOk_iff d).2 hd, hclaim]; rfl⟩

/-- On a destination that is Free the result counts the pairs that were held, the entries gone and those left (R20). -/
theorem orderRouteClearDest_free {d : Nat} {s : State} (hd : d < 160) (hl : (s.dest d).lock = .free) :
    let pool := clearEntries (fun e => e.dest == d) s.mat.pool
    orderRouteClearDest d s
      = ({ code := .done
           values := u8 (s.mat.pool.filter fun e => e.dest == d && e.holds).length
             ++ u8 (s.mat.pool.length - pool.length) ++ u16 pool.length },
          s.withPool pool) := by
  have hclaim : claimRemoveDest d s = (.done, s.withPool (clearEntries (fun e => e.dest == d) s.mat.pool)) :=
    if_neg (by simp [(locked_eq_false_iff s d).2 hl])
  simp only [orderRouteClearDest, (portOk_iff d).2 hd, hclaim]
  rfl

/-! ### DEST.CONFIG -/

/-- A value of DEST.CONFIG out of its range (Table 1-4). -/
def DestConfigBad (d : Nat) (level limit : Option Nat) : Prop :=
  159 < d ∨ (∃ v, level = some v ∧ 240 < v) ∨ (∃ v, limit = some v ∧ (v = 0 ∨ 24 < v))

/-- The three range checks pass exactly where no value is out of range. -/
theorem destConfig_checks_iff (d : Nat) (level limit : Option Nat) :
    (portOk d = true ∧ presentOk levelOk level = true
        ∧ presentOk (fun n => decide (1 ≤ n) && decide (n ≤ 24)) limit = true)
      ↔ ¬DestConfigBad d level limit := by
  simp only [DestConfigBad, portOk_iff, presentOk_iff, levelOk, Bool.and_eq_true, decide_eq_true_eq, not_or, not_exists,
    not_and, Nat.not_lt, Nat.lt_succ_iff, Nat.one_le_iff_ne_zero, ne_eq]

theorem orderDestConfig_badValue {d : Nat} {level limit : Option Nat} (h : DestConfigBad d level limit) (s : State) :
    orderDestConfig d level limit s = (bare .badValue, s) := by
  unfold orderDestConfig
  split
  · rfl
  split
  · rfl
  split
  · rfl
  next hport hlevel hlimit =>
    simp only [Bool.not_eq_true', Bool.not_eq_false] at hport hlevel hlimit
    exact absurd h ((destConfig_checks_iff d level limit).1 ⟨hport, hlevel, hlimit⟩)

/-- Past the range checks, a lock refuses only an output level. -/
theorem orderDestConfig_of_not_bad {d : Nat} {level limit : Option Nat} (h : ¬DestConfigBad d level limit) (s : State) :
    orderDestConfig d level limit s =
      if level.isSome && s.locked d then (bare .locked, s)
      else (bare .done, s.withDest d { s.dest d with
        level := level.getD (s.dest d).level, limit := limit.getD (s.dest d).limit }) := by
  obtain ⟨hport, hlevel, hlimit⟩ := (destConfig_checks_iff d level limit).2 h
  simp only [orderDestConfig, hport, hlevel, hlimit]
  rfl

theorem destConfig_refused_iff (level : Option Nat) (s : State) (d : Nat) :
    (level.isSome && s.locked d) = true ↔ level ≠ none ∧ (s.dest d).lock ≠ .free := by
  rw [Bool.and_eq_true, locked_iff, Option.isSome_iff_ne_none]

/-- A record written as it stands changes no table. -/
theorem tset_tget {α : Type} {n : Nat} [Inhabited α] (v : Vector α n) {i : Nat} (h : i < n) :
    tset v i (tget v i) = v := by
  simp [tset, tget, h]

theorem withDest_dest {d : Nat} (hd : d < 160) (s : State) : s.withDest d (s.dest d) = s := by
  simp [State.withDest, State.dest, tset_tget _ hd]

/-! ### The obligations -/

/-- Settles O25, by the checks in their order: the range checks, then the lock. -/
theorem destConfigWrites : Obligations.DestConfigWrites := by
  intro d level limit s hcarried bad locked
  rw [exec_destConfig hcarried]
  have done (hb : ¬bad) (hl : ¬locked) : orderDestConfig d level limit s = (bare .done, s.withDest d { s.dest d with
      level := level.getD (s.dest d).level, limit := limit.getD (s.dest d).limit }) := by
    rw [orderDestConfig_of_not_bad hb, if_neg (mt (destConfig_refused_iff level s d).1 hl)]
  refine ⟨fun hb => ?_, fun hb hl => ?_, fun hb hl => ?_, fun hd hlevel hlimit => ?_⟩
  · rw [orderDestConfig_badValue hb]
  · rw [orderDestConfig_of_not_bad hb, if_pos ((destConfig_refused_iff level s d).2 hl)]
  · rw [done hb hl]
    rfl
  · have hb : ¬bad := by
      simp only [bad, hlevel, hlimit, reduceCtorEq, false_and, exists_false, or_false]
      omega
    rw [done hb fun hl => hl.1 hlevel]
    simp only [hlevel, hlimit, Option.getD_none, withDest_dest hd]

/-- Settles O23, by what `clearEntries` leaves of each pair of the pool. -/
theorem routeClears : Obligations.RouteClears := by
  intro d src s hp cleared held ordered
  refine ⟨fun hcarried => ?_, fun hcarried => ?_⟩
  · rw [exec_routeClear hcarried]
    refine ⟨fun hbad => ?_, fun hd hs hl => ?_, fun hd hs hl => ?_⟩
    · exact ⟨_, by rw [orderRouteClear_badValue hbad]⟩
    · obtain ⟨v, hv⟩ := orderRouteClear_locked hd hs hl
      exact ⟨v, by rw [hv]⟩
    · have hheld : held src = (findEntry s.mat.pool d src).any PoolEntry.holds := by
        simp only [held]
        cases findEntry s.mat.pool d src <;> rfl
      let pool := clearEntries (PoolEntry.isPair d src) s.mat.pool
      refine ⟨pool, (findEntry s.mat.pool d src).isSome && (findEntry pool d src).isNone, ?_, ?_, ?_, ?_, ?_⟩
      · rw [orderRouteClear_free hd hs hl, hheld]
        rfl
      · simp [Option.isSome_iff_ne_none]
      · exact clearEntries_cleared hp fun e he => List.find?_some he
      · exact clearEntries_pairs_sublist _ _
      · intro d' x hne
        refine clearEntries_find_unchosen hp fun e he => ?_
        obtain ⟨rfl, rfl⟩ := findEntry_pair he
        exact Bool.eq_false_iff.2 fun hpair => hne ((isPair_iff d src e).1 hpair)
  · rw [exec_routeClearDest hcarried]
    refine ⟨fun hbad => ?_, fun hd hl => ?_, fun hd hl => ?_⟩
    · exact ⟨_, by rw [orderRouteClearDest_badValue hbad]⟩
    · obtain ⟨v, hv⟩ := orderRouteClearDest_locked hd hl
      exact ⟨v, by rw [hv]⟩
    · refine ⟨clearEntries (fun e => e.dest == d) s.mat.pool, ?_, fun x => ?_, ?_, fun d' x hne => ?_⟩
      · rw [orderRouteClearDest_free hd hl]
        rfl
      · exact clearEntries_cleared hp fun e he => beq_iff_eq.2 (findEntry_pair he).1
      · exact clearEntries_pairs_sublist _ _
      · refine clearEntries_find_unchosen hp fun e he => ?_
        obtain ⟨rfl, -⟩ := findEntry_pair he
        exact beq_eq_false_iff_ne.2 hne

end Sys2Proof.Laws
end

section
/-!
The place of a request in a foldback record (R38): what `FoldRec.place` answers in each of its cases.
-/
namespace Sys2Proof.Laws

open Machine Sys2Proof.Inv

/-! ### The last entry of a list in order -/

theorem before_irrefl (x : FoldEntry) : x.before x = false := by simp [FoldEntry.before]

theorem getLast_not_before {l : List FoldEntry} {last x : FoldEntry} (h : InOrder l)
    (hlast : l.getLast? = some last) (hx : x ∈ l) : last.before x = false := by
  obtain ⟨front, rfl⟩ := List.getLast?_eq_some_iff.1 hlast
  rcases List.mem_append.1 hx with hfront | hend
  · exact (List.pairwise_append.1 h).2.2 x hfront last (List.mem_singleton_self last)
  · rw [List.mem_singleton.1 hend]
    exact before_irrefl last

theorem getLast?_of_length_pos {l : List FoldEntry} (h : 0 < l.length) : ∃ last, l.getLast? = some last :=
  ⟨_, List.getLast?_eq_some_getLast (List.ne_nil_of_length_pos h)⟩

/-! ### The pending list brought back to 8 -/

theorem trim_of_length_le {f : FoldRec} (fuel : Nat) (h : f.pends.length ≤ 8) : f.trim fuel = (f, []) := by
  cases fuel with
  | zero => rfl
  | succ fuel => rw [FoldRec.trim, if_neg (Nat.not_lt.2 h)]

theorem trim_one_of_lt_length {f : FoldRec} {out : FoldEntry} (h : 8 < f.pends.length)
    (hout : f.pends.getLast? = some out) :
    f.trim 1 = ({ f with pends := f.pends.dropLast }, [(out, .dropped .noRoom)]) := by
  simp only [FoldRec.trim, if_pos h, hout]

/-! ### The cases of a placing -/

theorem place_of_room {f : FoldRec} (e : FoldEntry) (h : f.ints.length < f.depth) :
    f.place e = ({ f with ints := e.insert f.ints }, [(e, .entered)]) := by
  rw [FoldRec.place, if_pos h]

section
variable {f : FoldRec} {e last : FoldEntry} (hfull : f.ints.length = f.depth) (hlast : f.ints.getLast? = some last)
include hfull hlast

/-- The request stands over the last entry, whose own place is then in the pending list. -/
theorem place_preempts (hcls : e.cls < last.cls) :
    let trimmed := FoldRec.trim 1 { f with ints := e.insert f.ints.dropLast, pends := last.insert f.pends }
    f.place e = (trimmed.1, (last, .movedOut) :: (e, .entered) :: trimmed.2) := by
  simp only [FoldRec.place, hfull, Nat.lt_irrefl, if_false, hlast, if_pos hcls]

theorem place_preempts_kept (hcls : e.cls < last.cls) (hroom : (last.insert f.pends).length ≤ 8) :
    f.place e = ({ f with ints := e.insert f.ints.dropLast, pends := last.insert f.pends },
      [(last, .movedOut), (e, .entered)]) := by
  rw [place_preempts hfull hlast hcls, trim_of_length_le 1 hroom]

theorem place_preempts_dropped {out : FoldEntry} (hcls : e.cls < last.cls)
    (hninth : 8 < (last.insert f.pends).length) (hout : (last.insert f.pends).getLast? = some out) :
    f.place e = ({ f with ints := e.insert f.ints.dropLast, pends := (last.insert f.pends).dropLast },
      [(last, .movedOut), (e, .entered), (out, .dropped .noRoom)]) := by
  rw [place_preempts hfull hlast hcls, trim_one_of_lt_length hninth hout]

theorem place_parks (hcls : last.cls ≤ e.cls) (hroom : f.pends.length < 8) :
    f.place e = ({ f with pends := e.insert f.pends }, [(e, .parked)]) := by
  simp only [FoldRec.place, hfull, Nat.lt_irrefl, if_false, hlast, if_neg (Nat.not_lt.2 hcls), if_pos hroom]

theorem place_refuses (hcls : last.cls ≤ e.cls) (hno : 8 ≤ f.pends.length) :
    f.place e = (f, [(e, .refused .noRoom)]) := by
  simp only [FoldRec.place, hfull, Nat.lt_irrefl, if_false, hlast, if_neg (Nat.not_lt.2 hcls),
    if_neg (Nat.not_lt.2 hno)]

end

/-! ### The obligation -/

/-- Settles O33, by the room in the interrupt list, then by class against its last entry, then by the room in the
pending list. -/
theorem interruptPlacing : Obligations.InterruptPlacing := by
  intro e f hdepth _ _ hints _
  refine ⟨fun l hl => ⟨insert_perm e l, insert_inOrder e hl⟩, place_of_room e, fun hfull => ?_⟩
  obtain ⟨last, hlast⟩ := getLast?_of_length_pos (l := f.ints) (by omega)
  refine ⟨last, hlast, fun x hx => getLast_not_before hints hlast hx, fun hcls => ?_, fun hcls => ?_⟩
  · refine ⟨place_preempts_kept hfull hlast hcls, fun hninth => ?_⟩
    obtain ⟨out, hout⟩ := getLast?_of_length_pos (l := last.insert f.pends) (Nat.zero_lt_of_lt hninth)
    exact ⟨out, hout, place_preempts_dropped hfull hlast hcls hninth hout⟩
  · exact ⟨place_parks hfull hlast hcls, place_refuses hfull hlast hcls⟩

end Sys2Proof.Laws
end

section
/-!
The locks of the destinations: the checks of LOCK.SET and LOCK.CLEAR in their order, then the lock written (R171).
-/
namespace Sys2Proof.Laws

open Machine Sys2Proof.Stmt

theorem exec_lockSet {d lock : Nat} {s : State} (h : CarriedOut (.lockSet d lock) s) :
    exec (.lockSet d lock) s = .next (finished (orderLockSet d lock s).1 (orderLockSet d lock s).2 s) :=
  congrArg Host.Outcome.next (runOrder_of_carriedOut h _)

theorem exec_lockClear {d : Nat} {s : State} (h : CarriedOut (.lockClear d) s) :
    exec (.lockClear d) s = .next (finished (orderLockClear d s).1 (orderLockClear d s).2 s) :=
  congrArg Host.Outcome.next (runOrder_of_carriedOut h _)

/-! ### LOCK.SET -/

theorem lockOf_eq_none {lock : Nat} (hheld : lock ≠ 1) (hfixed : lock ≠ 2) : lockOf lock = none := by
  unfold lockOf
  split
  · contradiction
  · contradiction
  · rfl

theorem orderLockSet_badDest {d : Nat} (h : 159 < d) (lock : Nat) (s : State) :
    orderLockSet d lock s = failWith .badValue s := by
  simp only [orderLockSet, (portOk_eq_false_iff d).2 h, Bool.not_false, if_true]

section
variable {d : Nat} (hd : d < 160) {s : State}
include hd

theorem orderLockSet_badLock {lock : Nat} (h : lockOf lock = none) :
    orderLockSet d lock s = (one .badValue (s.dest d).lock.ctorIdx, s) := by
  simp only [orderLockSet, (portOk_iff d).2 hd, h]
  rfl

theorem orderLockSet_suspended {lock : Nat} {l : Lock} (h : lockOf lock = some l) (hsusp : s.engine.state = .suspended) :
    orderLockSet d lock s = (one .suspended (s.dest d).lock.ctorIdx, s) := by
  simp only [orderLockSet, (portOk_iff d).2 hd, h, if_pos hsusp]
  rfl

/-- Past the engine's check only Held on a Fixed destination is refused. -/
theorem orderLockSet_of_not_suspended {lock : Nat} {l : Lock} (h : lockOf lock = some l)
    (hsusp : s.engine.state ≠ .suspended) :
    orderLockSet d lock s =
      if l = .held ∧ (s.dest d).lock = .fixed then (one .locked (s.dest d).lock.ctorIdx, s)
      else (one .done l.ctorIdx, s.withDest d { s.dest d with lock := l }) := by
  simp only [orderLockSet, (portOk_iff d).2 hd, h, if_neg hsusp]
  rfl

end

/-! ### LOCK.CLEAR -/

theorem orderLockClear_badDest {d : Nat} (h : 159 < d) (s : State) :
    orderLockClear d s = failWith .badValue s := by
  simp only [orderLockClear, (portOk_eq_false_iff d).2 h, Bool.not_false, if_true]

theorem orderLockClear_suspended {d : Nat} (hd : d < 160) {s : State} (hsusp : s.engine.state = .suspended) :
    orderLockClear d s = (one .suspended (s.dest d).lock.ctorIdx, s) := by
  simp only [orderLockClear, (portOk_iff d).2 hd, if_pos hsusp]
  rfl

/-- Past the engine's check only a Fixed destination refuses. -/
theorem orderLockClear_of_not_suspended {d : Nat} (hd : d < 160) {s : State}
    (hsusp : s.engine.state ≠ .suspended) :
    orderLockClear d s =
      if (s.dest d).lock = .fixed then (one .locked (s.dest d).lock.ctorIdx, s)
      else (one .done 0, s.withDest d { s.dest d with lock := .free }) := by
  simp only [orderLockClear, (portOk_iff d).2 hd, if_neg hsusp]
  rfl

/-! ### The obligation -/

/-- Settles O26, by the checks of R171 in their order: the operands, the engine's state, the lock that stands. -/
theorem lockOrders : Obligations.LockOrders := by
  intro d lock s
  dsimp only
  refine ⟨fun hcarried => ?_, fun hcarried => ?_⟩
  · rw [exec_lockSet hcarried]
    refine ⟨fun hbad => ?_, fun hd hheld hfixed => ?_, fun hd hlock hsusp => ?_, fun hd hsusp => ⟨?_, ?_, ?_⟩⟩
    · exact ⟨_, by rw [orderLockSet_badDest hbad]; rfl⟩
    · rw [orderLockSet_badLock hd (lockOf_eq_none hheld hfixed)]
    · obtain rfl | rfl := hlock
      · rw [orderLockSet_suspended hd (l := .held) rfl hsusp]
      · rw [orderLockSet_suspended hd (l := .fixed) rfl hsusp]
    · rintro rfl hnow
      rw [orderLockSet_of_not_suspended hd (l := .held) rfl hsusp, if_pos ⟨rfl, hnow⟩, hnow]
      rfl
    · rintro rfl hnow
      rw [orderLockSet_of_not_suspended hd (l := .held) rfl hsusp, if_neg fun h => hnow h.2]
      rfl
    · rintro rfl
      rw [orderLockSet_of_not_suspended hd (l := .fixed) rfl hsusp, if_neg fun h => nomatch h.1]
      rfl
  · rw [exec_lockClear hcarried]
    refine ⟨fun hbad => ?_, fun hd hsusp => ?_, fun hd hsusp => ⟨fun hnow => ?_, fun hnow => ?_⟩⟩
    · exact ⟨_, by rw [orderLockClear_badDest hbad]; rfl⟩
    · rw [orderLockClear_suspended hd hsusp]
    · rw [orderLockClear_of_not_suspended hd hsusp, if_pos hnow, hnow]
      rfl
    · rw [orderLockClear_of_not_suspended hd hsusp, if_neg hnow]
      rfl

end Sys2Proof.Laws
end
